-- ==== Sys2Proof/Word.lean ====
section
/-!
DEFINITION. The word types of the CZ-940 (spec/00_scope.md R1: bit 0 is the least significant bit of any word).
-/
namespace Sys2Proof

/-- A byte, the smallest addressable unit (R29). -/
abbrev Byte := BitVec 8

/-- A 32-bit word: a register, a code pointer, a memory word (R29, R48). -/
abbrev Word := BitVec 32

/-- A 64-bit value: an address, a register pair, a bypass latch (R49). -/
abbrev Dword := BitVec 64

/-- Sparse data by key: a list of (key, value) pairs, keys strictly rising (Machine/FMap.lean reads and writes it). -/
abbrev FMap (α : Type) := List (Nat × α)

end Sys2Proof
end

