-- ==== Sys2Proof/Syntax.lean ====
section
/-!
DEFINITION. The instructions and the steps of the CZ-940: one constructor of Instr per row of spec/opcode_table.json.
The first 187 rows are Skashalu instructions (spec/03_formats_opcodes.md, R43 to R66); the other rows are steps that the
machine takes by itself or on an input from outside (spec/02_ordering_machine.md R32 and the engine chapters): their
arguments name the instance of the step, and hold what comes from outside where the step is an input.
-/
namespace Sys2Proof

/-- Operand kinds (R48). -/
inductive OpKind where
  /-- kind 00: v0 to v255, or a bypass latch -/
  | vec
  /-- kind 01: s0 to s63 -/
  | scl
  /-- kind 10: IMM8 or the literal -/
  | imm
  /-- kind 11: p, x, cv, gd, om -/
  | spc
  deriving DecidableEq, Repr

/-- A decoded operand: its kind, its full 8-bit code, whether it is a bypass latch, whether XI indirects it (R48, R53). -/
structure Opnd where
  kind : OpKind
  code : BitVec 8
  latch : Bool
  ind : Bool
  deriving DecidableEq, Repr

/-- A guard (R56): the predicate and whether it is negated. -/
structure Guard where
  p : BitVec 3
  neg : Bool
  deriving DecidableEq, Repr

/-- The three-operand B shape of the register class (R44, R47). -/
structure BForm where
  w : Bool
  d : BitVec 7
  a : BitVec 7
  b : BitVec 7
  deriving DecidableEq, Repr

/-- The B shape of an instruction with no second source. -/
structure BUnary where
  w : Bool
  d : BitVec 7
  a : BitVec 7
  deriving DecidableEq, Repr

/-- The E and E+L shapes of the register class (R45, R46, R57). lit is the literal of the E+L shape. -/
structure EForm where
  lit : Option Dword
  w : Bool
  guard : Guard
  sub : BitVec 4
  rm : BitVec 3
  sat : Bool
  d : Opnd
  a : Opnd
  b : Opnd
  c : Opnd
  xs : BitVec 2
  sa : BitVec 3
  sb : BitVec 3
  imm8 : BitVec 8
  deriving DecidableEq, Repr

/-- The E and E+L shapes of the memory class (R58): the register class's fields, cache hint, index scale, ordering kind and
displacement bits [11:8]. -/
structure MForm where
  e : EForm
  ch : BitVec 2
  sc : BitVec 2
  ok : BitVec 2
  dx : BitVec 4
  deriving DecidableEq, Repr

/-- Where a direct terminator goes (R62): a word offset in the E shape, an absolute literal in B+L or E+L. -/
inductive CTarget where
  | rel (off : BitVec 26)
  | absB (lit : Dword)
  | absE (lit : Dword)
  deriving DecidableEq, Repr

/-- The E, B+L and E+L shapes of a direct terminator (R59, R62). c is the C field of R62 (CP and CN, or KEEP). -/
structure CForm where
  guard : Guard
  c : BitVec 8
  tgt : CTarget
  deriving DecidableEq, Repr

/-- The E shape of jmpi and calli (R59). -/
structure JForm where
  guard : Guard
  a : BitVec 8
  latch : Bool
  deriving DecidableEq, Repr

/-- The E shape of ret, exit, trap and brk (R62): the guard and the C field. -/
structure XForm where
  guard : Guard
  c : BitVec 8
  deriving DecidableEq, Repr

/-- The engine class (R60), with full 8-bit codes. -/
structure GForm where
  guard : Guard
  sub : BitVec 4
  rm : BitVec 3
  sat : Bool
  d : BitVec 8
  a : BitVec 8
  b : BitVec 8
  c : BitVec 8
  n6 : BitVec 6
  m2 : BitVec 2
  gs : BitVec 4
  gp : Bool
  ge : Bool
  cv : BitVec 4
  imm8 : BitVec 8
  deriving DecidableEq, Repr

/-- The endpoints of the fabric (R28). -/
inductive Endpoint where
  | lse (core : Nat)
  | mxe (core : Nat)
  | copy (core : Nat)
  | starter (cluster : Nat)
  | part (p : Nat)
  | port (p : Nat)
  | mgmt
  deriving DecidableEq, Repr

/-- A fabric lane F(s, d, h) (R28). -/
structure LaneId where
  src : Endpoint
  dst : Endpoint
  hash : Nat
  deriving DecidableEq, Repr

/-- The engines with a command queue EQ(e) (R28). -/
inductive EngineId where
  | mxe (core : Nat)
  | copy (core : Nat)
  | starter (cluster : Nat)
  deriving DecidableEq, Repr

/-- A core view V1(c) or a cluster view V2(k) (R28). -/
inductive ViewId where
  | v1 (core : Nat)
  | v2 (cluster : Nat)
  deriving DecidableEq, Repr

/-- A barrier: the group of a launch, and the gang whose instance it is for a group that lies in one gang (R190, R451). -/
structure BarId where
  lid : Nat
  grp : Nat
  gang : Option Nat
  deriving DecidableEq, Repr

/-- An OHP message (R471): the port it arrived at, the fabric address it came from (R474), its header and its payload. -/
structure OhpHdr where
  port : Nat
  endpoint : Nat
  head : BitVec 256
  payload : List Byte
  deriving DecidableEq, Repr

/-- One register that the fault service writes before a release (R148): the slot, and the register. -/
inductive RegName where
  | v (n : Nat)
  | p (n : Nat)
  | x (n : Nat)
  | lfsr
  deriving DecidableEq, Repr

/-- A release (R148): the core, the park set, the action, the header address of action 1, and the registers the service
writes first. -/
structure ReleaseReq where
  core : Nat
  pset : Nat
  action : Nat
  header : Dword
  regs : List (Nat × RegName × Word)
  deriving DecidableEq, Repr

/-- A transport destination (R229, R470). -/
inductive Dest where
  | peer (dev : Nat)
  | host
  deriving DecidableEq, Repr

/-- The range of a maintenance command (R234): an ASID or global, and a virtual range. -/
structure PageRange where
  asid : Nat
  glb : Bool
  va : Nat
  len : Nat
  deriving DecidableEq, Repr

/-- The steps of a maintenance command (R234): step 1 blocks, steps 2 to 4 remove lines and translations, step 5 unblocks. -/
inductive MaintPhase where
  | block
  | drop
  | unblock
  deriving DecidableEq, Repr

/-- The steps in which Tsunath migrates a far page (R234): 1 absent with the command, 2 the copy of one page line by line
arrives as data, 3 local at pa with the command. -/
inductive MigPhase where
  | take
  | copy (pa : Nat) (bytes : List Byte)
  | finish (pa : Nat)
  deriving DecidableEq, Repr

/-- Where Tsunath puts one crew of a gang (R433, R434): the crew, the core, the bind record, the rows of its cohorts in
logical order, the scratchpad base in 2 KiB units and the commit record. -/
structure PlaceReq where
  crew : Nat
  core : Nat
  bind : Nat
  rows : List Nat
  sbase : Nat
  gcr : Nat
  deriving DecidableEq, Repr

/-- A containment trigger (R446, R447): its code, DETAIL, the core where it arose and the address of a consumed error. -/
structure TriggerReq where
  trig : Nat
  detail : Nat
  core : Nat
  addr : Dword
  deriving DecidableEq, Repr

/-- The partition registers that the management harts write (R221). -/
inductive PartReg where
  | asidt
  | groot
  | farmap
  deriving DecidableEq, Repr

/-- One constructor per row of the opcode table. -/
inductive Instr where
  /-- NOP (R67). The all-zero word; it has no effect, does not advance the latch ring and occupies one issue cycle. -/
  | nop
  /-- BLOCK_HEADER (R107). The header word read at block entry; it supplies HWM, CF and LEN and raises the allotment, block-target or fetch fault before the first instruction. -/
  | blockHeader (cf : Bool) (hwm : BitVec 9) (len : BitVec 12)
  /-- ADD_B (R155). Unguarded B-shape .i32 add of A and B into D. -/
  | addB (f : BForm)
  /-- ADD_E (R155). Guarded E or E+L add of any integer type, with optional saturation. -/
  | addE (f : EForm)
  /-- SUB_B (R155). Unguarded B-shape .i32 subtract of B from A into D. -/
  | subB (f : BForm)
  /-- SUB_E (R155). Guarded E or E+L subtract of any integer type, with optional saturation. -/
  | subE (f : EForm)
  /-- ADDC (R155). Add with carry in and carry out through a predicate. -/
  | addc (f : EForm)
  /-- SUBB (R155). Subtract with borrow in and borrow out through a predicate. -/
  | subb (f : EForm)
  /-- MUL_B (R155). Unguarded B-shape .i32 multiply keeping the low bits. -/
  | mulB (f : BForm)
  /-- MUL_E (R155). Guarded E or E+L integer multiply of any type, with optional saturation. -/
  | mulE (f : EForm)
  /-- MULH_B (R155). Unguarded B-shape .i32 multiply returning the high half of the product. -/
  | mulhB (f : BForm)
  /-- MULH_E (R155). Guarded E or E+L multiply returning the high half of the 2w-bit product. -/
  | mulhE (f : EForm)
  /-- MAD (R155). Integer multiply-add A times B plus C with optional saturation. -/
  | mad (f : EForm)
  /-- MIN_B (R155). Unguarded B-shape .i32 minimum. -/
  | minB (f : BForm)
  /-- MIN_E (R155). Guarded E or E+L integer minimum. -/
  | minE (f : EForm)
  /-- MAX_B (R155). Unguarded B-shape .i32 maximum. -/
  | maxB (f : BForm)
  /-- MAX_E (R155). Guarded E or E+L integer maximum. -/
  | maxE (f : EForm)
  /-- ABS_B (R155). Unguarded B-shape .i32 absolute value. -/
  | absB (f : BUnary)
  /-- ABS_E (R155). Guarded E or E+L signed absolute value with optional saturation. -/
  | absE (f : EForm)
  /-- AND_B (R156). Unguarded B-shape bitwise AND. -/
  | andB (f : BForm)
  /-- AND_E (R156). Guarded E or E+L bitwise AND of any integer type. -/
  | andE (f : EForm)
  /-- OR_B (R156). Unguarded B-shape bitwise OR. -/
  | orB (f : BForm)
  /-- OR_E (R156). Guarded E or E+L bitwise OR. -/
  | orE (f : EForm)
  /-- XOR_B (R156). Unguarded B-shape bitwise XOR. -/
  | xorB (f : BForm)
  /-- XOR_E (R156). Guarded E or E+L bitwise XOR. -/
  | xorE (f : EForm)
  /-- ANDN_B (R156). Unguarded B-shape A AND NOT B. -/
  | andnB (f : BForm)
  /-- ANDN_E (R156). Guarded E or E+L A AND NOT B. -/
  | andnE (f : EForm)
  /-- NOT_B (R156). Unguarded B-shape bitwise NOT of A. -/
  | notB (f : BUnary)
  /-- NOT_E (R156). Guarded E or E+L bitwise NOT of A. -/
  | notE (f : EForm)
  /-- SHL_B (R156). Unguarded B-shape shift left, zero when the amount reaches the width. -/
  | shlB (f : BForm)
  /-- SHL_E (R156). Guarded E or E+L shift left. -/
  | shlE (f : EForm)
  /-- SHR_B (R156). Unguarded B-shape logical shift right. -/
  | shrB (f : BForm)
  /-- SHR_E (R156). Guarded E or E+L logical shift right. -/
  | shrE (f : EForm)
  /-- SAR_B (R156). Unguarded B-shape arithmetic shift right. -/
  | sarB (f : BForm)
  /-- SAR_E (R156). Guarded E or E+L arithmetic shift right. -/
  | sarE (f : EForm)
  /-- ROL_B (R156). Unguarded B-shape rotate left by n mod w. -/
  | rolB (f : BForm)
  /-- ROL_E (R156). Guarded E or E+L rotate left. -/
  | rolE (f : EForm)
  /-- CLZ (R156). Counts leading zeros of a 32- or 64-bit value. -/
  | clz (f : EForm)
  /-- POPC (R156). Counts one bits of a 32- or 64-bit value. -/
  | popc (f : EForm)
  /-- BREV (R156). Reverses the bits of a 32- or 64-bit value. -/
  | brev (f : EForm)
  /-- BFE (R156). Extracts a bit field given by position and length, sign- or zero-extended. -/
  | bfe (f : EForm)
  /-- BFI (R156). Inserts the low bits of A into a bit field of B. -/
  | bfi (f : EForm)
  /-- SEL (R156). Selects A or B by a predicate. -/
  | sel (f : EForm)
  /-- CMP (R157). Compares two integers by the condition in C and writes one predicate. -/
  | cmp (f : EForm)
  /-- PAND (R158). Predicate AND with optional inverted sources. -/
  | pand (f : EForm)
  /-- POR (R158). Predicate OR with optional inverted sources. -/
  | por (f : EForm)
  /-- PXOR (R158). Predicate XOR with optional inverted sources. -/
  | pxor (f : EForm)
  /-- PNOT (R158). Predicate NOT. -/
  | pnot (f : EForm)
  /-- MOV_B (R159). Unguarded B-shape 32-bit copy of A to D. -/
  | movB (f : BUnary)
  /-- MOV_E (R159). Guarded E or E+L copy of any source, including predicates and index registers, to D. -/
  | movE (f : EForm)
  /-- MOVL_B_L (R160). B+L form writing literal bits [31:0] to a 32-bit destination. -/
  | movlBL (w : Bool) (d : BitVec 7) (lit : Dword)
  /-- MOVL_E_L (R160). E+L form writing the literal as .b32 or the whole 64-bit literal to a pair. -/
  | movlEL (f : EForm)
  /-- LEA (R161). Forms a 64-bit address from a base pair plus a scaled, extended index without checking it. -/
  | lea (f : EForm)
  /-- CVT (R172). Converts A between integer and floating formats with rounding and saturation. -/
  | cvt (f : EForm)
  /-- PACK8 (R174). Converts four values to FP8 and packs them into one register. -/
  | pack8 (f : EForm)
  /-- PACK4 (R175). Converts eight values to E2M1 or .q4 codes and packs them into one register. -/
  | pack4 (f : EForm)
  /-- FADD_B (R165). Unguarded B-shape FP32 add with RNE. -/
  | faddB (f : BForm)
  /-- FADD_E (R165). Guarded E or E+L floating add of any float type and rounding. -/
  | faddE (f : EForm)
  /-- FSUB_B (R165). Unguarded B-shape FP32 subtract with RNE. -/
  | fsubB (f : BForm)
  /-- FSUB_E (R165). Guarded E or E+L floating subtract. -/
  | fsubE (f : EForm)
  /-- FMUL_B (R165). Unguarded B-shape FP32 multiply with RNE. -/
  | fmulB (f : BForm)
  /-- FMUL_E (R165). Guarded E or E+L floating multiply. -/
  | fmulE (f : EForm)
  /-- FMA (R165). Fused multiply-add with one rounding. -/
  | fma (f : EForm)
  /-- FMIN_B (R165). Unguarded B-shape FP32 minimumNumber. -/
  | fminB (f : BForm)
  /-- FMIN_E (R165). Guarded E or E+L IEEE minimumNumber. -/
  | fminE (f : EForm)
  /-- FMAX_B (R165). Unguarded B-shape FP32 maximumNumber. -/
  | fmaxB (f : BForm)
  /-- FMAX_E (R165). Guarded E or E+L IEEE maximumNumber. -/
  | fmaxE (f : EForm)
  /-- FCMP (R166). Compares two floats by the condition in C and writes a predicate. -/
  | fcmp (f : EForm)
  /-- FCLASS (R167). Writes a one-hot class mask of a floating value. -/
  | fclass (f : EForm)
  /-- HFMA2 (R168). Two 16-bit fused multiply-adds on register halves. -/
  | hfma2 (f : EForm)
  /-- FDOT2 (R168). Exact two-element 16-bit dot product added to FP32 with one rounding. -/
  | fdot2 (f : EForm)
  /-- FRCP_B (R169). Unguarded B-shape FP32 reciprocal on the special-function unit. -/
  | frcpB (f : BUnary)
  /-- FRCP_E (R169). Guarded E or E+L reciprocal. -/
  | frcpE (f : EForm)
  /-- FRSQ_B (R169). Unguarded B-shape FP32 reciprocal square root. -/
  | frsqB (f : BUnary)
  /-- FRSQ_E (R169). Guarded E or E+L reciprocal square root. -/
  | frsqE (f : EForm)
  /-- FSQRT_B (R169). Unguarded B-shape FP32 correctly rounded square root. -/
  | fsqrtB (f : BUnary)
  /-- FSQRT_E (R169). Guarded E or E+L correctly rounded square root. -/
  | fsqrtE (f : EForm)
  /-- FDIV_B (R169). Unguarded B-shape FP32 correctly rounded division. -/
  | fdivB (f : BForm)
  /-- FDIV_E (R169). Guarded E or E+L correctly rounded division. -/
  | fdivE (f : EForm)
  /-- FEXP2_B (R169). Unguarded B-shape FP32 base-2 exponential. -/
  | fexp2B (f : BUnary)
  /-- FEXP2_E (R169). Guarded E or E+L base-2 exponential. -/
  | fexp2E (f : EForm)
  /-- FLOG2_B (R169). Unguarded B-shape FP32 base-2 logarithm. -/
  | flog2B (f : BUnary)
  /-- FLOG2_E (R169). Guarded E or E+L base-2 logarithm. -/
  | flog2E (f : EForm)
  /-- FSINPI_B (R169). Unguarded B-shape FP32 sin(pi A). -/
  | fsinpiB (f : BUnary)
  /-- FSINPI_E (R169). Guarded E or E+L sin(pi A). -/
  | fsinpiE (f : EForm)
  /-- FCOSPI_B (R169). Unguarded B-shape FP32 cos(pi A). -/
  | fcospiB (f : BUnary)
  /-- FCOSPI_E (R169). Guarded E or E+L cos(pi A). -/
  | fcospiE (f : EForm)
  /-- FTWID (R171). Writes the cosine and sine of 2 pi k / n to a pair with exact symmetries. -/
  | ftwid (f : EForm)
  /-- BRA_B (R132). B-shape unguarded branch to a word-offset target; every thread is filed there. -/
  | braB (off : BitVec 21)
  /-- BRA_E (R132). E, B+L or E+L branch, guarded or to an absolute literal target. -/
  | braE (f : CForm)
  /-- BRC_B (R132). B-shape conditional branch on a predicate, each thread filed at target or fall. -/
  | brcB (cp : BitVec 3) (cn : Bool) (off : BitVec 17)
  /-- BRC_E (R132). E, B+L or E+L conditional branch. -/
  | brcE (f : CForm)
  /-- JMPI_B (R132). B-shape indirect jump to the code pointer in A. -/
  | jmpiB (a : BitVec 7)
  /-- JMPI_E (R132). E-shape guarded indirect jump. -/
  | jmpiE (f : JForm)
  /-- CALL_B (R132). B-shape call: writes the link to v255 and files at the target. -/
  | callB (off : BitVec 21)
  /-- CALL_E (R132). E, B+L or E+L call, guarded or to a literal target. -/
  | callE (f : CForm)
  /-- CALLI_B (R132). B-shape indirect call through the code pointer in A. -/
  | calliB (a : BitVec 7)
  /-- CALLI_E (R132). E-shape guarded indirect call. -/
  | calliE (f : JForm)
  /-- RET_B (R132). B-shape return to the code pointer in v255. -/
  | retB
  /-- RET_E (R132). E-shape guarded return. -/
  | retE (f : XForm)
  /-- EXIT_B (R133). B-shape exit: the thread retires once Drained. -/
  | exitB
  /-- EXIT_E (R133). E-shape guarded exit. -/
  | exitE (f : XForm)
  /-- EXITTO_B (R104). B-shape exitto: marks the thread with a keep count and files at the target. -/
  | exittoB (keep : BitVec 8) (off : BitVec 13)
  /-- EXITTO_E (R104). E, B+L or E+L exitto. -/
  | exittoE (f : CForm)
  /-- REFORM_B (R134). B-shape reform: files at the target into an entry held until the crew gathers. -/
  | reformB (off : BitVec 21)
  /-- REFORM_E (R134). E, B+L or E+L reform. -/
  | reformE (f : CForm)
  /-- TRAP_B (R137). B-shape trap: parks the thread with a trap code at the fall address. -/
  | trapB (code : BitVec 8)
  /-- TRAP_E (R137). E-shape guarded trap. -/
  | trapE (f : XForm)
  /-- BRK_B (R136). B-shape breakpoint: once Drained, parks the thread at the next instruction. -/
  | brkB (code : BitVec 8)
  /-- BRK_E (R136). E-shape guarded breakpoint. -/
  | brkE (f : XForm)
  /-- SHFL_IDX (R182). Each active lane reads A from the lane that B names. -/
  | shflIdx (f : EForm)
  /-- SHFL_XOR (R182). Each active lane reads A from lane l XOR B. -/
  | shflXor (f : EForm)
  /-- SHFL_UP (R182). Each active lane reads A from lane l minus B. -/
  | shflUp (f : EForm)
  /-- SHFL_DOWN (R182). Each active lane reads A from lane l plus B. -/
  | shflDown (f : EForm)
  /-- VOTE_ANY (R184). Writes the OR of a predicate over active lanes. -/
  | voteAny (f : EForm)
  /-- VOTE_ALL (R184). Writes the AND of a predicate over active lanes. -/
  | voteAll (f : EForm)
  /-- VOTE_BALLOT (R184). Writes a 32-bit mask of a predicate over active lanes. -/
  | voteBallot (f : EForm)
  /-- MATCH (R184). Writes in each lane the mask of active lanes holding an equal value. -/
  | matchLanes (f : EForm)
  /-- REDUX (R186). Reduces a value over the cohort by a fixed tree and writes it to every active lane. -/
  | redux (f : EForm)
  /-- SCAN (R187). Inclusive or exclusive prefix scan over the cohort in a fixed order. -/
  | scan (f : EForm)
  /-- ISECT (R188). Intersects two ascending lists held across lanes and reports pairs and advances. -/
  | isect (f : EForm)
  /-- ARRIVE (R193). Barrier arrive for the cohort, with optional leave or join. -/
  | arrive (f : EForm)
  /-- AWAIT (R193). Suspends the cohort until the group generation reaches its target, then acquires. -/
  | await (f : EForm)
  /-- ARWAIT (R193). Arrive followed by wait on a group barrier. -/
  | arwait (f : EForm)
  /-- AWAIT_ELECT (R196). Barrier wait that elects one cohort and writes its predicate true. -/
  | awaitElect (f : EForm)
  /-- SIGN (R198). Adds the cohort's active threads to a convergence register's declared set, optionally emptying it first. -/
  | sign (f : EForm)
  /-- EVPOST (R201). Posts an event record to a crew of the gang or submits a launch record to the dispatch queue. -/
  | evpost (f : EForm)
  /-- EVWAIT (R202). Requests the oldest record of the crew's event queue as a pending result. -/
  | evwait (f : EForm)
  /-- YIELD (R203). Ends the issue group and files its threads into a yielded entry at the next instruction. -/
  | yield (f : EForm)
  /-- GDSET (R204). Resolves a guard slot true or false. -/
  | gdset (f : EForm)
  /-- GDCLR (R204). Returns a guard slot to unresolved. -/
  | gdclr (f : EForm)
  /-- RDSYS (R139). Reads a system register into a register. -/
  | rdsys (f : EForm)
  /-- WRSYS (R141). Writes a system register, faulting on unlisted or read-only registers. -/
  | wrsys (f : EForm)
  /-- CLAIM (R142). Requests more register granules for the cohort from the pool queue. -/
  | claim (f : EForm)
  /-- CEDE (R142). Returns register granules of the cohort to the pool. -/
  | cede (f : EForm)
  /-- LFSRD (R143). Reads the thread's or an accumulator column's rounding state. -/
  | lfsrd (f : EForm)
  /-- LFSWR (R143). Writes the thread's or an accumulator column's rounding state, storing 1 for 0. -/
  | lfswr (f : EForm)
  /-- PROBE (R144). Asks the home partition whether an access would be permitted and writes a predicate. -/
  | probe (f : EForm)
  /-- ICINV (R145). Once Drained, invalidates instruction caches device-wide and completes when earlier groups end. -/
  | icinv (f : EForm)
  /-- LD (R265). Loads 1 to 8 bytes of virtual memory into a register as a pending result. -/
  | ld (f : MForm)
  /-- ST (R265). Appends a store of 1 to 8 bytes to the store buffer, or to DSB under DET. -/
  | st (f : MForm)
  /-- LDS (R265). Loads from the own scratchpad or the gang window. -/
  | lds (f : MForm)
  /-- STS (R265). Stores to the own scratchpad or the gang window through the store buffer. -/
  | sts (f : MForm)
  /-- MOVIX_READ (R267). Reads the thread's register at a dynamic index bounded by the allotment. -/
  | movixRead (f : MForm)
  /-- MOVIX_WRITE (R267). Writes the thread's register at a dynamic index bounded by the allotment. -/
  | movixWrite (f : MForm)
  /-- PF (R268). Prefetches a line into the hinted cache levels without faulting. -/
  | pf (f : MForm)
  /-- FENCE_ACQ (R269). Acquire fence: self-invalidates the core's unowned copies. -/
  | fenceAcq (f : MForm)
  /-- FENCE_REL (R269). Release fence: completes when the thread is Drained. -/
  | fenceRel (f : MForm)
  /-- FENCE_AR (R269). Release then acquire fence. -/
  | fenceAr (f : MForm)
  /-- FENCE_SYS (R238). As fence.ar, additionally waiting for dirty far lines to be written back and acknowledged. -/
  | fenceSys (f : MForm)
  /-- ATOM (R272). Appends one atomic entry per lane, performed at home, returning the old value and optional predicate. -/
  | atom (min : BitVec 2) (f : MForm)
  /-- RED (R273). Appends combined reduction entries performed at home with no result. -/
  | red (min : BitVec 2) (f : MForm)
  /-- MXACQ (R311). Takes the core's MXE for the crew if free, clearing it, and writes a predicate. -/
  | mxacq (f : GForm)
  /-- MXREL (R312). Releases the MXE once every command of the crew has completed or been discarded. -/
  | mxrel (f : GForm)
  /-- OMAP (R313). Writes one of the crew's operand maps from four registers. -/
  | omap (f : GForm)
  /-- MXWAIT (R323). Waits for the covered MXE commands and writes whether all completed; an acquire. -/
  | mxwait (f : GForm)
  /-- MXFENCE (R322). Queued command that starts only after every earlier command finishes. -/
  | mxfence (f : GForm)
  /-- MMAD (R314). Dense matrix multiply-accumulate into an accumulator region. -/
  | mmad (f : GForm)
  /-- MMAS (R316). 4:8 structured-sparse multiply-accumulate with metadata from registers. -/
  | mmas (f : GForm)
  /-- MMAQ (R298). Multiply of .q4 or .q3 weight codes by activations into a staging region. -/
  | mmaq (f : GForm)
  /-- MSCAL (R317). Adds row-scaled staging into a main region and zeroes the staging. -/
  | mscal (f : GForm)
  /-- ACZERO (R319). Writes +0 to an accumulator region. -/
  | aczero (f : GForm)
  /-- ACLD (R320). Loads and widens a region from the scratchpad or memory into the accumulator store. -/
  | acld (f : GForm)
  /-- ACST (R320). Narrows and stores an accumulator region to the scratchpad or memory after residue verdicts pass. -/
  | acst (f : GForm)
  /-- ACMOV (R319). Copies one accumulator region to another bit for bit. -/
  | acmov (f : GForm)
  /-- SPZ (R318). Prunes dense rows to 4:8, writing packed rows and metadata registers. -/
  | spz (f : GForm)
  /-- TNEW (R355). Gives a tile descriptor fresh zero, dense or low-rank storage. -/
  | tnew (f : GForm)
  /-- TFREE (R356). Frees a tile's extent and makes it a zero tile. -/
  | tfree (f : GForm)
  /-- TINFO (R357). Writes a tile's descriptor summary and its heap's free-block figures to four registers. -/
  | tinfo (f : GForm)
  /-- TMOV (R358). Copies a tile, optionally transposed, into another descriptor. -/
  | tmov (f : GForm)
  /-- TADD (R359). Adds two tiles, optionally negating B and rank-rounding. -/
  | tadd (f : GForm)
  /-- TMUL (R359). Multiplies two tiles, optionally rank-rounding. -/
  | tmul (f : GForm)
  /-- TRND (R359). Rank-rounds a tile to the destination's tolerance. -/
  | trnd (f : GForm)
  /-- TDENSE (R359). Expands a tile into dense form. -/
  | tdense (f : GForm)
  /-- TLU (R360). LU-factors a square tile without pivoting. -/
  | tlu (f : GForm)
  /-- TCHOL (R361). Computes the lower Cholesky factor of a square tile. -/
  | tchol (f : GForm)
  /-- TTRSM (R362). Triangular solve of a right-hand tile with a triangle of a square tile. -/
  | ttrsm (f : GForm)
  /-- TDELTA (R364). Applies a host delta list to a resident operator, tile by tile from DONE. -/
  | tdelta (f : GForm)
  /-- TCOPY (R384). Strided copy of up to 9 dimensions with optional conversion, locally or to a remote device. -/
  | tcopy (f : GForm)
  /-- GATH (R386). Gathers rows by an index vector, zero rows for skip entries. -/
  | gath (f : GForm)
  /-- SCAT (R387). Scatters rows by an index vector, storing or combining by an operator. -/
  | scat (f : GForm)
  /-- RULES (R389). Compacts a neighbour table into one pair list per offset. -/
  | rules (f : GForm)
  /-- TCWAIT (R394). Waits for covered copy commands and writes whether all had status 0; an acquire. -/
  | tcwait (f : GForm)
  /-- SPRED (R409). Scores every row of a layer and writes the selected and band lists. -/
  | spred (f : GForm)
  /-- SFETCH (R411). Copies the listed weight rows into scratchpad staging. -/
  | sfetch (f : GForm)
  /-- SCHECK (R410). Second proof: checks band rows exactly, writes the replay list and adapts thresholds. -/
  | scheck (f : GForm)
  /-- SWAIT (R415). Waits for covered Starter commands and writes whether all had status 0; an acquire. -/
  | swait (f : GForm)
  /-- SEND (R32). Sends an unsent global store-buffer entry as a message to its home. -/
  | send (core entry : Nat)
  /-- WRITE_SCRATCH (R32). Writes a scratch entry to the own array or sends it as a window write. -/
  | writeScratch (core entry : Nat)
  /-- REGISTER (R33). Delivered register message merges bytes at home, makes the core owner and acknowledges. -/
  | register (lane : LaneId)
  /-- ATOMIC_AT_HOME (R33). Delivered atomic message performs its operation at home and returns the old value. -/
  | atomicAtHome (lane : LaneId)
  /-- HOME_REDUCTION (R240). Delivered reduction message applies its operator to the home value and acknowledges. -/
  | homeReduction (lane : LaneId)
  /-- READ_REQUEST (R35). Delivered read request is answered with the home value. -/
  | readRequest (lane : LaneId)
  /-- READ_RESPONSE (R36). Delivered read response satisfies its load and is installed only if the epochs still match. -/
  | readResponse (lane : LaneId)
  /-- WINDOW_WRITE (R32). Delivered gang-window write stores bytes in the peer's array and returns an acknowledgement. -/
  | windowWrite (lane : LaneId)
  /-- ACKNOWLEDGEMENT (R33). Delivered acknowledgement removes its store-buffer entry. -/
  | acknowledgement (lane : LaneId)
  /-- ATOMIC_RESULT (R239). Delivered atomic Result writes the destination, removes the entry and drops the word from V1. -/
  | atomicResult (lane : LaneId)
  /-- SATISFY (R35). A queued load obtains each byte from its own store, the views or a home request. -/
  | satisfy (core load : Nat)
  /-- EVICT (R32). An entry of a core or cluster view is removed. -/
  | evict (view : ViewId) (word : Nat)
  /-- SIGNATURE (R38). Once Drained, a thread signs a convergence register; the last signature appends the pending command. -/
  | signature (core slot : Nat)
  /-- ENGINE_START (R39). The queue-head command with a satisfied guard starts, validating and reading operands. -/
  | engineStart (e : EngineId) (cmd : Nat)
  /-- DISCARD (R39). A command whose guard resolved against it, or that failed validation, leaves writing nothing. -/
  | discard (e : EngineId) (cmd : Nat)
  /-- COMMIT (R39). A started command makes its first destination write. -/
  | commit (e : EngineId) (cmd : Nat)
  /-- COMPLETE (R39). A committed command finishes and becomes visible to its wait. -/
  | complete (e : EngineId) (cmd : Nat)
  /-- COPY_PIECE (R391). The copy engine performs one piece of a command with its own commit and progress. -/
  | copyPiece (core cmd : Nat)
  /-- STARTER_PIECE (R412). The Starter performs one piece of a command and updates its progress record. -/
  | starterPiece (cluster cmd : Nat)
  /-- RESIDUE_VERDICT (R305). The mod-7 residue verdict on a contribution arrives; a failure contains the gang. -/
  | residueVerdict (e : EngineId) (cmd : Nat) (pass : Bool)
  /-- REMOTE_WRITE_ACK (R385). The remote device acknowledges a tcopy transport write as registered. -/
  | remoteWriteAck (core cmd : Nat)
  /-- POST (R32). An event record is appended to a crew's event queue when it has room. -/
  | post (core crew : Nat)
  /-- TAKE (R202). A waiting evwait takes the oldest record, self-invalidates and receives it. -/
  | take (core crew : Nat)
  /-- BARRIER_ARRIVE (R193). Once all live threads are Drained, the cohort joins the arrived set and sets its target. -/
  | barrierArrive (core row : Nat)
  /-- ADVANCE (R194). When all members arrived, the generation advances, membership changes apply and the level is fixed. -/
  | advance (bar : BarId)
  /-- MERGE (R41). A DET crew's store buffer merges by highest thread index into the store buffer. -/
  | merge (core crew : Nat)
  /-- DRAIN (R41). A core's deterministic atomic buffer is sent as sorted atomic messages. -/
  | drain (core crew : Nat)
  /-- BIN_SELECTION (R113). A free stream takes one bin chosen by age bound and policy. -/
  | binSelection (core : Nat) (stream : Bool)
  /-- ISSUE_GROUP_START (R114). A new issue group forms from the selected threads on free columns. -/
  | issueGroupStart (core : Nat) (stream : Bool)
  /-- PENDING_RESULT_RETURN (R105). A pending register result returns; a Pending thread whose last result arrives is filed. -/
  | pendingResultReturn (core result : Nat)
  /-- SPILL_REFILE (R110). Spilled threads join or allocate a freed entry, at most 32 per cycle. -/
  | spillRefile (core : Nat)
  /-- GROUP_RESUME (R116). A suspended or stalled group resumes when its condition holds. -/
  | groupResume (core : Nat) (group : Nat)
  /-- CLAIM_GRANT (R103). The pool queue grants a waiting claim; the cohort's threads return to Waiting. -/
  | claimGrant (core : Nat)
  /-- THREAD_EXIT (R133). An exiting thread becomes Exited once Drained. -/
  | threadExit (core slot : Nat)
  /-- REFORM_HOLD_END (R134). A held reform entry's hold ends when its age exceeds AGE. -/
  | reformHoldEnd (core bin : Nat)
  /-- FAULT_SERVICE (R147). Tsunath resolves a serviced fault and releases its park set. -/
  | faultService (core pset : Nat) (pa : Nat)
  /-- RELEASE (R148). OHP release of a park set by resume, redirect, retire or contain. -/
  | release (m : OhpHdr) (r : ReleaseReq)
  /-- TRANSLATION_VERDICT (R227). The verdict of an access arrives from a cache hit, the TLB, a walk or a far fill. -/
  | translationVerdict (core req : Nat)
  /-- FAR_LINE_FILL (R229). A far line read over the transport arrives and fills the LLC. -/
  | farLineFill (line : Nat) (data : BitVec 512)
  /-- DESTINATION_UNREACHABLE (R470). A destination unanswered for 1 s is declared unreachable and its waiters fault or stop. -/
  | destinationUnreachable (dest : Dest)
  /-- LLC_WRITE_BACK (R235). A dirty LLC line is written back to the address recorded at fill. -/
  | llcWriteBack (line : Nat)
  /-- MAINTENANCE_COMMAND (R234). Blocks a range, writes back and invalidates its lines and TLB entries, then unblocks. -/
  | maintenanceCommand (range : PageRange) (phase : MaintPhase)
  /-- MIGRATION (R234). Tsunath takes a migration record and migrates a far page to local memory. -/
  | migration (phase : MigPhase)
  /-- PLACEMENT (R435). Tsunath reserves bind records for a gang and writes its commit record. -/
  | placement (lid : Nat) (gang : Nat) (place : List PlaceReq) (commit : Bool)
  /-- ABANDON (R437). Uncommitted reservations are freed for a higher-priority launch. -/
  | abandon (lid : Nat)
  /-- CREW_START (R438). At the gang's start point the crew's core self-invalidates and threads are filed. -/
  | crewStart (lid gang : Nat)
  /-- CREW_DONE (R438). A finished crew's resources are freed and its completion bits and count are written. -/
  | crewDone (core crew : Nat)
  /-- WATCHDOG_EXPIRY (R439). A gang's time-bound count reaches BOUND and the gang is contained. -/
  | watchdogExpiry (lid gang : Nat)
  /-- STALL_NOTICE (R439). An unbounded gang without progress for 1 s draws a machine-check notice. -/
  | stallNotice (lid gang : Nat)
  /-- PREEMPTION (R442). A gang is halted at an instruction boundary, drained and its context saved. -/
  | preemption (lid gang : Nat)
  /-- GANG_RESUME (R443). A pre-empted gang's context is restored on its own cores and its bind records set live. -/
  | gangResume (lid gang : Nat)
  /-- GANG_KILL (R448). A gang that trigger t befell is stopped, its state discarded, quiesced, freed and reported. -/
  | gangKill (lid gang : Nat) (t : TriggerReq)
  /-- RELAUNCH (R449). After a kill, reset words and snapshots are restored and the gang is placed again. -/
  | relaunch (lid gang : Nat) (place : List PlaceReq)
  /-- HEARTBEAT (R454). A management complex writes its heartbeat word every 1 ms. -/
  | heartbeat (standby : Bool)
  /-- BRING_UP (R479). After power good the ROMs verify firmware, Tsunath starts, links train and memory is zeroed. -/
  | bringUp (ok : Bool)
  /-- PARTITION_REGISTER_WRITE (R221). Management-hart write to a partition register without behaviour of its own, such as the ASID table, global root or far map. -/
  | partitionRegisterWrite (reg : PartReg) (value : Dword)
  /-- FAR_WRITE_BACK_ACK (R238). The transport acknowledges a far-line write-back, which can let a waiting fence.sys release. -/
  | farWriteBackAck (line : Nat)
  /-- PATROL (R461). Each partition's daily patrol rewrites every corrected sector. -/
  | patrol (part : Nat)
  /-- PART_MIGDROP_CLEAR (R221). Write-1-to-clear of the dropped-notification count. -/
  | partMigdropClear (part : Nat) (value : Word)
  /-- PART_ORPHAN_CLEAR (R221). Write-1-to-clear of the orphaned dirty-line count. -/
  | partOrphanClear (part : Nat) (value : Word)
  /-- PART_ECC_CLEAR (R465). Write-1-to-clear of the partition's error counts. -/
  | partEccClear (part : Nat) (value : Dword)
  /-- SEL_POLICY_WRITE (R112). Write to SEL.POLICY, taking effect only when all bound crews are the writer's launch and never under DET. -/
  | selPolicyWrite (core lid : Nat) (value : Word)
  /-- SEL_AGE_WRITE (R111). Write to SEL.AGE, storing 64 for values below 64, subject to R112. -/
  | selAgeWrite (core lid : Nat) (value : Word)
  /-- LFSR_WRITE (R140). Write to the thread's LFSR register, storing 1 for 0. -/
  | lfsrWrite (core slot : Nat) (value : Word)
  /-- ACC_STAT_WRITE (R301). Write 1 to clear the crew's sticky SATF flag. -/
  | accStatWrite (core crew : Nat) (value : Word)
  /-- LINK_ACTIVITY (R480). Activity on an idle link wakes the device from C4. -/
  | linkActivity (port : Nat)
  /-- MALFORMED_MESSAGE (R472). An OHP message with an unknown TYPE, a wrong VER, a reserved bit set or a bad LEN is answered with STATUS 2 and does nothing else. -/
  | malformedMessage (m : OhpHdr)
  /-- FAR_LINE_REQUEST (R470). A peer device's far-line read request arrives at a port and is served from this device's homes. -/
  | farLineRequest (port : Nat) (va : Nat)
  /-- ATTESTATION_REQUEST (R478). OHP 0x0C with a nonce is answered by a signed attestation report. -/
  | attestationRequest (m : OhpHdr) (nonce : BitVec 256)
  /-- LATENCY_TOLERANCE (R481). OHP message 0x06 sets the tolerance that selects the idle power state. -/
  | latencyTolerance (m : OhpHdr)
  /-- RECORDER_CONTROL (R466). OHP 0x0E starts or stops the ingress recorder on a region. -/
  | recorderControl (m : OhpHdr) (base len : Nat)
  /-- IMAGE_LOAD (R475). OHP 0x10 in recovery writes a firmware image to a flash slot and resets. -/
  | imageLoad (m : OhpHdr) (slot : Bool) (image : Nat)
  /-- SESSION_OPEN (R474). OHP 0x11 on the control session opens a session with its endpoint and grants. -/
  | sessionOpen (m : OhpHdr) (number : Nat) (endpoint : Nat) (glb : Bool) (asids : List Nat)
  /-- SESSION_CLOSE (R474). OHP 0x12 closes a session. -/
  | sessionClose (m : OhpHdr) (number : Nat)
  /-- INBOUND_WRITE (R251). A peer transport write arrives, is tagged, recorded and registered with owner none. -/
  | inboundWrite (port : Nat) (supported : Bool) (va : Nat) (bytes : List Byte)
  /-- OHP_CONTAIN (R446). OHP 0x09 with the contain action contains the named gang. -/
  | ohpContain (m : OhpHdr) (lid gang : Nat)
  /-- OHP_SUSPEND (R441). OHP 0x09 with the suspend action pre-empts the launch's gangs. -/
  | ohpSuspend (m : OhpHdr) (lid gang : Nat)
  /-- OHP_RESUME (R443). OHP 0x09 with the resume action resumes suspended gangs. -/
  | ohpResume (m : OhpHdr) (lid gang : Nat)
  /-- FAR_PAGE_SERVICE (R229). OHP 0x0B: host memory serves far lines whose far-map kind is host. -/
  | farPageService (m : OhpHdr) (index : Nat) (remote : Nat) (data : BitVec 512)
  /-- LAUNCH_SUBMISSION (R426). OHP message 0x01 submits a launch record, which is read, validated and queued or refused. -/
  | launchSubmission (m : OhpHdr)
  /-- MEMORY_WRITE (R472). OHP message 0x03 writes bytes in ascending address as inbound Register steps. -/
  | memoryWrite (m : OhpHdr) (bytes : List Byte)
  /-- MEMORY_READ (R472). OHP message 0x04 reads bytes from home and answers with a read response. -/
  | memoryRead (m : OhpHdr)
  /-- HEAT_UPDATE (R233). A relaxed atomic raises a leaf's heat and may set MQ and post a migration notification. -/
  | heatUpdate
  /-- SWEEP (R231). Each sweep period the sweeper lowers the heat of every leaf. -/
  | sweep
  /-- DEPENDENCE_POLL (R430). Every 1 ms the engine re-evaluates dependence words of head launches. -/
  | dependencePoll
  /-- TAKEOVER (R455). After 5 ms without heartbeat the standby holds the primary in reset and takes over. -/
  | takeover
  /-- DEVICE_RESET (R456). The hardware watchdog resets the device when no complex is left to take over. -/
  | deviceReset
  /-- ROM_REPORT_TIMEOUT (R476). A die that has not reported within 2 s makes both ROMs verify again from slot 0. -/
  | romReportTimeout
  /-- POWER_STATE_ENTRY (R480). After 100 us idle the device enters the deepest state the tolerance allows. -/
  | powerStateEntry
  /-- ILLEGAL_INSTRUCTION (R68). A thread reaches a word that encodes no legal instruction and parks with the illegal-instruction fault at decode. -/
  | illegalInstruction
  /-- STANDBY_HEARTBEAT_LOSS (R455). When the standby's heartbeat stops, the primary holds the standby in reset, reports a machine check and runs without a standby. -/
  | standbyHeartbeatLoss
  deriving DecidableEq, Repr

end Sys2Proof
end

