-- ==== Sys2Proof/WellFormed.lean ====
section
/-!
DEFINITION. When an instruction is legal by its own words (spec/03_formats_opcodes.md R48 to R66 and R68, with the operand
tables of the instruction entries). The conditions of R68 that need the block (its HWM, its CF, its length) are
Machine/Operands.lean's. Each check has a name: firstError answers the first one that fails.
-/
namespace Sys2Proof

/-- The conditions of R68 that the words alone decide. -/
inductive WfError where
  /-- an unassigned SUB, MIN or C value (R64) -/
  | unassigned
  /-- RM where the entry names no rounding, or a reserved RM (R55) -/
  | rounding
  /-- SAT where the entry names no saturation (R55) -/
  | saturation
  /-- a B-shape D of 124 to 127 -/
  | shortDest
  /-- W = 1 on an instruction without a result, or with DH:D nonzero (R52) -/
  | noWriteBack
  /-- an operand kind the entry does not accept, or an operand that must be unused (R150, R181, R260) -/
  | operandKind
  /-- a code outside its kind's valid codes, or a latch bit with a code above 3 (R48) -/
  | operandCode
  /-- an odd register for a 64-bit operand, or a misaligned register group (R49, R271) -/
  | oddRegister
  /-- the count of kind-10 operands does not fit the shape (R66) -/
  | immediates
  /-- an XI bit on an operand that cannot be indirect, or XS without XI (R53) -/
  | indirection
  /-- a selector out of range (R54) -/
  | selector
  /-- a nonzero field that the instruction does not use -/
  | unusedField
  /-- a shape beyond the accumulator store, M2 = 11, or shape fields where there is no shape (R60, R61) -/
  | engineShape
  /-- GE = 0 with GS or GP, or guard and convergence fields on a command that is not queued (R60, R309) -/
  | engineGuard
  /-- a header with HWM above 256 or LEN = 0 -/
  | header
  deriving DecidableEq, Repr

/-- What an operand may be. The kind-11 codes are named by what they name. -/
inductive OpAccept where
  | vec
  | scl
  | imm
  /-- x0 to x3 -/
  | idx
  /-- p0 to p6 -/
  | pred
  /-- p0 to p7 -/
  | predAny
  /-- cv0 to cv15 -/
  | conv
  /-- gd0 to gd15 -/
  | gslot
  deriving DecidableEq, Repr

/-- How many registers the operand covers and how it must be aligned. -/
inductive OpWidth where
  | one
  | pair
  | quad
  deriving DecidableEq, Repr

def OpWidth.count : OpWidth → Nat
  | .one => 1
  | .pair => 2
  | .quad => 4

/-- What an entry says of one operand field. -/
inductive OpSpec where
  /-- the field is not used: code 0, kind 00 -/
  | unused
  /-- the field holds a number, with kind 00 (R181) -/
  | number
  /-- the field is an operand of one of these kinds -/
  | operand (accept : List OpAccept) (width : OpWidth)
  deriving DecidableEq, Repr

/-- What an entry says of the fields of an E or E+L word: accepted SUB values, the highest RM, whether SAT may be 1, the
operands, the range of a number in C, and the ranges of the selectors. -/
structure ESpec where
  subs : List Nat := [0]
  rmMax : Nat := 0
  sat : Bool := false
  d : OpSpec := .unused
  a : OpSpec := .unused
  b : OpSpec := .unused
  c : OpSpec := .unused
  cOk : Bool := true
  saMax : Nat := 0
  sbMax : Nat := 0
  eLong : Bool := true
  deriving DecidableEq, Repr

/-! ## Types (R64) -/

/-- Width in bits of an integer type of rows 0x00 to 0x09. -/
def intWidth (sub : BitVec 4) : Nat :=
  match sub.toNat with
  | 3 | 4 | 5 => 64
  | 6 | 7 => 16
  | 8 | 9 => 8
  | _ => 32

/-- Whether an integer type is signed (`.i` types). -/
def intSigned (sub : BitVec 4) : Bool :=
  match sub.toNat with
  | 0 | 3 | 6 | 8 => true
  | _ => false

/-- Whether an integer type is a `.b` type. -/
def intIsBits (sub : BitVec 4) : Bool := sub == 2 || sub == 5

/-- Width of a conversion format of R64 row 0x0C. -/
def cvtWidth (code : Nat) : Nat :=
  match code with
  | 0 | 4 | 12 | 13 => 8
  | 1 | 5 | 8 | 9 => 16
  | 3 | 7 | 11 => 64
  | 14 | 15 => 4
  | _ => 32

/-- Whether a conversion format is an integer format. -/
def cvtIsInt (code : Nat) : Bool := code ≤ 7

def allInt : List Nat := [0, 1, 2, 3, 4, 5, 6, 7, 8, 9]

/-- Registers an operand of a type of this width covers. -/
def widthOf (bits : Nat) : OpWidth := if bits = 64 then .pair else .one

/-- "Any source" of R150 for a type of this width. -/
def anySrc (bits : Nat) : OpSpec :=
  .operand ([.vec, .scl, .imm] ++ (if bits = 32 then [.idx] else [])) (widthOf bits)

/-- A destination of R150 for a type of this width. -/
def anyDst (bits : Nat) : OpSpec :=
  .operand ([.vec, .scl] ++ (if bits = 32 then [.idx] else [])) (widthOf bits)

def predDst : OpSpec := .operand [.pred] .one
def predSrc : OpSpec := .operand [.predAny] .one

/-- Two-source integer rows of R155 and R156. -/
def intBin (f : EForm) (subs : List Nat) (sat : Bool) : ESpec :=
  let w := intWidth f.sub
  { subs := subs, sat := sat, d := anyDst w, a := anySrc w, b := anySrc w }

/-- One-source integer rows. -/
def intUn (f : EForm) (subs : List Nat) (sat : Bool) : ESpec :=
  let w := intWidth f.sub
  { subs := subs, sat := sat, d := anyDst w, a := anySrc w }

/-- SAT is accepted for `.i` and `.n` types only (R155). -/
def satNotBits (f : EForm) : Bool := !intIsBits f.sub

def floatWidth (sub : BitVec 4) : Nat :=
  match sub.toNat with
  | 0 => 32
  | 1 | 2 => 16
  | 3 => 64
  | 4 | 5 => 8
  | 6 => 4
  | _ => 32

/-- The highest selector of a float type's packed sources (R54). -/
def floatSel (sub : BitVec 4) : Nat :=
  match sub.toNat with
  | 4 | 5 => 3
  | 6 => 7
  | _ => 0

/-- Width of the destination and of C of a float row: FP32 for the packed types (R165). -/
def floatDstWidth (sub : BitVec 4) : Nat := if sub.toNat ≥ 4 then 32 else floatWidth sub

/-- Two-source float rows of R165. Of a packed type the sources are packed elements, and the destination is FP32. (DEDUCED, log 7) -/
def floatBin (f : EForm) (rmMax : Nat) : ESpec :=
  let w := floatWidth f.sub
  { subs := [0, 1, 2, 3, 4, 5, 6], rmMax := rmMax, d := anyDst (floatDstWidth f.sub), a := anySrc w, b := anySrc w,
    saMax := floatSel f.sub, sbMax := floatSel f.sub }

/-- One-source special functions of R169. -/
def special (f : EForm) (subs : List Nat) (rmMax : Nat) : ESpec :=
  let w := floatWidth f.sub
  { subs := subs, rmMax := rmMax, d := anyDst w, a := anySrc w }

/-- RM and SAT limits of a conversion (R172): whether a float format holds every value of another. -/
def floatHolds (dst src : Nat) : Bool :=
  dst == src || (match src with
    | 14 => true
    | 12 | 13 => dst == 8 || dst == 9 || dst == 10 || dst == 11
    | 8 | 9 => dst == 10 || dst == 11
    | 10 => dst == 11
    | _ => false)

def cvtRmMax (dst src : Nat) : Nat :=
  if cvtIsInt src then (if cvtIsInt dst then 0 else 5)
  else if cvtIsInt dst then 4
  else if floatHolds dst src then 0 else 5

def cvtSatOk (dst src : Nat) : Bool :=
  if cvtIsInt src && cvtIsInt dst then cvtWidth dst < cvtWidth src
  else if !cvtIsInt src && !cvtIsInt dst then !floatHolds dst src
  else true

def cvtSpec (f : EForm) : ESpec :=
  let dst := f.sub.toNat
  let src := f.c.code.toNat
  { subs := [0, 1, 2, 3, 4, 5, 6, 7, 8, 9, 10, 11, 12, 13, 14], rmMax := cvtRmMax dst src, sat := cvtSatOk dst src,
    d := anyDst (cvtWidth dst), a := anySrc (cvtWidth src), c := .number, cOk := src ≤ 14,
    saMax := if src = 12 ∨ src = 13 then 3 else if src = 14 then 7 else 0 }

def pack8Spec (f : EForm) : ESpec :=
  let src := f.c.code.toNat
  let s : OpSpec := if src = 10 then anySrc 64 else anySrc 16
  { subs := [12, 13], rmMax := 5, sat := true, d := anyDst 8, a := s, b := s, c := .number,
    cOk := src = 8 ∨ src = 9 ∨ src = 10 }

def pack4Spec (f : EForm) : ESpec :=
  let src := f.c.code.toNat
  if f.sub = 15 then
    { subs := [15], rmMax := 0, sat := true, d := anyDst 8, a := anySrc 8, b := anySrc 8, c := .number, cOk := src = 0 }
  else
    { subs := [14], rmMax := 5, sat := true, d := anyDst 8, a := anySrc 64, b := anySrc 64, c := .number,
      cOk := src = 8 ∨ src = 9 }

/-- Width of a reduction operator of R64. -/
def reduxWidth (sub : BitVec 4) : Nat := if sub = 11 ∨ sub = 12 then 64 else 32

def immValue (f : EForm) : Dword :=
  match f.lit with
  | some l => l
  | none => f.imm8.signExtend 64

/-- The mode of a barrier instruction or of sign, or the flag of scan: absent, or an immediate between two bounds; a literal word is taken
whole. (DEDUCED, log 88) -/
def modeOk (f : EForm) (o : Opnd) (lo hi : Nat) : Bool :=
  o.kind ≠ .imm || (lo ≤ (immValue f).toNat && (immValue f).toNat ≤ hi)

def vecOf (bits : Nat) : OpSpec := .operand [.vec] (widthOf bits)
def vsOf (bits : Nat) : OpSpec := .operand [.vec, .scl] (widthOf bits)

/-- The access width in bytes of SUB in rows 0x2A and 0x2B (R64). -/
def accessBytes (sub : BitVec 4) : Nat :=
  match sub.toNat with
  | 0 | 1 => 1
  | 2 | 3 => 2
  | 4 => 4
  | 5 => 8
  | _ => 4

/-- The base operand of the memory class (R260, R261): a vector pair, a scalar or scalar pair by SB[0], or the literal. -/
def baseSpec (f : EForm) : OpSpec :=
  .operand [.vec, .scl, .imm] (if f.a.kind = .vec ∨ (f.a.kind = .scl ∧ f.sb = 1) then .pair else .one)

def idxSpec : OpSpec := .operand [.vec, .scl] .one

/-- SB[0] = 1 only with a kind-01 base, SB[2:1] = 0 (R261). -/
def sbOk (f : EForm) : Bool := f.sb = 0 || (f.sb = 1 && f.a.kind = .scl)

/-- The system registers that are 64 bits wide (R140). -/
def sysWide (n : Nat) : Bool := n = 0x09 || n = 0x18

/-- What the entry of an E or E+L register-class or memory-class instruction says of its fields. The column of lfswr.col is a vector
register. (DEDUCED, log 85) -/
def eSpec : Instr → Option (EForm × ESpec)
  | .addE f | .subE f | .mulE f => some (f, intBin f allInt (satNotBits f))
  | .addc f | .subb f =>
    some (f, { intBin f [1, 2, 4, 5] false with c := predDst })
  | .mulhE f => some (f, intBin f [0, 1, 3, 4] false)
  | .mad f => some (f, { intBin f allInt (satNotBits f) with c := anySrc (intWidth f.sub) })
  | .minE f | .maxE f => some (f, intBin f [0, 1, 3, 4, 6, 7, 8, 9] false)
  | .absE f => some (f, intUn f [0, 3, 6, 8] true)
  | .andE f | .orE f | .xorE f | .andnE f | .shlE f | .shrE f | .sarE f | .rolE f => some (f, intBin f allInt false)
  | .notE f => some (f, intUn f allInt false)
  | .clz f | .popc f | .brev f => some (f, intUn f [2, 5] false)
  | .bfe f => some (f, intBin f [0, 1, 3, 4] false)
  | .bfi f => some (f, { intBin f [2, 5] false with c := anySrc (intWidth f.sub) })
  | .sel f => some (f, { intBin f allInt false with c := predSrc })
  | .cmp f => some (f, { intBin f allInt false with
      d := predDst, c := .number, cOk := f.c.code.toNat ≤ 1 ∨ (f.c.code.toNat ≤ 5 ∧ !intIsBits f.sub) })
  | .pand f | .por f | .pxor f => some (f, { d := predDst, a := predSrc, b := predSrc, saMax := 1, sbMax := 1 })
  | .pnot f => some (f, { d := predDst, a := predSrc, saMax := 1 })
  | .movE f =>
    let w := intWidth f.sub
    some (f, { subs := allInt, d := anyDst w,
               a := .operand ([.vec, .scl, .imm, .predAny] ++ (if w = 32 then [.idx] else [])) (widthOf w) })
  | .movlEL f =>
    let w := intWidth f.sub
    some (f, { subs := [2, 5], d := anyDst w, a := .operand [.imm] .one })
  | .lea f => some (f, { subs := [0, 1], d := vsOf 64, a := vsOf 64, b := anySrc 32, c := .number, cOk := f.c.code.toNat ≤ 3 })
  | .cvt f => some (f, cvtSpec f)
  | .pack8 f => some (f, pack8Spec f)
  | .pack4 f => some (f, pack4Spec f)
  | .faddE f | .fsubE f | .fmulE f => some (f, floatBin f 4)
  | .fma f => some (f, { floatBin f 4 with c := anySrc (floatDstWidth f.sub) })
  | .fminE f | .fmaxE f => some (f, floatBin f 0)
  | .fcmp f => some (f, { floatBin f 0 with d := predDst, c := .number, cOk := f.c.code.toNat ≤ 7 })
  | .fclass f => some (f, { floatBin f 0 with d := anyDst 32, b := .unused, sbMax := 0 })
  | .hfma2 f => some (f, { subs := [1, 2], rmMax := 4, d := anyDst 16, a := anySrc 16, b := anySrc 16, c := anySrc 16 })
  | .fdot2 f => some (f, { subs := [1, 2], rmMax := 4, d := anyDst 32, a := anySrc 16, b := anySrc 16, c := anySrc 32 })
  | .frcpE f | .frsqE f | .fexp2E f | .flog2E f | .fsinpiE f | .fcospiE f => some (f, special f [0, 1, 2] 0)
  | .fsqrtE f => some (f, special f [0, 1, 2, 3] 4)
  | .fdivE f => some (f, { special f [0, 1, 2, 3] 4 with b := anySrc (floatWidth f.sub) })
  | .ftwid f => some (f, { d := vsOf 64, a := anySrc 32, b := anySrc 32 })
  | .shflIdx f | .shflXor f | .shflUp f | .shflDown f =>
    let w := if f.sub = 1 then 64 else 32
    some (f, { subs := [0, 1], d := vsOf w, a := vecOf w, b := .operand [.vec, .scl, .imm] .one })
  | .voteAny f | .voteAll f => some (f, { d := predDst, a := predSrc })
  | .voteBallot f => some (f, { d := vsOf 32, a := predSrc })
  | .matchLanes f => some (f, { subs := [0, 1], d := vsOf 32, a := vecOf (if f.sub = 1 then 64 else 32) })
  | .redux f => some (f, { subs := [0, 1, 2, 3, 4, 5, 6, 7, 8, 9, 10, 11, 12], d := vsOf (reduxWidth f.sub), a := vecOf (reduxWidth f.sub) })
  | .scan f => some (f, { subs := [0, 1, 2, 3, 4, 5, 6, 7, 8, 9, 10, 11, 12], d := vecOf (reduxWidth f.sub), a := vecOf (reduxWidth f.sub),
                          b := .operand [.imm] .one, cOk := modeOk f f.b 0 1 })
  | .isect f => some (f, { d := vecOf 64, a := vecOf 32, b := vecOf 32,
                           c := .operand (if f.lit.isSome then [.scl, .imm] else [.scl]) .one })
  | .arrive f => some (f, { a := if f.a.kind = .imm then .operand [.imm] .one else .unused, c := .number, cOk := modeOk f f.a 0 2 })
  | .await f => some (f, { c := .number })
  | .arwait f => some (f, { a := if f.a.kind = .imm then .operand [.imm] .one else .unused, c := .number, cOk := modeOk f f.a 0 1 })
  | .awaitElect f => some (f, { d := predDst, c := .number })
  | .sign f => some (f, { a := .operand [.conv] .one, b := if f.b.kind = .imm then .operand [.imm] .one else .unused,
                          cOk := modeOk f f.b 1 1 })
  | .evpost f => some (f, { d := predDst, a := .operand [.scl, .imm] .one, b := vsOf 64 })
  | .evwait f => some (f, { d := vsOf 64 })
  | .yield f => some (f, {})
  | .gdset f => some (f, { d := .operand [.gslot] .one, a := .operand [.scl, .imm, .predAny] .one })
  | .gdclr f => some (f, { d := .operand [.gslot] .one })
  | .rdsys f => some (f, { d := vsOf (if sysWide f.c.code.toNat then 64 else 32), c := .number })
  | .wrsys f => some (f, { subs := [1], b := .operand [.vec, .scl, .imm] .one, c := .number })
  | .claim f => some (f, { b := .operand [.scl, .imm] .one })
  | .cede f => some (f, { subs := [1], b := .operand [.scl, .imm] .one })
  | .lfsrd f => some (f, { d := vecOf 32, b := if f.c.code = 1 then vecOf 32 else .unused, c := .number, cOk := f.c.code.toNat ≤ 1 })
  | .lfswr f => some (f, { subs := [1], a := if f.c.code = 1 then vecOf 32 else .unused, b := vsOf 32, c := .number,
                           cOk := f.c.code.toNat ≤ 1 })
  | .probe f => some (f, { subs := [1], d := predDst, a := vsOf 64, c := .number, cOk := f.c.code.toNat ≤ 2 })
  | .icinv f => some (f, { subs := [2] })
  | .ld m | .lds m =>
    some (m.e, { subs := [0, 1, 2, 3, 4, 5], d := vsOf (8 * accessBytes m.e.sub), a := baseSpec m.e, b := idxSpec, sbMax := 1 })
  | .st m | .sts m =>
    some (m.e, { subs := [0, 1, 2, 3, 4, 5], a := baseSpec m.e, b := idxSpec,
                 c := .operand [.vec, .scl, .imm] (widthOf (8 * accessBytes m.e.sub)), sbMax := 1 })
  | .movixRead m => some (m.e, { d := vecOf 32, b := idxSpec, cOk := m.e.sa = 0, saMax := 1 })
  | .movixWrite m => some (m.e, { b := idxSpec, c := vsOf 32, cOk := m.e.sa = 1, saMax := 1 })
  | .pf m => some (m.e, { a := baseSpec m.e, b := idxSpec, sbMax := 1 })
  | .fenceAcq m | .fenceRel m | .fenceAr m | .fenceSys m => some (m.e, { eLong := false })
  | .atom min m =>
    let w : OpWidth := if 2 ≤ min.toNat then .pair else .one
    let hasPred := m.e.sub = 7 ∨ m.e.sub = 8 ∨ m.e.sub = 9
    some (m.e, { subs := allInt, d := .operand [.vec] w, a := baseSpec m.e, b := idxSpec,
                 c := if m.e.sub = 7 then .operand [.vec, .scl] (if 2 ≤ min.toNat then .quad else .pair)
                      else .operand [.vec, .scl, .imm] w,
                 saMax := if hasPred then 7 else 0, sbMax := 1 })
  | .red min m =>
    some (m.e, { subs := if min = 0 ∨ min = 2 then [0, 1, 2, 3, 4, 5, 6] else [0, 2, 3, 4, 5, 6],
                 a := baseSpec m.e, b := idxSpec,
                 c := .operand [.vec, .scl, .imm] (if 2 ≤ min.toNat then .pair else .one), sbMax := 1 })
  | _ => none

/-! ## Checks -/

/-- An operand field against what the entry says of it. isDst: a latch bit is never legal there. -/
def opndError (s : OpSpec) (o : Opnd) : Option WfError :=
  match s with
  | .unused => if o = ⟨.vec, 0, false, false⟩ then none else some .operandKind
  | .number => if o.kind = .vec ∧ o.latch = false ∧ o.ind = false then none else some .operandKind
  | .operand acc w =>
    match o.kind with
    | .vec =>
      if !acc.contains .vec then some .operandKind
      else if o.latch then
        (if o.ind then some .indirection else if o.code.toNat ≤ 3 then none else some .operandCode)
      else if o.ind then none
      else if w = .one ∨ o.code.toNat % w.count = 0 then none else some .oddRegister
    | .scl =>
      if !acc.contains .scl then some .operandKind
      else if o.latch then some .operandCode
      else if o.ind then some .indirection
      else if o.code.toNat ≥ 64 then some .operandCode
      else if w = .one ∨ o.code.toNat % w.count = 0 then none else some .oddRegister
    | .imm =>
      if !acc.contains .imm then some .operandKind
      else if o.latch then some .operandCode
      else if o.ind then some .indirection
      else if o.code = 0 then none else some .operandCode
    | .spc =>
      if o.latch then some .operandCode
      else if o.ind then some .indirection
      else
        let n := o.code.toNat
        let ok := (acc.contains .pred && decide (n ≤ 6)) || (acc.contains .predAny && decide (n ≤ 7)) ||
          (acc.contains .idx && decide (8 ≤ n ∧ n ≤ 11)) || (acc.contains .conv && decide (16 ≤ n ∧ n ≤ 31)) ||
          (acc.contains .gslot && decide (32 ≤ n ∧ n ≤ 47))
        if acc.contains .pred || acc.contains .predAny || acc.contains .idx || acc.contains .conv || acc.contains .gslot then
          (if ok then none else some .operandCode)
        else some .operandKind

/-- Whether the destination makes the instruction result-producing (R51): it has a destination of kind 00. -/
def ESpec.produces (s : ESpec) (f : EForm) : Bool :=
  match s.d with
  | .operand _ _ => f.d.kind = .vec
  | _ => false

def Opnd.immCount (o : Opnd) : Nat := if o.kind = .imm then 1 else 0

def EForm.immCount (f : EForm) : Nat := f.a.immCount + f.b.immCount + f.c.immCount

def EForm.indCount (f : EForm) : Bool := f.d.ind || f.a.ind || f.b.ind || f.c.ind

/-- First failing check, in a fixed order. -/
def firstSome : List (Option WfError) → Option WfError
  | [] => none
  | none :: r => firstSome r
  | some e :: _ => some e

def need (ok : Bool) (e : WfError) : Option WfError := if ok then none else some e

/-- The checks of an E or E+L word against its entry. -/
def eError (f : EForm) (s : ESpec) (dispUsed : Bool) : Option WfError :=
  firstSome [
    need (s.subs.contains f.sub.toNat && s.cOk) .unassigned,
    need (f.rm.toNat ≤ s.rmMax) .rounding,
    need (!f.sat || s.sat) .saturation,
    need (!f.w || (s.produces f && f.d.code = 0)) .noWriteBack,
    need (!f.d.latch) .operandCode,
    need (f.d.kind ≠ .imm) .operandKind,
    opndError s.d f.d, opndError s.a f.a, opndError s.b f.b, opndError s.c f.c,
    need (if f.lit.isSome then s.eLong && f.immCount = 1 else (if dispUsed then f.immCount = 0 else f.immCount ≤ 1)) .immediates,
    need (f.indCount || f.xs = 0) .indirection,
    need (f.sa.toNat ≤ s.saMax && f.sb.toNat ≤ s.sbMax) .selector,
    need (dispUsed || f.imm8 = 0 || (f.lit.isNone && f.immCount = 1)) .unusedField]

/-- The checks of the B shape (R47, R68): D is not 124 to 127; W only with D = 0 (every such row produces a result). -/
def bError (w : Bool) (d : BitVec 7) : Option WfError :=
  firstSome [need (d.toNat < 124) .shortDest, need (!w || d = 0) .noWriteBack]

/-- The extra fields of the memory class (R58, R264, R267 to R273). C of atom.cas is no bypass latch. (DEDUCED, log 81) -/
def memError : Instr → Option WfError
  | .ld m => firstSome [need (m.ch ≠ 3) .unusedField, need (m.ok = 0) .unusedField, need (sbOk m.e) .selector]
  | .st m => firstSome [need (m.ch ≠ 3) .unusedField, need (m.ok = 0) .unusedField, need (sbOk m.e) .selector]
  | .lds m | .sts m => firstSome [need (m.ch = 0) .unusedField, need (m.ok = 0) .unusedField, need (sbOk m.e) .selector]
  | .movixRead m | .movixWrite m => firstSome [need (m.ch = 0 && m.ok = 0 && m.sc = 0) .unusedField]
  | .pf m => firstSome [need (m.ch ≠ 3) .unusedField, need (m.ok = 0) .unusedField, need (sbOk m.e) .selector]
  | .fenceAcq m | .fenceRel m | .fenceAr m | .fenceSys m =>
    firstSome [need (m.ch = 0 && m.ok = 0 && m.sc = 0 && m.dx = 0 && m.e.imm8 = 0) .unusedField]
  | .atom _ m =>
    firstSome [need (m.ch = 0) .unusedField, need (sbOk m.e) .selector, need (m.e.sub ≠ 7 || !m.e.c.latch) .operandKind,
      need (m.e.lit.isNone || m.e.a.kind = .imm || m.e.sub ≠ 7) .immediates]
  | .red _ m => firstSome [need (m.ch = 0) .unusedField, need (m.ok = 0) .unusedField, need (sbOk m.e) .selector]
  | _ => none

/-- The destination fields of the system instructions that have none are 0 (R139): KD, DH and D. ESpec.d = unused says so. -/
def cError (f : CForm) (cOk : Bool) : Option WfError :=
  firstSome [need cOk .unusedField,
    need (match f.tgt with | .absB _ => f.guard = ⟨7, false⟩ | _ => true) .unusedField]

/-- An indirect terminator's target (R48, R59). -/
def jError (f : JForm) : Option WfError := need (!f.latch || f.a.toNat ≤ 3) .operandCode

/-! ## Engine class (R60, R308, R309, R349 to R351, R378, R406) -/

def GForm.m (f : GForm) : Nat := if f.m2 = 0 then 16 else if f.m2 = 1 then 32 else 64
def GForm.n (f : GForm) : Nat := if f.n6 = 0 then 1024 else 16 * f.n6.toNat

/-- Accumulator origin of a code (R60). -/
def originRow (c : BitVec 8) : Nat := 16 * (c.toNat / 64)
def originCol (c : BitVec 8) : Nat := 16 * (c.toNat % 64)

/-- R61 and R286: the region fits the store; a `.f64` element takes two columns. -/
def originOk (c : BitVec 8) (m n : Nat) (f64 : Bool) : Bool :=
  originRow c + m ≤ 64 && originCol c + (if f64 then 2 * n else n) ≤ 1024

/-- What an engine entry says of one register field. -/
inductive GSpec where
  | zero
  | pred
  | predOrNone
  | map
  | origin
  | vec (align : Nat)
  deriving DecidableEq, Repr

/-- What an engine entry says of the word: shape 0 none, 1 M and N, 2 M only. -/
structure GEntry where
  subs : List Nat := [0]
  d : GSpec := .zero
  a : GSpec := .zero
  b : GSpec := .zero
  cOk : Bool := false
  shape : Nat := 0
  queued : Bool := true
  guarded : Bool := true
  f64 : Bool := false
  rmMax : Nat := 0
  sat : Bool := false
  immOk : Bool := false

/-- The formats that acld and acst accept (R320). -/
def accFormat (c : Nat) : Bool := [0, 2, 8, 9, 10, 11, 12, 13, 14].contains c

/-- acld and acst (R320): C[3:0] format, C[4] space, C[7:5] 0. -/
def accMove (f : GForm) (store : Bool) : GEntry :=
  let fmt := f.c.toNat % 16
  let mem := f.c.toNat / 16 % 2 = 1
  let plain := fmt = 2 ∨ fmt = 10 ∨ fmt = 11
  { d := .origin, a := if mem then .vec 2 else .map, b := if mem then .vec 1 else .zero,
    cOk := accFormat fmt && f.c.toNat < 32, shape := 1, f64 := fmt = 11,
    rmMax := if !store ∨ plain ∨ fmt = 0 then 0 else 5, sat := store && !plain, immOk := f.imm8 = 0 }

/-- The C field of a tile command (R350): spaces of the operands it uses, C[3] = C[7] = 0, the status predicate. -/
def tileC (f : GForm) (useD useA useB : Bool) : Bool :=
  !f.c.getLsbD 3 && !f.c.getLsbD 7 && (useD || !f.c.getLsbD 0) && (useA || !f.c.getLsbD 1) && (useB || !f.c.getLsbD 2)

def gEntry : Instr → Option (GForm × GEntry)
  | .mxacq f => some (f, { d := .pred, cOk := f.c = 0, queued := false, immOk := f.imm8 = 0 })
  | .mxrel f => some (f, { cOk := f.c = 0, queued := false, immOk := f.imm8 = 0 })
  | .omap f => some (f, { d := .map, a := .vec 4, cOk := f.c = 0, queued := false, immOk := f.imm8 = 0 })
  | .mxwait f => some (f, { d := .predOrNone, cOk := f.c = 0, queued := false, immOk := f.imm8 = 0 })
  | .mxfence f => some (f, { subs := [1], cOk := f.c = 0, guarded := false, immOk := f.imm8 = 0 })
  | .mmad f => some (f, { subs := allInt, d := .origin, a := .map, b := .map, cOk := f.c = 0, shape := 1, f64 := f.sub = 9,
                          sat := f.sub = 6, immOk := f.imm8 = 0 })
  | .mmas f => some (f, { subs := [0, 2, 3, 6], d := .origin, a := .map, b := .map, cOk := true, shape := 1, sat := f.sub = 6,
                          immOk := f.imm8 = 0 })
  | .mmaq f => some (f, { subs := [0, 1, 2, 4, 5, 6], d := .origin, a := .map, b := .map, cOk := f.c = 0, shape := 1,
                          immOk := f.imm8 = 0 })
  | .mscal f => some (f, { d := .origin, a := .map, cOk := originOk f.c f.m f.n false, shape := 1, immOk := f.imm8 = 0 })
  | .aczero f => some (f, { d := .origin, cOk := f.c = 0, shape := 1, immOk := f.imm8 = 0 })
  | .acld f => some (f, accMove f false)
  | .acst f => some (f, accMove f true)
  | .acmov f => some (f, { d := .origin, cOk := originOk f.c f.m f.n false, shape := 1, immOk := f.imm8 = 0 })
  | .spz f => some (f, { d := .vec 1, a := .map, b := .map, cOk := [0, 2, 3, 6].contains f.c.toNat, shape := 2,
                         immOk := f.imm8 = 0 })
  | .tnew f => some (f, { d := .vec 2, cOk := tileC f true false false,
                          immOk := f.imm8.toNat < 128 && f.imm8.toNat / 32 ≤ 2 && (f.imm8.toNat / 32 = 2 || f.imm8.toNat % 32 = 0) })
  | .tfree f => some (f, { d := .vec 2, cOk := tileC f true false false, immOk := f.imm8 = 0 })
  | .tinfo f => some (f, { d := .vec 4, a := .vec 2, cOk := tileC f false true false && f.c.toNat / 16 = 7, immOk := f.imm8 = 0 })
  | .tmov f => some (f, { d := .vec 2, a := .vec 2, cOk := tileC f true true false, immOk := f.imm8.toNat ≤ 1 })
  | .tadd f => some (f, { subs := [0, 1], d := .vec 2, a := .vec 2, b := .vec 2, cOk := tileC f true true true, immOk := f.imm8.toNat ≤ 1 })
  | .tmul f => some (f, { subs := [0, 1], d := .vec 2, a := .vec 2, b := .vec 2, cOk := tileC f true true true, immOk := f.imm8 = 0 })
  | .trnd f => some (f, { d := .vec 2, a := .vec 2, cOk := tileC f true true false, immOk := f.imm8 = 0 })
  | .tdense f => some (f, { d := .vec 2, a := .vec 2, cOk := tileC f true true false, immOk := f.imm8 = 0 })
  | .tlu f => some (f, { subs := [1], d := .vec 2, a := .vec 2, cOk := tileC f true true false, immOk := f.imm8 = 0 })
  | .tchol f => some (f, { subs := [2], d := .vec 2, a := .vec 2, cOk := tileC f true true false, immOk := f.imm8 = 0 })
  | .ttrsm f => some (f, { subs := [3], d := .vec 2, a := .vec 2, b := .vec 2, cOk := tileC f true true true, immOk := f.imm8.toNat ≤ 15 })
  | .tdelta f => some (f, { subs := [4], d := .vec 2, a := .vec 2,
                            cOk := tileC f true true false && f.c.getLsbD 0 && f.c.getLsbD 1, immOk := f.imm8 = 0 })
  | .tcopy f => some (f, { a := .vec 2, cOk := f.c = 0, immOk := f.imm8 = 0 })
  | .gath f => some (f, { a := .vec 2, cOk := f.c = 0, immOk := f.imm8 = 0 })
  | .scat f => some (f, { subs := [0, 1, 2, 3, 4, 5], a := .vec 2, cOk := f.c = 0, immOk := f.imm8 = 0 })
  | .rules f => some (f, { a := .vec 2, cOk := f.c = 0, immOk := f.imm8 = 0 })
  | .tcwait f => some (f, { subs := [1], d := .predOrNone, cOk := f.c = 0, queued := false, immOk := f.imm8 = 0 })
  | .spred f => some (f, { a := .vec 2, cOk := f.c = 0, immOk := f.imm8 = 0 })
  | .sfetch f => some (f, { a := .vec 2, cOk := f.c = 0, immOk := f.imm8 = 0 })
  | .scheck f => some (f, { a := .vec 2, cOk := f.c = 0, immOk := f.imm8 = 0 })
  | .swait f => some (f, { d := .predOrNone, cOk := f.c = 0, queued := false, immOk := f.imm8 = 0 })
  | _ => none

def gFieldError (s : GSpec) (code : BitVec 8) (m n : Nat) (f64 : Bool) : Option WfError :=
  match s with
  | .zero => need (code = 0) .operandKind
  | .pred => need (code.toNat ≤ 6) .operandCode
  | .predOrNone => need (code.toNat ≤ 7) .operandCode
  | .map => need (code.toNat ≤ 15) .operandCode
  | .origin => need (originOk code m n f64) .engineShape
  | .vec al => need (code.toNat % al = 0) .oddRegister

def gError (f : GForm) (s : GEntry) : Option WfError :=
  firstSome [
    need (s.subs.contains f.sub.toNat) .unassigned,
    need (f.rm.toNat ≤ s.rmMax) .rounding,
    need (!f.sat || s.sat) .saturation,
    need (match s.shape with
      | 0 => f.n6 = 0 && f.m2 = 0
      | 1 => f.m2 ≠ 3
      | _ => f.m2 ≠ 3 && f.n6 = 0) .engineShape,
    gFieldError s.d f.d f.m f.n s.f64, gFieldError s.a f.a f.m f.n s.f64, gFieldError s.b f.b f.m f.n s.f64,
    need s.cOk .unassigned,
    need (if s.queued then (f.ge && s.guarded) || (!f.ge && f.gs = 0 && !f.gp)
          else !f.ge && f.gs = 0 && !f.gp && f.cv = 0) .engineGuard,
    need s.immOk .unusedField]

/-- The first condition of R68 that the words of an instruction break, or none. The rows that are steps of the machine have
no words. -/
def firstError (i : Instr) : Option WfError :=
  match i with
  | .addB f | .subB f | .mulB f | .mulhB f | .minB f | .maxB f | .andB f | .orB f | .xorB f | .andnB f | .shlB f | .shrB f
  | .sarB f | .rolB f | .faddB f | .fsubB f | .fmulB f | .fminB f | .fmaxB f | .fdivB f => bError f.w f.d
  | .absB f | .notB f | .movB f | .frcpB f | .frsqB f | .fsqrtB f | .fexp2B f | .flog2B f | .fsinpiB f | .fcospiB f =>
    bError f.w f.d
  | .movlBL w d _ => bError w d
  | .blockHeader _ hwm len => need (hwm.toNat ≤ 256 && len ≠ 0) .header
  | .braE f | .callE f | .reformE f => cError f (f.c = 0)
  | .brcE f => cError f (f.c.toNat < 16)
  | .exittoE f => cError f true
  | .jmpiE f | .calliE f => jError f
  | .retE f | .exitE f => need (f.c = 0) .unusedField
  | i =>
    match eSpec i with
    | some (f, s) =>
      let disp := match i with
        | .ld _ | .st _ | .lds _ | .sts _ | .movixRead _ | .movixWrite _ | .pf _ | .fenceAcq _ | .fenceRel _ | .fenceAr _
        | .fenceSys _ | .atom _ _ | .red _ _ => true
        | _ => false
      firstSome [eError f s disp, memError i,
        need (match i with | .movlEL _ => f.lit.isSome | _ => true) .immediates]
    | none =>
      match gEntry i with
      | some (f, s) => gError f s
      | none => none

/-- Legal by its own words. -/
def WellFormed (i : Instr) : Prop := firstError i = none

def wellFormed (i : Instr) : Bool := (firstError i).isNone

end Sys2Proof
end

