-- ==== Sys2Proof/Decode.lean ====
section
/-!
DEFINITION. Decoding (spec/03_formats_opcodes.md R43 to R66): from the words of an instruction to its constructor, rejecting by
name, and the encoder written from the same tables. A word is a Nat below 2^32; its fields are read by unpack, whose widths are
listed from bit 0 up.
-/
namespace Sys2Proof

/-- Why words do not decode (R68). -/
inductive DecodeError where
  /-- words are missing -/
  | truncated
  /-- no row has this MAJ, MIN and SUB in this shape (R63 to R65) -/
  | unassigned
  /-- a reserved field, or a field the row does not use, is nonzero -/
  | reserved
  /-- the row's own entry refuses the word -/
  | illFormed (e : WfError)
  deriving DecidableEq, Repr

/-! ## Fields -/

/-- The fields of a word, given their widths from bit 0 up; whatever lies above them comes last. -/
def unpack : List Nat → Nat → List Nat
  | [], w => [w]
  | k :: ks, w => w % 2 ^ k :: unpack ks (w / 2 ^ k)

/-- The word with these fields (width, value) from bit 0 up. -/
def pack : List (Nat × Nat) → Nat
  | [] => 0
  | (k, v) :: r => v + 2 ^ k * pack r

def Bool.bit (b : Bool) : Nat := if b then 1 else 0

def OpKind.code : OpKind → Nat
  | .vec => 0
  | .scl => 1
  | .imm => 2
  | .spc => 3

def kindOf (n : Nat) : OpKind :=
  match n with
  | 0 => .vec
  | 1 => .scl
  | 2 => .imm
  | _ => .spc

/-- Word 0 (R44): B, A, D, W, MIN, MAJ, L. -/
def word0Widths : List Nat := [7, 7, 7, 1, 2, 6, 2]
/-- Word 1 (R45): SB, SA, XS, XI, C, SAT, RM, SUB, GN, G. -/
def word1Widths : List Nat := [3, 3, 2, 1, 1, 1, 1, 8, 1, 3, 4, 1, 3]
/-- Word 2 of the register class (R46, R57): IMM8, reserved, KC, KB, KA, KD, LC, LB, LA, BH, AH, DH. -/
def word2RegWidths : List Nat := [8, 10, 2, 2, 2, 2, 1, 1, 1, 1, 1, 1]
/-- Word 2 of the memory class (R58): IMM8, DX, OK, SC, CH, KC, KB, KA, KD, LC, LB, LA, BH, AH, DH. -/
def word2MemWidths : List Nat := [8, 4, 2, 2, 2, 2, 2, 2, 2, 1, 1, 1, 1, 1, 1]
/-- Word 2 of the engine class (R60): IMM8, CV, GE, GP, GS, M2, N6, LC, LB, LA, BH, AH, DH. -/
def word2EngWidths : List Nat := [8, 4, 1, 1, 4, 2, 6, 1, 1, 1, 1, 1, 1]

/-! ## Rows -/

/-- The E and E+L rows of the register class by MAJ:MIN (R63) and, on MAJ 0x3E, SUB (R64). -/
def regRow (op : Nat) (sub : Nat) (f : EForm) : Option Instr :=
  match op with
  | 0x00 => some (.addE f)
  | 0x01 => some (.subE f)
  | 0x02 => some (.addc f)
  | 0x03 => some (.subb f)
  | 0x04 => some (.mulE f)
  | 0x05 => some (.mulhE f)
  | 0x06 => some (.mad f)
  | 0x08 => some (.minE f)
  | 0x09 => some (.maxE f)
  | 0x0A => some (.absE f)
  | 0x0C => some (.andE f)
  | 0x0D => some (.orE f)
  | 0x0E => some (.xorE f)
  | 0x0F => some (.andnE f)
  | 0x10 => some (.notE f)
  | 0x11 => some (.shlE f)
  | 0x12 => some (.shrE f)
  | 0x13 => some (.sarE f)
  | 0x14 => some (.rolE f)
  | 0x15 => some (.clz f)
  | 0x16 => some (.popc f)
  | 0x17 => some (.brev f)
  | 0x18 => some (.bfe f)
  | 0x19 => some (.bfi f)
  | 0x1A => some (.sel f)
  | 0x1C => some (.cmp f)
  | 0x20 => some (.pand f)
  | 0x21 => some (.por f)
  | 0x22 => some (.pxor f)
  | 0x23 => some (.pnot f)
  | 0x24 => some (.movE f)
  | 0x25 => some (.movlEL f)
  | 0x26 => some (.lea f)
  | 0x30 => some (.cvt f)
  | 0x31 => some (.pack8 f)
  | 0x32 => some (.pack4 f)
  | 0x40 => some (.faddE f)
  | 0x41 => some (.fsubE f)
  | 0x42 => some (.fmulE f)
  | 0x43 => some (.fma f)
  | 0x44 => some (.fminE f)
  | 0x45 => some (.fmaxE f)
  | 0x46 => some (.fcmp f)
  | 0x47 => some (.fclass f)
  | 0x48 => some (.hfma2 f)
  | 0x49 => some (.fdot2 f)
  | 0x4C => some (.frcpE f)
  | 0x4D => some (.frsqE f)
  | 0x4E => some (.fsqrtE f)
  | 0x4F => some (.fdivE f)
  | 0x50 => some (.fexp2E f)
  | 0x51 => some (.flog2E f)
  | 0x52 => some (.fsinpiE f)
  | 0x53 => some (.fcospiE f)
  | 0x54 => some (.ftwid f)
  | 0x80 => some (.shflIdx f)
  | 0x81 => some (.shflXor f)
  | 0x82 => some (.shflUp f)
  | 0x83 => some (.shflDown f)
  | 0x84 => some (.voteAny f)
  | 0x85 => some (.voteAll f)
  | 0x86 => some (.voteBallot f)
  | 0x88 => some (.matchLanes f)
  | 0x89 => some (.redux f)
  | 0x8A => some (.scan f)
  | 0x8B => some (.isect f)
  | 0x98 => some (.arrive f)
  | 0x99 => some (.await f)
  | 0x9A => some (.arwait f)
  | 0x9B => some (.awaitElect f)
  | 0x9C => some (.sign f)
  | 0x9D => some (.evpost f)
  | 0x9E => some (.evwait f)
  | 0x9F => some (.yield f)
  | 0xA0 => some (.gdset f)
  | 0xA1 => some (.gdclr f)
  | 0xF8 => (match sub with | 0 => some (.rdsys f) | 1 => some (.wrsys f) | _ => none)
  | 0xF9 => (match sub with | 0 => some (.claim f) | 1 => some (.cede f) | _ => none)
  | 0xFA => (match sub with | 0 => some (.lfsrd f) | 1 => some (.lfswr f) | _ => none)
  | 0xFB => (match sub with | 1 => some (.probe f) | 2 => some (.icinv f) | _ => none)
  | _ => none

/-- MAJ:MIN and the fields of an E or E+L register-class instruction (R63). -/
def regFields : Instr → Option (Nat × EForm)
  | .addE f => some (0x00, f)
  | .subE f => some (0x01, f)
  | .addc f => some (0x02, f)
  | .subb f => some (0x03, f)
  | .mulE f => some (0x04, f)
  | .mulhE f => some (0x05, f)
  | .mad f => some (0x06, f)
  | .minE f => some (0x08, f)
  | .maxE f => some (0x09, f)
  | .absE f => some (0x0A, f)
  | .andE f => some (0x0C, f)
  | .orE f => some (0x0D, f)
  | .xorE f => some (0x0E, f)
  | .andnE f => some (0x0F, f)
  | .notE f => some (0x10, f)
  | .shlE f => some (0x11, f)
  | .shrE f => some (0x12, f)
  | .sarE f => some (0x13, f)
  | .rolE f => some (0x14, f)
  | .clz f => some (0x15, f)
  | .popc f => some (0x16, f)
  | .brev f => some (0x17, f)
  | .bfe f => some (0x18, f)
  | .bfi f => some (0x19, f)
  | .sel f => some (0x1A, f)
  | .cmp f => some (0x1C, f)
  | .pand f => some (0x20, f)
  | .por f => some (0x21, f)
  | .pxor f => some (0x22, f)
  | .pnot f => some (0x23, f)
  | .movE f => some (0x24, f)
  | .movlEL f => some (0x25, f)
  | .lea f => some (0x26, f)
  | .cvt f => some (0x30, f)
  | .pack8 f => some (0x31, f)
  | .pack4 f => some (0x32, f)
  | .faddE f => some (0x40, f)
  | .fsubE f => some (0x41, f)
  | .fmulE f => some (0x42, f)
  | .fma f => some (0x43, f)
  | .fminE f => some (0x44, f)
  | .fmaxE f => some (0x45, f)
  | .fcmp f => some (0x46, f)
  | .fclass f => some (0x47, f)
  | .hfma2 f => some (0x48, f)
  | .fdot2 f => some (0x49, f)
  | .frcpE f => some (0x4C, f)
  | .frsqE f => some (0x4D, f)
  | .fsqrtE f => some (0x4E, f)
  | .fdivE f => some (0x4F, f)
  | .fexp2E f => some (0x50, f)
  | .flog2E f => some (0x51, f)
  | .fsinpiE f => some (0x52, f)
  | .fcospiE f => some (0x53, f)
  | .ftwid f => some (0x54, f)
  | .shflIdx f => some (0x80, f)
  | .shflXor f => some (0x81, f)
  | .shflUp f => some (0x82, f)
  | .shflDown f => some (0x83, f)
  | .voteAny f => some (0x84, f)
  | .voteAll f => some (0x85, f)
  | .voteBallot f => some (0x86, f)
  | .matchLanes f => some (0x88, f)
  | .redux f => some (0x89, f)
  | .scan f => some (0x8A, f)
  | .isect f => some (0x8B, f)
  | .arrive f => some (0x98, f)
  | .await f => some (0x99, f)
  | .arwait f => some (0x9A, f)
  | .awaitElect f => some (0x9B, f)
  | .sign f => some (0x9C, f)
  | .evpost f => some (0x9D, f)
  | .evwait f => some (0x9E, f)
  | .yield f => some (0x9F, f)
  | .gdset f => some (0xA0, f)
  | .gdclr f => some (0xA1, f)
  | .rdsys f => some (0xF8, f)
  | .wrsys f => some (0xF8, f)
  | .claim f => some (0xF9, f)
  | .cede f => some (0xF9, f)
  | .lfsrd f => some (0xFA, f)
  | .lfswr f => some (0xFA, f)
  | .probe f => some (0xFB, f)
  | .icinv f => some (0xFB, f)
  | _ => none

/-- The rows of the memory class by MAJ:MIN (R63); movix by SA[0] (R267). -/
def memRow (op : Nat) (m : MForm) : Option Instr :=
  match op with
  | 0xA8 => some (.ld m)
  | 0xA9 => some (.st m)
  | 0xAC => some (.lds m)
  | 0xAD => some (.sts m)
  | 0xB4 => some (.pf m)
  | 0xB8 => some (.fenceAcq m)
  | 0xB9 => some (.fenceRel m)
  | 0xBA => some (.fenceAr m)
  | 0xBB => some (.fenceSys m)
  | 0xB0 => some (if m.e.sa.getLsbD 0 then .movixWrite m else .movixRead m)
  | 0xC8 => some (.atom 0 m)
  | 0xC9 => some (.atom 1 m)
  | 0xCA => some (.atom 2 m)
  | 0xCB => some (.atom 3 m)
  | 0xCC => some (.red 0 m)
  | 0xCD => some (.red 1 m)
  | 0xCE => some (.red 2 m)
  | 0xCF => some (.red 3 m)
  | _ => none

def memFields : Instr → Option (Nat × MForm)
  | .ld m => some (0xA8, m)
  | .st m => some (0xA9, m)
  | .lds m => some (0xAC, m)
  | .sts m => some (0xAD, m)
  | .pf m => some (0xB4, m)
  | .fenceAcq m => some (0xB8, m)
  | .fenceRel m => some (0xB9, m)
  | .fenceAr m => some (0xBA, m)
  | .fenceSys m => some (0xBB, m)
  | .movixRead m => some (0xB0, m)
  | .movixWrite m => some (0xB0, m)
  | .atom n m => some (0xC8 + n.toNat, m)
  | .red n m => some (0xCC + n.toNat, m)
  | _ => none

/-- The rows of the engine class by MAJ:MIN (R63) and, where MIN 3 is shared, SUB (R64). -/
def engRow (op : Nat) (sub : Nat) (f : GForm) : Option Instr :=
  match op with
  | 0xD8 => some (.mxacq f)
  | 0xD9 => some (.mxrel f)
  | 0xDA => some (.omap f)
  | 0xDB => (match sub with | 0 => some (.mxwait f) | 1 => some (.mxfence f) | _ => none)
  | 0xDC => some (.mmad f)
  | 0xDD => some (.mmas f)
  | 0xDE => some (.mmaq f)
  | 0xDF => some (.mscal f)
  | 0xE0 => some (.aczero f)
  | 0xE1 => some (.acld f)
  | 0xE2 => some (.acst f)
  | 0xE3 => some (.acmov f)
  | 0xE4 => some (.spz f)
  | 0xE8 => some (.tnew f)
  | 0xE9 => some (.tfree f)
  | 0xEA => some (.tinfo f)
  | 0xEB => some (.tmov f)
  | 0xEC => some (.tadd f)
  | 0xED => some (.tmul f)
  | 0xEE => some (.trnd f)
  | 0xEF => (match sub with | 0 => some (.tdense f) | 1 => some (.tlu f) | 2 => some (.tchol f) | 3 => some (.ttrsm f) | 4 => some (.tdelta f) | _ => none)
  | 0xF0 => some (.tcopy f)
  | 0xF1 => some (.gath f)
  | 0xF2 => some (.scat f)
  | 0xF3 => (match sub with | 0 => some (.rules f) | 1 => some (.tcwait f) | _ => none)
  | 0xF4 => some (.spred f)
  | 0xF5 => some (.sfetch f)
  | 0xF6 => some (.scheck f)
  | 0xF7 => some (.swait f)
  | _ => none

def engFields : Instr → Option (Nat × GForm)
  | .mxacq f => some (0xD8, f)
  | .mxrel f => some (0xD9, f)
  | .omap f => some (0xDA, f)
  | .mxwait f => some (0xDB, f)
  | .mxfence f => some (0xDB, f)
  | .mmad f => some (0xDC, f)
  | .mmas f => some (0xDD, f)
  | .mmaq f => some (0xDE, f)
  | .mscal f => some (0xDF, f)
  | .aczero f => some (0xE0, f)
  | .acld f => some (0xE1, f)
  | .acst f => some (0xE2, f)
  | .acmov f => some (0xE3, f)
  | .spz f => some (0xE4, f)
  | .tnew f => some (0xE8, f)
  | .tfree f => some (0xE9, f)
  | .tinfo f => some (0xEA, f)
  | .tmov f => some (0xEB, f)
  | .tadd f => some (0xEC, f)
  | .tmul f => some (0xED, f)
  | .trnd f => some (0xEE, f)
  | .tdense f => some (0xEF, f)
  | .tlu f => some (0xEF, f)
  | .tchol f => some (0xEF, f)
  | .ttrsm f => some (0xEF, f)
  | .tdelta f => some (0xEF, f)
  | .tcopy f => some (0xF0, f)
  | .gath f => some (0xF1, f)
  | .scat f => some (0xF2, f)
  | .rules f => some (0xF3, f)
  | .tcwait f => some (0xF3, f)
  | .spred f => some (0xF4, f)
  | .sfetch f => some (0xF5, f)
  | .scheck f => some (0xF6, f)
  | .swait f => some (0xF7, f)
  | _ => none

/-- The B rows with two sources by MAJ:MIN (R63, R65). -/
def shortRow (op : Nat) (f : BForm) : Option Instr :=
  match op with
  | 0x00 => some (.addB f)
  | 0x01 => some (.subB f)
  | 0x04 => some (.mulB f)
  | 0x05 => some (.mulhB f)
  | 0x08 => some (.minB f)
  | 0x09 => some (.maxB f)
  | 0x0C => some (.andB f)
  | 0x0D => some (.orB f)
  | 0x0E => some (.xorB f)
  | 0x0F => some (.andnB f)
  | 0x11 => some (.shlB f)
  | 0x12 => some (.shrB f)
  | 0x13 => some (.sarB f)
  | 0x14 => some (.rolB f)
  | 0x40 => some (.faddB f)
  | 0x41 => some (.fsubB f)
  | 0x42 => some (.fmulB f)
  | 0x44 => some (.fminB f)
  | 0x45 => some (.fmaxB f)
  | 0x4F => some (.fdivB f)
  | _ => none

def shortFields : Instr → Option (Nat × BForm)
  | .addB f => some (0x00, f)
  | .subB f => some (0x01, f)
  | .mulB f => some (0x04, f)
  | .mulhB f => some (0x05, f)
  | .minB f => some (0x08, f)
  | .maxB f => some (0x09, f)
  | .andB f => some (0x0C, f)
  | .orB f => some (0x0D, f)
  | .xorB f => some (0x0E, f)
  | .andnB f => some (0x0F, f)
  | .shlB f => some (0x11, f)
  | .shrB f => some (0x12, f)
  | .sarB f => some (0x13, f)
  | .rolB f => some (0x14, f)
  | .faddB f => some (0x40, f)
  | .fsubB f => some (0x41, f)
  | .fmulB f => some (0x42, f)
  | .fminB f => some (0x44, f)
  | .fmaxB f => some (0x45, f)
  | .fdivB f => some (0x4F, f)
  | _ => none

/-- The B rows with one source. -/
def unaryRow (op : Nat) (f : BUnary) : Option Instr :=
  match op with
  | 0x0A => some (.absB f)
  | 0x10 => some (.notB f)
  | 0x24 => some (.movB f)
  | 0x4C => some (.frcpB f)
  | 0x4D => some (.frsqB f)
  | 0x4E => some (.fsqrtB f)
  | 0x50 => some (.fexp2B f)
  | 0x51 => some (.flog2B f)
  | 0x52 => some (.fsinpiB f)
  | 0x53 => some (.fcospiB f)
  | _ => none

def unaryFields : Instr → Option (Nat × BUnary)
  | .absB f => some (0x0A, f)
  | .notB f => some (0x10, f)
  | .movB f => some (0x24, f)
  | .frcpB f => some (0x4C, f)
  | .frsqB f => some (0x4D, f)
  | .fsqrtB f => some (0x4E, f)
  | .fexp2B f => some (0x50, f)
  | .flog2B f => some (0x51, f)
  | .fsinpiB f => some (0x52, f)
  | .fcospiB f => some (0x53, f)
  | _ => none
/-! ## Decoding -/

/-- A direct terminator's row by MAJ:MIN (R63). -/
def directRow (op : Nat) (f : CForm) : Option Instr :=
  match op with
  | 0x68 => some (.braE f)
  | 0x69 => some (.brcE f)
  | 0x6C => some (.callE f)
  | 0x71 => some (.exittoE f)
  | 0x72 => some (.reformE f)
  | _ => none

def directFields : Instr → Option (Nat × CForm)
  | .braE f => some (0x68, f)
  | .brcE f => some (0x69, f)
  | .callE f => some (0x6C, f)
  | .exittoE f => some (0x71, f)
  | .reformE f => some (0x72, f)
  | _ => none

def indirectRow (op : Nat) (f : JForm) : Option Instr :=
  match op with
  | 0x6A => some (.jmpiE f)
  | 0x6D => some (.calliE f)
  | _ => none

def indirectFields : Instr → Option (Nat × JForm)
  | .jmpiE f => some (0x6A, f)
  | .calliE f => some (0x6D, f)
  | _ => none

/-- ret, exit, trap and brk in the E shape. -/
def plainRow (op : Nat) (f : XForm) : Option Instr :=
  match op with
  | 0x6E => some (.retE f)
  | 0x70 => some (.exitE f)
  | 0x73 => some (.trapE f)
  | 0xFB => some (.brkE f)
  | _ => none

def plainFields : Instr → Option (Nat × XForm)
  | .retE f => some (0x6E, f)
  | .exitE f => some (0x70, f)
  | .trapE f => some (0x73, f)
  | .brkE f => some (0xFB, f)
  | _ => none

/-- The low 21 bits of a B or B+L direct terminator (R62): the C field it stands for and the width of its offset. -/
def directLow (op : Nat) (low : Nat) : Option (Nat × Nat × Nat) :=
  match op with
  | 0x68 | 0x6C | 0x72 => some (0, 21, low)
  | 0x69 => some (low / 2 ^ 18 + 8 * (low / 2 ^ 17 % 2), 17, low % 2 ^ 17)
  | 0x71 => some (low / 2 ^ 13, 13, low % 2 ^ 13)
  | _ => none

def ofOption (e : DecodeError) : Option α → Except DecodeError α
  | some a => .ok a
  | none => .error e

/-- The B shape (R47, R62). -/
def decodeB (w0 : Nat) : Except DecodeError Instr :=
  match unpack word0Widths w0 with
  | [b, a, d, w, mn, mj, _, _] =>
    let op := mj * 4 + mn
    let low := w0 % 2 ^ 21
    if w0 = 0 then .ok .nop
    else match op with
    | 0x7F => .ok (.blockHeader (w = 1) (BitVec.ofNat 9 (low / 2 ^ 12)) (BitVec.ofNat 12 (low % 2 ^ 12)))
    | 0x68 => if w = 0 then .ok (.braB (BitVec.ofNat 21 low)) else .error .reserved
    | 0x69 =>
      if w = 0 then .ok (.brcB (BitVec.ofNat 3 (low / 2 ^ 18)) (low / 2 ^ 17 % 2 = 1) (BitVec.ofNat 17 low)) else .error .reserved
    | 0x6A => if w = 0 ∧ d = 0 ∧ b = 0 then .ok (.jmpiB (BitVec.ofNat 7 a)) else .error .reserved
    | 0x6C => if w = 0 then .ok (.callB (BitVec.ofNat 21 low)) else .error .reserved
    | 0x6D => if w = 0 ∧ d = 0 ∧ b = 0 then .ok (.calliB (BitVec.ofNat 7 a)) else .error .reserved
    | 0x6E => if w = 0 ∧ low = 0 then .ok .retB else .error .reserved
    | 0x70 => if w = 0 ∧ low = 0 then .ok .exitB else .error .reserved
    | 0x71 => if w = 0 then .ok (.exittoB (BitVec.ofNat 8 (low / 2 ^ 13)) (BitVec.ofNat 13 low)) else .error .reserved
    | 0x72 => if w = 0 then .ok (.reformB (BitVec.ofNat 21 low)) else .error .reserved
    | 0x73 => if w = 0 ∧ low < 256 then .ok (.trapB (BitVec.ofNat 8 low)) else .error .reserved
    | 0xFB => if w = 0 ∧ low < 256 then .ok (.brkB (BitVec.ofNat 8 low)) else .error .reserved
    | _ =>
      match shortRow op ⟨w = 1, BitVec.ofNat 7 d, BitVec.ofNat 7 a, BitVec.ofNat 7 b⟩ with
      | some i => .ok i
      | none =>
        match unaryRow op ⟨w = 1, BitVec.ofNat 7 d, BitVec.ofNat 7 a⟩ with
        | some i => if b = 0 then .ok i else .error .reserved
        | none => .error .unassigned
  | _ => .error .unassigned

/-- The B+L shape (R62, R66). -/
def decodeBL (w0 : Nat) (lit : Nat) : Except DecodeError Instr :=
  match unpack word0Widths w0 with
  | [b, a, d, w, mn, mj, _, _] =>
    let op := mj * 4 + mn
    if op = 0x25 then
      (if a = 0 ∧ b = 0 then .ok (.movlBL (w = 1) (BitVec.ofNat 7 d) (BitVec.ofNat 64 lit)) else .error .reserved)
    else match directLow op (w0 % 2 ^ 21) with
      | some (c, _, off) =>
        if w = 0 ∧ off = 0 then
          ofOption .unassigned (directRow op ⟨⟨7, false⟩, BitVec.ofNat 8 c, .absB (BitVec.ofNat 64 lit)⟩)
        else .error .reserved
      | none => .error .unassigned
  | _ => .error .unassigned

/-- The common fields of words 0 and 1 of an E or E+L word. -/
structure EFields where
  op : Nat
  w : Nat
  d : Nat
  a : Nat
  b : Nat
  sb : Nat
  sa : Nat
  xs : Nat
  xc : Nat
  xb : Nat
  xa : Nat
  xd : Nat
  c : Nat
  sat : Nat
  rm : Nat
  sub : Nat
  gn : Nat
  g : Nat

def eFields (w0 w1 : Nat) : Option EFields :=
  match unpack word0Widths w0, unpack word1Widths w1 with
  | [b, a, d, w, mn, mj, _, _], [sb, sa, xs, xc, xb, xa, xd, c, sat, rm, sub, gn, g, _] =>
    some ⟨mj * 4 + mn, w, d, a, b, sb, sa, xs, xc, xb, xa, xd, c, sat, rm, sub, gn, g⟩
  | _, _ => none

def EFields.guard (e : EFields) : Guard := ⟨BitVec.ofNat 3 e.g, e.gn = 1⟩

/-- No use of SUB, RM, SAT, XI, XS, SA, SB (R131). -/
def EFields.plain (e : EFields) : Bool :=
  e.sub = 0 && e.rm = 0 && e.sat = 0 && e.xc = 0 && e.xb = 0 && e.xa = 0 && e.xd = 0 && e.xs = 0 && e.sa = 0 && e.sb = 0

def EFields.form (e : EFields) (lit : Option Dword) (dh ah bh la lb lc kd ka kb kc imm8 : Nat) : EForm :=
  { lit := lit, w := e.w = 1, guard := e.guard, sub := BitVec.ofNat 4 e.sub, rm := BitVec.ofNat 3 e.rm, sat := e.sat = 1,
    d := ⟨kindOf kd, BitVec.ofNat 8 (e.d + 128 * dh), false, e.xd = 1⟩,
    a := ⟨kindOf ka, BitVec.ofNat 8 (e.a + 128 * ah), la = 1, e.xa = 1⟩,
    b := ⟨kindOf kb, BitVec.ofNat 8 (e.b + 128 * bh), lb = 1, e.xb = 1⟩,
    c := ⟨kindOf kc, BitVec.ofNat 8 e.c, lc = 1, e.xc = 1⟩,
    xs := BitVec.ofNat 2 e.xs, sa := BitVec.ofNat 3 e.sa, sb := BitVec.ofNat 3 e.sb, imm8 := BitVec.ofNat 8 imm8 }

/-- The register class (R57). -/
def decodeReg (e : EFields) (w2 : Nat) (lit : Option Dword) : Except DecodeError Instr :=
  match unpack word2RegWidths w2 with
  | [imm8, rsv, kc, kb, ka, kd, lc, lb, la, bh, ah, dh, _] =>
    if rsv ≠ 0 then .error .reserved
    else ofOption .unassigned (regRow e.op e.sub (e.form lit dh ah bh la lb lc kd ka kb kc imm8))
  | _ => .error .unassigned

/-- The memory class (R58). -/
def decodeMem (e : EFields) (w2 : Nat) (lit : Option Dword) : Except DecodeError Instr :=
  match unpack word2MemWidths w2 with
  | [imm8, dx, ok, sc, ch, kc, kb, ka, kd, lc, lb, la, bh, ah, dh, _] =>
    ofOption .unassigned (memRow e.op
      { e := e.form lit dh ah bh la lb lc kd ka kb kc imm8, ch := BitVec.ofNat 2 ch, sc := BitVec.ofNat 2 sc,
        ok := BitVec.ofNat 2 ok, dx := BitVec.ofNat 4 dx })
  | _ => .error .unassigned

/-- The engine class (R60, R308): W, XI, XS, SA, SB and the latch bits are 0. -/
def decodeEng (e : EFields) (w2 : Nat) : Except DecodeError Instr :=
  match unpack word2EngWidths w2 with
  | [imm8, cv, ge, gp, gs, m2, n6, lc, lb, la, bh, ah, dh, _] =>
    if e.w ≠ 0 ∨ e.xc ≠ 0 ∨ e.xb ≠ 0 ∨ e.xa ≠ 0 ∨ e.xd ≠ 0 ∨ e.xs ≠ 0 ∨ e.sa ≠ 0 ∨ e.sb ≠ 0 ∨ lc ≠ 0 ∨ lb ≠ 0 ∨ la ≠ 0 then
      .error .reserved
    else ofOption .unassigned (engRow e.op e.sub
      { guard := e.guard, sub := BitVec.ofNat 4 e.sub, rm := BitVec.ofNat 3 e.rm, sat := e.sat = 1,
        d := BitVec.ofNat 8 (e.d + 128 * dh), a := BitVec.ofNat 8 (e.a + 128 * ah), b := BitVec.ofNat 8 (e.b + 128 * bh),
        c := BitVec.ofNat 8 e.c, n6 := BitVec.ofNat 6 n6, m2 := BitVec.ofNat 2 m2, gs := BitVec.ofNat 4 gs, gp := gp = 1,
        ge := ge = 1, cv := BitVec.ofNat 4 cv, imm8 := BitVec.ofNat 8 imm8 })
  | _ => .error .unassigned

/-- The control class and brk in the E and E+L shapes (R59, R62, R131, R136). -/
def decodeCtl (e : EFields) (w2 : Nat) (lit : Option Dword) : Except DecodeError Instr :=
  if e.w ≠ 0 ∨ e.plain = false ∨ e.d ≠ 0 ∨ e.b ≠ 0 then .error .reserved
  else match directRow e.op ⟨e.guard, BitVec.ofNat 8 e.c,
      match lit with | some l => .absE l | none => .rel (BitVec.ofNat 26 w2)⟩ with
    | some i => if e.a = 0 ∧ w2 < 2 ^ 26 ∧ (lit.isNone ∨ w2 = 0) then .ok i else .error .reserved
    | none =>
      if lit.isSome then .error .unassigned
      else match unpack [28, 1, 1, 1, 1] w2 with
      | [low, la, z0, ah, z1, _] =>
        match indirectRow e.op ⟨e.guard, BitVec.ofNat 8 (e.a + 128 * ah), la = 1⟩ with
        | some i => if low = 0 ∧ z0 = 0 ∧ z1 = 0 ∧ e.c = 0 then .ok i else .error .reserved
        | none =>
          match plainRow e.op ⟨e.guard, BitVec.ofNat 8 e.c⟩ with
          | some i => if e.a = 0 ∧ w2 = 0 then .ok i else .error .reserved
          | none => .error .unassigned
      | _ => .error .unassigned

/-- The E and E+L shapes by class (R57 to R60). brk is register class, with its own layout (R136). -/
def decodeE (w0 w1 w2 : Nat) (lit : Option Dword) : Except DecodeError Instr :=
  match eFields w0 w1 with
  | none => .error .unassigned
  | some e =>
    let maj := e.op / 4
    if 0x1A ≤ maj ∧ maj ≤ 0x1F then decodeCtl e w2 lit
    else if e.op = 0xFB ∧ e.sub = 0 then decodeCtl e w2 lit
    else if 0x2A ≤ maj ∧ maj ≤ 0x35 then decodeMem e w2 lit
    else if 0x36 ≤ maj ∧ maj ≤ 0x3D then (if lit.isSome then .error .unassigned else decodeEng e w2)
    else decodeReg e w2 lit

/-- The instruction that these words begin, and its length in words (R43), before its own checks. -/
def decodeShape : List Nat → Except DecodeError (Instr × Nat)
  | [] => .error .truncated
  | w0 :: rest =>
    match w0 / 2 ^ 30, rest with
    | 0, _ => (decodeB w0).map (·, 1)
    | 1, w1 :: w2 :: _ => (decodeE w0 w1 w2 none).map (·, 3)
    | 2, l0 :: l1 :: _ => (decodeBL w0 (l0 + 2 ^ 32 * l1)).map (·, 3)
    | 3, w1 :: w2 :: l0 :: l1 :: _ => (decodeE w0 w1 w2 (some (BitVec.ofNat 64 (l0 + 2 ^ 32 * l1)))).map (·, 5)
    | _, _ => .error .truncated

/-- Decoding: total on any words, rejecting by name (R68). -/
def decode (ws : List Nat) : Except DecodeError (Instr × Nat) :=
  match decodeShape ws with
  | .error e => .error e
  | .ok (i, n) =>
    match firstError i with
    | some e => .error (.illFormed e)
    | none => .ok (i, n)

/-- The words of a run of bytes, each word little-endian (R1, R43). Bytes short of a word are dropped. -/
def wordsOfBytes : List Byte → List Nat
  | b0 :: b1 :: b2 :: b3 :: rest =>
    (b0.toNat + 2 ^ 8 * b1.toNat + 2 ^ 16 * b2.toNat + 2 ^ 24 * b3.toNat) :: wordsOfBytes rest
  | _ => []

/-- The bytes of a run of words. -/
def bytesOfWords : List Nat → List Byte
  | [] => []
  | w :: rest =>
    BitVec.ofNat 8 w :: BitVec.ofNat 8 (w / 2 ^ 8) :: BitVec.ofNat 8 (w / 2 ^ 16) :: BitVec.ofNat 8 (w / 2 ^ 24) :: bytesOfWords rest

/-- Decoding of bytes as memory holds them. -/
def decodeBytes (bs : List Byte) : Except DecodeError (Instr × Nat) := decode (wordsOfBytes bs)

/-! ## Encoding -/

/-- Word 0 (R44). -/
def encWord0 (l op w d a b : Nat) : Nat :=
  pack [(7, b), (7, a), (7, d), (1, w), (2, op % 4), (6, op / 4), (2, l)]

/-- Word 1 (R45). -/
def encWord1 (g : Guard) (sub rm sat c xd xa xb xc xs sa sb : Nat) : Nat :=
  pack [(3, sb), (3, sa), (2, xs), (1, xc), (1, xb), (1, xa), (1, xd), (8, c), (1, sat), (3, rm), (4, sub),
    (1, Bool.bit g.neg), (3, g.p.toNat)]

def EForm.word0 (f : EForm) (op : Nat) : Nat :=
  encWord0 (if f.lit.isSome then 3 else 1) op (Bool.bit f.w) (f.d.code.toNat % 128) (f.a.code.toNat % 128) (f.b.code.toNat % 128)

def EForm.word1 (f : EForm) : Nat :=
  encWord1 f.guard f.sub.toNat f.rm.toNat (Bool.bit f.sat) f.c.code.toNat (Bool.bit f.d.ind) (Bool.bit f.a.ind) (Bool.bit f.b.ind)
    (Bool.bit f.c.ind) f.xs.toNat f.sa.toNat f.sb.toNat

/-- Bits [31:18] of word 2 of the register and memory classes, from bit 18 up. -/
def EForm.high (f : EForm) : List (Nat × Nat) :=
  [(2, f.c.kind.code), (2, f.b.kind.code), (2, f.a.kind.code), (2, f.d.kind.code), (1, Bool.bit f.c.latch), (1, Bool.bit f.b.latch),
    (1, Bool.bit f.a.latch), (1, f.b.code.toNat / 128), (1, f.a.code.toNat / 128), (1, f.d.code.toNat / 128)]

def litWords : Option Dword → List Nat
  | none => []
  | some l => [l.toNat % 2 ^ 32, l.toNat / 2 ^ 32]

def encReg (op : Nat) (f : EForm) : List Nat :=
  [f.word0 op, f.word1, pack ([(8, f.imm8.toNat), (10, 0)] ++ f.high)] ++ litWords f.lit

def encMem (op : Nat) (m : MForm) : List Nat :=
  [m.e.word0 op, m.e.word1,
    pack ([(8, m.e.imm8.toNat), (4, m.dx.toNat), (2, m.ok.toNat), (2, m.sc.toNat), (2, m.ch.toNat)] ++ m.e.high)] ++ litWords m.e.lit

def encEng (op : Nat) (f : GForm) : List Nat :=
  [encWord0 1 op 0 (f.d.toNat % 128) (f.a.toNat % 128) (f.b.toNat % 128),
    encWord1 f.guard f.sub.toNat f.rm.toNat (Bool.bit f.sat) f.c.toNat 0 0 0 0 0 0 0,
    pack [(8, f.imm8.toNat), (4, f.cv.toNat), (1, Bool.bit f.ge), (1, Bool.bit f.gp), (4, f.gs.toNat), (2, f.m2.toNat), (6, f.n6.toNat),
      (1, 0), (1, 0), (1, 0), (1, f.b.toNat / 128), (1, f.a.toNat / 128), (1, f.d.toNat / 128)]]

/-- The offset field bits of word 0 of a B+L terminator: the C field in its place, the offset 0 (R62). -/
def directLowOf (op c : Nat) : Nat :=
  match op with
  | 0x69 => c % 8 * 2 ^ 18 + c / 8 * 2 ^ 17
  | 0x71 => c * 2 ^ 13
  | _ => 0

/-- A short word: the low 21 bits given whole. -/
def encLow (l op low : Nat) : Nat := pack [(21, low), (1, 0), (2, op % 4), (6, op / 4), (2, l)]

def encDirect (op : Nat) (f : CForm) : List Nat :=
  match f.tgt with
  | .rel off => [encWord0 1 op 0 0 0 0, encWord1 f.guard 0 0 0 f.c.toNat 0 0 0 0 0 0 0, off.toNat]
  | .absE l => [encWord0 3 op 0 0 0 0, encWord1 f.guard 0 0 0 f.c.toNat 0 0 0 0 0 0 0, 0] ++ litWords (some l)
  | .absB l => [encLow 2 op (directLowOf op f.c.toNat)] ++ litWords (some l)

def encIndirect (op : Nat) (f : JForm) : List Nat :=
  [encWord0 1 op 0 0 (f.a.toNat % 128) 0, encWord1 f.guard 0 0 0 0 0 0 0 0 0 0 0,
    pack [(28, 0), (1, Bool.bit f.latch), (1, 0), (1, f.a.toNat / 128), (1, 0)]]

def encPlain (op : Nat) (f : XForm) : List Nat :=
  [encWord0 1 op 0 0 0 0, encWord1 f.guard 0 0 0 f.c.toNat 0 0 0 0 0 0 0, 0]

/-- The words of an instruction. The rows that are steps of the machine have none. -/
def encode (i : Instr) : List Nat :=
  match i with
  | .nop => [0]
  | .blockHeader cf hwm len => [pack [(12, len.toNat), (9, hwm.toNat), (1, Bool.bit cf), (2, 3), (6, 0x1F), (2, 0)]]
  | .braB off => [encLow 0 0x68 off.toNat]
  | .brcB cp cn off => [encLow 0 0x69 (off.toNat + Bool.bit cn * 2 ^ 17 + cp.toNat * 2 ^ 18)]
  | .jmpiB a => [encWord0 0 0x6A 0 0 a.toNat 0]
  | .callB off => [encLow 0 0x6C off.toNat]
  | .calliB a => [encWord0 0 0x6D 0 0 a.toNat 0]
  | .retB => [encLow 0 0x6E 0]
  | .exitB => [encLow 0 0x70 0]
  | .exittoB keep off => [encLow 0 0x71 (off.toNat + keep.toNat * 2 ^ 13)]
  | .reformB off => [encLow 0 0x72 off.toNat]
  | .trapB c => [encLow 0 0x73 c.toNat]
  | .brkB c => [encLow 0 0xFB c.toNat]
  | .movlBL w d l => [encWord0 2 0x25 (Bool.bit w) d.toNat 0 0] ++ litWords (some l)
  | i =>
    match shortFields i with
    | some (op, f) => [encWord0 0 op (Bool.bit f.w) f.d.toNat f.a.toNat f.b.toNat]
    | none =>
    match unaryFields i with
    | some (op, f) => [encWord0 0 op (Bool.bit f.w) f.d.toNat f.a.toNat 0]
    | none =>
    match regFields i with
    | some (op, f) => encReg op f
    | none =>
    match memFields i with
    | some (op, m) => encMem op m
    | none =>
    match engFields i with
    | some (op, f) => encEng op f
    | none =>
    match directFields i with
    | some (op, f) => encDirect op f
    | none =>
    match indirectFields i with
    | some (op, f) => encIndirect op f
    | none =>
    match plainFields i with
    | some (op, f) => encPlain op f
    | none => []

/-- Whether the row is an instruction with words (the rest are steps of the machine). -/
def Instr.isCode (i : Instr) : Bool := !(encode i).isEmpty

/-- The longest instruction is five words (R43). -/
def longestWords : Nat := 5

/-- The words of an nbits wide instruction whose bits are w, bit 0 the least significant bit of the first word, padded with
zeros up to the longest instruction. -/
def tableWords (nbits w : Nat) : List Nat :=
  let v := w % 2 ^ nbits
  [v % 2 ^ 32, v / 2 ^ 32 % 2 ^ 32, v / 2 ^ 64 % 2 ^ 32, v / 2 ^ 96 % 2 ^ 32, v / 2 ^ 128 % 2 ^ 32]

/-- The instruction the decoder reads from such a word, laid out in memory and read back. -/
def decodeTableWord (nbits w : Nat) : Option Instr :=
  match decodeBytes (bytesOfWords (tableWords nbits w)) with
  | .ok (i, _) => some i
  | .error _ => none

end Sys2Proof
end

