-- ==== Sys2Proof/Config.lean ====
section
/-!
DEFINITION. What the CZ-940 fixes (counts and capacities, with their rules) and the values the manual leaves free: opaque
constants with no body, so that nothing can be proved of them.
-/
namespace Sys2Proof.Config

/-- R9. -/
def cores : Nat := 192
/-- R9. -/
def clusters : Nat := 24
/-- R9: cores per cluster. -/
def coresPerCluster : Nat := 8
/-- R10. -/
def partitions : Nat := 32
/-- R10. -/
def ports : Nat := 12
/-- R95: thread slots of a core, 32 rows of 32 lane columns. -/
def slots : Nat := 1024
/-- R100, R101: registers in a bank, the pool that the allotments of a core share. -/
def bankRegs : Nat := 2048
/-- R109. -/
def bins : Nat := 64
/-- R110: spilled threads moved per cycle. -/
def spillMoves : Nat := 32
/-- R247. -/
def sobSize : Nat := 512
/-- R28, R201. -/
def evqSize : Nat := 64
/-- R289. -/
def mxeQueue : Nat := 32
/-- R379: commands of the copy queue, and of one crew in it. -/
def copyQueue : Nat := 64
def copyPerCrew : Nat := 32
/-- R380: copy commands that run at once. -/
def copyRunning : Nat := 4
/-- R393: completion records an engine holds for one crew. -/
def heldRecords : Nat := 4
/-- R407: commands of a Starter queue, and of one crew in it. -/
def starterQueue : Nat := 64
def starterPerCrew : Nat := 16
/-- R402. -/
def layerEntries : Nat := 64
/-- R217: ways of every cache, and the sets of an L1 (256 KiB), an L2 (8 MiB) and an LLC slice (8 MiB). -/
def cacheWays : Nat := 16
def l1Sets : Nat := 256
def l2Sets : Nat := 8192
def llcSets : Nat := 8192
/-- R226. -/
def tlbEntries : Nat := 32768
def walkEntries : Nat := 1024
/-- R233: credits of the migration queue. -/
def migCredits : Nat := 64
/-- R426: launches in one queue. -/
def queueLaunches : Nat := 256
/-- R422. -/
def launchQueues : Nat := 64
/-- R433: bind records of a core. -/
def binds : Nat := 32
/-- R449: relaunches of a gang. -/
def relaunches : Nat := 3
/-- R286: the accumulator store. -/
def accRows : Nat := 64
def accCols : Nat := 1024
/-- R336: attempts of an allocation. -/
def allocAttempts : Nat := 8

/-! ## Free values -/

/-- The raw choice of a special function's result within its bound (R169): function code, format code and operand give some
bits; Machine/Special.lean uses them only where they lie within the bound of R169. (Log 12.) -/
opaque specialChoice : Nat → Nat → Nat → Nat

/-- The raw choice of a twiddle component within 1 ulp (R171), by log2 n, the quadrant index and which component. (Log 12.) -/
opaque twiddleChoice : Nat → Nat → Nat → Nat

/-- A word of a scratchpad destination that a thread reads before the wait (R250, R295): undefined. By the number of free
values drawn. (Log 1.) -/
opaque freeWord : Nat → Word

/-- The set of a line in a cache of some number of sets, by its line key (R217 names no index function). (Log 68.) -/
opaque cacheSet : Nat → Nat → Nat

/-- Which line of a full set leaves it (R217: pseudo-LRU), by the number of free values drawn. (Log 68.) -/
opaque cacheVictim : Nat → Nat

/-- The port through which the system's route table sends a transport write to a device (R24). (Log 69.) -/
opaque routePort : Nat → Nat

/-- Which of two singular values comes first where one is NaN, by their FP64 encodings (R337 orders numbers only). (Log 35.) -/
opaque nanBefore : Nat → Nat → Bool

/-- Whether a firmware image passes the key hash, ECDSA and LMS checks of R475 (the image is known by a number). (Log 57.) -/
opaque imageVerifies : Nat → Bool

/-- The security version that an image's header carries (R475). (Log 57.) -/
opaque imageVersion : Nat → Nat

/-- The SHA-384 measurement of an image (R476, R478). (Log 57.) -/
opaque imageDigest : Nat → BitVec 384

/-- Whether I/O die 0 is the one that cannot run its ROM, where one of the dies cannot (R476), by the number of free values drawn.
(Log 58.) -/
opaque romDead : Nat → Bool

/-- Which dies have raised their fused counters where firmware does not start (R476): bits 0 and 1. (Log 58.) -/
opaque fuseRaised : Nat → Nat

/-- Memory links and ports that fail at bring-up (R479), by the number of free values drawn. (Log 58.) -/
opaque failedLinks : Nat → List Nat
opaque failedPorts : Nat → List Nat

/-- The fabric addresses that an image's operator table holds (R474). (Log 11.) -/
opaque imageOperators : Nat → List Nat

/-- The signature of an attestation report (R478) over its bits [1087:0]. (Log 57.) -/
opaque attestSign : BitVec 1088 → BitVec 768

/-- The SHA-384 measurement of session grants and far map (R478), of both written as numbers. (Log 57.) -/
opaque configMeasure : List Nat → BitVec 384

/-- TAG of the refusal record of a launch whose record cannot be read (R427, R429). (Log 44.) -/
opaque unreadTag : BitVec 16

/-- STATUS of the reply to a message whose failure R471 to R473 give no STATUS for, by TYPE: a launch refused by R427, and a memory
write or read at an address that has no permitted verdict. (Log 44.) -/
opaque openStatus : Nat → BitVec 8

/-- The identity key's certificate (R477), as a number. (Log 57.) -/
opaque certificate : Nat

/-- SEQ in a recorder-full message of a recording that holds no record (R466 names the last record's). (Log 54.) -/
opaque noRecordSeq : BitVec 64

/-- RP, WP and XP of the leaf that Tsunath writes for a level-4 entry with VAL = 0 (R147, R225), by the byte key of the page. (Log 49.) -/
opaque servicePerms : Nat → BitVec 3

/-- What the walker and the sweeper read where the code of a table's sector cannot correct it (R461 gives no value), by physical
address and the number of free values drawn. (Log 18.) -/
opaque spoiledWord : Nat → Nat → Dword

/-- The device's own 17-bit identifier (R16, R385). (Log 1.) -/
opaque deviceId : BitVec 17

end Sys2Proof.Config
end

