-- ==== Sys2Proof/Machine/FMap.lean ====
section
/-!
DEFINITION. Reading and writing sparse data by key. A map is in canonical form when its keys strictly rise (FMap.sorted) and,
for maps whose absent keys read as a default, when no entry holds the default (FMap.wf). put keeps that form by removing an
entry that would hold the default; set keeps only the order.
-/
namespace Sys2Proof

/-- The value at k, d where nothing is listed. -/
def FMap.get {α : Type} (d : α) : FMap α → Nat → α
  | [], _ => d
  | (j, v) :: r, k => if j = k then v else FMap.get d r k

/-- The listed value at k. -/
def FMap.find {α : Type} : FMap α → Nat → Option α
  | [], _ => none
  | (j, v) :: r, k => if j = k then some v else FMap.find r k

/-- Lists v at k, in key order. -/
def FMap.set {α : Type} : FMap α → Nat → α → FMap α
  | [], k, v => [(k, v)]
  | (j, u) :: r, k, v => if k < j then (k, v) :: (j, u) :: r else if j = k then (k, v) :: r else (j, u) :: FMap.set r k v

/-- Lists nothing at k. -/
def FMap.erase {α : Type} : FMap α → Nat → FMap α
  | [], _ => []
  | (j, u) :: r, k => if j = k then FMap.erase r k else (j, u) :: FMap.erase r k

/-- Writes v at k in a map whose unlisted keys read as d. -/
def FMap.put {α : Type} [DecidableEq α] (d : α) (m : FMap α) (k : Nat) (v : α) : FMap α :=
  if v = d then m.erase k else m.set k v

/-- The listed entry at k changed by f. -/
def FMap.adjust {α : Type} (m : FMap α) (k : Nat) (f : α → α) : FMap α :=
  m.map fun e => if e.1 = k then (e.1, f e.2) else e

/-- Every listed entry changed by f. -/
def FMap.mapVals {α : Type} (f : Nat → α → α) (m : FMap α) : FMap α := m.map fun e => (e.1, f e.1 e.2)

def FMap.keys {α : Type} (m : FMap α) : List Nat := m.map (·.1)

/-- Keys strictly rise from lo on. -/
def FMap.sortedFrom {α : Type} : Nat → FMap α → Bool
  | _, [] => true
  | lo, (k, _) :: r => decide (lo ≤ k) && FMap.sortedFrom (k + 1) r

def FMap.sorted {α : Type} (m : FMap α) : Bool := FMap.sortedFrom 0 m

/-- The canonical form of a map whose unlisted keys read as d. -/
def FMap.wf {α : Type} [DecidableEq α] (d : α) (m : FMap α) : Bool := m.sorted && m.all fun e => e.2 ≠ d

/-- Writes a list of (key, value) pairs in order. -/
def FMap.putAll {α : Type} [DecidableEq α] (d : α) (m : FMap α) : List (Nat × α) → FMap α
  | [] => m
  | (k, v) :: r => FMap.putAll d (m.put d k v) r

/-- Bytes in memory order: (address, byte) pairs (Host.Cell), strictly rising, none that reads as 0. -/
abbrev Memory := FMap Byte

def Memory.read (m : Memory) (a : Nat) : Byte := FMap.get 0 m a

def Memory.write (m : Memory) (a : Nat) (b : Byte) : Memory := FMap.put 0 m a b

def Memory.wf (m : Memory) : Bool := FMap.wf 0 m

def Memory.readBytes (m : Memory) (a : Nat) : Nat → List Byte
  | 0 => []
  | n + 1 => m.read a :: m.readBytes (a + 1) n

def Memory.writeBytes (m : Memory) (a : Nat) : List Byte → Memory
  | [] => m
  | b :: r => (m.write a b).writeBytes (a + 1) r

/-- A little-endian number (R1). -/
def leNat : List Byte → Nat
  | [] => 0
  | b :: r => b.toNat + 2 ^ 8 * leNat r

/-- The n low bytes of a number, little-endian (R1). -/
def leBytes (v : Nat) : Nat → List Byte
  | 0 => []
  | n + 1 => BitVec.ofNat 8 v :: leBytes (v / 2 ^ 8) n

def Memory.readNat (m : Memory) (a n : Nat) : Nat := leNat (m.readBytes a n)

def Memory.writeNat (m : Memory) (a n v : Nat) : Memory := m.writeBytes a (leBytes v n)

/-- Bytes set to 0 over a range: nothing listed there. -/
def Memory.clear (m : Memory) (a n : Nat) : Memory := m.filter fun e => e.1 < a || a + n ≤ e.1

/-- The listed bytes of a range. -/
def Memory.slice (m : Memory) (a n : Nat) : Memory := m.filter fun e => a ≤ e.1 && e.1 < a + n

end Sys2Proof
end

