-- ==== Sys2Proof/Machine/State.lean ====
section
/-!
DEFINITION. The state of a CZ-940 as the manual gives it: what a core, a cluster, the homes, the fabric, the dispatch engine
and the link engine hold. Plain data. A unit that nothing has touched is not listed and reads as its initial record.
-/
namespace Sys2Proof.Machine

/-! ## Threads, cohorts, crews (05, 06, 08) -/

/-- The states of a slot (R105); free is a slot that no bound row uses. -/
inductive Phase where
  | free
  | waiting
  | spilled
  | pending
  | streaming
  | claimWait
  | parked
  | exited
  deriving DecidableEq, Repr

/-- A destination of a result: a vector register, a scalar, a predicate, an index register or a latch entry. -/
inductive Dst where
  | v (n : Nat)
  | s (n : Nat)
  | p (n : Nat)
  | x (n : Nat)
  | bp (n : Nat)
  deriving DecidableEq, Repr

/-- What a park record keeps of the latches (R121): the ring position of the resume instruction and the latches it reads; and
whether the arrive half of an arwait at the resume address is done (R195). -/
structure ResumePt where
  ring : Nat
  latches : FMap Dword
  arrived : Bool := false
  /-- the thread has performed the per-thread part of the instruction there (R442) -/
  done : Bool := false
  deriving DecidableEq, Repr

/-- A thread (R8, R95, R99). x registers not listed read as 0x00FF_0000 (R99), the other registers as 0. -/
structure Thread where
  phase : Phase := .free
  v : FMap Word := []
  p : BitVec 7 := 0
  x : FMap Word := []
  bp : FMap Dword := []
  lfsr : Word := 1
  keep : Option Nat := none
  /-- after exitto: the keep count, from which on no result that was pending is written (R104) -/
  void : Option Nat := none
  faultInfo : BitVec 16 := 0
  /-- the address under which the thread is filed next (R108) -/
  next : Dword := 0
  /-- the header address of the block that holds next -/
  header : Dword := 0
  /-- the thread enters its next bin by reform (R134) -/
  reform : Bool := false
  /-- the thread enters its next bin by yield (R203) -/
  yielding : Bool := false
  resume : Option ResumePt := none
  /-- destinations whose result is pending (R105) -/
  pend : List Dst := []
  /-- commands the thread has signed and no completed wait of it has covered (R293) -/
  signed : List Nat := []
  /-- faulted commands whose fault has parked the thread at a wait (R294; log 22) -/
  told : List Nat := []
  /-- acquires that the thread has reached (R237, R244) -/
  acquires : Nat := 0
  /-- words, each with E1 and the least stamp of an unowned copy that is not older than what the thread wrote or read last (R239, R244) -/
  fresh : FMap (Word × Nat) := []
  /-- registers v and latches with a double-bit error (R464) -/
  badV : List Nat := []
  badBp : List Nat := []
  deriving DecidableEq, Repr

/-- One group-membership slot of a cohort (R97): the group, its target generation T (R190), and, once that generation is
complete, the cohort that it elected (R196). -/
structure GroupSlot where
  grp : Nat
  target : Option Nat
  elect : Option Nat := none
  deriving DecidableEq, Repr

/-- A scalar destination whose results are pending (R98): the scalars, the lanes whose result has not arrived, the highest
active lane, and its value once there. -/
structure Join where
  dsts : List Nat
  slots : List Nat
  top : Nat
  value : Dword
  deriving DecidableEq, Repr

/-- A bound row: one cohort (R96 to R98, R101). -/
structure Row where
  /-- the bind record of its crew on this core -/
  crew : Nat := 0
  lci : Nat := 0
  role : Word := 0
  s : FMap Word := []
  allot : Nat := 8
  groups : List GroupSlot := []
  /-- scalars whose result is pending (R98) -/
  joins : List Join := []
  /-- model's own: the number drawn at the cohort's last Arrive; deterministic entries from it on are of the next generation -/
  arrivedAt : Nat := 0
  deriving DecidableEq, Repr

/-- A command of an engine (R28, R39). The operands that a command takes from registers and operand maps are read at the
fixing signature and at the append (R288, R310). -/
inductive CmdPhase where
  | queued
  | started
  | committed
  deriving DecidableEq, Repr

/-- The kind of a rank tile (R327). -/
inductive TileKind where
  | zero
  | dense
  | low
  deriving DecidableEq, Repr

/-- A rank tile as the RRU holds it (R332, R340): FP64 encodings, a dense tile by rows, the factors U and V by columns. -/
structure TileVal where
  m : Nat
  n : Nat
  kind : TileKind
  rank : Nat
  elems : List (List Nat)
  u : List (List Nat)
  v : List (List Nat)
  deriving DecidableEq, Repr

/-- One tile that a command will commit (R340): the descriptor's space and address, the descriptor and its heap's header as read,
whether its present storage is ignored (tnew, R355), the tile, and, for tdelta, what DONE becomes (R347). -/
structure TileJob where
  virt : Bool
  addr : Nat
  raw : Nat
  heap : Nat
  fresh : Bool
  out : TileVal
  next : Nat
  deriving DecidableEq, Repr

/-- How far the commit of a tile has come (R340). -/
inductive TileStage where
  | choose
  /-- of a memory heap's run of n blocks from lo the bitmap words below next are claimed (R336) -/
  | claim (lo n next : Nat)
  /-- a word had changed: of the words below upto those from next on are still to be cleared -/
  | undo (lo n next upto : Nat)
  /-- the storage is chosen, and is written next; then the descriptor; then the old extent is freed, of a memory heap the bitmap
  words from next on -/
  | store (addr cap : Nat)
  | describe (addr cap : Nat)
  | release (addr cap next : Nat)
  deriving DecidableEq, Repr

/-- What an engine command has read and formed since EngineStart. -/
structure Work where
  /-- everything is read that EngineStart reads, and validated -/
  ready : Bool := false
  /-- operand rows of A and B, or the source rows of a move, as bytes -/
  rowsA : List (List Byte) := []
  rowsB : List (List Byte) := []
  /-- tiles not yet committed -/
  jobs : List TileJob := []
  /-- the results of tinfo (R357) -/
  words : List Word := []
  /-- the stage of the first of them, and the attempts of its allocation that have failed (R336) -/
  stage : TileStage := .choose
  attempts : Nat := 0
  /-- the command descriptor of a copy or Starter command (R381, R408) -/
  desc : Nat := 0
  /-- its index vector or list: none for an entry that is skipped (R386, R387) -/
  index : List (Option Nat) := []
  /-- words of memory that its read requests have brought, and words asked for (R249), by word key -/
  got : FMap Word := []
  asked : List Nat := []
  /-- sectors of memory whose error it has consumed (R463) -/
  bad : List Nat := []
  /-- scratchpad bytes read before its other operands, and bytes that it has yet to write, in order, by core × 2^20 + byte (R213) -/
  early : FMap Byte := []
  todo : List (Nat × Byte) := []
  deriving DecidableEq, Repr

/-- The progress record of a Starter command (R412): the layer entry it started with, h by token, the true counts of its lists,
and the working adaptive values of scheck (R410). -/
structure StarterProg where
  layer : Nat := 0
  h : List Nat := []
  n1 : Nat := 0
  n2 : Nat := 0
  thi : Nat := 0
  tlo : Nat := 0
  wpos : Nat := 0
  wmiss : Nat := 0
  checks : Nat := 0
  misses : Nat := 0
  deriving DecidableEq, Repr

structure Cmd where
  id : Nat
  instr : Instr
  /-- bind record of the issuing crew, on core -/
  core : Nat
  crew : Nat
  /-- the cohort whose signature fixed the command, and its active slots then -/
  row : Nat
  lanes : List Nat
  addrD : Dword := 0
  addrA : Dword := 0
  addrB : Dword := 0
  /-- metadata words of mmas by row (R315): three for each row -/
  mta : List Word := []
  mapA : BitVec 128 := 0
  mapB : BitVec 128 := 0
  phase : CmdPhase := .queued
  work : Work := {}
  /-- writes sent to homes and not acknowledged -/
  outstanding : Nat := 0
  /-- the order of the append (R390) -/
  seq : Nat := 0
  /-- index of the first unperformed piece (R391, R412) -/
  progress : Nat := 0
  /-- lists of a rules command that overflowed (R389) -/
  overflow : Nat := 0
  /-- remote writes acknowledged (R385) -/
  acked : Nat := 0
  /-- the cycle since which its remote writes are unanswered (R470) -/
  sentAt : Nat := 0
  prog : StarterProg := {}
  /-- residue verdicts that have not arrived (R305, R307) -/
  residue : Bool := false
  /-- a fault that stopped the command: code, address, DETAIL (R294, R392) -/
  fault : Option (Nat × Dword × Nat) := none
  /-- the status of a tile command: 1 when an allocation failed (R341, R353) -/
  status : Nat := 0
  /-- a remote destination was unreachable (R385) -/
  unreachable : Bool := false
  /-- scratchpad destinations, undefined to threads before the wait (R250, R295): core, first byte, length -/
  dest : List (Nat × Nat × Nat) := []
  deriving DecidableEq, Repr

/-- An ended command as a wait reports it (R292, R294, R393). -/
structure Ended where
  id : Nat
  crew : Nat
  core : Nat
  /-- taken Complete, with this STATUS; a Discard by the guard has discarded = true -/
  status : Nat
  discarded : Bool
  fault : Option (Nat × Dword × Nat)
  dest : List (Nat × Nat × Nat)
  deriving DecidableEq, Repr

/-- A convergence register CV(crew, i) (R28). -/
structure ConvReg where
  declared : List Nat := []
  signed : List Nat := []
  pending : Option Cmd := none
  deriving DecidableEq, Repr

/-- A byte store that DET holds back (R28): address, byte, logical thread index; seq is the number drawn for its store, hint its
cache hint (R220). -/
structure DsbEntry where
  key : Nat
  byte : Byte
  tid : Nat
  seq : Nat
  hint : Nat := 0
  deriving DecidableEq, Repr

/-- An evwait request that has not taken a record (R202). -/
structure EvReq where
  slot : Nat
  result : Nat
  deriving DecidableEq, Repr

/-- A crew bound on a core (R8, R26, R28) with the launch's fields that its instructions read (R140). -/
structure Crew where
  lid : Nat := 0
  gang : Nat := 0
  index : Nat := 0
  asid : BitVec 16 := 0
  det : Bool := false
  chk : Bool := false
  codeBase : Dword := 0
  seed : Word := 0
  heaps : Dword := 0
  /-- rows in logical order -/
  rows : List Nat := []
  /-- scratchpad base in bytes and allotment (R212) -/
  sbase : Nat := 0
  scr : Nat := 0
  gd : FMap Bool := []
  cv : FMap ConvReg := []
  om : FMap (BitVec 128) := []
  evq : List Dword := []
  evReqs : List EvReq := []
  /-- engine and dispatch records that wait for room (R393, R429) -/
  held : List Dword := []
  satf : Bool := false
  dsb : List DsbEntry := []
  deriving DecidableEq, Repr

/-! ## Bins, streams, parks (05, 06) -/

/-- The key of a bin (R108). -/
structure BinKey where
  asid : Nat
  chk : Bool
  addr : Dword
  deriving DecidableEq, Repr

/-- A banneton entry (R109, R134, R203). filed is the cycle of its allocation, from which its age counts. -/
structure Bin where
  key : BinKey
  header : Dword
  members : List Nat
  filed : Nat
  /-- the crews whose reform holds the entry (R134) -/
  held : List Nat
  yielded : Bool
  deriving DecidableEq, Repr

/-- An issue group (R114): its threads, the block's words as they stood when it started (R128), where it stands, and the ring
position (R51). -/
structure Group where
  id : Nat
  key : BinKey
  header : Dword
  /-- slots still in the group -/
  members : List Nat
  /-- lane columns held -/
  cols : List Nat
  /-- true until the header has been read -/
  entering : Bool
  headWord : Nat
  /-- the words that follow the header -/
  code : List Nat
  /-- index in code of the next instruction -/
  pc : Nat
  hwm : Nat := 0
  cf : Bool := false
  len : Nat := 0
  ring : Nat := 0
  /-- standing at an instruction whose condition does not hold yet -/
  blocked : Bool := false
  /-- what the fence.sys or icinv it stands at waits for -/
  covers : Option (List Nat) := none
  /-- the commands that the wait it stands at covers, by slot (R293) -/
  waits : List (Nat × List Nat) := []
  /-- threads that have performed the per-thread part of the instruction it stands at -/
  doneAt : List Nat := []
  /-- the arrive half of arwait is done (R193) -/
  arrived : Bool := false
  /-- verdicts of the access it stands at: slot, word, fault code or 0 for permitted (R120) -/
  verdicts : List (Nat × Nat × Nat) := []
  /-- the cycle in which it was formed (R115), and its pipe: that of the stream that formed it (R116) -/
  started : Nat := 0
  pipe : Bool := false
  /-- checked mode has repeated the instruction it stands at (R124) -/
  repeated : Bool := false
  deriving DecidableEq, Repr

/-- A selected bin that a stream takes its groups from (R113, R114). -/
structure Selection where
  key : BinKey
  header : Dword
  rest : List Nat
  deriving DecidableEq, Repr

structure Stream where
  sel : Option Selection := none
  group : Option Group := none
  deriving DecidableEq, Repr

/-- A fault record (R146). mask lists the slots of the set. -/
structure FaultRecord where
  code : Nat
  detail : Nat
  core : Nat
  coh : Bool
  wait : Bool
  det : Bool
  pset : Nat
  count : Nat
  resume : Dword
  header : Dword
  addr : Dword
  launch : Nat
  asid : Nat
  first : Nat
  ring : Nat
  time : Nat
  mask : List Nat
  deriving DecidableEq, Repr

/-- A park set (R121). service is the address whose page Tsunath makes present before it releases the set (R147); none for a
reported code. -/
structure ParkSet where
  pset : Nat
  record : FaultRecord
  service : Option Dword
  deriving DecidableEq, Repr

/-- A claim that waits in the pool queue (R103). -/
structure ClaimReq where
  row : Nat
  n : Nat
  deriving DecidableEq, Repr

/-! ## The LSE and the ordering machine (02, 11, 12) -/

/-- The kind of a store-buffer entry (R28, R239, R240). -/
inductive SobKind where
  | global
  | scratch
  /-- a gang-window store to this core -/
  | window (peer : Nat)
  /-- an atomic: MIN, SUB, 64-bit, operand, compare value, and the load-queue entry of its result -/
  | atomic (min : Nat) (sub : Nat) (operand : Dword) (other : Dword) (load : Nat)
  /-- half: a half-word bf16 addition of scat (R387), in the high half when true -/
  | reduction (min : Nat) (sub : Nat) (operand : Dword) (half : Option Bool)
  deriving DecidableEq, Repr

/-- A store-buffer entry (R28). word is a word key (ASID or global, and address) for memory, the word's index in the array for a
scratchpad. -/
structure SobEntry where
  id : Nat
  slots : List Nat
  kind : SobKind
  word : Nat
  mask : BitVec 4
  data : Word
  sent : Bool
  /-- the release of an atomic .rel or .ar is carried by its Send (R237) -/
  release : Bool
  /-- the cache hint (R220) -/
  hint : Nat := 0
  /-- model's own: the stamp of its step at home -/
  stamp : Nat := 0
  deriving DecidableEq, Repr

/-- One word of an outstanding load: the bytes known and whether a read request is under way (R35). -/
structure LqPart where
  word : Nat
  known : BitVec 4
  data : Word
  asked : Bool
  /-- an error of its sector has been consumed (R274) -/
  lost : Bool := false
  /-- model's own: the stamp of the home value that it took -/
  stamp : Nat := 0
  deriving DecidableEq, Repr

/-- A load-queue entry (R28): a load, or the result of an atomic (R239). -/
structure LqEntry where
  id : Nat
  slot : Nat
  /-- byte key of the access; the byte's index in the array for a scratchpad -/
  addr : Nat
  bytes : Nat
  signed : Bool
  /-- what is read: memory (global), the own array (scratch) or a peer's (window) -/
  space : SobKind
  parts : List LqPart
  /-- the epochs E1(c), E2(k) at issue (R32) -/
  e1 : Word
  e2 : Word
  dsts : List Dst
  /-- the cache hint CH (R220) -/
  hint : Nat
  /-- the predicate of an atomic (R261) -/
  pred : Option Nat
  atomic : Bool
  acquire : Bool
  /-- acquires of the thread that came before (R244) -/
  acq : Nat
  deriving DecidableEq, Repr

/-- A pending result that has its value and waits to be written (R105). -/
structure Result where
  id : Nat
  slot : Nat
  dsts : List Dst
  /-- none until the value is there -/
  value : Option Dword
  pred : Option (Nat × Bool)
  deriving DecidableEq, Repr

/-- An atomic or reduction that DET holds back (R28, R252, R390). order sorts entries that no thread issued. -/
structure DabEntry where
  crew : Nat
  cohort : Nat
  tid : Nat
  seq : Nat
  word : Nat
  kind : SobKind
  slot : Nat
  load : Option Nat
  /-- the release of an atomic .rel or .ar (R237) -/
  release : Bool
  /-- the cache hint (R220) -/
  hint : Nat := 0
  deriving DecidableEq, Repr

/-- What a sector's poison and tag tell of its bytes (R274, R461). -/
inductive Taint where
  | clean
  | poison
  | tag
  deriving DecidableEq, Repr

/-- A word of a core view (R28) with the permission copies of its line (R218), what its sector's tag and poison tell (R274), and
whether its line is the first to leave its set (R220). -/
structure ViewWord where
  value : Word
  owned : Bool
  rp : Bool
  wp : Bool
  xp : Bool
  bad : Taint
  first : Bool
  /-- model's own: the stamp of the home value that it copies -/
  stamp : Nat := 0
  deriving DecidableEq, Repr

/-- An access that waits for its verdict (R120), of a held group, or of a pf that holds none (R268). kind: 0 read, 1 write,
2 execute, 3 atomic (R146). key is its byte key. -/
structure XlatReq where
  id : Nat
  group : Option Nat
  slot : Nat
  key : Nat
  kind : Nat
  /-- for a pf: its cache hint and the epochs at issue -/
  hint : Nat
  e1 : Word
  e2 : Word
  deriving DecidableEq, Repr

/-! ## The core and the cluster -/

/-- An engine's queue and its ended commands (R28, R293). -/
structure Engine where
  queue : List Cmd := []
  ended : List Ended := []
  deriving DecidableEq, Repr

/-- A bind record (R433). -/
inductive BindState where
  | free
  | reserved
  | live
  | saved
  deriving DecidableEq, Repr

structure Bind where
  state : BindState := .free
  crew : Nat := 0
  gang : Nat := 0
  lid : Nat := 0
  rows : List Nat := []
  sbase : Nat := 0
  gcr : Nat := 0
  /-- registers of each bank that a reservation holds for its cohorts (R101) -/
  regs : Nat := 0
  deriving DecidableEq, Repr

structure Core where
  threads : FMap Thread := []
  rows : FMap Row := []
  crews : FMap Crew := []
  binds : FMap Bind := []
  bins : List Bin := []
  claimQ : List ClaimReq := []
  selPol : BitVec 2 := 0
  selAge : BitVec 16 := 4096
  stream0 : Stream := {}
  stream1 : Stream := {}
  suspended : List Group := []
  psets : List ParkSet := []
  sob : List SobEntry := []
  lq : List LqEntry := []
  results : List Result := []
  dab : List DabEntry := []
  v1 : FMap ViewWord := []
  e1 : Word := 0
  xlat : List XlatReq := []
  scratch : Memory := []
  /-- words of the scratchpad and of the accumulator store with a double-bit error (R287, R464) -/
  badScratch : List Nat := []
  acc : FMap Word := []
  badAcc : List Nat := []
  /-- the commands that have written the accumulator store since the oldest whose residue verdict is open, oldest first: each with
  whether its own is open (R307, R319) -/
  ledger : List (Nat × Instr × Bool) := []
  colLfsr : FMap Word := []
  /-- the crew (bind record) that holds the MXE (R281) -/
  holder : Option Nat := none
  mxe : Engine := {}
  copy : Engine := {}
  icache : FMap (BitVec 512) := []
  deriving DecidableEq, Repr

/-- A layer entry of a Starter unit (R402): its key and the descriptor's copy. -/
structure LayerEntry where
  asid : Nat
  addr : Nat
  desc : Nat
  deriving DecidableEq, Repr

structure Cluster where
  v2 : FMap ViewWord := []
  e2 : Word := 0
  starter : Engine := {}
  /-- least recently used first -/
  layers : List LayerEntry := []
  deriving DecidableEq, Repr

/-! ## Fabric and homes (02, 10) -/

/-- Messages of the fabric (R33, R35, R239, R240, R29). -/
inductive Msg where
  /-- owner: who becomes the owner (none for inbound, Starter and management writes); entry: the store-buffer entry; cmd: the
  engine command whose write this is; hint: R220 -/
  | register (owner : Option Nat) (core : Nat) (entry : Nat) (cmd : Option (EngineId × Nat)) (hint : Nat) (word : Nat) (mask : BitVec 4)
      (data : Word)
  /-- an engine's write that covers a whole sector in one step (R274, R461); word is the sector's first -/
  | sector (owner : Option Nat) (core : Nat) (cmd : Option (EngineId × Nat)) (word : Nat) (data : BitVec 256)
  | atomic (core : Nat) (entry : Nat) (load : Nat) (min sub hint : Nat) (word : Nat) (operand other : Dword)
  | reduce (core : Nat) (entry : Nat) (cmd : Option (EngineId × Nat)) (min sub hint : Nat) (word : Nat) (operand : Dword) (half : Option Bool)
  /-- cmd: the engine command that reads (R249) -/
  | readReq (core : Nat) (load : Nat) (cmd : Option (EngineId × Nat)) (hint : Nat) (word : Nat)
  /-- rp, wp and xp are the line's permission copies; bad is what its sector tells; stamp is the home value's -/
  | readResp (core : Nat) (load : Nat) (cmd : Option (EngineId × Nat)) (word : Nat) (value : Word) (rp wp xp : Bool) (bad : Taint)
      (stamp : Nat)
  | window (core : Nat) (entry : Nat) (cmd : Option (EngineId × Nat)) (addr : Nat) (mask : BitVec 4) (data : Word)
  | ack (core : Nat) (entry : Nat) (cmd : Option (EngineId × Nat))
  | result (core : Nat) (entry : Nat) (load : Nat) (old : Dword) (success : Bool) (word : Nat)
  deriving DecidableEq, Repr

structure Lane where
  id : LaneId
  msgs : List Msg
  deriving DecidableEq, Repr

/-- Where a line was filled from (R218). -/
inductive FillAddr where
  | local (pa : Nat)
  /-- the far-map entry, the remote address, and the destination that the entry named at the fill -/
  | far (index : Nat) (addr : Nat) (dest : Dest)
  deriving DecidableEq, Repr

/-- A line at home (R28 H(w), R217, R218): its bytes, the tags of its sectors (R462), permission copies, DT, whether it is dirty,
poisoned sectors (R461), where it was filled from and the leaf that translated it; whether it is the first to leave its set
(R220). -/
structure Line where
  data : BitVec 512
  tags : BitVec 32
  rp : Bool
  wp : Bool
  xp : Bool
  dt : Bool
  dirty : Bool
  poison : BitVec 2
  fill : FillAddr
  leaf : Nat
  first : Bool
  deriving DecidableEq, Repr

/-- A TLB entry (R226): the partition, the tag (ASID or global), the page and its leaf word. -/
structure TlbEntry where
  part : Nat
  tag : Nat
  page : Nat
  level : Nat
  leafAddr : Nat
  leaf : Dword
  deriving DecidableEq, Repr

/-- A walk-cache entry (R226): a non-leaf entry by partition, tag, level and index path. -/
structure WalkEntry where
  part : Nat
  tag : Nat
  level : Nat
  path : Nat
  table : Nat
  deriving DecidableEq, Repr

/-- A heat update under way (R230). -/
structure HeatReq where
  part : Nat
  leafAddr : Nat
  write : Bool
  tag : Nat
  glb : Bool
  size : Nat
  va : Nat
  deriving DecidableEq, Repr

/-- A migration notification (R232). -/
structure MigRec where
  asid : Nat
  glb : Bool
  size : Nat
  part : Nat
  hw : Nat
  va : Nat
  leafAddr : Nat
  deriving DecidableEq, Repr

/-- A transport read under way for a far line (R229). -/
structure FarRead where
  line : Nat
  index : Nat
  addr : Nat
  dest : Dest
  leafAddr : Nat
  leaf : Dword
  /-- accesses that wait for it: core and request -/
  waiters : List (Nat × Nat)
  /-- block fetches that wait for it: core and stream -/
  fetches : List (Nat × Bool)
  /-- engine commands that wait for it: the command, the lowest address it touches there, the access kind -/
  cmds : List ((EngineId × Nat) × Nat × Nat)
  /-- the dispatch engine waits for it (R426, R435) -/
  front : Bool := false
  /-- a maintenance command of the range has come since it was asked: its data is dropped (R234) -/
  stale : Bool := false
  /-- lanes whose head waits for it -/
  heads : List LaneId := []
  /-- accesses that it is to count for heat (R230): the key and kind of each -/
  heat : List (Nat × Nat) := []
  /-- the level of the leaf (R224) -/
  level : Nat := 4
  /-- the cycle in which it was sent (R470) -/
  since : Nat := 0
  /-- an access with the hint .st is among them (R220) -/
  first : Bool := false
  deriving DecidableEq, Repr

/-- A far line's write-back that the transport has not acknowledged (R238). -/
structure FarWrite where
  line : Nat
  dest : Dest
  index : Nat
  addr : Nat
  data : BitVec 512
  /-- tags and poison as they stood in the line (R274) -/
  tags : BitVec 32
  poison : BitVec 2
  /-- the cycle in which it was sent (R470) -/
  since : Nat := 0
  deriving DecidableEq, Repr

/-- A page that Tsunath is migrating (R234): its record, the local page that takes it, and the bytes copied so far. -/
structure Migrating where
  record : MigRec
  target : Nat
  copied : Nat
  /-- the leaf is local again -/
  final : Bool := false
  /-- the command for the leaf as it was last written has dropped the range -/
  dropped : Bool := false
  deriving DecidableEq, Repr

/-! ## The dispatch engine (24, 25) -/

structure CrewSpec where
  coh : Nat
  regs : Nat
  scr : Nat
  cinit : Nat
  deriving DecidableEq, Repr

structure GroupSpec where
  valid : Bool
  cross : Bool
  rep : Bool
  members : List Nat
  deriving DecidableEq, Repr

structure SnapSpec where
  src : Nat
  copy : Nat
  len : Nat
  deriving DecidableEq, Repr

/-- A launch record as read at submission (R422 to R424). -/
structure LaunchRec where
  tag : Nat
  gangs : Nat
  prio : Nat
  det : Bool
  chk : Bool
  rst : Bool
  tmd : Bool
  pol : Nat
  asid : Nat
  queue : Nat
  age : Nat
  entry : Nat
  bound : Nat
  seed : Nat
  gtab : Nat
  ngrp : Nat
  heaps : Nat
  cw : Nat
  crews : List CrewSpec
  deps : List (Nat × Nat)
  resets : List (Nat × Nat)
  snaps : List SnapSpec
  groups : List GroupSpec
  deriving DecidableEq, Repr

inductive GangPhase where
  | unplaced
  | reserved
  | committed
  | running
  | saved
  /-- step 1 of R448 is done -/
  | stopping
  /-- steps 1 and 2 of R448 are done -/
  | killing
  /-- steps 1 to 4 of R448 are done -/
  | freed
  /-- the kill is complete and the gang will be relaunched -/
  | killed
  /-- the gang has completed, or will not start again -/
  | done
  deriving DecidableEq, Repr

/-- The context of a pre-empted crew in its save area (R442). -/
structure SavedCrew where
  core : Nat
  bind : Nat
  crew : Crew
  rows : FMap Row
  threads : FMap Thread
  /-- the slots that stood in bin entries -/
  binned : List Nat
  scratch : Memory
  badScratch : List Nat
  holdsMxe : Bool
  acc : FMap Word
  badAcc : List Nat
  colLfsr : FMap Word
  claims : List ClaimReq
  psets : List ParkSet
  mxe : Engine
  copy : Engine
  starter : Engine
  dab : List DabEntry
  results : List Result
  /-- loads and results of atomics that wait for a record, or for what DET holds back -/
  lq : List LqEntry
  deriving DecidableEq, Repr

structure Gang where
  phase : GangPhase := .unplaced
  /-- pre-emption has been requested: its crews form no issue group (R442) -/
  halting : Bool := false
  place : List PlaceReq := []
  crewsDone : List Nat := []
  attempt : Nat := 0
  /-- cycles counted by the watchdog before the present run, and the cycle at which it last started (R439) -/
  counted : Nat := 0
  started : Nat := 0
  saved : List SavedCrew := []
  /-- releases that arrived while saved (R149) -/
  deferred : List ReleaseReq := []
  /-- the cycle of its last issue group, ended command or stall notice (R439) -/
  lastActive : Nat := 0
  /-- the order of its commit (R441) -/
  committed : Nat := 0
  /-- after a kill: how many reset words and pieces of snapshots have been written, and whether all have (R449) -/
  restoreAt : Nat := 0
  restored : Bool := false
  /-- commands dropped by a kill whose writes are not all acknowledged (R448) -/
  draining : List (EngineId × Cmd) := []
  /-- loads and commands dropped by a kill whose read requests may be under way (R448) -/
  loads : List (Nat × Nat) := []
  readers : List (EngineId × Nat) := []
  deriving DecidableEq, Repr

/-- Who submitted a launch (R426): an OHP session and the endpoint that uses it, or a crew of an attempt of a gang. -/
inductive Submitter where
  | host (session endpoint : Nat)
  | crew (lid gang index attempt : Nat)
  deriving DecidableEq, Repr

structure Launch where
  record : LaunchRec
  submitter : Submitter
  eligible : Bool := false
  /-- the host has asked for its suspension (R441) -/
  suspended : Bool := false
  /-- pieces of snapshots copied, and whether all have been (R424) -/
  snapAt : Nat := 0
  snapped : Bool := false
  gangs : FMap Gang := []
  /-- crews counted in word 0 of the completion block (R438, R450) -/
  count : Nat := 0
  counted : List (Nat × Nat) := []
  done : Bool := false
  failed : Bool := false
  deriving DecidableEq, Repr

/-- An AtomicAtHome step on a completion block that the dispatch engine is to take (R428, R438, R450). -/
inductive BlockOp where
  /-- crew c of gang g has completed -/
  | crew (gang crew : Nat)
  | count
  | done
  | failed
  deriving DecidableEq, Repr

/-- The level at which a generation completes (R191). -/
inductive Level where
  | core
  | cluster
  | device
  deriving DecidableEq, Repr

/-- A barrier BG(g) (R190, R194). Cohort numbers are those of R425 (gang included). -/
structure Barrier where
  id : BarId
  gen : Nat
  mask : List Nat
  commitMask : List Nat
  arrived : List Nat
  leaves : List Nat
  joins : List Nat
  level : Level
  poisoned : Bool
  /-- crews (gang × 8 + crew) whose merge of this generation has been taken, and whose drain has (R41) -/
  merged : List Nat
  drained : List Nat
  /-- model's own: the number drawn at each member's Arrive, and, by crew, at the end of its drain -/
  arrivedAt : FMap Nat := []
  upto : FMap Nat := []
  /-- members whose last thread has exited (R195) -/
  exited : List Nat := []
  deriving DecidableEq, Repr

/-! ## The link engine and management (25, 26) -/

/-- What a machine-check message reports: a discarded dirty line (R235), a gang without progress (R439), a takeover, a standby that
stopped (R455). -/
inductive MachineCheck where
  | orphan
  | stall
  | takeover
  | standbyLost
  deriving DecidableEq, Repr

/-- Messages the device sends to the host (R472). -/
inductive OutMsg where
  | reply (type : Nat) (status : Nat) (session : Nat) (seq : Nat)
  /-- a launch submission is accepted: word 1 of the completion block (R428) -/
  | accepted (session seq : Nat) (word1 : Dword)
  | completion (session endpoint seq lid tag : Nat) (word0 : Dword)
  | readResponse (session seq : Nat) (status : Nat) (data : List Byte)
  /-- the session and the endpoint are those of the record's launch (R474); none for a launch that no session submitted -/
  | fault (dest : Option (Nat × Nat)) (seq : Nat) (record : BitVec 1536)
  /-- a containment record (R447) -/
  | containment (seq : Nat) (record : BitVec 512)
  /-- sent on a session, or to the host where R235, R439 and R455 name no session -/
  | machineCheck (session : Option Nat) (seq : Nat) (cause : MachineCheck) (lid gang : Nat)
  /-- a far line of the host's memory is asked for (R229, TYPE 0x0B) -/
  | hostLine (seq index addr : Nat)
  | farRequest (index addr : Nat)
  | farWrite (index addr : Nat) (data : BitVec 512) (tags : BitVec 32) (poison : BitVec 2)
  /-- a transport write to a device, and the port that the route table names (R24) -/
  | remoteWrite (port dev : Nat) (va : Nat) (bytes : List Byte)
  | farData (port : Nat) (va : Nat) (bytes : List Byte)
  /-- the report, its signature, and the certificate of the identity key (R477, R478) -/
  | attestation (session seq : Nat) (body : BitVec 1088) (sig : BitVec 768) (cert : Nat)
  /-- beside the first report: the memory links and the ports that failed at bring-up (R479) -/
  | failedParts (links ports : List Nat)
  /-- an inbound write is registered at its homes (R251, R385) -/
  | writeAck (port va : Nat)
  | recorderFull (session seq : Nat) (last : Dword)
  deriving DecidableEq, Repr

structure Session where
  endpoint : Nat
  glb : Bool
  asids : List Nat
  deriving DecidableEq, Repr

structure Recorder where
  on : Bool := false
  asid : Nat := 0
  base : Nat := 0
  len : Nat := 0
  pos : Nat := 0
  seq : Nat := 0
  /-- the session whose message started it -/
  session : Nat := 0
  deriving DecidableEq, Repr

/-- An item that a port has taken: a message of the host with its arguments, or a peer's access (R472, R251, R229). -/
inductive Item where
  | submit (m : OhpHdr)
  | write (m : OhpHdr)
  | read (m : OhpHdr)
  | tolerance (m : OhpHdr)
  | release (m : OhpHdr) (r : ReleaseReq)
  | contain (m : OhpHdr) (lid gang : Nat)
  | suspend (m : OhpHdr) (lid : Nat)
  | resume (m : OhpHdr) (lid : Nat)
  | hostLine (m : OhpHdr) (index remote : Nat) (data : BitVec 512)
  | attest (m : OhpHdr) (nonce : BitVec 256)
  | recorder (m : OhpHdr) (base len : Nat)
  | openSession (m : OhpHdr) (number endpoint : Nat) (glb : Bool) (asids : List Nat)
  | closeSession (m : OhpHdr) (number : Nat)
  /-- a message that is turned away whatever its arguments are -/
  | none_ (m : OhpHdr)
  | peerWrite (port va : Nat) (bytes : List Byte)
  | peerRead (port va : Nat)
  deriving DecidableEq, Repr

/-- An item, and how far it has come. -/
structure Ingress where
  item : Item
  /-- it is being recorded or performed -/
  begun : Bool := false
  /-- where the rest of its record goes, and the rest (R466) -/
  recAt : Nat := 0
  record : List Byte := []
  /-- bytes that it has written, or read -/
  wrote : Nat := 0
  got : List Byte := []
  /-- an error in a sector was met (R463) -/
  bad : Bool := false
  deriving DecidableEq, Repr

/-- A session's messages (R470, R471, R473): SEQ of the next that arrives, those that have arrived and are not performed, oldest
first, and SEQ of the next that the device sends of itself. -/
structure Flow where
  next : Nat := 0
  held : List Ingress := []
  sent : Nat := 0
  deriving DecidableEq, Repr

/-- Where the device stands in bring-up (R479) or in recovery (R475). -/
inductive BootPhase where
  | powered
  | verified
  | firmware
  | memory
  | links
  | running
  | recovery
  deriving DecidableEq, Repr

structure Boot where
  phase : BootPhase := .powered
  /-- flash slots 0 and 1: the image's number, none when empty -/
  slot0 : Option Nat := none
  slot1 : Option Nat := none
  /-- the fused counters of the two I/O dies (R475, R476) -/
  fuse0 : Nat := 0
  fuse1 : Nat := 0
  /-- the ROMs have verified once more from slot 0 (R476) -/
  retried : Bool := false
  bootSlot : Bool := false
  image : Nat := 0
  /-- the cycle at which the present verification began (R476) -/
  since : Nat := 0
  /-- I/O die 0 cannot run its ROM (R476) -/
  mute : Bool := false
  /-- memory links and ports that failed at bring-up, and whether a report has told of them (R479) -/
  links : List Nat := []
  ports : List Nat := []
  told : Bool := false
  deriving DecidableEq, Repr

inductive PowerState where
  | c0
  | c1
  | c2
  | c3
  | c4
  deriving DecidableEq, Repr

/-- The management complexes (R12, R454 to R456). -/
structure Mgmt where
  /-- the standby is in control -/
  standby : Bool := false
  primaryHeld : Bool := false
  standbyHeld : Bool := false
  /-- an error of its hart memory has stopped a complex (R464) -/
  hung0 : Bool := false
  hung1 : Bool := false
  /-- cycles at which each complex last wrote its heartbeat word -/
  beat0 : Nat := 0
  beat1 : Nat := 0
  deriving DecidableEq, Repr

/-- A containment trigger that has arisen and awaits the kill of its gang (R446 to R448). -/
structure Containment where
  lid : Nat
  gang : Nat
  trigger : TriggerReq
  time : Nat
  deriving DecidableEq, Repr

/-! ## The schedule -/

/-- An error that hardware takes (R458, R464). -/
inductive Upset where
  /-- bits of a stored sector change, by physical address / 32 -/
  | sector (n : Nat) (bits : BitVec 304)
  /-- a double-bit error in a line of the LLC, by line key -/
  | llc (line : Nat)
  /-- bits of a line of the LLC change unseen by its ECC -/
  | silent (line : Nat) (bits : BitVec 512)
  /-- a single-bit error in the arrays of a partition is corrected -/
  | single (part : Nat)
  /-- a double-bit error in an entry that is dropped and fetched again: entry i of the TLB or of the walk cache of a partition, a word
  of a core's L1 or a cluster's L2, a line of a core's instruction cache -/
  | tlb (part i : Nat)
  | walk (part i : Nat)
  | l1 (core word : Nat)
  | l2 (cluster word : Nat)
  | icache (core line : Nat)
  /-- a double-bit error in a word of a scratchpad or of an accumulator store, in a register of the crumb store, in a latch -/
  | scratch (core word : Nat)
  | acc (core word : Nat)
  | reg (core slot n : Nat)
  | latch (core slot n : Nat)
  /-- a double-bit error in bin tables, slot tables or engine queues -/
  | coreState (core : Nat)
  /-- a double-bit error in the hart memory of a management complex -/
  | harts (standby : Bool)
  deriving DecidableEq, Repr

/-- Work that goes on in steps of its own after the row that began it: the oldest message of a session, an item of a peer, the
snapshots of a launch, what a relaunch restores first, the writes of completion blocks. -/
inductive Task where
  | session (n : Nat)
  | peer (i : Nat)
  | snapshots (lid : Nat)
  | restore (lid gang : Nat)
  | blocks
  deriving DecidableEq, Repr

/-- What may come next (R30): a step of a row, an issue of a stream, time passing; a checked-mode mismatch at the instruction of a
stream (R124); bank slots in which an engine command reads scratchpad bytes before its other operands, or writes bytes of those it
has yet to write (R213, R249); an upset; at most n pieces of work under way. -/
inductive Move where
  | op (i : Instr)
  | issue (core : Nat) (stream : Bool)
  | tick (n : Nat)
  | mismatch (core : Nat) (stream : Bool)
  | bank (e : EngineId) (cmd core addr len : Nat)
  | upset (u : Upset)
  | work (t : Task) (n : Nat)
  deriving DecidableEq, Repr

/-- The state of the device. -/
structure State where
  /-- model's own: the moves that come next -/
  agenda : List Move
  /-- model's own: the core and stream whose group issues -/
  curCore : Nat
  curStream : Bool
  /-- model's own: numbers given to groups, entries, results, commands -/
  ctr : Nat
  /-- model's own: free values drawn so far -/
  freeCtr : Nat
  /-- model's own: changes of home values so far -/
  stamp : Nat
  cycle : Nat
  cores : FMap Core
  clusters : FMap Cluster
  lanes : List Lane
  lines : FMap Line
  /-- owners by word key (R28 H(w)); a word not listed has none -/
  owners : FMap Nat
  dram : Memory
  /-- poisoned sectors of the modules (R461), by physical address / 32 -/
  poisoned : List Nat
  /-- stored tags that are not the tag of their sector's bytes (R462), by physical address / 32 -/
  tags : FMap (BitVec 16)
  /-- bits of stored sectors that no longer are as they were written (R458), by physical address / 32 -/
  flips : FMap (BitVec 304)
  asidt : Dword
  groot : Dword
  farmap : Dword
  migdrop : FMap Word
  orphan : FMap Word
  ecc : FMap Dword
  tlb : List TlbEntry
  walks : List WalkEntry
  blocked : List PageRange
  /-- bytes whose page engines, ports and fetches found not present: they wait for Tsunath's service (R147, R321) -/
  absent : List Nat
  heat : List HeatReq
  migQ : List MigRec
  /-- the record Tsunath is migrating (R234) -/
  migrating : Option Migrating
  farReads : List FarRead
  farWrites : List FarWrite
  /-- far lines that the dispatch engine asked for and that were reported out of reach (R427, R435) -/
  lost : List Nat
  launches : FMap Launch
  /-- steps on completion blocks to come, by launch -/
  blockQ : List (Nat × BlockOp)
  nextLid : Word
  queues : FMap (List Nat)
  gcrs : FMap (Nat × Nat)
  bars : List Barrier
  faultQ : List FaultRecord
  contain : List Containment
  /-- containments with TRIG 1, 3 or 6 by the core that raised them (R449) -/
  trips : FMap Nat
  out : List OutMsg
  sessions : FMap Session
  flows : FMap Flow
  /-- items of peers that are not performed (R482) -/
  peers : List Ingress
  operators : List Nat
  recorder : Recorder
  power : PowerState
  tolerance : Nat
  /-- the cycle since which the device is idle (R480) -/
  idleSince : Nat
  portErrors : FMap Nat
  boot : Boot
  mgmt : Mgmt
  deriving DecidableEq, Repr

/-- Why the machine stops with a fault. -/
inductive Fault where
  /-- raised by step when an issue names a core beyond the 192 of R9: no such core exists; safe, the hardware has no such step -/
  | noSuchCore
  deriving DecidableEq, Repr

/-- Why an instruction has no meaning. -/
inductive Refusal where
  /-- an instruction that has not been given a meaning; safe, nothing can be proved of its effect -/
  | notModelled (mnemonic : String)
  deriving DecidableEq, Repr

/-- The device right after reset: before bring-up (R479), nothing queued, bound or cached, every register at its reset value. -/
def State.reset : State where
  agenda := []
  curCore := 0
  curStream := false
  ctr := 0
  freeCtr := 0
  stamp := 0
  cycle := 0
  cores := []
  clusters := []
  lanes := []
  lines := []
  owners := []
  dram := []
  poisoned := []
  tags := []
  flips := []
  asidt := 0
  groot := 0
  farmap := 0
  migdrop := []
  orphan := []
  ecc := []
  tlb := []
  walks := []
  blocked := []
  absent := []
  heat := []
  migQ := []
  migrating := none
  farReads := []
  farWrites := []
  lost := []
  launches := []
  blockQ := []
  nextLid := 0
  queues := []
  gcrs := []
  bars := []
  faultQ := []
  contain := []
  trips := []
  out := []
  sessions := []
  flows := []
  peers := []
  operators := []
  recorder := {}
  power := .c0
  tolerance := 0
  idleSince := 0
  portErrors := []
  boot := {}
  mgmt := {}

end Sys2Proof.Machine
end

