-- ==== Sys2Proof/Machine/Ops.lean ====
section
/-!
DEFINITION. The named operations over cores, threads, bins, results and park sets that the meanings share
(spec/05_core_execution.md, spec/06_core_control_system.md). Taking a fault is Core.parkSet through State.park; the return from
one is State.releaseSet.
-/
namespace Sys2Proof.Machine

/-- What a meaning answers. -/
abbrev Out := Host.Outcome State Fault Refusal

/-! ## Lists as sets of numbers, rising -/

/-- x put into a rising list, once. -/
def insertNat (x : Nat) : List Nat → List Nat
  | [] => [x]
  | y :: r => if x < y then x :: y :: r else if x = y then y :: r else y :: insertNat x r

def unionNat (a b : List Nat) : List Nat := a.foldr insertNat b

def subsetNat (a b : List Nat) : Bool := a.all b.contains

/-- The greatest member, 0 of none. -/
def maxNat (l : List Nat) : Nat := l.foldr max 0

/-- The least number from n on that is not in the list, for a list of at most fuel members. (DESIGN CHOICE, log 9) -/
def freshFrom (used : List Nat) : Nat → Nat → Nat
  | n, 0 => n
  | n, fuel + 1 => if used.contains n then freshFrom used (n + 1) fuel else n

/-! ## Cores -/

def State.core (s : State) (c : Nat) : Core := s.cores.get {} c

def State.setCore (s : State) (c : Nat) (k : Core) : State := { s with cores := s.cores.set c k }

def State.updCore (s : State) (c : Nat) (f : Core → Core) : State := s.setCore c (f (s.core c))

def State.cluster (s : State) (q : Nat) : Cluster := s.clusters.get {} q

def State.updCluster (s : State) (q : Nat) (f : Cluster → Cluster) : State :=
  { s with clusters := s.clusters.set q (f (s.cluster q)) }

/-- The cluster of a core (R9). -/
def clusterOf (c : Nat) : Nat := c / Config.coresPerCluster

/-- The row and the lane of a slot (R95). -/
def rowOf (slot : Nat) : Nat := slot / 32
def laneOf (slot : Nat) : Nat := slot % 32

def Core.thread (k : Core) (slot : Nat) : Thread := k.threads.get {} slot

def Core.setThread (k : Core) (slot : Nat) (t : Thread) : Core := { k with threads := k.threads.set slot t }

def Core.updThread (k : Core) (slot : Nat) (f : Thread → Thread) : Core := k.setThread slot (f (k.thread slot))

/-- The threads of these slots changed, each from what it is now. -/
def Core.mapThreads (k : Core) (slots : List Nat) (f : Nat → Thread → Thread) : Core :=
  { k with threads := slots.foldl (fun m x => FMap.set m x (f x (k.thread x))) k.threads }

def Core.row (k : Core) (r : Nat) : Row := k.rows.get {} r

/-- The rows of these numbers changed, each from what it is now. -/
def Core.mapRows (k : Core) (rows : List Nat) (f : Nat → Row → Row) : Core :=
  { k with rows := rows.foldl (fun m r => FMap.set m r (f r (k.row r))) k.rows }

def Core.updRow (k : Core) (r : Nat) (f : Row → Row) : Core := { k with rows := k.rows.set r (f (k.row r)) }

def Core.crew (k : Core) (b : Nat) : Crew := k.crews.get {} b

def Core.updCrew (k : Core) (b : Nat) (f : Crew → Crew) : Core := { k with crews := k.crews.set b (f (k.crew b)) }

/-- The bind record of the crew of a slot. -/
def Core.crewOf (k : Core) (slot : Nat) : Nat := (k.row (rowOf slot)).crew

def Core.crewAt (k : Core) (slot : Nat) : Crew := k.crew (k.crewOf slot)

/-- A live thread has started and has not exited. -/
def Thread.live (t : Thread) : Bool := t.phase ≠ .free && t.phase ≠ .exited

/-- The slots of a row. -/
def rowSlots (r : Nat) : List Nat := (List.range 32).map (32 * r + ·)

def Core.liveSlots (k : Core) (r : Nat) : List Nat := (rowSlots r).filter fun x => (k.thread x).live

def Core.crewSlots (k : Core) (b : Nat) : List Nat := (k.crew b).rows.flatMap rowSlots

/-- THREAD.ID (R96). -/
def Core.tid (k : Core) (slot : Nat) : Nat :=
  let c := k.crewAt slot
  (c.gang * 8 + c.index) * 1024 + (k.row (rowOf slot)).lci * 32 + laneOf slot

/-- The number of a cohort of a crew (R196, R425). -/
def cohortNo (gang index lci : Nat) : Nat := (gang * 8 + index) * 32 + lci

/-! ## Streams and groups -/

def Core.stream (k : Core) (st : Bool) : Stream := if st then k.stream1 else k.stream0

def Core.setStream (k : Core) (st : Bool) (x : Stream) : Core := if st then { k with stream1 := x } else { k with stream0 := x }

def Core.setGroup (k : Core) (st : Bool) (g : Option Group) : Core := k.setStream st { k.stream st with group := g }

/-- The core and the group of the issue under way. -/
def State.cur (s : State) : Core := s.core s.curCore

def State.curGroup (s : State) : Option Group := (s.cur.stream s.curStream).group

def State.updCur (s : State) (f : Core → Core) : State := s.updCore s.curCore f

/-- The group of the issue becomes g. A group that no thread is left in has ended. -/
def State.setCurGroup (s : State) (g : Group) : State :=
  s.updCur fun k => k.setGroup s.curStream (if g.members.isEmpty then none else some g)

/-- Address of the word at index i of a block's code. -/
def codeAddr (header : Dword) (i : Nat) : Dword := header + BitVec.ofNat 64 (4 * (i + 1))

/-- Address of the instruction the group stands at. -/
def Group.here (g : Group) : Dword := codeAddr g.header g.pc

def instrWords (i : Instr) : Nat := (encode i).length

/-- The group past the instruction i, which wrote latches when produces holds (R51). -/
def Group.past (g : Group) (i : Instr) (produces : Bool) : Group :=
  { g with pc := g.pc + instrWords i, ring := if produces then (g.ring + 1) % 4 else g.ring, blocked := false, covers := none,
           waits := [], doneAt := [], arrived := false, verdicts := [], repeated := false }

def Group.without (g : Group) (slots : List Nat) : Group :=
  { g with members := g.members.filter fun x => !slots.contains x, doneAt := g.doneAt.filter fun x => !slots.contains x }

/-- The groups of a core that have started and not ended, suspended ones included. -/
def Core.groups (k : Core) : List Group := k.stream0.group.toList ++ k.stream1.group.toList ++ k.suspended

/-! ## Guards (R56) -/

def Thread.pred (t : Thread) (p : Nat) : Bool := p = 7 || t.p.getLsbD p

def Thread.setPred (t : Thread) (p : Nat) (b : Bool) : Thread :=
  { t with p := if b then t.p ||| (1#7 <<< p) else t.p &&& ~~~(1#7 <<< p) }

def guardHolds (g : Guard) (t : Thread) : Bool := t.pred g.p.toNat ^^ g.neg

/-- The slots of the group whose guard is true (R5). -/
def activeSlots (k : Core) (g : Group) (gd : Guard) : List Nat := g.members.filter fun x => guardHolds gd (k.thread x)

/-! ## The store buffer and draining (R33) -/

/-- No entry of the thread waits in the store buffer. -/
def Core.drained (k : Core) (slot : Nat) : Bool := k.sob.all fun e => !e.slots.contains slot

/-! ## Filing (R108 to R110, R134, R203) -/

/-- The key under which a thread is filed. -/
def Core.keyOf (k : Core) (slot : Nat) : BinKey :=
  let c := k.crewAt slot
  ⟨c.asid.toNat, c.chk, (k.thread slot).next⟩

/-- Adds the thread to the entry: a reform holds it for the thread's crew, a yield marks it. -/
def Bin.join (b : Bin) (k : Core) (slot : Nat) : Bin :=
  let t := k.thread slot
  { b with members := insertNat slot b.members, held := if t.reform then insertNat (k.crewOf slot) b.held else b.held,
           yielded := b.yielded || t.yielding }

/-- Another thread waits in the spill bin. -/
def Core.othersSpilled (k : Core) (slot : Nat) : Bool := 
  k.threads.any fun e => e.1 ≠ slot && e.2.phase = .spilled && (k.thread e.1).phase = .spilled

/-- A thread goes into the entry of its key, into a new one where it may, or into the spill bin. -/
def Core.fileIn (k : Core) (now : Nat) (slot : Nat) (may : Bool) : Core :=
  let key := k.keyOf slot
  let put (k : Core) : Core := k.updThread slot fun t => { t with phase := .waiting, reform := false, yielding := false, void := none }
  if k.bins.any fun b => b.key = key then
    put { k with bins := k.bins.map fun b => if b.key = key then b.join k slot else b }
  else if may then
    put { k with bins := k.bins ++
      [Bin.join { key := key, header := (k.thread slot).header, members := [], filed := now, held := [], yielded := false } k slot] }
  else
    k.updThread slot fun t => { t with phase := .spilled, void := none }

/-- File(t, next). An entry that frees belongs to the spilled threads before any other (R110, R125). -/
def Core.fileThread (k : Core) (now : Nat) (slot : Nat) : Core :=
  k.fileIn now slot (decide (k.bins.length < Config.bins) && !k.othersSpilled slot)

/-- The thread has passed its terminator: it is filed, or Pending while results are outstanding (R105, R108). -/
def Core.leave (k : Core) (now : Nat) (slot : Nat) : Core :=
  if (k.thread slot).pend.isEmpty then k.fileThread now slot else k.updThread slot fun t => { t with phase := .pending }

/-- Sets where the thread goes next. A block entry (resume none) starts with the ring at 0 and every latch 0. -/
def Core.aim (k : Core) (slot : Nat) (next header : Dword) (resume : Option ResumePt) (reform yielding : Bool) : Core :=
  k.updThread slot fun t => { t with next := next, header := header, resume := resume, reform := reform, yielding := yielding }

/-- The thread is filed under the header at next. -/
def Core.goTo (k : Core) (now : Nat) (slot : Nat) (next : Dword) (reform : Bool) : Core :=
  (k.aim slot next next none reform false).leave now slot

/-! ## Latches that are lost (R51, R116, R121) -/

def dstIsLatch (d : Dst) : Bool := match d with | .bp _ => true | _ => false

/-- Every latch but those kept is lost. -/
def Thread.dropLatches (t : Thread) (keep : List Nat) : Thread :=
  { t with bp := t.bp.filter fun e => keep.contains e.1, badBp := t.badBp.filter keep.contains, pend := t.pend.filter fun d => !dstIsLatch d }

/-! ## Scalars (R48, R98) -/

def Row.scalar (r : Row) (n : Nat) : Word := if n = 0 then 0 else FMap.get 0 r.s n

def Row.setScalar (r : Row) (n : Nat) (w : Word) : Row := if n = 0 then r else { r with s := FMap.put 0 r.s n w }

def Row.scalarPending (r : Row) (n : Nat) : Bool := r.joins.any fun j => j.dsts.contains n

/-! ## Thread registers -/

def Thread.reg (t : Thread) (n : Nat) : Word := FMap.get 0 t.v n

/-- A register written anew has no error (R464). -/
def Thread.setReg (t : Thread) (n : Nat) (w : Word) : Thread := { t with v := FMap.put 0 t.v n w, badV := t.badV.filter (· ≠ n) }

/-- The value of an index register at commit (R99): index 0, low bound 0, high bound 255. -/
def idxReset : Word := 0x00FF0000#32

def Thread.idx (t : Thread) (n : Nat) : Word := FMap.get idxReset t.x n

/-- A write of an index register: bits [31:24] are reserved (R154). -/
def Thread.setIdx (t : Thread) (n : Nat) (w : Word) : Thread := { t with x := FMap.put idxReset t.x n (w &&& 0x00FFFFFF#32) }

def Thread.latch (t : Thread) (n : Nat) : Dword := FMap.get 0 t.bp n

def Thread.setLatch (t : Thread) (n : Nat) (w : Dword) : Thread :=
  { t with bp := FMap.put 0 t.bp n w, badBp := t.badBp.filter (· ≠ n) }

/-- A write of 0 to a rounding state stores 1 (R99, R140, R143). -/
def lfsrStore (w : Word) : Word := if w = 0 then 1 else w

/-- Writes one 32-bit register of a thread; a scalar is its row's. -/
def Thread.write (t : Thread) (d : Dst) (w : Word) : Thread :=
  match d with
  | .v n => t.setReg n w
  | .p n => t.setPred n (w ≠ 0)
  | .x n => t.setIdx n w
  | .bp n => t.setLatch n (w.setWidth 64)
  | .s _ => t

def Thread.writeAll (t : Thread) : List (Dst × Word) → Thread
  | [] => t
  | (d, w) :: r => (t.write d w).writeAll r

/-- The scalar writes of a list, on the row. (DEDUCED, log 6) -/
def Row.writeAll (row : Row) : List (Dst × Word) → Row
  | [] => row
  | (.s n, w) :: r => (row.setScalar n w).writeAll r
  | _ :: r => row.writeAll r

/-! ## Pending results (R98, R105) -/

/-- The thread has passed a terminator and its last result has arrived: it is filed. -/
def Core.settle (k : Core) (now : Nat) (slot : Nat) : Core :=
  let t := k.thread slot
  if t.phase = .pending && t.pend.isEmpty then k.fileThread now slot else k

/-- The values that a finished scalar destination takes. -/
def Row.joinWrite (r : Row) (j : Join) : Row :=
  match j.dsts with
  | [a] => r.setScalar a (j.value.setWidth 32)
  | [a, b] => (r.setScalar a (j.value.setWidth 32)).setScalar b ((j.value >>> 32).setWidth 32)
  | _ => r

/-- Scalars whose lanes have all their results are written. -/
def Row.joinEnd (r : Row) : Row :=
  (r.joins.filter fun j => j.slots.isEmpty).foldl Row.joinWrite { r with joins := r.joins.filter fun j => !j.slots.isEmpty }

/-- The lane's share of the scalar destination that starts at s(n) arrives. When it was the last, the scalar takes the highest
lane's value. -/
def Row.joinArrive (r : Row) (slot : Nat) (n : Nat) (w : Dword) : Row :=
  Row.joinEnd { r with joins := r.joins.map fun j =>
    if j.dsts.head? = some n && j.slots.contains slot then
      { j with slots := j.slots.filter (· ≠ slot), value := if slot = j.top then w else j.value }
    else j }

/-- Lanes that will never have their result wait no more. -/
def Row.joinForget (r : Row) (slots : List Nat) : Row :=
  Row.joinEnd { r with joins := r.joins.map fun j => { j with slots := j.slots.filter fun x => !slots.contains x } }

/-- The registers of a result, low half first; the latch takes the whole value. -/
def resultWrites (dsts : List Dst) (w : Dword) : List (Dst × Word) :=
  match dsts.filter fun d => match d with | Dst.bp _ => false | _ => true with
  | [a] => [(a, w.setWidth 32)]
  | [a, b] => [(a, w.setWidth 32), (b, (w >>> 32).setWidth 32)]
  | _ => []

/-- A register that an exitto has given up takes no result that was pending then: it reads 0 until the thread writes it (R104). -/
def Thread.takes (t : Thread) (d : Dst) : Bool :=
  match d, t.void with
  | .v m, some n => m < n
  | _, _ => true

/-- What the arrival of a result does to its thread: registers, latch and predicate are written and no longer pending. A latch
that was lost meanwhile is not written (R51). -/
def Thread.receive (t : Thread) (dsts : List Dst) (w : Dword) (pred : Option (Nat × Bool)) : Thread :=
  let all := dsts ++ (match pred with | some (p, _) => [Dst.p p] | none => [])
  let t := t.writeAll ((resultWrites dsts w).filter fun e => t.takes e.1)
  let t := dsts.foldl (fun t d => match d with
    | Dst.bp n => if t.pend.contains d then t.setLatch n w else t
    | _ => t) t
  let t := match pred with | some (p, b) => t.setPred p b | none => t
  { t with pend := t.pend.filter fun d => !all.contains d }

/-- A pending result with its value is written; a scalar, of every cohort of the group, through its lanes' share. The thread is
filed if it waited only for this. -/
def Core.deliver (k : Core) (now : Nat) (slot : Nat) (dsts : List Dst) (w : Dword) (pred : Option (Nat × Bool)) : Core :=
  let k := k.updThread slot fun t => t.receive dsts w pred
  let k := match dsts with
    | .s n :: _ => { k with rows := k.rows.mapVals fun _ r => r.joinArrive slot n w }
    | _ => k
  k.settle now slot

/-- The slot of the highest lane column among some threads of a group (R98). -/
def topSlot : List Nat → Nat
  | [] => 0
  | x :: l => l.foldl (fun a b => if laneOf a < laneOf b then b else a) x

/-- Scalar registers among some destinations. -/
def scalarDsts (l : List Dst) : List Nat := l.filterMap fun d => match d with | Dst.s n => some n | _ => none

/-- The cohorts of some slots, rising. -/
def rowsOf (slots : List Nat) : List Nat := (slots.map rowOf).foldr insertNat []

/-- Marks destinations of the lanes pending. The scalars among them wait, in every cohort of the group, for every lane of the
group, and take the value of the highest (R98). -/
def Core.pendFor (k : Core) (slots : List Nat) (dsts : Nat → List Dst) : Core :=
  let k := k.mapThreads slots fun x t => { t with pend := t.pend ++ dsts x }
  let scal := scalarDsts (dsts (slots.headD 0))
  if slots.isEmpty || scal.isEmpty then k
  else k.mapRows (rowsOf slots) fun _ row => { row with joins := row.joins ++ [⟨scal, slots, topSlot slots, 0⟩] }

/-! ## The register pool (R101, R103, R104) -/

/-- Registers of each bank that bound cohorts hold, and that reservations hold for theirs. (DESIGN CHOICE, log 84) -/
def Core.poolHeld (k : Core) : Nat := ((k.rows.map fun e => e.2.allot) ++ k.binds.map fun e => e.2.regs).foldr (· + ·) 0

def Core.poolFree (k : Core) : Nat := Config.bankRegs - k.poolHeld

/-- R104: once every live thread of the cohort carries a mark, the allotment shrinks to the greatest keep count, rounded up to a
multiple of 8, at least 8; it never grows; a cohort that has exited returns its allotment. (DESIGN CHOICE, log 83) -/
def Core.shrink (k : Core) (r : Nat) : Core :=
  let live := k.liveSlots r
  if live.isEmpty then k.updRow r fun row => { row with allot := 0 }
  else if live.all fun x => (k.thread x).keep.isSome then
    let most := maxNat (live.map fun x => ((k.thread x).keep.getD 0))
    let want := max 8 ((most + 7) / 8 * 8)
    let a := min want (k.row r).allot
    let k := live.foldl (fun k x => k.updThread x fun t => { t with keep := none, v := t.v.filter fun e => e.1 < a }) k
    k.updRow r fun row => { row with allot := a }
  else k

/-! ## Parking and release (R119, R121, R122, R146 to R149) -/

/-- A park: who parks with which code, DETAIL and address, and where they resume. -/
structure ParkReq where
  slots : List Nat
  code : Nat
  detail : Nat
  addr : Dword
  resume : Dword
  header : Dword
  ring : Nat
  /-- latches that the resume instruction reads -/
  latches : List Nat
  coh : Bool
  wait : Bool
  /-- for a fetch: the address whose page is not present (R147) -/
  absent : Option Dword := none

/-- Fields put in their places: the low bit and the value of each. -/
def packFields (l : List (Nat × Nat)) : Nat := (l.map fun e => e.2 * 2 ^ e.1).foldr (· + ·) 0

/-- The 192 bytes of a fault record (R146). -/
def FaultRecord.bits (r : FaultRecord) : BitVec 1536 :=
  BitVec.ofNat 1536 (packFields [(0, r.code % 2 ^ 8), (8, r.detail % 2 ^ 8), (16, r.core % 2 ^ 8), (24, r.coh.toNat), (25, r.wait.toNat),
    (26, r.det.toNat), (32, r.pset % 2 ^ 16), (48, r.count % 2 ^ 11), (64, r.resume.toNat), (128, r.header.toNat), (192, r.addr.toNat),
    (256, r.launch % 2 ^ 32), (288, r.asid % 2 ^ 16), (304, r.first % 2 ^ 32), (336, r.ring % 4), (384, r.time % 2 ^ 64),
    (512, (r.mask.map fun x => 2 ^ (x % 2 ^ 10)).foldr (· + ·) 0 % 2 ^ 1024)])

/-- The fault record of a park (R146). TIME is the running count, in a DET launch also. (DEDUCED, log 86) -/
def Core.faultRecord (k : Core) (c now pset : Nat) (q : ParkReq) : FaultRecord :=
  let mask := q.slots.foldr insertNat []
  let first := mask.headD 0
  let cr := k.crewAt first
  { code := q.code, detail := q.detail, core := c, coh := q.coh, wait := q.wait, det := cr.det, pset := pset, count := mask.length,
    resume := q.resume, header := q.header, addr := q.addr, launch := cr.lid, asid := cr.asid.toNat, first := k.tid first,
    ring := q.ring, time := now, mask := mask }

/-- The address that Tsunath serves for a park (R147): not present is served, every other code is reported. -/
def ParkReq.service (q : ParkReq) : Option Dword := if q.code = 0x08 then some q.addr else q.absent

/-- Park-set numbers of a core that are in save areas (R149). -/
def State.savedPsets (s : State) (c : Nat) : List Nat :=
  s.launches.flatMap fun l => l.2.gangs.flatMap fun g => g.2.saved.flatMap fun x => if x.core = c then x.psets.map (·.pset) else []

/-! ## Messages to the host (R471, R474) -/

def State.flow (s : State) (n : Nat) : Flow := s.flows.get {} n

def State.updFlow (s : State) (n : Nat) (f : Flow → Flow) : State := { s with flows := s.flows.set n (f (s.flow n)) }

/-- The device sends a message of itself on a session, with the SEQ that comes next there. (DEDUCED, log 52) -/
def State.post (s : State) (n : Nat) (m : Nat → OutMsg) : State :=
  { s.updFlow n (fun f => { f with sent := f.sent + 1 }) with out := s.out ++ [m (s.flow n).sent] }

/-- 940 MHz (R27). -/
def cyclesPerSecond : Nat := 940000000

/-- An ingress item ends a power state (R480, R482). -/
def State.wake (s : State) : State := { s with power := .c0 }

/-- The session and the endpoint to which reports of a launch go (R474). (DEDUCED, log 50) -/
def State.sessionOf (s : State) (lid : Nat) : Option (Nat × Nat) :=
  match s.launches.find lid with
  | some l => match l.submitter with
    | .host n e => some (n, e)
    | .crew _ _ _ _ => none
  | none => none

/-- A fault report (R147); of a launch that no session submitted on session 0. -/
def State.report (s : State) (r : FaultRecord) : State :=
  let dest := s.sessionOf r.launch
  s.post ((dest.map (·.1)).getD 0) fun n => .fault dest n r.bits

/-- TAKING A FAULT: the threads enter the park bin with their record, which is posted to the fault queue. Nothing else of them
changes but their latches, of which the record keeps those that the resume instruction reads. A set of no thread parks
nothing. -/
def State.park (s : State) (c : Nat) (q : ParkReq) : State :=
  if q.slots.isEmpty then s else
  let k := s.core c
  let used := k.psets.map (·.pset) ++ s.savedPsets c
  let pset := freshFrom used 0 used.length
  let rec_ := k.faultRecord c s.cycle pset q
  let park (t : Thread) : Thread :=
    { t with phase := .parked, next := q.resume, header := q.header, reform := false, yielding := false, bp := [],
             badBp := t.badBp.filter q.latches.contains,
             pend := t.pend.filter fun d => !dstIsLatch d,
             resume := some { ring := q.ring, latches := t.bp.filter fun e => q.latches.contains e.1 } }
  let s : State := { s.setCore c { k.mapThreads q.slots fun _ t => park t with psets := k.psets ++ [⟨pset, rec_, q.service⟩] } with
    faultQ := s.faultQ ++ [rec_] }
  if q.service.isSome then s else s.report rec_

/-- THE RETURN FROM A FAULT, actions 0 to 2 of R148, once the registers have been written: each thread is filed at its resume
address, or at the header h with its latches and ring at 0, or exits: Waiting or Spilled, also while a result is outstanding (R105).
FAULT.INFO then holds CODE and DETAIL. -/
def Core.releaseSet (k : Core) (now : Nat) (p : ParkSet) (redirect : Option Dword) : Core :=
  let info := BitVec.ofNat 16 (p.record.code + 256 * p.record.detail)
  let k := { k with psets := k.psets.filter fun e => e.pset ≠ p.pset }
  p.record.mask.foldl (fun k x =>
    let k := k.updThread x fun t => { t with faultInfo := info }
    match redirect with
    | none => k.fileThread now x
    | some h => (k.aim x h h none false false).fileThread now x) k

/-! ## Activity (R439) -/

/-- A gang has formed an issue group, or a command of it has ended. -/
def State.noteActive (s : State) (lid gang : Nat) : State :=
  { s with launches := s.launches.adjust lid fun l => { l with gangs := l.gangs.adjust gang fun g => { g with lastActive := s.cycle } } }

/-! ## Free values -/

/-- The next free value: the counter that State holds goes on. -/
def State.bumpFree (s : State) : State := { s with freeCtr := s.freeCtr + 1 }

/-- The next number given to an entry, a group, a command. -/
def State.bump (s : State) : State := { s with ctr := s.ctr + 1 }

end Sys2Proof.Machine
end

