-- ==== Sys2Proof/Machine/Operands.lean ====
section
/-!
DEFINITION. Reading and writing operands (spec/03_formats_opcodes.md R47 to R56, spec/07_core_arith.md R150 to R154), the
conditions of R68 that need the block, the shared issue of a register-class instruction over an issue group, and the parks that
an instruction's faults make (R116, R119, R121).
-/
namespace Sys2Proof.Machine

/-! ## The B shape as the E shape (R47) -/

/-- A source of the B shape: 124 to 127 select bypass latches. -/
def shortSrc (c : BitVec 7) : Opnd :=
  if c.toNat < 124 then ⟨.vec, c.setWidth 8, false, false⟩ else ⟨.vec, BitVec.ofNat 8 (c.toNat - 124), true, false⟩

def noOpnd : Opnd := ⟨.vec, 0, false, false⟩

def alwaysGuard : Guard := ⟨7, false⟩

def shortForm (w : Bool) (d : BitVec 7) (a b : Opnd) : EForm :=
  { lit := none, w := w, guard := alwaysGuard, sub := 0, rm := 0, sat := false, d := ⟨.vec, d.setWidth 8, false, false⟩, a := a, b := b,
    c := noOpnd, xs := 0, sa := 0, sb := 0, imm8 := 0 }

def bToE (f : BForm) : EForm := shortForm f.w f.d (shortSrc f.a) (shortSrc f.b)

def uToE (f : BUnary) : EForm := shortForm f.w f.d (shortSrc f.a) noOpnd

/-! ## Operands of a lane -/

/-- The register an operand of n registers names: its code, or through the index register, whose bounds, 255 and the allotment
it must not pass and whose alignment it must keep (R53, R102, R153); so for the groups of atom.cas too. (DEDUCED, log 82) -/
def regIndex (t : Thread) (allot : Nat) (f : EForm) (o : Opnd) (n : Nat) : Except Nat Nat :=
  if o.ind then
    let x := (t.idx f.xs.toNat).toNat
    let j := x % 256 + o.code.toNat
    let lo := x / 256 % 256
    let hi := x / 65536 % 256
    if lo ≤ j ∧ j + n ≤ hi + 1 ∧ j + n ≤ 256 ∧ j + n ≤ allot ∧ j % n = 0 then .ok j else .error 5
  else .ok o.code.toNat

/-- A register, or a pair with its low half first. -/
def Thread.regs (t : Thread) (j : Nat) (wide : Bool) : Dword :=
  if wide then (t.reg (j + 1) ++ t.reg j) else (t.reg j).setWidth 64

def Row.scalars (r : Row) (j : Nat) (wide : Bool) : Dword :=
  if wide then (r.scalar (j + 1) ++ r.scalar j) else (r.scalar j).setWidth 64

def low32 (x : Dword) : Dword := (x.setWidth 32).setWidth 64

/-- The value of a source operand of 32 or 64 bits. -/
def readOpnd (t : Thread) (r : Row) (f : EForm) (o : Opnd) (wide : Bool) : Except Nat Dword :=
  match o.kind with
  | .vec =>
    if o.latch then .ok (if wide then t.latch o.code.toNat else low32 (t.latch o.code.toNat))
    else match regIndex t r.allot f o (if wide then 2 else 1) with
      | .ok j => .ok (t.regs j wide)
      | .error e => .error e
  | .scl => .ok (r.scalars o.code.toNat wide)
  | .imm => .ok (if wide then immValue f else low32 (immValue f))
  | .spc =>
    let n := o.code.toNat
    if n < 8 then .ok (if t.pred n then 1 else 0) else .ok ((t.idx (n - 8)).setWidth 64)

/-- The destinations of an operand: none for a suppressed write-back (R52). An indirected D with W = 1 is not checked against its
index bounds: R53 and R153 leave that open. (DESIGN CHOICE, log 70) -/
def dstOpnd (t : Thread) (r : Row) (f : EForm) (o : Opnd) (wide : Bool) : Except Nat (List Dst) :=
  match o.kind with
  | .vec =>
    if f.w then .ok []
    else match regIndex t r.allot f o (if wide then 2 else 1) with
      | .ok j => .ok (if wide then [.v j, .v (j + 1)] else [.v j])
      | .error e => .error e
  | .scl => .ok (if wide then [.s o.code.toNat, .s (o.code.toNat + 1)] else [.s o.code.toNat])
  | .imm => .ok []
  | .spc => .ok [if o.code.toNat < 8 then .p o.code.toNat else .x (o.code.toNat - 8)]

/-- What an instruction does in one lane: the registers it writes, the latch value if it is result-producing, the rounding state
if it advances it. -/
structure LaneOut where
  writes : List (Dst × Word) := []
  latch : Option Dword := none
  lfsr : Option Word := none
  deriving DecidableEq, Repr

/-- The result written to D, and to the latch when D is of kind 00 (R49, R51). -/
def laneResult (f : EForm) (dsts : List Dst) (wide : Bool) (x : Dword) : LaneOut :=
  { writes := resultWrites dsts x,
    latch := if f.d.kind = .vec then some (if wide then x else low32 x) else none }

def laneOut (t : Thread) (r : Row) (f : EForm) (wide : Bool) (x : Dword) : Except Nat LaneOut :=
  match dstOpnd t r f f.d wide with
  | .ok d => .ok (laneResult f d wide x)
  | .error e => .error e

def Thread.apply (t : Thread) (ring : Nat) (o : LaneOut) : Thread :=
  let t := t.writeAll o.writes
  let t := match o.latch with | some x => t.setLatch ring x | none => t
  match o.lfsr with | some w => { t with lfsr := w } | none => t

/-! ## Registers an instruction touches (R116) -/

/-- The registers that an operand of n registers reads or writes in a lane. -/
def opndRegs (t : Thread) (allot : Nat) (f : EForm) (o : Opnd) (n : Nat) : List Dst :=
  match o.kind with
  | .vec =>
    if o.latch then [.bp o.code.toNat]
    else match regIndex t allot f o n with
      | .ok j => (List.range n).map fun i => .v (j + i)
      | .error _ => []
  | .scl => (List.range n).map fun i => .s (o.code.toNat + i)
  | .imm => []
  | .spc => if o.code.toNat < 8 then [.p o.code.toNat] else if o.code.toNat < 12 then [.x (o.code.toNat - 8)] else []

def specRegs (t : Thread) (allot : Nat) (f : EForm) (s : OpSpec) (o : Opnd) : List Dst :=
  match s with
  | .operand _ w => opndRegs t allot f o w.count
  | _ => []

/-- Everything an E-shape instruction reads or writes in a lane: operands, and the index register of an indirection. -/
def touched (sp : ESpec) (f : EForm) (t : Thread) (allot : Nat) : List Dst :=
  specRegs t allot f sp.d f.d ++ specRegs t allot f sp.a f.a ++ specRegs t allot f sp.b f.b ++ specRegs t allot f sp.c f.c ++
  (if f.indCount then [.x f.xs.toNat] else [])

def guardRegs (gd : Guard) : List Dst := if gd.p = 7 then [] else [.p gd.p.toNat]

/-- Whether one of these is pending in the lane. -/
def anyPending (k : Core) (slot : Nat) (ds : List Dst) : Bool :=
  let t := k.thread slot
  ds.any fun d => t.pend.contains d || (match d with | .s n => (k.row (rowOf slot)).scalarPending n | _ => false)

/-- Whether the latch that a result-producing instruction writes is pending in a thread of the group. -/
def latchBusy (k : Core) (g : Group) (produces : Bool) : Bool :=
  produces && g.members.any fun x => (k.thread x).pend.contains (.bp g.ring)

/-- Whether the group must stall: the guard, or something the active lane touches, is pending. -/
def mustStall (k : Core) (g : Group) (gd : Guard) (regs : Thread → Nat → List Dst) : Bool :=
  g.members.any fun x =>
    let t := k.thread x
    anyPending k x (guardRegs gd) || (guardHolds gd t && anyPending k x (regs t (k.row (rowOf x)).allot))

/-! ## Faults of an instruction (R119, R121) -/

structure LaneFault where
  slot : Nat
  code : Nat
  detail : Nat
  addr : Dword
  deriving DecidableEq, Repr

/-- The fault of the lowest lane. -/
def lowestLane : List LaneFault → Option LaneFault
  | [] => none
  | f :: r => match lowestLane r with
    | some h => if laneOf f.slot ≤ laneOf h.slot then some f else some h
    | none => some f

/-- The fault codes that occur, rising. -/
def faultCodes (fs : List LaneFault) : List Nat := (fs.map (·.code)).foldr insertNat []

/-- The latches that an operand reads. -/
def opndLatch (o : Opnd) : List Nat := if o.kind = .vec && o.latch then [o.code.toNat] else []

def shortLatch (c : BitVec 7) : List Nat := if c.toNat < 124 then [] else [c.toNat - 124]

/-- The latches that an instruction reads (R121). -/
def latchesRead (i : Instr) : List Nat :=
  match i with
  | .addB f | .subB f | .mulB f | .mulhB f | .minB f | .maxB f | .andB f | .orB f | .xorB f | .andnB f | .shlB f | .shrB f
  | .sarB f | .rolB f | .faddB f | .fsubB f | .fmulB f | .fminB f | .fmaxB f | .fdivB f => shortLatch f.a ++ shortLatch f.b
  | .absB f | .notB f | .movB f | .frcpB f | .frsqB f | .fsqrtB f | .fexp2B f | .flog2B f | .fsinpiB f | .fcospiB f =>
    shortLatch f.a
  | .jmpiB a | .calliB a => shortLatch a
  | .jmpiE f | .calliE f => if f.latch then [f.a.toNat] else []
  | i => match eSpec i with
    | some (f, _) => opndLatch f.a ++ opndLatch f.b ++ opndLatch f.c
    | none => []

/-- The waits at which an engine reports faults (R294). -/
def isWait (i : Instr) : Bool := match i with | .mxwait _ | .tcwait _ | .swait _ => true | _ => false

/-- Where an instruction parks the threads: its own address. -/
def parkHere (g : Group) (i : Instr) (slots : List Nat) (code detail : Nat) (addr : Dword) : ParkReq :=
  { slots := slots, code := code, detail := detail, addr := addr, resume := g.here, header := g.header, ring := g.ring,
    latches := latchesRead i, coh := g.cf, wait := isWait i }

/-- One park set per code, codes rising. -/
def parkCodes (s : State) (c : Nat) (g : Group) (i : Instr) (fs : List LaneFault) : List Nat → State
  | [] => s
  | code :: r =>
    let mine := fs.filter fun f => f.code = code
    match lowestLane mine with
    | some f => parkCodes (s.park c (parkHere g i (mine.map (·.slot)) code f.detail f.addr)) c g i fs r
    | none => parkCodes s c g i fs r

/-- Parks what faulted: in a cohort block the whole cohort, with the lowest code. Answers the group without them. -/
def State.parkFaults (s : State) (c : Nat) (g : Group) (i : Instr) (fs : List LaneFault) : State × Group :=
  if g.cf then
    match faultCodes fs with
    | [] => (s, g)
    | code :: _ => (parkCodes s c g i (match lowestLane (fs.filter fun f => f.code = code) with
        | some f => g.members.map fun x => ⟨x, code, f.detail, f.addr⟩
        | none => []) [code], g.without g.members)
  else (parkCodes s c g i fs (faultCodes fs), g.without (fs.map (·.slot)))

/-- Every thread of the group parks with one code at the instruction (a fault of the whole instruction). -/
def State.parkAll (s : State) (g : Group) (i : Instr) (slots : List Nat) (code : Nat) (addr : Dword) : State :=
  let r := s.parkFaults s.curCore g i (slots.map fun x => ⟨x, code, 0, addr⟩)
  r.1.setCurGroup r.2

/-! ## Issue of a register-class instruction -/

/-- Writes the lanes' effects: registers of the lanes in done, latch 0 in the other members when the instruction produces a
result, and in each cohort with such a lane the scalars of the group's highest one (R98). -/
def writeLanes (k : Core) (g : Group) (done : List Nat) (produces : Bool) (out : Nat → LaneOut) : Core :=
  (k.mapThreads g.members fun x t =>
    if done.contains x then t.apply g.ring (out x) else if produces then t.setLatch g.ring 0 else t).mapRows
    (rowsOf done) fun _ row => row.writeAll (out (topSlot done)).writes

/-- The shared issue: stall on what is pending, evaluate each active lane, park those that fault (with DETAIL 0: DESIGN CHOICE,
log 73), write the others; post is what the instruction does beyond registers, given the lanes that did not fault. -/
def issueEff (i : Instr) (gd : Guard) (produces : Bool) (regs : Thread → Nat → List Dst) (eval : Core → Nat → Except Nat LaneOut)
    (post : List Nat → State → State) (s : State) : Out :=
  match s.curGroup with
  | none => .next s
  | some g =>
    let k := s.cur
    if mustStall k g gd regs || latchBusy k g produces then .next s
    else
      let act := activeSlots k g gd
      let fs := act.filterMap fun x => match eval k x with
        | .error c => some ⟨x, c, 0, 0⟩
        | .ok _ => none
      let r := s.parkFaults s.curCore g i fs
      let done := act.filter r.2.members.contains
      let out (x : Nat) : LaneOut := match eval k x with
        | .ok o => o
        | .error _ => {}
      .next ((post done (r.1.updCur fun k => writeLanes k r.2 done produces out)).setCurGroup (r.2.past i produces))

/-- An instruction with no effect beyond registers. -/
def issueLanes (i : Instr) (gd : Guard) (produces : Bool) (regs : Thread → Nat → List Dst) (eval : Core → Nat → Except Nat LaneOut)
    (s : State) : Out :=
  issueEff i gd produces regs eval (fun _ s => s) s

/-- An E-shape instruction whose effect in a lane depends only on that thread and its cohort. -/
def issueReg (i : Instr) (f : EForm) (sp : ESpec) (eval : Thread → Row → Except Nat LaneOut) (s : State) : Out :=
  issueLanes i f.guard (sp.produces f) (touched sp f) (fun k x => eval (k.thread x) (k.row (rowOf x))) s

/-- What the entry of an E-shape instruction says of its fields (WellFormed.lean). -/
def entryOf (i : Instr) : ESpec := match eSpec i with | some (_, sp) => sp | none => {}

/-! ## The conditions of R68 that need the block -/

/-- R179. -/
def isCohort (i : Instr) : Bool :=
  match i with
  | .shflIdx _ | .shflXor _ | .shflUp _ | .shflDown _ | .voteAny _ | .voteAll _ | .voteBallot _ | .matchLanes _ | .redux _ | .scan _
  | .isect _ | .claim _ | .cede _ | .sign _ | .arrive _ | .await _ | .arwait _ | .awaitElect _ => true
  | _ => false

def isTerminator (i : Instr) : Bool :=
  match i with
  | .braB _ | .braE _ | .brcB _ _ _ | .brcE _ | .jmpiB _ | .jmpiE _ | .callB _ | .callE _ | .calliB _ | .calliE _ | .retB | .retE _
  | .exitB | .exitE _ | .exittoB _ _ | .exittoE _ | .reformB _ | .reformE _ | .trapB _ | .trapE _ => true
  | _ => false

/-- One more than the highest register that a direct operand names. -/
def opndTop (s : OpSpec) (o : Opnd) : Nat :=
  match s with
  | .operand _ w => if o.kind = .vec && !o.latch && !o.ind then o.code.toNat + w.count else 0
  | _ => 0

def shortTop (c : BitVec 7) : Nat := if c.toNat < 124 then c.toNat + 1 else 0

/-- Registers that the metadata of mmas and spz covers (R315). -/
def metaCount (f : GForm) : Nat := if f.m ≤ 32 then 3 else 6

/-- The registers of the engine class by entry (R309, R350, R378, R406): base code and count. -/
def engRegs (i : Instr) : List (Nat × Nat) :=
  match i with
  | .omap f => [(f.a.toNat, 4)]
  | .mmas f => [(f.c.toNat, metaCount f)]
  | .spz f => [(f.d.toNat, metaCount f)]
  | .acld f | .acst f => if f.c.toNat / 16 % 2 = 1 then [(f.a.toNat, 2), (f.b.toNat, 1)] else []
  | .tnew f | .tfree f => [(f.d.toNat, 2)]
  | .tinfo f => [(f.d.toNat, 4), (f.a.toNat, 2)]
  | .tmov f | .trnd f | .tdense f | .tlu f | .tchol f | .tdelta f => [(f.d.toNat, 2), (f.a.toNat, 2)]
  | .tadd f | .tmul f | .ttrsm f => [(f.d.toNat, 2), (f.a.toNat, 2), (f.b.toNat, 2)]
  | .tcopy f | .gath f | .scat f | .rules f | .spred f | .sfetch f | .scheck f => [(f.a.toNat, 2)]
  | _ => []

/-- One more than the highest register that an instruction names directly (R50). -/
def regTop (i : Instr) : Nat :=
  match i with
  | .addB f | .subB f | .mulB f | .mulhB f | .minB f | .maxB f | .andB f | .orB f | .xorB f | .andnB f | .shlB f | .shrB f
  | .sarB f | .rolB f | .faddB f | .fsubB f | .fmulB f | .fminB f | .fmaxB f | .fdivB f =>
    max (if f.w then 0 else f.d.toNat + 1) (max (shortTop f.a) (shortTop f.b))
  | .absB f | .notB f | .movB f | .frcpB f | .frsqB f | .fsqrtB f | .fexp2B f | .flog2B f | .fsinpiB f | .fcospiB f =>
    max (if f.w then 0 else f.d.toNat + 1) (shortTop f.a)
  | .movlBL w d _ => if w then 0 else d.toNat + 1
  | .jmpiB a | .calliB a => shortTop a
  | .jmpiE f | .calliE f => if f.latch then 0 else f.a.toNat + 1
  | i => match eSpec i with
    | some (f, sp) => max (if f.w then 0 else opndTop sp.d f.d) (max (opndTop sp.a f.a) (max (opndTop sp.b f.b) (opndTop sp.c f.c)))
    | none => maxNat ((engRegs i).map fun e => e.1 + e.2)

def isHeader (i : Instr) : Bool := match i with | .blockHeader _ _ _ => true | _ => false

/-- Whether an instruction that the group stands at is legal in its block: below the HWM, a cohort instruction only in a cohort
block, no header inside, words within LEN, a terminator exactly at the end (R68). -/
def blockLegal (g : Group) (i : Instr) : Bool :=
  !isHeader i && decide (regTop i ≤ g.hwm) && (!isCohort i || g.cf) && decide (g.pc + instrWords i ≤ g.len) &&
  (!isTerminator i || decide (g.pc + instrWords i = g.len))

end Sys2Proof.Machine
end

