-- ==== Sys2Proof/Machine/Fetch.lean ====
section
/-!
DEFINITION. The instruction a group stands at, out of the block's words that it holds (spec/05_core_execution.md R106, R128), and
an instruction placed for the next step.
-/
namespace Sys2Proof.Machine

/-- The instruction that the group stands at: the header while it enters its block, then the words at its index. none where the
words encode no instruction or none that the block allows (R68), and past the block's end. -/
def fetched (g : Group) : Option Instr :=
  if g.entering then
    match decode [g.headWord] with
    | .ok (.blockHeader cf hwm len, _) => some (.blockHeader cf hwm len)
    | _ => none
  else
    match decode (g.code.drop g.pc) with
    | .ok (i, _) => if blockLegal g i then some i else none
    | .error _ => none

/-- Whether a word is a block header by its shape (R62): L = 00, MAJ = 0x1F, MIN = 11. (DEDUCED, log 40) -/
def headerShape (w : Nat) : Bool := w / 2 ^ 22 = 0x7F

/-- A minimal bound crew on core 0: one cohort in row 0 with the full allotment, its thread in lane 0 streaming. -/
def probeCore (g : Group) : Core :=
  { threads := [(0, { phase := .streaming })], rows := [(0, { allot := 256 })], crews := [(0, { rows := [0], scr := 65536 })],
    binds := [(0, { state := .live, rows := [0] })], stream0 := { group := some g } }

/-- The words of an instruction held by a group of core 0, stream 0, that issues them next. The block is a cohort block that
names every register; a terminator ends it, any other instruction stands before its end; a header is met at block entry.
(DESIGN CHOICE, log 3) -/
def placeWords (s : State) (ws : List Nat) : State :=
  let w0 := ws.headD 0
  let size := match decode ws with
    | .ok (i, n) => if isTerminator i then n else 16
    | .error _ => 16
  let g : Group :=
    { id := 0, key := ⟨0, false, 0x400000000#64⟩, header := 0x400000000#64, members := [0], cols := [0], entering := headerShape w0,
      headWord := w0, code := ws, pc := 0, hwm := 256, cf := true, len := size }
  { s with agenda := [.issue 0 false], cores := s.cores.set 0 (probeCore g) }

end Sys2Proof.Machine
end

