-- ==== Sys2Proof/Machine/Flags.lean ====
section
/-!
DEFINITION. Reading and fitting integers of a type, carry, borrow and comparison (spec/07_core_arith.md R151, R155 to R157).
-/
namespace Sys2Proof.Machine

/-- The low w bits of x as an integer, two's complement when signed. -/
def toInt (w : Nat) (signed : Bool) (x : Nat) : Int :=
  let m := x % 2 ^ w
  if signed && decide (2 ^ (w - 1) ≤ m) then (m : Int) - 2 ^ w else m

/-- The low w bits of an integer, in two's complement. -/
def narrow (w : Nat) (x : Int) : Nat := (x % (2 ^ w : Int)).toNat

/-- An integer clamped to the range of width w. -/
def clampInt (w : Nat) (signed : Bool) (x : Int) : Int :=
  let lo : Int := if signed then -(2 ^ (w - 1) : Int) else 0
  let hi : Int := if signed then 2 ^ (w - 1) - 1 else 2 ^ w - 1
  if x < lo then lo else if hi < x then hi else x

/-- A value read by its type (R151, R155): signed for .i types, unsigned for .n and .b types. -/
def typeInt (sub : BitVec 4) (x : Dword) : Int := toInt (intWidth sub) (intSigned sub) x.toNat

/-- The low w bits of a value. -/
def typeNat (sub : BitVec 4) (x : Dword) : Nat := x.toNat % 2 ^ intWidth sub

/-- A result of width w as a register holds it (R151): extended to 32 bits, by sign for .i8 and .i16. -/
def extend (sub : BitVec 4) (n : Nat) : Dword :=
  let w := intWidth sub
  let m := n % 2 ^ w
  if w < 32 && intSigned sub && decide (2 ^ (w - 1) ≤ m) then BitVec.ofNat 64 (m + 2 ^ 32 - 2 ^ w) else BitVec.ofNat 64 m

/-- Fit(x) of R155. -/
def fit (sub : BitVec 4) (sat : Bool) (x : Int) : Dword :=
  extend sub (narrow (intWidth sub) (if sat then clampInt (intWidth sub) (intSigned sub) x else x))

/-- Sum with carry: the low w bits and bit w (R155 addc). -/
def addCarry (w a b : Nat) (c : Bool) : Nat × Bool :=
  let x := a + b + c.toNat
  (x % 2 ^ w, decide (2 ^ w ≤ x))

/-- Difference with borrow: the low w bits and the borrow (R155 subb). -/
def subBorrow (w a b : Nat) (c : Bool) : Nat × Bool :=
  (narrow w ((a : Int) - b - c.toNat), decide (a < b + c.toNat))

/-- The conditions of cmp (R157). -/
def cmpCond (c : Nat) (a b : Int) : Bool :=
  match c with
  | 0 => decide (a = b)
  | 1 => decide (a ≠ b)
  | 2 => decide (a < b)
  | 3 => decide (a ≤ b)
  | 4 => decide (b < a)
  | _ => decide (b ≤ a)

end Sys2Proof.Machine
end

