-- ==== Sys2Proof/Machine/Integer.lean ====
section
/-!
DEFINITION. Integer, logic, compare, predicate, move and address instructions (spec/07_core_arith.md R155 to R161) and nop
(R67, R138).
-/
namespace Sys2Proof.Machine

/-! ## Lanes -/

/-- A lane that computes from one source. -/
def lane1 (f : EForm) (wa wd : Bool) (op : Dword → Dword) (t : Thread) (r : Row) : Except Nat LaneOut :=
  match readOpnd t r f f.a wa with
  | .ok a => laneOut t r f wd (op a)
  | .error e => .error e

/-- A lane that computes from two sources. -/
def lane2 (f : EForm) (wa wb wd : Bool) (op : Dword → Dword → Dword) (t : Thread) (r : Row) : Except Nat LaneOut :=
  match readOpnd t r f f.a wa with
  | .error e => .error e
  | .ok a => match readOpnd t r f f.b wb with
    | .error e => .error e
    | .ok b => laneOut t r f wd (op a b)

/-- A lane that computes from three sources. -/
def lane3 (f : EForm) (wa wb wc wd : Bool) (op : Dword → Dword → Dword → Dword) (t : Thread) (r : Row) : Except Nat LaneOut :=
  match readOpnd t r f f.c wc with
  | .error e => .error e
  | .ok c => lane2 f wa wb wd (fun a b => op a b c) t r

/-- The lane's result, and a predicate written beside it. -/
def withPred (o : Except Nat LaneOut) (p : Nat) (b : Bool) : Except Nat LaneOut :=
  match o with
  | .ok x => .ok { x with writes := x.writes ++ [(.p p, if b then 1 else 0)] }
  | .error e => .error e

/-- Whether an integer type takes register pairs. -/
def wideInt (f : EForm) : Bool := intWidth f.sub = 64

def boolDword (b : Bool) : Dword := if b then 1 else 0

/-! ## Operations on values (R155, R156) -/

def opAdd (sub : BitVec 4) (sat : Bool) (a b : Dword) : Dword := fit sub sat (typeInt sub a + typeInt sub b)
def opSub (sub : BitVec 4) (sat : Bool) (a b : Dword) : Dword := fit sub sat (typeInt sub a - typeInt sub b)
def opMul (sub : BitVec 4) (sat : Bool) (a b : Dword) : Dword := fit sub sat (typeInt sub a * typeInt sub b)
def opMad (sub : BitVec 4) (sat : Bool) (a b c : Dword) : Dword := fit sub sat (typeInt sub a * typeInt sub b + typeInt sub c)

/-- Bits [2w-1:w] of the product. -/
def opMulh (sub : BitVec 4) (a b : Dword) : Dword :=
  extend sub (narrow (2 * intWidth sub) (typeInt sub a * typeInt sub b) / 2 ^ intWidth sub)

def opMin (sub : BitVec 4) (a b : Dword) : Dword := fit sub false (min (typeInt sub a) (typeInt sub b))
def opMax (sub : BitVec 4) (a b : Dword) : Dword := fit sub false (max (typeInt sub a) (typeInt sub b))
def opAbs (sub : BitVec 4) (sat : Bool) (a : Dword) : Dword := fit sub sat (typeInt sub a).natAbs

def opAnd (sub : BitVec 4) (a b : Dword) : Dword := extend sub (a &&& b).toNat
def opOr (sub : BitVec 4) (a b : Dword) : Dword := extend sub (a ||| b).toNat
def opXor (sub : BitVec 4) (a b : Dword) : Dword := extend sub (a ^^^ b).toNat
def opAndn (sub : BitVec 4) (a b : Dword) : Dword := extend sub (a &&& ~~~b).toNat
def opNot (sub : BitVec 4) (a : Dword) : Dword := extend sub (~~~a).toNat

/-- The amount of a shift: bits [31:0] of B. -/
def shiftAmount (b : Dword) : Nat := b.toNat % 2 ^ 32

def opShl (sub : BitVec 4) (a b : Dword) : Dword :=
  let n := shiftAmount b
  if intWidth sub ≤ n then 0 else extend sub (typeNat sub a * 2 ^ n)

def opShr (sub : BitVec 4) (a b : Dword) : Dword :=
  let n := shiftAmount b
  if intWidth sub ≤ n then 0 else extend sub (typeNat sub a / 2 ^ n)

def opSar (sub : BitVec 4) (a b : Dword) : Dword :=
  let w := intWidth sub
  let n := min (shiftAmount b) (w - 1)
  extend sub (narrow w (toInt w true a.toNat / 2 ^ n))

def opRol (sub : BitVec 4) (a b : Dword) : Dword :=
  let w := intWidth sub
  let n := shiftAmount b % w
  let x := typeNat sub a
  extend sub (x * 2 ^ n + x / 2 ^ (w - n))

/-- Number of leading zeros of the low w bits. -/
def leadingZeros (x : Nat) : Nat → Nat
  | 0 => 0
  | w + 1 => if x / 2 ^ w % 2 = 1 then 0 else 1 + leadingZeros x w

/-- Number of one bits among the low w. -/
def oneBits (x : Nat) : Nat → Nat
  | 0 => 0
  | w + 1 => x / 2 ^ w % 2 + oneBits x w

/-- The low w bits in reverse. -/
def reverseBits (x : Nat) : Nat → Nat
  | 0 => 0
  | w + 1 => x / 2 ^ w % 2 + 2 * reverseBits x w

def opClz (sub : BitVec 4) (a : Dword) : Dword := BitVec.ofNat 64 (leadingZeros (typeNat sub a) (intWidth sub))
def opPopc (sub : BitVec 4) (a : Dword) : Dword := BitVec.ofNat 64 (oneBits (typeNat sub a) (intWidth sub))
def opBrev (sub : BitVec 4) (a : Dword) : Dword := BitVec.ofNat 64 (reverseBits (typeNat sub a) (intWidth sub))

/-- Position and length of a bit field (R156). -/
def fieldPos (c : Dword) : Nat := c.toNat % 256
def fieldLen (c : Dword) : Nat := c.toNat / 256 % 256

def opBfe (sub : BitVec 4) (a c : Dword) : Dword :=
  let w := intWidth sub
  let pos := fieldPos c
  let len := fieldLen c
  if len = 0 ∨ w ≤ pos then 0
  else
    let n := min (pos + len) w - pos
    extend sub (narrow w (toInt n (intSigned sub) (typeNat sub a / 2 ^ pos)))

def opBfi (sub : BitVec 4) (a b c : Dword) : Dword :=
  let w := intWidth sub
  let pos := fieldPos c
  let len := fieldLen c
  if len = 0 ∨ w ≤ pos then extend sub b.toNat
  else
    let n := min (pos + len) w - pos
    let x := typeNat sub b
    extend sub (x % 2 ^ pos + a.toNat % 2 ^ n * 2 ^ pos + x / 2 ^ (pos + n) * 2 ^ (pos + n))

/-! ## Shared shapes -/

/-- A two-source integer instruction. -/
def intTwo (i : Instr) (f : EForm) (sp : ESpec) (op : Dword → Dword → Dword) (s : State) : Out :=
  issueReg i f sp (lane2 f (wideInt f) (wideInt f) (wideInt f) op) s

/-- A one-source integer instruction. -/
def intOne (i : Instr) (f : EForm) (sp : ESpec) (op : Dword → Dword) (s : State) : Out :=
  issueReg i f sp (lane1 f (wideInt f) (wideInt f) op) s

/-! ## Meanings -/

/-- NOP (R67): no effect, the latch ring stays. -/
def execNop (s : State) : Out :=
  match s.curGroup with
  | none => .next s
  | some g => .next (s.setCurGroup (g.past .nop false))

def execAddB (f : BForm) (s : State) : Out := intTwo (.addB f) (bToE f) (entryOf (.addE (bToE f))) (opAdd 0 false) s
def execAddE (f : EForm) (s : State) : Out := intTwo (.addE f) f (entryOf (.addE f)) (opAdd f.sub f.sat) s
def execSubB (f : BForm) (s : State) : Out := intTwo (.subB f) (bToE f) (entryOf (.subE (bToE f))) (opSub 0 false) s
def execSubE (f : EForm) (s : State) : Out := intTwo (.subE f) f (entryOf (.subE f)) (opSub f.sub f.sat) s

/-- The lane of addc: D and P(C) from the sum with the carry P(C). -/
def addcLane (f : EForm) (t : Thread) (r : Row) : Except Nat LaneOut :=
  let w := wideInt f
  match readOpnd t r f f.a w with
  | .error e => .error e
  | .ok a => match readOpnd t r f f.b w with
    | .error e => .error e
    | .ok b =>
      let x := addCarry (intWidth f.sub) (typeNat f.sub a) (typeNat f.sub b) (t.pred f.c.code.toNat)
      withPred (laneOut t r f w (BitVec.ofNat 64 x.1)) f.c.code.toNat x.2

/-- The lane of subb. -/
def subbLane (f : EForm) (t : Thread) (r : Row) : Except Nat LaneOut :=
  let w := wideInt f
  match readOpnd t r f f.a w with
  | .error e => .error e
  | .ok a => match readOpnd t r f f.b w with
    | .error e => .error e
    | .ok b =>
      let x := subBorrow (intWidth f.sub) (typeNat f.sub a) (typeNat f.sub b) (t.pred f.c.code.toNat)
      withPred (laneOut t r f w (BitVec.ofNat 64 x.1)) f.c.code.toNat x.2

def execAddc (f : EForm) (s : State) : Out := issueReg (.addc f) f (entryOf (.addc f)) (addcLane f) s
def execSubb (f : EForm) (s : State) : Out := issueReg (.subb f) f (entryOf (.subb f)) (subbLane f) s

def execMulB (f : BForm) (s : State) : Out := intTwo (.mulB f) (bToE f) (entryOf (.mulE (bToE f))) (opMul 0 false) s
def execMulE (f : EForm) (s : State) : Out := intTwo (.mulE f) f (entryOf (.mulE f)) (opMul f.sub f.sat) s
def execMulhB (f : BForm) (s : State) : Out := intTwo (.mulhB f) (bToE f) (entryOf (.mulhE (bToE f))) (opMulh 0) s
def execMulhE (f : EForm) (s : State) : Out := intTwo (.mulhE f) f (entryOf (.mulhE f)) (opMulh f.sub) s
def execMad (f : EForm) (s : State) : Out :=
  issueReg (.mad f) f (entryOf (.mad f)) (lane3 f (wideInt f) (wideInt f) (wideInt f) (wideInt f) (opMad f.sub f.sat)) s
def execMinB (f : BForm) (s : State) : Out := intTwo (.minB f) (bToE f) (entryOf (.minE (bToE f))) (opMin 0) s
def execMinE (f : EForm) (s : State) : Out := intTwo (.minE f) f (entryOf (.minE f)) (opMin f.sub) s
def execMaxB (f : BForm) (s : State) : Out := intTwo (.maxB f) (bToE f) (entryOf (.maxE (bToE f))) (opMax 0) s
def execMaxE (f : EForm) (s : State) : Out := intTwo (.maxE f) f (entryOf (.maxE f)) (opMax f.sub) s
def execAbsB (f : BUnary) (s : State) : Out := intOne (.absB f) (uToE f) (entryOf (.absE (uToE f))) (opAbs 0 false) s
def execAbsE (f : EForm) (s : State) : Out := intOne (.absE f) f (entryOf (.absE f)) (opAbs f.sub f.sat) s
def execAndB (f : BForm) (s : State) : Out := intTwo (.andB f) (bToE f) (entryOf (.andE (bToE f))) (opAnd 0) s
def execAndE (f : EForm) (s : State) : Out := intTwo (.andE f) f (entryOf (.andE f)) (opAnd f.sub) s
def execOrB (f : BForm) (s : State) : Out := intTwo (.orB f) (bToE f) (entryOf (.orE (bToE f))) (opOr 0) s
def execOrE (f : EForm) (s : State) : Out := intTwo (.orE f) f (entryOf (.orE f)) (opOr f.sub) s
def execXorB (f : BForm) (s : State) : Out := intTwo (.xorB f) (bToE f) (entryOf (.xorE (bToE f))) (opXor 0) s
def execXorE (f : EForm) (s : State) : Out := intTwo (.xorE f) f (entryOf (.xorE f)) (opXor f.sub) s
def execAndnB (f : BForm) (s : State) : Out := intTwo (.andnB f) (bToE f) (entryOf (.andnE (bToE f))) (opAndn 0) s
def execAndnE (f : EForm) (s : State) : Out := intTwo (.andnE f) f (entryOf (.andnE f)) (opAndn f.sub) s
def execNotB (f : BUnary) (s : State) : Out := intOne (.notB f) (uToE f) (entryOf (.notE (uToE f))) (opNot 0) s
def execNotE (f : EForm) (s : State) : Out := intOne (.notE f) f (entryOf (.notE f)) (opNot f.sub) s
def execShlB (f : BForm) (s : State) : Out := intTwo (.shlB f) (bToE f) (entryOf (.shlE (bToE f))) (opShl 0) s
def execShlE (f : EForm) (s : State) : Out := intTwo (.shlE f) f (entryOf (.shlE f)) (opShl f.sub) s
def execShrB (f : BForm) (s : State) : Out := intTwo (.shrB f) (bToE f) (entryOf (.shrE (bToE f))) (opShr 0) s
def execShrE (f : EForm) (s : State) : Out := intTwo (.shrE f) f (entryOf (.shrE f)) (opShr f.sub) s
def execSarB (f : BForm) (s : State) : Out := intTwo (.sarB f) (bToE f) (entryOf (.sarE (bToE f))) (opSar 0) s
def execSarE (f : EForm) (s : State) : Out := intTwo (.sarE f) f (entryOf (.sarE f)) (opSar f.sub) s
def execRolB (f : BForm) (s : State) : Out := intTwo (.rolB f) (bToE f) (entryOf (.rolE (bToE f))) (opRol 0) s
def execRolE (f : EForm) (s : State) : Out := intTwo (.rolE f) f (entryOf (.rolE f)) (opRol f.sub) s
def execClz (f : EForm) (s : State) : Out := intOne (.clz f) f (entryOf (.clz f)) (opClz f.sub) s
def execPopc (f : EForm) (s : State) : Out := intOne (.popc f) f (entryOf (.popc f)) (opPopc f.sub) s
def execBrev (f : EForm) (s : State) : Out := intOne (.brev f) f (entryOf (.brev f)) (opBrev f.sub) s
def execBfe (f : EForm) (s : State) : Out := intTwo (.bfe f) f (entryOf (.bfe f)) (opBfe f.sub) s
def execBfi (f : EForm) (s : State) : Out :=
  issueReg (.bfi f) f (entryOf (.bfi f)) (lane3 f (wideInt f) (wideInt f) (wideInt f) (wideInt f) (opBfi f.sub)) s

/-- SEL (R156): A or B by the predicate in C. -/
def execSel (f : EForm) (s : State) : Out :=
  issueReg (.sel f) f (entryOf (.sel f))
    (lane3 f (wideInt f) (wideInt f) false (wideInt f) fun a b c => extend f.sub (if c = 0 then b else a).toNat) s

/-- CMP (R157): one predicate by the condition in C. -/
def execCmp (f : EForm) (s : State) : Out :=
  issueReg (.cmp f) f (entryOf (.cmp f))
    (lane2 f (wideInt f) (wideInt f) false fun a b =>
      boolDword (cmpCond f.c.code.toNat (typeInt f.sub a) (typeInt f.sub b))) s

/-- A predicate operation (R158): SA and SB invert the sources. -/
def predTwo (i : Instr) (f : EForm) (op : Bool → Bool → Bool) (s : State) : Out :=
  issueReg i f (entryOf i)
    (lane2 f false false false fun a b => boolDword (op ((a ≠ 0) ^^ (f.sa = 1)) ((b ≠ 0) ^^ (f.sb = 1)))) s

def execPand (f : EForm) (s : State) : Out := predTwo (.pand f) f (· && ·) s
def execPor (f : EForm) (s : State) : Out := predTwo (.por f) f (· || ·) s
def execPxor (f : EForm) (s : State) : Out := predTwo (.pxor f) f (· ^^ ·) s
def execPnot (f : EForm) (s : State) : Out :=
  issueReg (.pnot f) f (entryOf (.pnot f)) (lane1 f false false fun a => boolDword (!((a ≠ 0) ^^ (f.sa = 1)))) s

/-- MOV (R159): a copy with the width of its type. -/
def opMov (sub : BitVec 4) (a : Dword) : Dword := extend sub a.toNat

def execMovB (f : BUnary) (s : State) : Out := intOne (.movB f) (uToE f) (entryOf (.movE (uToE f))) (opMov 0) s
def execMovE (f : EForm) (s : State) : Out := intOne (.movE f) f (entryOf (.movE f)) (opMov f.sub) s

/-- The B+L movl as an E+L form (R47, R66). -/
def movlForm (w : Bool) (d : BitVec 7) (lit : Dword) : EForm :=
  { shortForm w d ⟨.imm, 0, false, false⟩ noOpnd with lit := some lit }

/-- MOVL (R66, R160). -/
def execMovlBL (w : Bool) (d : BitVec 7) (lit : Dword) (s : State) : Out :=
  intOne (.movlBL w d lit) (movlForm w d lit) (entryOf (.movlEL (movlForm w d lit))) (opMov 0) s
def execMovlEL (f : EForm) (s : State) : Out := intOne (.movlEL f) f (entryOf (.movlEL f)) (opMov f.sub) s

/-- LEA (R161): base pair plus the extended, scaled index. -/
def opLea (f : EForm) (a b : Dword) : Dword :=
  let e : Dword := if f.sub = 0 then (b.setWidth 32).signExtend 64 else b
  a + (e <<< (f.c.code.toNat % 4))

def execLea (f : EForm) (s : State) : Out := issueReg (.lea f) f (entryOf (.lea f)) (lane2 f true false true (opLea f)) s

end Sys2Proof.Machine
end

