-- ==== Sys2Proof/Machine/Float.lean ====
section
/-!
DEFINITION. Floating-point formats, exact values and rounding (spec/07_core_arith.md R162 to R168, R172 to R176). A finite value
is held exactly as mant × 2^exp with a sign; every operation is exact and rounds once.
-/
namespace Sys2Proof.Machine

/-- A format (R162): exponent and fraction bits, bias, the largest finite field, and how infinities and NaNs are encoded. -/
structure Fmt where
  eb : Nat
  mb : Nat
  bias : Nat
  /-- the magnitude field of the largest finite value -/
  maxField : Nat
  hasInf : Bool
  nan : Nat
  deriving DecidableEq, Repr

def f16 : Fmt := ⟨5, 10, 15, 0x7BFF, true, 0x7E00⟩
def bf16 : Fmt := ⟨8, 7, 127, 0x7F7F, true, 0x7FC0⟩
def f32 : Fmt := ⟨8, 23, 127, 0x7F7FFFFF, true, 0x7FC00000⟩
def f64 : Fmt := ⟨11, 52, 1023, 0x7FEFFFFFFFFFFFFF, true, 0x7FF8000000000000⟩
def e4m3 : Fmt := ⟨4, 3, 7, 0x7E, false, 0x7F⟩
def e5m2 : Fmt := ⟨5, 2, 15, 0x7B, true, 0x7E⟩
def e2m1 : Fmt := ⟨2, 1, 1, 7, false, 0⟩

def Fmt.width (f : Fmt) : Nat := 1 + f.eb + f.mb
def Fmt.inf (f : Fmt) : Nat := (2 ^ f.eb - 1) * 2 ^ f.mb
/-- The exponent of one unit in the last place of the smallest normal. -/
def Fmt.uMin (f : Fmt) : Int := 1 - (f.bias : Int) - f.mb

/-- The format of a conversion code 8 to 14 (R64). -/
def cvtFmt (code : Nat) : Fmt :=
  match code with
  | 8 => f16
  | 9 => bf16
  | 11 => f64
  | 12 => e4m3
  | 13 => e5m2
  | 14 => e2m1
  | _ => f32

/-- The format of a float type (R64 rows 0x10 to 0x15). -/
def floatFmt (sub : Nat) : Fmt :=
  match sub with
  | 1 => f16
  | 2 => bf16
  | 3 => f64
  | 4 => e4m3
  | 5 => e5m2
  | 6 => e2m1
  | _ => f32

/-- A value: NaN, an infinity, or (-1)^neg × mant × 2^exp. -/
inductive FVal where
  | nan
  | inf (neg : Bool)
  | fin (neg : Bool) (mant : Nat) (exp : Int)
  deriving DecidableEq, Repr

/-- The value of an encoding. -/
def Fmt.decode (f : Fmt) (bits : Nat) : FVal :=
  let neg := bits / 2 ^ (f.eb + f.mb) % 2 = 1
  let field := bits % 2 ^ (f.eb + f.mb)
  if f.hasInf && decide (f.inf ≤ field) then (if field = f.inf then .inf neg else .nan)
  else if !f.hasInf && decide (f.maxField < field) then .nan
  else
    let e := field / 2 ^ f.mb
    let m := field % 2 ^ f.mb
    if e = 0 then .fin neg m f.uMin else .fin neg (m + 2 ^ f.mb) ((e : Int) - f.bias - f.mb)

def Fmt.sign (f : Fmt) (neg : Bool) : Nat := if neg then 2 ^ (f.eb + f.mb) else 0

/-! ## Rounding (R164, R176) -/

/-- Whether the truncated value goes up: rem / 2^sh of a unit lies above q. -/
def roundUp (rm : Nat) (lfsr : Word) (neg : Bool) (q rem sh : Nat) : Bool :=
  match rm with
  | 0 => decide (2 ^ sh < 2 * rem) || (decide (2 * rem = 2 ^ sh) && q % 2 = 1)
  | 1 => false
  | 2 => !neg && rem ≠ 0
  | 3 => neg && rem ≠ 0
  | 4 => rem ≠ 0 && decide (2 ^ sh ≤ 2 * rem)
  | _ => decide (2 ^ 32 ≤ rem * 2 ^ 32 / 2 ^ sh + lfsr.toNat)

/-- Floor of log2 of mant × 2^exp, for mant ≠ 0. -/
def magExp (mant : Nat) (exp : Int) : Int := (mant.log2 : Int) + exp

/-- The magnitude field of mant × 2^exp rounded to the format's precision, before overflow is judged: it may exceed maxField. -/
def Fmt.roundField (f : Fmt) (rm : Nat) (lfsr : Word) (neg : Bool) (mant : Nat) (exp : Int) : Nat :=
  if mant = 0 then 0
  else
    let u := max (magExp mant exp - f.mb) f.uMin
    let base := (u - f.uMin).toNat * 2 ^ f.mb
    if u ≤ exp then mant * 2 ^ (exp - u).toNat + base
    else
      let sh := (u - exp).toNat
      let q := mant / 2 ^ sh
      (if roundUp rm lfsr neg q (mant % 2 ^ sh) sh then q + 1 else q) + base

/-- What overflow gives: the largest finite value or beyond it, by SAT, the format and the direction (R164, R173, R176). -/
def Fmt.overflow (f : Fmt) (rm : Nat) (sat : Bool) (neg : Bool) : Nat :=
  if sat then f.sign neg + f.maxField
  else if f.hasInf then
    f.sign neg + (if rm = 1 || (rm = 2 && neg) || (rm = 3 && !neg) then f.maxField else f.inf)
  else if f.mb = 3 then f.sign neg + f.nan
  else f.sign neg + f.maxField

/-- The encoding of an exact finite value. -/
def Fmt.encodeFin (f : Fmt) (rm : Nat) (sat : Bool) (lfsr : Word) (neg : Bool) (mant : Nat) (exp : Int) : Nat :=
  let field := f.roundField rm lfsr neg mant exp
  if f.maxField < field then f.overflow rm sat neg else f.sign neg + field

/-- The encoding of a value, infinities and NaNs by R163 and R173. -/
def Fmt.encode (f : Fmt) (rm : Nat) (sat : Bool) (lfsr : Word) : FVal → Nat
  | .nan => f.nan
  | .inf neg =>
    if sat then f.sign neg + f.maxField
    else if f.hasInf then f.sign neg + f.inf
    else if f.mb = 3 then f.sign neg + f.nan
    else f.sign neg + f.maxField
  | .fin neg mant exp => f.encodeFin rm sat lfsr neg mant exp

/-- AdvanceLfsr(S) of R176. -/
def advanceLfsr (s : Word) : Word :=
  (s <<< 1) ||| (((s >>> 31) ^^^ (s >>> 21) ^^^ (s >>> 1) ^^^ s) &&& 1)

/-! ## Exact arithmetic -/

def FVal.isNan : FVal → Bool
  | .nan => true
  | _ => false

def FVal.neg : FVal → FVal
  | .nan => .nan
  | .inf n => .inf (!n)
  | .fin n m e => .fin (!n) m e

def FVal.isZero : FVal → Bool
  | .fin _ 0 _ => true
  | _ => false

def FVal.signBit : FVal → Bool
  | .nan => false
  | .inf n => n
  | .fin n _ _ => n

/-- mant × 2^exp as an integer multiple of 2^e, for e ≤ exp. -/
def scaled (neg : Bool) (mant : Nat) (exp e : Int) : Int :=
  let x : Int := (mant * 2 ^ (exp - e).toNat : Nat)
  if neg then -x else x

def FVal.mul : FVal → FVal → FVal
  | .nan, _ => .nan
  | _, .nan => .nan
  | .inf a, .inf b => .inf (a ^^ b)
  | .inf a, .fin b m _ => if m = 0 then .nan else .inf (a ^^ b)
  | .fin a m _, .inf b => if m = 0 then .nan else .inf (a ^^ b)
  | .fin a m e, .fin b n f => .fin (a ^^ b) (m * n) (e + f)

/-- An exact sum. A zero sum of operands of one sign keeps it; of opposite signs it is +0, or -0 under RD (R164). -/
def FVal.add (rm : Nat) : FVal → FVal → FVal
  | .nan, _ => .nan
  | _, .nan => .nan
  | .inf a, .inf b => if a = b then .inf a else .nan
  | .inf a, .fin _ _ _ => .inf a
  | .fin _ _ _, .inf b => .inf b
  | .fin a m e, .fin b n f =>
    let g := min e f
    let x := scaled a m e g + scaled b n f g
    if x = 0 then .fin (if a = b then a else rm = 3) 0 g
    else .fin (decide (x < 0)) x.natAbs g

def FVal.fma (rm : Nat) (a b c : FVal) : FVal := (a.mul b).add rm c

/-- a < b for values that are not NaN; -0 and +0 are equal. -/
def FVal.lt : FVal → FVal → Bool
  | .nan, _ => false
  | _, .nan => false
  | .inf a, .inf b => a && !b
  | .inf a, .fin _ _ _ => a
  | .fin _ _ _, .inf b => !b
  | .fin a m e, .fin b n f => let g := min e f; decide (scaled a m e g < scaled b n f g)

def FVal.eq (a b : FVal) : Bool := !a.isNan && !b.isNan && !a.lt b && !b.lt a

/-- minimumNumber (R165): a NaN yields the other operand, and -0 < +0. -/
def FVal.minNum (a b : FVal) : FVal :=
  if a.isNan then b else if b.isNan then a
  else if a.lt b then a else if b.lt a then b else if a.signBit then a else b

def FVal.maxNum (a b : FVal) : FVal :=
  if a.isNan then b else if b.isNan then a
  else if a.lt b then b else if b.lt a then a else if a.signBit then b else a

/-- fcmp conditions (R166). -/
def FVal.cond (c : Nat) (a b : FVal) : Bool :=
  match c with
  | 0 => a.eq b
  | 1 => !a.eq b
  | 2 => a.lt b
  | 3 => a.lt b || a.eq b
  | 4 => b.lt a
  | 5 => b.lt a || a.eq b
  | 6 => a.isNan || b.isNan
  | _ => !(a.isNan || b.isNan)

/-- fclass (R167): the bit of the value's class. -/
def Fmt.classBit (f : Fmt) (v : FVal) : Nat :=
  match v with
  | .nan => 8
  | .inf neg => if neg then 0 else 7
  | .fin neg m _ =>
    if m = 0 then (if neg then 3 else 4)
    else if m < 2 ^ f.mb then (if neg then 2 else 5)
    else (if neg then 1 else 6)

/-! ## Division and root, correctly rounded (R169, R170) -/

/-- The bits of the square root from bit n - 1 down: r is the part found so far. -/
def isqrtFrom (x : Nat) : Nat → Nat → Nat
  | 0, r => r
  | n + 1, r => isqrtFrom x n (if (r + 2 ^ n) * (r + 2 ^ n) ≤ x then r + 2 ^ n else r)

/-- Floor of the square root. -/
def isqrt (x : Nat) : Nat := isqrtFrom x (x.log2 / 2 + 1) 0

/-- A quotient to p bits or more, with the remainder folded into the last bit, so that it rounds as the exact quotient does. -/
def divSticky (p : Nat) (m : Nat) (e : Int) (n : Nat) (f : Int) : Nat × Int :=
  let k := p + n.log2 + 1
  let q := m * 2 ^ k / n
  (2 * q + (if m * 2 ^ k % n = 0 then 0 else 1), e - f - k - 1)

def FVal.div (p : Nat) : FVal → FVal → FVal
  | .nan, _ => .nan
  | _, .nan => .nan
  | .inf _, .inf _ => .nan
  | .inf a, .fin b _ _ => .inf (a ^^ b)
  | .fin a _ _, .inf b => .fin (a ^^ b) 0 0
  | .fin a m e, .fin b n f =>
    if n = 0 then (if m = 0 then .nan else .inf (a ^^ b))
    else let q := divSticky p m e n f; .fin (a ^^ b) q.1 q.2

/-- The square root to p bits or more, sticky as divSticky; a negative operand other than -0 gives NaN. -/
def FVal.sqrt (p : Nat) : FVal → FVal
  | .nan => .nan
  | .inf neg => if neg then .nan else .inf false
  | .fin neg m e =>
    if m = 0 then .fin neg 0 0
    else if neg then .nan
    else
      let k := 2 * p + (e % 2).toNat
      let x := m * 2 ^ k
      let r := isqrt x
      .fin false (2 * r + (if r * r = x then 0 else 1)) ((e - k) / 2 - 1)

/-! ## Integers -/

def intVal (x : Int) : FVal := .fin (decide (x < 0)) x.natAbs 0

/-- A value rounded to an integer (R172 float to integer), none for NaN and infinities. -/
def FVal.toInt (rm : Nat) : FVal → Option Int
  | .fin neg m e =>
    let q : Nat :=
      if 0 ≤ e then m * 2 ^ e.toNat
      else
        let sh := (-e).toNat
        let q := m / 2 ^ sh
        if roundUp rm 0 neg q (m % 2 ^ sh) sh then q + 1 else q
    some (if neg then -(q : Int) else q)
  | _ => none

/-! ## Conversion (R172, R173) -/

/-- The integer code's width and signedness (R64 row 0x0C). -/
def cvtSigned (code : Nat) : Bool := code ≤ 3

/-- An element converted from a format to another: dst and src are conversion codes. The answer has the destination's width. -/
def convert (dst src rm : Nat) (sat : Bool) (lfsr : Word) (x : Nat) : Nat :=
  if cvtIsInt src then
    let v := toInt (cvtWidth src) (cvtSigned src) x
    if cvtIsInt dst then
      let w := cvtWidth dst
      narrow w (if sat then clampInt w (cvtSigned dst) v else v)
    else (cvtFmt dst).encode rm sat lfsr (intVal v)
  else
    let v := (cvtFmt src).decode (x % 2 ^ cvtWidth src)
    if cvtIsInt dst then
      let w := cvtWidth dst
      match v with
      | .nan => 0
      | .inf neg => narrow w (clampInt w (cvtSigned dst) (if neg then -(2 ^ 70) else 2 ^ 70))
      | v => narrow w (clampInt w (cvtSigned dst) ((v.toInt rm).getD 0))
    else (cvtFmt dst).encode rm sat lfsr v

end Sys2Proof.Machine
end

