-- ==== Sys2Proof/Machine/Special.lean ====
section
/-!
DEFINITION. The special functions (spec/07_core_arith.md R169 to R171). The manual gives a bound in units in the last place, not
a value: the result is the free choice of Config where that lies within the bound of the exact value, and otherwise the exact
value rounded to nearest (DESIGN CHOICE, log 12). The exact value is computed to about 190 bits; 2^-20 of a unit in the last
place is taken off the bound for it, so that no choice beyond the rule's bound is accepted. An exact value that rounds to an
infinity or to zero gives that (R170: it overflows, or underflows to zero), whatever the choice.
-/
namespace Sys2Proof.Machine

/-- π and ln 2 in units of 2^-200. -/
def piFix : Nat := 0x3243F6A8885A308D313198A2E03707344A4093822299F31D008
def ln2Fix : Nat := 0xB17217F7D1CF79ABC9E3B39803F2F6AF40F343267298B62D8A

/-- Whether bits (a magnitude) lie within bound units in the last place of mant × 2^exp. -/
def Fmt.within (f : Fmt) (bound : Nat) (bits : Nat) (mant : Nat) (exp : Int) : Bool :=
  decide (bits ≤ f.maxField) &&
  (match f.decode bits with
  | .fin _ m e =>
    let u := max (magExp mant exp - f.mb) f.uMin
    let g := min (min e exp) (u - 20)
    let d := (scaled false m e g - scaled false mant exp g).natAbs
    decide ((d : Int) * 2 ^ 20 ≤ scaled false (bound * 2 ^ 20 - 1) u g)
  | _ => false)

/-- A bounded result: the free choice if it is within the bound, else the nearest value; beyond the range, and below it, the
nearest value alone (R170). -/
def Fmt.bounded (f : Fmt) (bound choice : Nat) (neg : Bool) (mant : Nat) (exp : Int) : Nat :=
  let c := choice % 2 ^ (f.eb + f.mb)
  let near := f.encodeFin 0 false 0 neg mant exp
  let outside := decide (near = f.sign neg) || decide (near = f.sign neg + f.inf)
  if !outside && f.within bound c mant exp then f.sign neg + c else near

/-- The factor 1 - t/((2k)(2k+1)) × (1 - …) of sin x = x × S, in units of 2^-200, t = x². -/
def sinSeries (t : Nat) : Nat → Nat → Nat
  | 0, _ => 2 ^ 200
  | n + 1, k => 2 ^ 200 - t * sinSeries t n (k + 1) / 2 ^ 200 / ((2 * k) * (2 * k + 1))

/-- A number in units of 2^-200 from a product in units of 2^(exp - n). -/
def toFix (x : Nat) (exp : Int) : Nat :=
  let sh := exp + 200
  if 0 ≤ sh then x * 2 ^ sh.toNat else x / 2 ^ (-sh).toNat

/-- sin(π m 2^e) for 0 < m 2^e ≤ 1/2. -/
def sinPi (m : Nat) (e : Int) : Nat × Int :=
  let t := toFix (piFix * piFix * m * m) (2 * e - 400)
  (piFix * m * sinSeries t 30 1, e - 400)

/-- 1 + x/k × (1 + x/(k+1) × …) of the exponential, in units of 2^-200. -/
def expSeries (x : Nat) : Nat → Nat → Nat
  | 0, _ => 2 ^ 200
  | n + 1, k => 2 ^ 200 + x * expSeries x n (k + 1) / 2 ^ 200 / k

/-- 1/(2k+1) + u² × (1/(2k+3) + …) of the inverse hyperbolic tangent, in units of 2^-200. -/
def athSeries (u2 : Nat) : Nat → Nat → Nat
  | 0, _ => 0
  | n + 1, k => 2 ^ 200 / (2 * k + 1) + u2 * athSeries u2 n (k + 1) / 2 ^ 200

/-- log2 of m 2^e as sign, magnitude in units of 2^-200. -/
def logTwo (m : Nat) (e : Int) : Bool × Nat :=
  let n := m.log2
  -- z = m / 2^n in [1, 2), halved when above the square root of two
  let high := decide (2 ^ (2 * n + 1) < m * m)
  let den : Nat := if high then 2 ^ (n + 1) else 2 ^ n
  let int : Int := (n : Int) + e + (if high then 1 else 0)
  let num : Int := (m : Int) - den
  let u : Nat := num.natAbs * 2 ^ 200 / (m + den)
  let l : Nat := 2 * u * athSeries (u * u / 2 ^ 200) 70 0 / ln2Fix
  let x : Int := int * 2 ^ 200 + (if num < 0 then -(l : Int) else l)
  (decide (x < 0), x.natAbs)

/-- A magnitude m 2^e reduced modulo 2 as a fraction r / den. -/
def modTwo (m : Nat) (e : Int) : Nat × Nat :=
  if 0 ≤ e then ((m * 2 ^ e.toNat) % 2, 1) else (m % (2 * 2 ^ (-e).toNat), 2 ^ (-e).toNat)

/-- Functions of R169 that carry a bound. -/
inductive SpecialFn where
  | rcp
  | rsq
  | exp2
  | log2
  | sinpi
  | cospi
  deriving DecidableEq, Repr

def SpecialFn.code : SpecialFn → Nat
  | .rcp => 0
  | .rsq => 1
  | .exp2 => 2
  | .log2 => 3
  | .sinpi => 4
  | .cospi => 5

/-- FP32 result of a bounded special function, choice being the free bits. -/
def specialF32 (fn : SpecialFn) (choice : Nat) (v : FVal) : Nat :=
  match fn, v with
  | _, .nan => f32.nan
  | .rcp, .inf neg => f32.sign neg
  | .rcp, .fin neg m e =>
    if m = 0 then f32.sign neg + f32.inf
    else let q := divSticky 80 1 0 m e; f32.bounded 2 choice neg q.1 q.2
  | .rsq, .inf neg => if neg then f32.nan else 0
  | .rsq, .fin neg m e =>
    if m = 0 then f32.sign neg + f32.inf
    else if neg then f32.nan
    else
      let q := divSticky 160 1 0 m e
      match FVal.sqrt 80 (.fin false q.1 q.2) with
      | .fin _ m e => f32.bounded 2 choice false m e
      | _ => f32.nan
  | .exp2, .inf neg => if neg then 0 else f32.inf
  | .exp2, .fin neg m e =>
    let x := scaled neg m e (min e 0)
    let den : Int := 2 ^ (-(min e 0)).toNat
    let n := x / den
    if 200 < n then f32.inf
    else if n < -400 then 0
    else
      let fr := (x % den).toNat
      if fr = 0 then f32.encodeFin 0 false 0 false 1 n
      else
        let y := toFix (fr * ln2Fix) (min e 0 - 200)
        f32.bounded 2 choice false (expSeries y 60 1) (n - 200)
  | .log2, .inf neg => if neg then f32.nan else f32.inf
  | .log2, .fin neg m e =>
    if m = 0 then f32.sign true + f32.inf
    else if neg then f32.nan
    else if m = 2 ^ m.log2 then f32.encode 0 false 0 (intVal ((m.log2 : Int) + e))
    else let l := logTwo m e; f32.bounded 2 choice l.1 l.2 (-200)
  | .sinpi, .inf _ => f32.nan
  | .sinpi, .fin neg m e =>
    let q := modTwo m e
    let r := q.1 % q.2
    if r = 0 then f32.sign neg
    else
      let y := if q.2 < 2 * r then q.2 - r else r
      let x := sinPi y (-(q.2.log2 : Int))
      f32.bounded 1 choice (neg ^^ decide (q.2 ≤ q.1)) x.1 x.2
  | .cospi, .inf _ => f32.nan
  | .cospi, .fin _ m e =>
    let q := modTwo m e
    let r := q.1 % q.2
    let far := decide (q.2 < 2 * r)
    let y := if far then q.2 - r else r
    if r = 0 then f32.encodeFin 0 false 0 (decide (q.2 ≤ q.1)) 1 0
    else if 2 * y = q.2 then 0
    else
      let x := sinPi (q.2 - 2 * y) (-(q.2.log2 : Int) - 1)
      f32.bounded 1 choice (far ^^ decide (q.2 ≤ q.1)) x.1 x.2

/-- A number for each format, by which the free choice of a result is known (R169). -/
def Fmt.code (f : Fmt) : Nat := 2 ^ 6 * f.eb + f.mb

/-- A special function in a format: 16-bit formats evaluate as FP32 and round once (R169). -/
def specialFn (fn : SpecialFn) (f : Fmt) (bits : Nat) : Nat :=
  let v := f.decode bits
  let x := specialF32 fn (Config.specialChoice fn.code f.code bits) v
  if f = f32 then x else f.encode 0 false 0 (f32.decode x)

/-! ## Twiddles (R171) -/

/-- cos or sin of 2πk/n in the first quadrant, 0 ≤ 4k ≤ n. -/
def twidBase (b k : Nat) (sine : Bool) : Nat :=
  let n := 2 ^ b
  if k = 0 then (if sine then 0 else 0x3F800000)
  else if 4 * k = n then (if sine then 0x3F800000 else 0)
  else
    let x := if sine then sinPi (2 * k) (-(b : Int)) else sinPi (n - 4 * k) (-(b : Int) - 1)
    f32.bounded 1 (Config.twiddleChoice b k (if sine then 1 else 0)) false x.1 x.2

/-- A component negated; a zero stays +0. -/
def negTwid (x : Nat) : Nat := if x = 0 then 0 else x ^^^ 0x80000000

/-- (cos, sin) of 2πk/n from the first quadrant by the symmetries of R171. -/
def twiddle (k b : Nat) : Nat × Nat :=
  if 24 < b then (f32.nan, f32.nan)
  else
    let n := 2 ^ b
    let k := k % n
    let half := decide (n ≤ 2 * k)
    let k := if half then k - n / 2 else k
    let second := decide (n < 4 * k)
    let j := if second then n / 2 - k else k
    let c := twidBase b j false
    let s := twidBase b j true
    let c := if second then negTwid c else c
    if half then (negTwid c, negTwid s) else (c, s)

end Sys2Proof.Machine
end

