-- ==== Sys2Proof/Machine/FloatOps.lean ====
section
/-!
DEFINITION. Floating-point arithmetic, special functions, conversion and packing (spec/07_core_arith.md R162 to R176).
-/
namespace Sys2Proof.Machine

/-! ## Elements -/

/-- The element that a float type reads from a source (R54, R165): a byte, a nibble, 16 bits, or all of it. -/
def pickElem (fmt : Fmt) (sel : Nat) (x : Dword) : Nat :=
  let w := fmt.width
  if w ≤ 8 then x.toNat / 2 ^ (w * sel) % 2 ^ w else x.toNat % 2 ^ w

def wideFloat (f : EForm) : Bool := f.sub = 3

/-- The format of D and of C of fma: FP32 for the packed types (R165). -/
def dstFmt (sub : BitVec 4) : Fmt := if 4 ≤ sub.toNat then f32 else floatFmt sub.toNat

/-- The value of A, of B. -/
def valA (f : EForm) (x : Dword) : FVal := let m := floatFmt f.sub.toNat; m.decode (pickElem m f.sa.toNat x)
def valB (f : EForm) (x : Dword) : FVal := let m := floatFmt f.sub.toNat; m.decode (pickElem m f.sb.toNat x)
def valC (f : EForm) (x : Dword) : FVal := let m := dstFmt f.sub; m.decode (pickElem m 0 x)

/-- A result rounded once by RM. -/
def roundOut (f : EForm) (v : FVal) : Dword := BitVec.ofNat 64 ((dstFmt f.sub).encode f.rm.toNat false 0 v)

def fTwo (i : Instr) (f : EForm) (sp : ESpec) (op : FVal → FVal → FVal) (s : State) : Out :=
  issueReg i f sp (lane2 f (wideFloat f) (wideFloat f) (wideFloat f) fun a b => roundOut f (op (valA f a) (valB f b))) s

/-! ## Arithmetic (R165) -/

def fAdd (f : EForm) (a b : FVal) : FVal := a.add f.rm.toNat b
def fSub (f : EForm) (a b : FVal) : FVal := a.add f.rm.toNat b.neg
def fMul (_f : EForm) (a b : FVal) : FVal := a.mul b

def execFaddB (f : BForm) (s : State) : Out := fTwo (.faddB f) (bToE f) (entryOf (.faddE (bToE f))) (fAdd (bToE f)) s
def execFaddE (f : EForm) (s : State) : Out := fTwo (.faddE f) f (entryOf (.faddE f)) (fAdd f) s
def execFsubB (f : BForm) (s : State) : Out := fTwo (.fsubB f) (bToE f) (entryOf (.fsubE (bToE f))) (fSub (bToE f)) s
def execFsubE (f : EForm) (s : State) : Out := fTwo (.fsubE f) f (entryOf (.fsubE f)) (fSub f) s
def execFmulB (f : BForm) (s : State) : Out := fTwo (.fmulB f) (bToE f) (entryOf (.fmulE (bToE f))) (fMul (bToE f)) s
def execFmulE (f : EForm) (s : State) : Out := fTwo (.fmulE f) f (entryOf (.fmulE f)) (fMul f) s

def execFma (f : EForm) (s : State) : Out :=
  let w := wideFloat f
  issueReg (.fma f) f (entryOf (.fma f))
    (lane3 f w w w w fun a b c => roundOut f (FVal.fma f.rm.toNat (valA f a) (valB f b) (valC f c))) s

def execFminB (f : BForm) (s : State) : Out := fTwo (.fminB f) (bToE f) (entryOf (.fminE (bToE f))) FVal.minNum s
def execFminE (f : EForm) (s : State) : Out := fTwo (.fminE f) f (entryOf (.fminE f)) FVal.minNum s
def execFmaxB (f : BForm) (s : State) : Out := fTwo (.fmaxB f) (bToE f) (entryOf (.fmaxE (bToE f))) FVal.maxNum s
def execFmaxE (f : EForm) (s : State) : Out := fTwo (.fmaxE f) f (entryOf (.fmaxE f)) FVal.maxNum s

/-- FCMP (R166). -/
def execFcmp (f : EForm) (s : State) : Out :=
  issueReg (.fcmp f) f (entryOf (.fcmp f))
    (lane2 f (wideFloat f) (wideFloat f) false fun a b => boolDword (FVal.cond f.c.code.toNat (valA f a) (valB f b))) s

/-- FCLASS (R167). -/
def execFclass (f : EForm) (s : State) : Out :=
  issueReg (.fclass f) f (entryOf (.fclass f))
    (lane1 f (wideFloat f) false fun a => BitVec.ofNat 64 (2 ^ (floatFmt f.sub.toNat).classBit (valA f a))) s

/-- The halves of a register. -/
def halfLo (x : Dword) : Nat := x.toNat % 2 ^ 16
def halfHi (x : Dword) : Nat := x.toNat / 2 ^ 16 % 2 ^ 16

/-- HFMA2 (R168): each half with one rounding. -/
def opHfma2 (f : EForm) (a b c : Dword) : Dword :=
  let m := floatFmt f.sub.toNat
  let one (x y z : Nat) : Nat := m.encode f.rm.toNat false 0 (FVal.fma f.rm.toNat (m.decode x) (m.decode y) (m.decode z))
  BitVec.ofNat 64 (one (halfLo a) (halfLo b) (halfLo c) + 2 ^ 16 * one (halfHi a) (halfHi b) (halfHi c))

def execHfma2 (f : EForm) (s : State) : Out :=
  issueReg (.hfma2 f) f (entryOf (.hfma2 f)) (lane3 f false false false false (opHfma2 f)) s

/-- FDOT2 (R168): exact products and sum, one rounding to FP32. -/
def opFdot2 (f : EForm) (a b c : Dword) : Dword :=
  let m := floatFmt f.sub.toNat
  let p := (m.decode (halfLo a)).mul (m.decode (halfLo b))
  let q := (m.decode (halfHi a)).mul (m.decode (halfHi b))
  BitVec.ofNat 64 (f32.encode f.rm.toNat false 0 ((p.add f.rm.toNat q).add f.rm.toNat (f32.decode (c.toNat % 2 ^ 32))))

def execFdot2 (f : EForm) (s : State) : Out :=
  issueReg (.fdot2 f) f (entryOf (.fdot2 f)) (lane3 f false false false false (opFdot2 f)) s

/-! ## Special functions (R169, R170) -/

def spOne (i : Instr) (f : EForm) (sp : ESpec) (fn : SpecialFn) (s : State) : Out :=
  let m := floatFmt f.sub.toNat
  issueReg i f sp (lane1 f false false fun a => BitVec.ofNat 64 (specialFn fn m (pickElem m 0 a))) s

def execFrcpB (f : BUnary) (s : State) : Out := spOne (.frcpB f) (uToE f) (entryOf (.frcpE (uToE f))) .rcp s
def execFrcpE (f : EForm) (s : State) : Out := spOne (.frcpE f) f (entryOf (.frcpE f)) .rcp s
def execFrsqB (f : BUnary) (s : State) : Out := spOne (.frsqB f) (uToE f) (entryOf (.frsqE (uToE f))) .rsq s
def execFrsqE (f : EForm) (s : State) : Out := spOne (.frsqE f) f (entryOf (.frsqE f)) .rsq s
def execFexp2B (f : BUnary) (s : State) : Out := spOne (.fexp2B f) (uToE f) (entryOf (.fexp2E (uToE f))) .exp2 s
def execFexp2E (f : EForm) (s : State) : Out := spOne (.fexp2E f) f (entryOf (.fexp2E f)) .exp2 s
def execFlog2B (f : BUnary) (s : State) : Out := spOne (.flog2B f) (uToE f) (entryOf (.flog2E (uToE f))) .log2 s
def execFlog2E (f : EForm) (s : State) : Out := spOne (.flog2E f) f (entryOf (.flog2E f)) .log2 s
def execFsinpiB (f : BUnary) (s : State) : Out := spOne (.fsinpiB f) (uToE f) (entryOf (.fsinpiE (uToE f))) .sinpi s
def execFsinpiE (f : EForm) (s : State) : Out := spOne (.fsinpiE f) f (entryOf (.fsinpiE f)) .sinpi s
def execFcospiB (f : BUnary) (s : State) : Out := spOne (.fcospiB f) (uToE f) (entryOf (.fcospiE (uToE f))) .cospi s
def execFcospiE (f : EForm) (s : State) : Out := spOne (.fcospiE f) f (entryOf (.fcospiE f)) .cospi s

/-- A correctly rounded root: the exact value rounded once by RM. -/
def opFsqrt (f : EForm) (a : Dword) : Dword := roundOut f ((valA f a).sqrt 70)
def opFdiv (f : EForm) (a b : Dword) : Dword := roundOut f ((valA f a).div 70 (valB f b))

def execFsqrtB (f : BUnary) (s : State) : Out :=
  issueReg (.fsqrtB f) (uToE f) (entryOf (.fsqrtE (uToE f))) (lane1 (uToE f) false false (opFsqrt (uToE f))) s
def execFsqrtE (f : EForm) (s : State) : Out :=
  issueReg (.fsqrtE f) f (entryOf (.fsqrtE f)) (lane1 f (wideFloat f) (wideFloat f) (opFsqrt f)) s
def execFdivB (f : BForm) (s : State) : Out :=
  issueReg (.fdivB f) (bToE f) (entryOf (.fdivE (bToE f))) (lane2 (bToE f) false false false (opFdiv (bToE f))) s
def execFdivE (f : EForm) (s : State) : Out :=
  issueReg (.fdivE f) f (entryOf (.fdivE f)) (lane2 f (wideFloat f) (wideFloat f) (wideFloat f) (opFdiv f)) s

/-- FTWID (R171): the pair (cos, sin). -/
def opFtwid (a b : Dword) : Dword :=
  let x := twiddle (a.toNat % 2 ^ 32) (b.toNat % 2 ^ 32)
  BitVec.ofNat 64 (x.1 + 2 ^ 32 * x.2)

def execFtwid (f : EForm) (s : State) : Out := issueReg (.ftwid f) f (entryOf (.ftwid f)) (lane2 f false false true opFtwid) s

/-! ## Conversion and packing (R172 to R176) -/

/-- Elements converted in order; with RM = 101 each uses the rounding state and advances it. The first element lies lowest. -/
def packElems (dst src rm : Nat) (sat : Bool) (w : Nat) : List Nat → Word → Nat × Word
  | [], l => (0, l)
  | x :: r, l =>
    let y := convert dst src rm sat l x
    let rest := packElems dst src rm sat w r (if rm = 5 then advanceLfsr l else l)
    (y + 2 ^ w * rest.1, rest.2)

/-- A lane that converts elements, with its rounding state. -/
def cvtLane (f : EForm) (wd : Bool) (t : Thread) (r : Row) (x : Nat × Word) : Except Nat LaneOut :=
  match laneOut t r f wd (BitVec.ofNat 64 x.1) with
  | .ok o => .ok (if f.rm = 5 then { o with lfsr := some x.2 } else o)
  | .error e => .error e

/-- The value of a conversion's result as a register holds it: .i8 and .i16 extended by sign (R151). -/
def cvtExtend (dst x : Nat) : Nat :=
  if dst ≤ 1 ∧ 2 ^ (cvtWidth dst - 1) ≤ x then x + 2 ^ 32 - 2 ^ cvtWidth dst else x

def cvtOne (f : EForm) (t : Thread) (r : Row) : Except Nat LaneOut :=
  let dst := f.sub.toNat
  let src := f.c.code.toNat
  match readOpnd t r f f.a (cvtWidth src = 64) with
  | .error e => .error e
  | .ok a =>
    let elem := if 12 ≤ src then pickElem (cvtFmt src) f.sa.toNat a else a.toNat % 2 ^ cvtWidth src
    let x := packElems dst src f.rm.toNat f.sat (cvtWidth dst) [elem] t.lfsr
    cvtLane f (cvtWidth dst = 64) t r (cvtExtend dst x.1, x.2)

def execCvt (f : EForm) (s : State) : Out := issueReg (.cvt f) f (entryOf (.cvt f)) (cvtOne f) s

/-- A lane that packs the elements of A and B. -/
def packLane (f : EForm) (wide : Bool) (w : Nat) (src : Nat) (elems : Dword → Dword → List Nat) (t : Thread) (r : Row) :
    Except Nat LaneOut :=
  match readOpnd t r f f.a wide with
  | .error e => .error e
  | .ok a => match readOpnd t r f f.b wide with
    | .error e => .error e
    | .ok b => cvtLane f false t r (packElems f.sub.toNat src f.rm.toNat f.sat w (elems a b) t.lfsr)

def words32 (a : Dword) : List Nat := [a.toNat % 2 ^ 32, a.toNat / 2 ^ 32]
def halves16 (a : Dword) : List Nat := [halfLo a, halfHi a]
def halves64 (a : Dword) : List Nat := (List.range 4).map fun i => a.toNat / 2 ^ (16 * i) % 2 ^ 16
def bytes4 (a : Dword) : List Nat := (List.range 4).map fun i => a.toNat / 2 ^ (8 * i) % 2 ^ 8

/-- PACK8 (R174). -/
def execPack8 (f : EForm) (s : State) : Out :=
  let src := f.c.code.toNat
  if src = 10 then issueReg (.pack8 f) f (entryOf (.pack8 f)) (packLane f true 8 src fun a b => words32 a ++ words32 b) s
  else issueReg (.pack8 f) f (entryOf (.pack8 f)) (packLane f false 8 src fun a b => halves16 a ++ halves16 b) s

/-- The .q4 codes of R175: each byte clamped to -8 to 7, or its low 4 bits. -/
def packQ4 (sat : Bool) : List Nat → Nat
  | [] => 0
  | x :: r =>
    let v := toInt 8 true x
    narrow 4 (if sat then clampInt 4 true v else v) + 16 * packQ4 sat r

/-- PACK4 (R175). -/
def execPack4 (f : EForm) (s : State) : Out :=
  if f.sub = 15 then
    issueReg (.pack4 f) f (entryOf (.pack4 f))
      (lane2 f false false false fun a b => BitVec.ofNat 64 (packQ4 f.sat (bytes4 a ++ bytes4 b))) s
  else
    issueReg (.pack4 f) f (entryOf (.pack4 f)) (packLane f true 4 f.c.code.toNat fun a b => halves64 a ++ halves64 b) s

end Sys2Proof.Machine
end

