-- ==== Sys2Proof/Machine/CrossLane.lean ====
section
/-!
DEFINITION. Cross-lane instructions (spec/08_core_crosslane_sync.md R179 to R188): shuffles, votes, match, redux, scan and isect.
-/
namespace Sys2Proof.Machine

/-- The active slots of the group that issues (R180). -/
def State.actives (s : State) (gd : Guard) : List Nat :=
  match s.curGroup with
  | some g => activeSlots s.cur g gd
  | none => []

/-- The active slot in a lane column. -/
def slotInLane (act : List Nat) (lane : Nat) : Option Nat := act.find? fun x => laneOf x = lane

/-- A source of a lane of the core, 0 where it cannot be read. -/
def Core.source (k : Core) (f : EForm) (o : Opnd) (wide : Bool) (slot : Nat) : Dword :=
  match readOpnd (k.thread slot) (k.row (rowOf slot)) f o wide with
  | .ok x => x
  | .error _ => 0

/-- The shared issue of a cross-lane instruction: each active lane checks its own sources, and its effect comes from the values
of all active lanes. -/
def issueCross (i : Instr) (f : EForm) (wa wb : Bool) (effect : Core → Nat → Except Nat LaneOut) (s : State) : Out :=
  let sp := entryOf i
  issueLanes i f.guard (sp.produces f) (touched sp f)
    (fun k x =>
      let t := k.thread x
      let r := k.row (rowOf x)
      match readOpnd t r f f.a wa with
      | .error e => .error e
      | .ok _ => match readOpnd t r f f.b wb with
        | .error e => .error e
        | .ok _ => effect k x) s

/-- The result of a lane, written to D. -/
def crossOut (k : Core) (f : EForm) (wd : Bool) (slot : Nat) (x : Dword) : Except Nat LaneOut :=
  laneOut (k.thread slot) (k.row (rowOf slot)) f wd x

/-! ## Shuffle (R182) -/

/-- The source lane of lane l for the index b, none outside 0 to 31. -/
inductive ShflMode where
  | idx
  | xor
  | up
  | down
  deriving DecidableEq, Repr

def shflSource (m : ShflMode) (l b : Nat) : Option Nat :=
  match m with
  | .idx => some (b % 32)
  | .xor => some (l ^^^ (b % 32))
  | .up => if b ≤ l then some (l - b) else none
  | .down => if l + b < 32 then some (l + b) else none

/-- A shuffle: A of the source lane, or 0 with p6 true where that lane is not active. -/
def shflLane (f : EForm) (m : ShflMode) (act : List Nat) (k : Core) (x : Nat) : Except Nat LaneOut :=
  let wide := f.sub = 1
  let b := (k.source f f.b false x).toNat % 2 ^ 32
  match (shflSource m (laneOf x) b).bind (slotInLane act) with
  | some y => withPred (crossOut k f wide x (k.source f f.a wide y)) 6 false
  | none => withPred (crossOut k f wide x 0) 6 true

/-- p6 is written too: it is among the registers that must not be pending. -/
def issueShfl (i : Instr) (f : EForm) (m : ShflMode) (s : State) : Out :=
  let sp := entryOf i
  issueLanes i f.guard (sp.produces f) (fun t a => Dst.p 6 :: touched sp f t a)
    (fun k x =>
      match readOpnd (k.thread x) (k.row (rowOf x)) f f.a (f.sub = 1) with
      | .error e => .error e
      | .ok _ => match readOpnd (k.thread x) (k.row (rowOf x)) f f.b false with
        | .error e => .error e
        | .ok _ => shflLane f m (s.actives f.guard) k x) s

def execShflIdx (f : EForm) (s : State) : Out := issueShfl (.shflIdx f) f .idx s
def execShflXor (f : EForm) (s : State) : Out := issueShfl (.shflXor f) f .xor s
def execShflUp (f : EForm) (s : State) : Out := issueShfl (.shflUp f) f .up s
def execShflDown (f : EForm) (s : State) : Out := issueShfl (.shflDown f) f .down s

/-! ## Vote and match (R184) -/

/-- The predicate in A of a lane. -/
def Core.votes (k : Core) (f : EForm) (slot : Nat) : Bool := (k.thread slot).pred f.a.code.toNat

/-- Bit l is set for each lane l of the slots. -/
def laneMask (slots : List Nat) : Nat := (slots.map fun x => 2 ^ laneOf x).foldr (· + ·) 0

def execVoteAny (f : EForm) (s : State) : Out :=
  let act := s.actives f.guard
  issueCross (.voteAny f) f false false (fun k x => crossOut k f false x (boolDword (act.any (k.votes f)))) s

def execVoteAll (f : EForm) (s : State) : Out :=
  let act := s.actives f.guard
  issueCross (.voteAll f) f false false (fun k x => crossOut k f false x (boolDword (act.all (k.votes f)))) s

def execVoteBallot (f : EForm) (s : State) : Out :=
  let act := s.actives f.guard
  issueCross (.voteBallot f) f false false
    (fun k x => crossOut k f false x (BitVec.ofNat 64 (laneMask (act.filter (k.votes f))))) s

def execMatchLanes (f : EForm) (s : State) : Out :=
  let act := s.actives f.guard
  let wide := f.sub = 1
  issueCross (.matchLanes f) f wide false
    (fun k x => crossOut k f false x
      (BitVec.ofNat 64 (laneMask (act.filter fun y => k.source f f.a wide y = k.source f f.a wide x)))) s

/-! ## Reduction and scan (R185 to R187) -/

def addF (m : Fmt) (a b : Nat) : Nat := m.encode 0 false 0 ((m.decode a).add 0 (m.decode b))

/-- The operator of a reduction by SUB (R64). -/
def reduxOp (sub : Nat) (a b : Nat) : Nat :=
  match sub with
  | 0 => (a + b) % 2 ^ 32
  | 1 => if toInt 32 true a ≤ toInt 32 true b then a else b
  | 2 => if toInt 32 true a ≤ toInt 32 true b then b else a
  | 3 => min a b
  | 4 => max a b
  | 5 => a &&& b
  | 6 => a ||| b
  | 7 => a ^^^ b
  | 8 => addF f32 a b
  | 9 => f32.encode 0 false 0 ((f32.decode a).minNum (f32.decode b))
  | 10 => f32.encode 0 false 0 ((f32.decode a).maxNum (f32.decode b))
  | 11 => (a + b) % 2 ^ 64
  | _ => addF f64 a b

/-- The identity of an operator (R185). -/
def reduxIdentity (sub : Nat) : Nat :=
  match sub with
  | 1 => 0x7FFFFFFF
  | 2 => 0x80000000
  | 3 | 5 => 0xFFFFFFFF
  | 8 => 0x80000000
  | 9 | 10 => 0x7FC00000
  | 12 => 0x8000000000000000
  | _ => 0

/-- The values of lanes 0 to 31, the identity in inactive lanes. -/
def laneValues (k : Core) (f : EForm) (act : List Nat) : List Nat :=
  let wide := reduxWidth f.sub = 64
  (List.range 32).map fun l => match slotInLane act l with
    | some x => (k.source f f.a wide x).toNat
    | none => reduxIdentity f.sub.toNat

/-- Neighbours combined, left operand the lower lane: one level of the tree of R186. -/
def pairUp (op : Nat → Nat → Nat) : List Nat → List Nat
  | a :: b :: r => op a b :: pairUp op r
  | l => l

def treeFold (op : Nat → Nat → Nat) (n : Nat) (l : List Nat) : List Nat :=
  match n with
  | 0 => l
  | n + 1 => treeFold op n (pairUp op l)

def execRedux (f : EForm) (s : State) : Out :=
  let act := s.actives f.guard
  let wide := reduxWidth f.sub = 64
  issueCross (.redux f) f wide false
    (fun k x => crossOut k f wide x
      (BitVec.ofNat 64 ((treeFold (reduxOp f.sub.toNat) 5 (laneValues k f act)).headD 0))) s

/-- One level of the scan of R187: lanes from d on combine with the lane d below. -/
def scanLevel (op : Nat → Nat → Nat) (d : Nat) (l : List Nat) : List Nat :=
  l.take d ++ (List.zipWith op l (l.drop d))

/-- The inclusive scan. -/
def scanAll (op : Nat → Nat → Nat) (l : List Nat) : List Nat :=
  scanLevel op 16 (scanLevel op 8 (scanLevel op 4 (scanLevel op 2 (scanLevel op 1 l))))

def execScan (f : EForm) (s : State) : Out :=
  let act := s.actives f.guard
  let wide := reduxWidth f.sub = 64
  issueCross (.scan f) f wide false
    (fun k x =>
      let y := scanAll (reduxOp f.sub.toNat) (laneValues k f act)
      let z := if immValue f = 1 then reduxIdentity f.sub.toNat :: y else y
      crossOut k f wide x (BitVec.ofNat 64 (z.getD (laneOf x) 0))) s

/-! ## Intersection (R188) -/

/-- The pairs of equal elements: i in the low half, the lowest equal j in the high half. -/
def isectPairs (b : List Nat) : Nat → List Nat → List Nat
  | _, [] => []
  | i, x :: r =>
    if b.contains x then (i + 2 ^ 16 * b.idxOf x) :: isectPairs b (i + 1) r else isectPairs b (i + 1) r

/-- The pairs, and the word m | adva << 8 | advb << 16. -/
def isectAll (a b : List Nat) : List Nat × Nat :=
  let pairs := isectPairs b 0 a
  let lim := min (a.getLastD 0) (b.getLastD 0)
  let adv (l : List Nat) : Nat := if a.isEmpty || b.isEmpty then 0 else (l.filter fun x => x ≤ lim).length
  (pairs, pairs.length + 2 ^ 8 * adv a + 2 ^ 16 * adv b)

/-- The list that a register holds across the lanes; an inactive lane supplies 0xFFFF_FFFF. -/
def laneList (k : Core) (f : EForm) (o : Opnd) (act : List Nat) (n : Nat) : List Nat :=
  (List.range n).map fun l => match slotInLane act l with
    | some x => (k.source f o false x).toNat
    | none => 0xFFFFFFFF

def execIsect (f : EForm) (s : State) : Out :=
  let act := s.actives f.guard
  issueCross (.isect f) f false false
    (fun k x =>
      let c := (k.source f f.c false (topSlot act)).toNat
      let q := isectAll (laneList k f f.a act (min (c % 64) 32)) (laneList k f f.b act (min (c / 256 % 64) 32))
      crossOut k f true x (BitVec.ofNat 64 (q.1.getD (laneOf x) 0xFFFFFFFF + 2 ^ 32 * q.2))) s

end Sys2Proof.Machine
end

