-- ==== Sys2Proof/Machine/OperandMap.lean ====
section
/-!
DEFINITION. Operand maps and operand rows of the matrix engine (spec/14_matrix_engine.md R283 to R285, R296, R297).
-/
namespace Sys2Proof.Machine

/-- The fields of an operand map (R283). -/
structure MapVal where
  val : Bool
  kind : Bool
  wid : Nat
  swz : Nat
  base : Nat
  stride : Nat
  idx : Nat
  limit : Nat
  deriving DecidableEq, Repr

def mapVal (m : BitVec 128) : MapVal :=
  let f (hi lo : Nat) : Nat := m.toNat / 2 ^ lo % 2 ^ (hi + 1 - lo)
  ⟨m.getLsbD 0, m.getLsbD 1, f 4 2, f 6 5, f 27 8, f 51 32, f 83 64, f 111 96⟩

/-- The allotment offset of byte b of source row r (R284). -/
def MapVal.off (m : MapVal) (r b : Nat) : Nat := (m.base + r * m.stride + b) % 2 ^ 20 ^^^ (r % 2 ^ m.swz * 64)

/-- The source row of operand row n, none for a padding row (R284). -/
def MapVal.source (m : MapVal) (k : Core) (c : Crew) (n : Nat) : Option Nat :=
  if m.kind then
    let r := k.scratch.readNat (c.sbase + m.idx + 2 * n) 2
    if r = 0xFFFF then none else some r
  else some n

/-- The bytes of operand row n (R284). -/
def MapVal.row (m : MapVal) (k : Core) (c : Crew) (rb n : Nat) : List Byte :=
  match m.source k c n with
  | some r => (List.range rb).map fun b => k.scratch.read (c.sbase + m.off r b)
  | none => List.replicate rb 0

def MapVal.rows (m : MapVal) (k : Core) (c : Crew) (rb n : Nat) : List (List Byte) := (List.range n).map (m.row k c rb)

/-- The array ranges that the operand rows of a map are read from, with its index list. -/
def MapVal.reads (m : MapVal) (k : Core) (core : Nat) (c : Crew) (rb n : Nat) : List (Nat × Nat × Nat) :=
  (if m.kind then [(core, c.sbase + m.idx, 2 * n)] else []) ++
  (List.range n).flatMap fun i => match m.source k c i with
    | some r => (List.range rb).map fun b => (core, c.sbase + m.off r b, 1)
    | none => []

/-- The validation of a map that gives n operand rows of rb bytes, elements of a width code (R285). -/
def MapVal.valid (m : MapVal) (k : Core) (c : Crew) (wid rb n : Nat) : Bool :=
  let rowOk (i : Nat) : Bool := match m.source k c i with
    | some r => (!m.kind || decide (r < m.limit)) && (List.range rb).all fun b => m.off r b < c.scr
    | none => true
  m.val && m.wid = wid && decide (rb ≤ m.stride) && (!m.kind || decide (m.idx + 2 * n ≤ c.scr)) && (List.range n).all rowOk

/-- The width code of a WID field (R283). -/
def widOf (w : Nat) : Nat :=
  match w with
  | 4 => 0
  | 3 => 1
  | 8 => 2
  | 16 => 3
  | 32 => 4
  | _ => 5

/-- Element k of width w of a row (R296). -/
def elemOf (row w k : Nat) : Nat := row / 2 ^ (w * k) % 2 ^ w

/-- A row's elements put together. -/
def joinElems (w : Nat) : List Nat → Nat
  | [] => 0
  | e :: r => e % 2 ^ w + 2 ^ w * joinElems w r

/-- Bytes written to strided rows of a map: (array address, byte) pairs. -/
def MapVal.writes (m : MapVal) (c : Crew) (n : Nat) (row : List Byte) : List (Nat × Byte) :=
  row.zipIdx.map fun e => (c.sbase + m.off n e.2, e.1)

/-- The array ranges that n strided rows of rb bytes cover: byte by byte, since the swizzle moves pieces of rows. -/
def MapVal.dest (m : MapVal) (core : Nat) (c : Crew) (rb n : Nat) : List (Nat × Nat × Nat) :=
  (List.range n).flatMap fun i => (List.range rb).map fun b => (core, c.sbase + m.off i b, 1)

/-- The width of an external format (R320), by conversion code. -/
def moveWidth (code : Nat) : Nat :=
  match code with
  | 0 => 8
  | 2 => 32
  | 8 => 16
  | 9 => 16
  | 10 => 32
  | 11 => 64
  | 14 => 4
  | _ => 8

/-- K of mmas and spz by format code (R61, R318), and the width. -/
def sparseK (sub : Nat) : Nat := if sub = 0 then 32 else 64
def sparseW (sub : Nat) : Nat := if sub = 0 then 16 else 8

/-- The scratchpad destinations that a command's maps give, of acst and spz (R295). -/
def mapDest (k : Core) (core crew : Nat) (i : Instr) (mapA mapB : BitVec 128) : List (Nat × Nat × Nat) :=
  let c := k.crew crew
  match i with
  | .acst f =>
    if f.c.toNat / 16 % 2 = 1 then [] else (mapVal mapA).dest core c (f.n * moveWidth (f.c.toNat % 16) / 8) f.m
  | .spz f => (mapVal mapB).dest core c (sparseK f.c.toNat * sparseW f.c.toNat / 16) f.m
  | _ => []

end Sys2Proof.Machine
end

