-- ==== Sys2Proof/Machine/Retire.lean ====
section
/-!
DEFINITION. Engine queues and the append of a signed command (spec/02_ordering_machine.md R38, R39; R289, R379, R407), and the
retirement of a thread (R133) with what it does to convergence registers (R199), barriers (R195) and allotments (R104).
-/
namespace Sys2Proof.Machine

/-! ## Engine queues -/

/-- The engine that a command of a core goes to (R60). -/
def engineOf (core : Nat) (i : Instr) : EngineId :=
  match i with
  | .tcopy _ | .gath _ | .scat _ | .rules _ => .copy core
  | .spred _ | .sfetch _ | .scheck _ => .starter (clusterOf core)
  | _ => .mxe core

def State.engine (s : State) (e : EngineId) : Engine :=
  match e with
  | .mxe c => (s.core c).mxe
  | .copy c => (s.core c).copy
  | .starter q => (s.cluster q).starter

def State.setEngine (s : State) (e : EngineId) (x : Engine) : State :=
  match e with
  | .mxe c => s.updCore c fun k => { k with mxe := x }
  | .copy c => s.updCore c fun k => { k with copy := x }
  | .starter q => s.updCluster q fun k => { k with starter := x }

/-- Whether the queue has room for one more command of a crew. -/
def engineRoom (e : EngineId) (q : List Cmd) (core crew : Nat) : Bool :=
  let mine := (q.filter fun c => c.core = core && c.crew = crew).length
  match e with
  | .mxe _ => q.length < Config.mxeQueue
  | .copy _ => q.length < Config.copyQueue && mine < Config.copyPerCrew
  | .starter _ => q.length < Config.starterQueue && mine < Config.starterPerCrew

/-- The operand maps that a command reads (R309): codes of its A and B fields. -/
def cmdMaps (i : Instr) : Nat × Nat :=
  match i with
  | .mmad f | .mmas f | .mmaq f | .mscal f | .acld f | .acst f | .spz f => (f.a.toNat, f.b.toNat)
  | _ => (0, 0)

/-- The scratchpad destinations of a command as it is appended: those of acst and spz follow its maps (R295). -/
def Cmd.destAt (c : Cmd) (k : Core) (mapA mapB : BitVec 128) : List (Nat × Nat × Nat) :=
  match c.instr with
  | .acst _ | .spz _ => mapDest k c.core c.crew c.instr mapA mapB
  | _ => c.dest

/-- The command is appended: its maps are the crew's at this step (R310). none when the queue has no room. -/
def State.append (s : State) (c : Cmd) : Option State :=
  let e := engineOf c.core c.instr
  let q := s.engine e
  if engineRoom e q.queue c.core c.crew then
    let om := ((s.core c.core).crew c.crew).om
    let a := FMap.get 0 om (cmdMaps c.instr).1
    let b := FMap.get 0 om (cmdMaps c.instr).2
    let c := { c with mapA := a, mapB := b, seq := s.ctr, dest := c.destAt (s.core c.core) a b }
    some (s.setEngine e { q with queue := q.queue ++ [c] }).bump
  else none

/-! ## Convergence registers -/

def Crew.conv (c : Crew) (i : Nat) : ConvReg := c.cv.get {} i

def Crew.setConv (c : Crew) (i : Nat) (v : ConvReg) : Crew := { c with cv := c.cv.set i v }

/-- The sets of CV(crew, i) become d and g. When they are equal and a command is pending, it is appended and the signed set
emptied in the same step (R38, R199). none when the queue has no room for it. -/
def State.convSets (s : State) (core crew i : Nat) (d g : List Nat) : Option State :=
  let v := ((s.core core).crew crew).conv i
  let put (s : State) (v : ConvReg) : State := s.updCore core fun k => k.updCrew crew fun c => c.setConv i v
  match v.pending with
  | some cmd =>
    if d = g then (s.append cmd).map fun s => put s { declared := d, signed := [], pending := none }
    else some (put s { v with declared := d, signed := g })
  | none => some (put s { v with declared := d, signed := g })

/-- The thread leaves the declared set of each of the crew's convergence registers in the list. (DEDUCED, log 13) -/
def State.undeclare (s : State) (core crew slot : Nat) : List Nat → Option State
  | [] => some s
  | i :: r =>
    let v := ((s.core core).crew crew).conv i
    match s.convSets core crew i (v.declared.filter (· ≠ slot)) (v.signed.filter (· ≠ slot)) with
    | some s' => s'.undeclare core crew slot r
    | none => none

/-! ## Retirement -/

/-- R195: a cohort without live threads has arrived, and leaves at the next Advance; a join of it is dropped. (DESIGN CHOICE, log 87) -/
def Barrier.gone (b : Barrier) (n : Nat) : Barrier :=
  if b.mask.contains n then
    { b with arrived := insertNat n b.arrived, leaves := insertNat n b.leaves, exited := insertNat n b.exited,
             joins := b.joins.filter (· ≠ n) }
  else { b with joins := b.joins.filter (· ≠ n) }

/-- Whether a barrier is the instance that a gang of a launch uses. -/
def barServes (b : BarId) (lid gang : Nat) : Bool := b.lid = lid && (b.gang = none || b.gang = some gang)

/-- The cohort number of a row. -/
def Core.cohort (k : Core) (r : Nat) : Nat :=
  let row := k.row r
  let c := k.crew row.crew
  cohortNo c.gang c.index row.lci

/-- Effects of the exit of a cohort's last live thread on its barriers. -/
def State.cohortGone (s : State) (core r : Nat) : State :=
  let k := s.core core
  if (k.liveSlots r).isEmpty then
    let c := k.crew (k.row r).crew
    { s with bars := s.bars.map fun b => if barServes b.id c.lid c.gang then b.gone (k.cohort r) else b }
  else s

/-- The thread becomes Exited (R133). none while it is not drained, or while a command that its leaving would append has no
room. An evwait of it that has no record yet keeps its place and takes one. (DESIGN CHOICE, log 74) -/
def State.retire (s : State) (core slot : Nat) : Option State :=
  let k := s.core core
  if k.drained slot then
    match s.undeclare core (k.crewOf slot) slot (k.crewAt slot).cv.keys with
    | some s =>
      let s := s.updCore core fun k =>
        (k.updThread slot fun t => { t with phase := .exited, bp := [], resume := none }).shrink (rowOf slot)
      some (s.cohortGone core (rowOf slot))
    | none => none
  else none

end Sys2Proof.Machine
end

