-- ==== Sys2Proof/Machine/SectorCode.lean ====
section
/-!
DEFINITION. The integrity tag of a sector (R462), the Reed-Solomon code, the compression methods and the stored form of a DRAM
sector (spec/25_containment.md R458, R459).
-/
namespace Sys2Proof.Machine

/-! ## The tag (R462) -/

/-- One bit of the CRC-16 with polynomial 0x1021, most significant bit first. -/
def crcBit (c : Nat) : Nat := if c.testBit 15 then (2 * c ^^^ 0x1021) % 2 ^ 16 else 2 * c

def crcByte (c : Nat) (b : Byte) : Nat := Nat.repeat crcBit 8 (c ^^^ b.toNat * 2 ^ 8)

/-- CRC-16 from 0xFFFF, without reflection and final XOR, bytes in ascending address. -/
def crc16 (l : List Byte) : Nat := l.foldl crcByte 0xFFFF

/-- The tag of 32 data bytes, given as a little-endian number. -/
def sectorTag (data : Nat) : BitVec 16 := BitVec.ofNat 16 (crc16 (leBytes data 32))

/-- The tags of the two sectors of a line. -/
def lineTags (data : BitVec 512) : BitVec 32 := sectorTag (data.toNat / 2 ^ 256) ++ sectorTag (data.toNat % 2 ^ 256)

/-! ## Reed-Solomon over GF(2^8) (R458) -/

/-- The product with α = 0x02 modulo x^8 + x^4 + x^3 + x^2 + 1. -/
def gfDouble (a : Nat) : Nat := if a < 2 ^ 7 then 2 * a else 2 * a ^^^ 0x11D

def gfMul (a b : Nat) : Nat := (List.range 8).foldr (fun i acc => gfDouble acc ^^^ (if b.testBit i then a else 0)) 0

/-- A polynomial, highest power first, times (x - r). -/
def gfTimesRoot (p : List Nat) (r : Nat) : List Nat := List.zipWith (· ^^^ ·) (p ++ [0]) (0 :: p.map (gfMul r))

/-- The generator with the roots α^0 to α^3, without its leading 1. -/
def rsGenerator : List Nat := ([1, 2, 4, 8].foldl gfTimesRoot [1]).tail

/-- The remainder takes one more message symbol. -/
def rsStep (r : List Nat) (sym : Nat) : List Nat :=
  let f := sym ^^^ r.headD 0
  List.zipWith (· ^^^ ·) (r.tail ++ [0]) (rsGenerator.map (gfMul f))

/-- The four check symbols of a message, the highest power first in both. (DESIGN CHOICE, log 67) -/
def rsCheck (msg : List Byte) : List Byte := (msg.foldl (fun r b => rsStep r b.toNat) [0, 0, 0, 0]).map (BitVec.ofNat 8)

/-- The value of a codeword at a root: 0 for every root of the generator. -/
def rsSyndrome (word : List Byte) (root : Nat) : Nat := word.foldl (fun a b => gfMul a root ^^^ b.toNat) 0

/-! ## Compression (R459) -/

/-- The eight words of a sector. -/
def sectorWords (data : Nat) : List Nat := (List.range 8).map fun i => data / 2 ^ (32 * i) % 2 ^ 32

/-- A word minus word 0, and whether it fits 16 bits signed. (DESIGN CHOICE, log 67: modulo 2^32) -/
def wordDelta (w w0 : Nat) : Nat := (w + 2 ^ 32 - w0) % 2 ^ 32
def deltaFits (d : Nat) : Bool := d < 2 ^ 15 || 2 ^ 32 - 2 ^ 15 ≤ d

/-- The mask of nonzero bytes. -/
def byteMask (l : List Byte) : Nat := (l.zipIdx.map fun e => if e.1 = 0 then 0 else 2 ^ e.2).foldr (· + ·) 0

/-- The first method that applies with its payload; none for an incompressible sector. -/
def sectorMethod (data : Nat) : Option (Nat × List Byte) :=
  let ws := sectorWords data
  let w0 := ws.headD 0
  let bytes := (leBytes data 32).filter (· ≠ 0)
  if data = 0 then some (1, [])
  else if ws.all fun w => w = w0 then some (2, leBytes w0 4)
  else if bytes.length ≤ 24 then some (3, leBytes (byteMask (leBytes data 32)) 4 ++ bytes)
  else if ws.all fun w => deltaFits (wordDelta w w0) then some (4, leBytes w0 4 ++ ws.tail.flatMap fun w => leBytes (wordDelta w w0) 2)
  else none

/-- The bytes of a masked payload, in their places. -/
def unmask : List Nat → Nat → List Byte → List Byte
  | [], _, _ => []
  | i :: r, mask, l => if mask.testBit i then l.headD 0 :: unmask r mask l.tail else 0 :: unmask r mask l

/-- A delta of 16 bits signed, as 32 bits. -/
def signedDelta (d : Nat) : Nat := if d < 2 ^ 15 then d else d + 2 ^ 32 - 2 ^ 16

/-- The data of a compressed sector, by method and payload; none for the poisoned method and for an unassigned one. -/
def expandSector (method : Nat) (payload : List Byte) : Option Nat :=
  match method with
  | 1 => some 0
  | 2 => some (leNat ((List.replicate 8 (payload.take 4)).flatten))
  | 3 => some (leNat (unmask (List.range 32) (leNat (payload.take 4)) (payload.drop 4)))
  | 4 =>
    let w0 := leNat (payload.take 4)
    some (leNat (payload.take 4 ++
      (List.range 7).flatMap fun i => leBytes (w0 + signedDelta (leNat ((payload.drop (4 + 2 * i)).take 2))) 4))
  | _ => none

/-! ## The stored form (R458) -/

/-- A sector as the module holds it: main and sideband bytes, its bytes of the overflow table, and its byte of the mode map. -/
structure StoredSector where
  main : List Byte
  side : List Byte
  spill : List Byte
  incompressible : Bool
  deriving DecidableEq, Repr

/-- A compressed sector: header, payload zero-padded, tag. -/
def compressed (method : Nat) (payload : List Byte) (tag : BitVec 16) : StoredSector :=
  let main := leBytes method 2 ++ (payload ++ List.replicate (28 - payload.length) 0) ++ leBytes tag.toNat 2
  ⟨main, rsCheck main, [0, 0], false⟩

/-- A sector as its writer stores it; a poisoned one takes method 15 (R461). -/
def encodeSector (data : Nat) (tag : BitVec 16) (poison : Bool) : StoredSector :=
  if poison then compressed 15 [] tag
  else match sectorMethod data with
    | some (m, p) => compressed m p tag
    | none =>
      let msg := leBytes data 32 ++ leBytes tag.toNat 2
      let chk := rsCheck msg
      ⟨leBytes data 32, leBytes tag.toNat 2 ++ chk.take 2, chk.drop 2, true⟩

/-- The stored bytes: main, sideband, overflow. -/
def StoredSector.bytes (x : StoredSector) : List Byte := x.main ++ x.side ++ x.spill

/-- The codeword: 36 symbols, or 38 of an incompressible sector. -/
def StoredSector.codeword (x : StoredSector) : List Byte := if x.incompressible then x.bytes else x.main ++ x.side

/-- A reserved sector: its main bytes are plain data, without header and tag. -/
def encodeReserved (main : List Byte) : StoredSector := ⟨main, rsCheck main, [0, 0], false⟩

/-- The data, tag and poison that a clean codeword stands for. -/
def StoredSector.decode (x : StoredSector) : Option Nat × BitVec 16 :=
  if x.incompressible then (some (leNat x.main), BitVec.ofNat 16 (leNat (x.side.take 2)))
  else (expandSector (leNat (x.main.take 2) % 2 ^ 4) ((x.main.drop 2).take 28), BitVec.ofNat 16 (leNat (x.main.drop 30)))

/-- Symbols of the codeword that an upset of the stored bytes changes. -/
def StoredSector.errors (x : StoredSector) (flips : BitVec 304) : Nat :=
  ((List.range x.codeword.length).filter fun i => flips.toNat / 2 ^ (8 * i) % 2 ^ 8 ≠ 0).length

/-- What a read of a stored sector finds: no error, errors that the code corrects, or more. -/
inductive SectorRead where
  | clean
  | corrected
  | uncorrectable
  deriving DecidableEq, Repr

/-- The code corrects 2 symbol errors and detects more. (DESIGN CHOICE for more than 3, log 67) -/
def StoredSector.read (x : StoredSector) (flips : BitVec 304) : SectorRead :=
  if x.errors flips = 0 then .clean else if x.errors flips ≤ 2 then .corrected else .uncorrectable

end Sys2Proof.Machine
end

