-- ==== Sys2Proof/Machine/Translate.lean ====
section
/-!
DEFINITION. Keys of virtual storage, page walks, the TLB, verdicts, line fills and write-backs at the home partition
(spec/01_device.md R18, R19; spec/02_ordering_machine.md R29; spec/10_memory_translation.md R216 to R235), the tags and the stored
sectors of the modules (spec/25_containment.md R458 to R465).
-/
namespace Sys2Proof.Machine

/-! ## Keys -/

/-- The tag of a global address (R216). An ASID's tag is its number. -/
def globalTag : Nat := 0x10000

def tagOf (asid va : Nat) : Nat := if va / 2 ^ 56 % 2 = 1 then globalTag else asid

/-- The key of a byte of virtual storage: its tag and its 57-bit address. A word's key is a quarter of it, a line's a 64th. -/
def byteKey (asid va : Nat) : Nat := tagOf asid va * 2 ^ 57 + va

def keyVa (key : Nat) : Nat := key % 2 ^ 57
def keyTag (key : Nat) : Nat := key / 2 ^ 57

def lineBytes : Nat := 64

/-- HomeOf(va) (R18). -/
def homeOf (va : Nat) : Nat :=
  va / 2 ^ 8 % 32 ^^^ va / 2 ^ 13 % 32 ^^^ va / 2 ^ 18 % 32 ^^^ va / 2 ^ 23 % 32 ^^^ va / 2 ^ 28 % 32

/-- Lane(a) (R29). -/
def laneHash (a : Nat) : Nat := a / 2 ^ 6 % 16 ^^^ a / 2 ^ 10 % 16

/-! ## Fields of table words -/

/-- Bits [hi:lo] of a number. -/
def bitsOf (x hi lo : Nat) : Nat := x / 2 ^ lo % 2 ^ (hi + 1 - lo)

/-- The 8 KiB-aligned base in bits [51:13]. -/
def tableBase (e : Nat) : Nat := bitsOf e 51 13 * 2 ^ 13

/-- A leaf word with the address of its entry and its level (R224). -/
structure Leaf where
  addr : Nat
  word : Nat
  level : Nat
  deriving DecidableEq, Repr

/-- log2 of the bytes that an entry of a level maps (R222). -/
def pageBits (level : Nat) : Nat := 16 + 10 * (4 - level)

def leafRes (e : Nat) : Nat := bitsOf e 13 12
def leafPa (e : Nat) : Nat := bitsOf e 51 16

/-- Whether a leaf or a line's copies grant an access kind: 0 read, 1 write, 2 execute, 3 atomic. -/
def permits (rp wp xp : Bool) (kind : Nat) : Bool := if kind = 0 then rp else if kind = 2 then xp else wp

def leafGrants (e kind : Nat) : Bool := permits (e.testBit 2) (e.testBit 3) (e.testBit 4) kind

def Line.grants (l : Line) (kind : Nat) : Bool := permits l.rp l.wp l.xp kind

/-! ## Sectors of the modules (R458 to R462, R465) -/

/-- Bits [hi:lo] of a number replaced. -/
def withBits (x hi lo v : Nat) : Nat := x - bitsOf x hi lo * 2 ^ lo + v % 2 ^ (hi + 1 - lo) * 2 ^ lo

/-- A 16-bit count of PART.ECC goes up, saturating (R465). -/
def State.countEcc (s : State) (part lo : Nat) : State :=
  let e := (FMap.get 0 s.ecc part).toNat
  { s with ecc := FMap.put 0 s.ecc part (BitVec.ofNat 64 (withBits e (lo + 15) lo (min 0xFFFF (bitsOf e (lo + 15) lo + 1)))) }

/-- The reserved sectors of a data sector: its mode bit stands in one of 256 data sectors, its overflow bytes in one of 16 (R458). The
numbers from 2^38 and from 2^39 on are the model's own. (DEDUCED, log 18) -/
def modeSector (n : Nat) : Nat := 2 ^ 38 + n / 2 ^ 8
def overSector (n : Nat) : Nat := 2 ^ 39 + n / 2 ^ 4

/-- The first data sector that a reserved one serves; a data sector itself. -/
def servedSector (n : Nat) : Nat := if n < 2 ^ 38 then n else if n < 2 ^ 39 then (n - 2 ^ 38) * 2 ^ 8 else (n - 2 ^ 39) * 2 ^ 4

/-- The partition that drives the link of a sector (R19). -/
def sectorPart (n : Nat) : Nat := 32 * servedSector n / 2 ^ 38 % 2 ^ 5

/-- The tag stored with a sector: the one of its bytes, unless it was carried there unchanged from a mismatch. -/
def State.storedTag (s : State) (n : Nat) : BitVec 16 :=
  match s.tags.find n with
  | some t => t
  | none => sectorTag (s.dram.readNat (32 * n) 32)

/-- A data sector as the module stores it, before any upset. -/
def State.storedSector (s : State) (n : Nat) : StoredSector :=
  encodeSector (s.dram.readNat (32 * n) 32) (s.storedTag n) (s.poisoned.contains n)

/-- The main bytes of a reserved sector: mode bits, or overflow bytes. -/
def State.reservedBytes (s : State) (n : Nat) : List Byte :=
  let d := servedSector n
  if n < 2 ^ 39 then
    leBytes (((List.range (2 ^ 8)).map fun i => (s.storedSector (d + i)).incompressible.toNat * 2 ^ i).foldr (· + ·) 0) 32
  else (List.range (2 ^ 4)).flatMap fun i => (s.storedSector (d + i)).spill

/-- A reserved sector as the module stores it. -/
def State.storedReserved (s : State) (n : Nat) : StoredSector := encodeReserved (s.reservedBytes n)

/-- What a read of one stored sector, data or reserved, finds. -/
def State.readStored (s : State) (n : Nat) : SectorRead :=
  match s.flips.find n with
  | some f => (if n < 2 ^ 38 then s.storedSector n else s.storedReserved n).read f
  | none => .clean

/-- The reserved sectors that a read of a data sector takes: the mode map, and of an incompressible one the overflow table. -/
def State.reservedOf (s : State) (n : Nat) : List Nat :=
  if s.flips.isEmpty then [] else
  modeSector n :: if (s.storedSector n).incompressible then [overSector n] else []

/-- What a read of a data sector finds: one whose mode or overflow bytes are lost, or whose memory link failed at bring-up (R479),
cannot be corrected. (DEDUCED, log 58) -/
def State.readSector (s : State) (n : Nat) : SectorRead :=
  if s.boot.links.contains (sectorPart n) then .uncorrectable
  else if (s.reservedOf n).any fun r => s.readStored r = .uncorrectable then .uncorrectable else s.readStored n

/-- A read of one stored sector is counted: CE, UE. -/
def State.countOne (s : State) (n : Nat) (r : SectorRead) : State :=
  match r with
  | .clean => s
  | .corrected => s.countEcc (sectorPart n) 0
  | .uncorrectable => s.countEcc (sectorPart n) 16

/-- A read of a data sector is counted, with the reserved ones that it takes. -/
def State.countRead (s : State) (n : Nat) : State :=
  (s.reservedOf n).foldl (fun t r => t.countOne r (s.readStored r)) (s.countOne n (s.readSector n))

/-- A reader of a sector finds it poisoned. -/
def State.sectorPoisoned (s : State) (n : Nat) : Bool := s.poisoned.contains n || s.readSector n = .uncorrectable

def poisonBits (s : State) (pa : Nat) : BitVec 2 :=
  BitVec.ofNat 2 ((s.sectorPoisoned (pa / 32)).toNat + 2 * (s.sectorPoisoned (pa / 32 + 1)).toNat)

/-! ## Words of the tables (R221, R465) -/

/-- An 8-byte word of a table as its reader finds it; of a sector that cannot be corrected a free value. (DEDUCED, log 18) -/
def State.tableWord (s : State) (a : Nat) : Nat :=
  if s.sectorPoisoned (a / 32) then (Config.spoiledWord a s.freeCtr).toNat else s.dram.readNat a 8

/-- The reads of some sectors are counted. -/
def State.countReads (s : State) (l : List Nat) : State := l.foldl State.countRead s

/-- A table word written: its sector is stored anew; a poisoned one stays so (R461). -/
def State.putTable (s : State) (a v : Nat) : State :=
  let n := a / 32
  let p := s.sectorPoisoned n
  { s with dram := s.dram.writeNat a 8 v, tags := s.tags.erase n, flips := s.flips.erase n,
           poisoned := if p then insertNat n s.poisoned else s.poisoned }

/-- A table word read and written. -/
def State.writeTable (s : State) (a v : Nat) : State := (s.countRead (a / 32)).putTable a v

/-! ## The far map (R229) -/

/-- Far-map entry i as a 128-bit number. -/
def State.farSlot (s : State) (i : Nat) : Nat := bitsOf s.farmap.toNat 51 12 * 2 ^ 12 + 16 * i

def State.farEntry (s : State) (i : Nat) : Nat := s.tableWord (s.farSlot i) + 2 ^ 64 * s.tableWord (s.farSlot i + 8)

def farDest (e : Nat) : Dest := if e.testBit 1 then .host else .peer (bitsOf e 18 2)

def farBase (e : Nat) : Nat := bitsOf e 127 64

/-- The remote address of a byte of a far page: base + (o << 16) + b. -/
def farAddr (e : Nat) (l : Leaf) (va : Nat) : Nat := farBase e + bitsOf l.word 43 16 * 2 ^ 16 + va % 2 ^ pageBits l.level

/-! ## The walk (R222 to R225) -/

/-- The checks of R225 on a leaf that is valid and not absent. A far-map entry is invalid when its VAL is 0. (DEDUCED, log 89) -/
def State.leafOk (s : State) (va : Nat) (l : Leaf) : Bool :=
  let res := leafRes l.word
  let aligned := leafPa l.word % 2 ^ (pageBits l.level - 16) = 0
  l.level ≠ 1 && bitsOf l.word 15 14 = 0 && (l.word.testBit 5 == va.testBit 56) && res ≠ 3 && aligned &&
  (res ≠ 0 || leafPa l.word / 2 ^ 27 = 0) && (res ≠ 1 || (s.farEntry (bitsOf l.word 51 44)).testBit 0)

/-- The walk from a table on, with the non-leaf entries it passes: the leaf, or the fault code 0x08 or 0x09. The address of a table
word is taken whole, bits [51:43] included. (DESIGN CHOICE, log 71) -/
def State.walk (s : State) (part tag va : Nat) : Nat → Nat → Nat → Except Nat Leaf × List WalkEntry
  | 0, _, _ => (.error 0x09, [])
  | n + 1, level, table =>
    let a := table + 8 * (va / 2 ^ pageBits level % 1024)
    let e := s.tableWord a
    if !e.testBit 0 then (.error (if level = 4 then 0x08 else 0x09), [])
    else if !e.testBit 1 then
      if level = 4 || bitsOf e 12 2 ≠ 0 || bitsOf e 63 52 ≠ 0 then (.error 0x09, [])
      else
        let r := s.walk part tag va n (level + 1) (tableBase e)
        (r.1, ⟨part, tag, level, va % 2 ^ 56 / 2 ^ pageBits level, tableBase e⟩ :: r.2)
    else
      let l : Leaf := ⟨a, e, level⟩
      (if s.leafOk va l then .ok l else .error 0x09, [])

/-- The sectors that the walk reads. -/
def State.walkReads (s : State) (va : Nat) : Nat → Nat → Nat → List Nat
  | 0, _, _ => []
  | n + 1, level, table =>
    let a := table + 8 * (va / 2 ^ pageBits level % 1024)
    let e := s.tableWord a
    a / 32 :: if e.testBit 0 && !e.testBit 1 && level ≠ 4 then s.walkReads va n (level + 1) (tableBase e)
      else if e.testBit 0 && e.testBit 1 && leafRes e = 1 then [s.farSlot (bitsOf e 51 44) / 32] else []

/-- The entry of the ASID table for an ASID. -/
def State.asidSlot (s : State) (asid : Nat) : Nat := tableBase s.asidt.toNat + 8 * asid

/-- The root table of a tag, none where the ASID or the global table is not valid (R221). -/
def State.root (s : State) (tag : Nat) : Option Nat :=
  if tag = globalTag then
    (if s.groot.getLsbD 0 then some (tableBase s.groot.toNat) else none)
  else
    let e := s.tableWord (s.asidSlot tag)
    if e.testBit 0 && bitsOf e 12 1 = 0 && bitsOf e 63 52 = 0 then some (tableBase e) else none

/-- Where the walk of an address begins: at the deepest entry of the walk cache that serves it (R226), or at the root. Levels left,
the level, the table. -/
def State.walkStart (s : State) (part tag va : Nat) : Option (Nat × Nat × Nat) :=
  let cached (level : Nat) : Option WalkEntry :=
    s.walks.find? fun w => w.part = part && w.tag = tag && w.level = level && w.path = va % 2 ^ 56 / 2 ^ pageBits level
  match cached 3, cached 2, cached 1 with
  | some w, _, _ => some (1, 4, w.table)
  | none, some w, _ => some (2, 3, w.table)
  | none, none, some w => some (3, 2, w.table)
  | none, none, none => (s.root tag).map fun t => (4, 1, t)

def State.walkAll (s : State) (part tag va : Nat) : Except Nat Leaf × List WalkEntry :=
  match s.walkStart part tag va with
  | some q => s.walk part tag va q.1 q.2.1 q.2.2
  | none => (.error 0x09, [])

/-- The sectors of the tables that the walk of an address reads. -/
def State.walkSectors (s : State) (part tag va : Nat) : List Nat :=
  let root : List Nat := if tag = globalTag then [] else [s.asidSlot tag / 32]
  match s.walkStart part tag va with
  | some q => (if q.2.1 = 1 then root else []) ++ s.walkReads va q.1 q.2.1 q.2.2
  | none => root

/-- The TLB entry of a partition that translates an address. -/
def State.tlbHit (s : State) (part tag va : Nat) : Option TlbEntry :=
  s.tlb.find? fun e => e.part = part && e.tag = tag && e.page = va / 2 ^ pageBits e.level

/-- A cache of at most n entries for a partition takes one more; the partition's oldest leaves a full one.
(DESIGN CHOICE, log 27) -/
def keepNewest {α : Type} (mine : α → Bool) (n : Nat) (l : List α) (x : α) : List α :=
  (if (l.filter mine).length < n then l else l.eraseP mine) ++ [x]

/-- What a walk leaves behind in the TLB and the walk cache; a leaf that is not present is not kept. (DESIGN CHOICE, log 90) -/
def State.noteWalk (s : State) (part tag va : Nat) (r : Except Nat Leaf × List WalkEntry) : State :=
  let fresh := r.2.filter fun w => !s.walks.contains w
  let s := { s with walks := fresh.foldl (keepNewest (fun w => w.part = part) Config.walkEntries) s.walks }
  match r.1 with
  | .ok l => if leafRes l.word = 2 then s else
      let e : TlbEntry := ⟨part, tag, va / 2 ^ pageBits l.level, l.level, l.addr, BitVec.ofNat 64 l.word⟩
      { s with tlb := keepNewest (fun e => e.part = part) Config.tlbEntries s.tlb e }
  | .error _ => s

/-- The translation of a byte at its home partition. -/
def State.translate (s : State) (key : Nat) : Except Nat Leaf × State :=
  let va := keyVa key
  let part := homeOf va
  let tag := keyTag key
  match s.tlbHit part tag va with
  | some e => (.ok ⟨e.leafAddr, e.leaf.toNat, e.level⟩, s)
  | none =>
    let r := s.walkAll part tag va
    (r.1, (s.countReads (s.walkSectors part tag va)).noteWalk part tag va r)

/-! ## Lines -/

/-- The range of a maintenance command holds the byte (R234). -/
def rangeHas (r : PageRange) (key : Nat) : Bool :=
  keyTag key = (if r.glb then globalTag else r.asid) && r.va ≤ keyVa key && keyVa key < r.va + r.len

def State.isBlocked (s : State) (key : Nat) : Bool := s.blocked.any fun r => rangeHas r key

/-- A line with its data and tags, out of a leaf (R218); a hint .st marks it first to leave its set (R220). -/
def lineFrom (l : Leaf) (data : BitVec 512) (tags : BitVec 32) (poison : BitVec 2) (fill : FillAddr) (hint : Nat) : Line :=
  { data := data, tags := tags, rp := l.word.testBit 2, wp := l.word.testBit 3, xp := l.word.testBit 4, dt := l.word.testBit 6,
    dirty := false, poison := poison, fill := fill, leaf := l.addr, first := hint = 1 }

/-- The physical address of a byte of a local page. -/
def localPa (l : Leaf) (va : Nat) : Nat := leafPa l.word * 2 ^ 16 + va % 2 ^ pageBits l.level

/-- The line that holds the byte is filled from its module. -/
def State.fillLocal (s : State) (key : Nat) (l : Leaf) (hint : Nat := 0) : State :=
  let pa := localPa l (keyVa key) / lineBytes * lineBytes
  let x := lineFrom l (BitVec.ofNat 512 (s.dram.readNat pa lineBytes)) (s.storedTag (pa / 32 + 1) ++ s.storedTag (pa / 32))
    (poisonBits s pa) (.local pa) hint
  let s := (s.countRead (pa / 32)).countRead (pa / 32 + 1)
  { s with lines := s.lines.set (key / lineBytes) x }

/-- A heat update of the leaf is sent (R230). -/
def State.sendHeat (s : State) (key kind : Nat) (l : Leaf) : State :=
  let tag := keyTag key
  { s with heat := s.heat ++ [{ part := homeOf (keyVa key), leafAddr := l.addr, write := kind = 1 || kind = 3, tag := tag % globalTag,
                                glb := tag = globalTag, size := 4 - l.level,
                                va := keyVa key / 2 ^ pageBits l.level * 2 ^ pageBits l.level }] }

/-- A transport read under way serves the line. -/
def FarRead.serves (r : FarRead) (line : Nat) : Bool := r.line = line && !r.stale

/-- A transport read of the line is started, unless one is under way (R229); of a line of the host's memory the host is asked by a
message 0x0B (R472). (DEDUCED, log 55) -/
def State.askFar (s : State) (key : Nat) (l : Leaf) (hint : Nat := 0) : State :=
  let line := key / lineBytes
  if s.farReads.any fun r => r.serves line then
    { s with farReads := s.farReads.map fun r => if r.serves line then { r with first := r.first || hint = 1 } else r }
  else
  let i := bitsOf l.word 51 44
  let e := s.farEntry i
  let s := s.countReads [s.farSlot i / 32]
  let a := farAddr e l (keyVa key) / lineBytes * lineBytes
  let r : FarRead :=
    { line := line, index := i, addr := a, dest := farDest e, leafAddr := l.addr, leaf := BitVec.ofNat 64 l.word, waiters := [],
      fetches := [], cmds := [], first := hint = 1, level := l.level, since := s.cycle }
  let s : State := { s with farReads := s.farReads ++ [r] }
  match farDest e with
  | .host => s.post 0 fun n => .hostLine n i a
  | .peer _ => { s with out := s.out ++ [.farRequest i a] }

/-- One more joins those who wait for the read of a line; its access is counted at the fill (R230). new tells that it is not
among them, join adds it. -/
def State.joinRead (s : State) (key kind : Nat) (new : FarRead → Bool) (join : FarRead → FarRead) : State :=
  { s with farReads := s.farReads.map fun r =>
      if r.serves (key / lineBytes) && new r then { join r with heat := r.heat ++ [(key, kind)] } else r }

/-! ## Write-back (R218, R234, R235, R463) -/

/-- Poison of the two sectors at a physical line address, as it is stored (R461). -/
def storePoison (set : List Nat) (pa : Nat) (p : BitVec 2) : List Nat :=
  let one (set : List Nat) (n : Nat) (b : Bool) : List Nat := if b then insertNat n set else set.filter (· ≠ n)
  one (one set (pa / 32) (p.getLsbD 0)) (pa / 32 + 1) (p.getLsbD 1)

/-- The tag of sector i of a line, and the tag that its bytes have. -/
def Line.tag (l : Line) (i : Nat) : BitVec 16 := (l.tags >>> (16 * i)).setWidth 16
def Line.trueTag (l : Line) (i : Nat) : BitVec 16 := sectorTag (l.data.toNat / 2 ^ (256 * i) % 2 ^ 256)

/-- The stored tags of a line, listed where they are not the tag of their bytes. -/
def storeTags (m : FMap (BitVec 16)) (pa : Nat) (l : Line) : FMap (BitVec 16) :=
  [0, 1].foldl (fun (m : FMap (BitVec 16)) i => if l.tag i = l.trueTag i then m.erase (pa / 32 + i) else m.set (pa / 32 + i) (l.tag i)) m

/-- A line is written to its module: its sectors are stored anew. -/
def State.storeLine (s : State) (pa : Nat) (l : Line) : State :=
  { s with dram := s.dram.writeNat pa lineBytes l.data.toNat, poisoned := storePoison s.poisoned pa l.poison,
           tags := storeTags s.tags pa l, flips := (s.flips.erase (pa / 32)).erase (pa / 32 + 1) }

/-- Every sector of a line whose tag mismatches is counted at the partition (R463). -/
def State.countTags (s : State) (part : Nat) (l : Line) : State :=
  [0, 1].foldl (fun (s : State) i => if l.tag i = l.trueTag i then s else s.countEcc part 32) s

/-- A dirty line is written to the address recorded at its fill; it stays, clean. A far line leaves the device with its tags, which
are checked at egress. -/
def State.writeBack (s : State) (line : Nat) : State :=
  match s.lines.find line with
  | some l =>
    if !l.dirty then s else
    let s := { s with lines := s.lines.set line { l with dirty := false } }
    match l.fill with
    | .local pa => s.storeLine pa l
    | .far i a d =>
      let s := s.countTags (homeOf (keyVa (line * lineBytes))) l
      { s with farWrites := s.farWrites ++ [⟨line, d, i, a, l.data, l.tags, l.poison, s.cycle⟩], out := s.out ++ [.farWrite i a l.data l.tags l.poison] }
  | none => s

/-! ## Room in the LLC (R217) -/

/-- The line's partition, and its set in the slice. -/
def sliceSet (line : Nat) : Nat × Nat := (homeOf (keyVa (line * lineBytes)), Config.cacheSet Config.llcSets line % Config.llcSets)

/-- The lines of the set in which a line falls. -/
def State.setLines (s : State) (line : Nat) : List (Nat × Line) :=
  if s.lines.length < Config.cacheWays then [] else s.lines.filter fun e => sliceSet e.1 = sliceSet line

/-- The line that leaves a full set: one marked first, else a free choice (R220). -/
def victimOf {α : Type} (l : List (Nat × α)) (first : α → Bool) (n : Nat) : Nat :=
  match l.find? fun e => first e.2 with
  | some e => e.1
  | none => ((l.drop (Config.cacheVictim n % l.length)).map (·.1)).headD 0

/-- Room for a line in its set: a line leaves a full one, written back first. A dirty far line goes only when its write-back is
acknowledged. -/
def State.makeRoom (s : State) (line : Nat) : Bool × State :=
  let set := s.setLines line
  if set.length < Config.cacheWays then (true, s)
  else
    let v := victimOf set (·.first) s.freeCtr
    let s := s.bumpFree.writeBack v
    if s.farWrites.any fun w => w.line = v then (false, s) else (true, { s with lines := s.lines.erase v })

/-! ## Verdicts (R227) -/

/-- What an access learns at home. -/
inductive Verdict where
  | permitted
  | fault (code : Nat)
  /-- a transport read must end first, or the range is blocked -/
  | wait
  deriving DecidableEq, Repr

/-- THE VERDICT of an access at the home partition (R227), with the fill of its line under its cache hint. -/
def State.verdict (s : State) (key kind : Nat) (hint : Nat := 0) : Verdict × State :=
  match s.lines.find (key / lineBytes) with
  | some l => (if l.grants kind then .permitted else .fault 0x0A, s)
  | none =>
    if s.isBlocked key then (.wait, s)
    else match s.translate key with
      | (.error c, s) => (.fault c, s)
      | (.ok l, s) =>
        if leafRes l.word = 2 then (.fault 0x08, s)
        else if !leafGrants l.word kind then (.fault 0x0A, s)
        else if leafRes l.word = 0 then match s.makeRoom (key / lineBytes) with
          | (true, s) => (.permitted, (s.fillLocal key l hint).sendHeat key kind l)
          | (false, s) => (.wait, s)
        else (.wait, s.askFar key l hint)

/-- A message whose access has its verdict needs its line: whether the line is there (R483). It never faults. -/
def State.ensureLine (s : State) (lane : LaneId) (key kind : Nat) (hint : Nat := 0) : Bool × State :=
  match s.lines.find (key / lineBytes) with
  | some _ => (true, s)
  | none =>
    if s.isBlocked key then (false, s)
    else match s.translate key with
      | (.error _, s) => (false, s)
      | (.ok l, s) =>
        if leafRes l.word = 0 then match s.makeRoom (key / lineBytes) with
          | (true, s) => (true, (s.fillLocal key l hint).sendHeat key kind l)
          | (false, s) => (false, s)
        else if leafRes l.word = 1 then
          (false, (s.askFar key l hint).joinRead key kind (fun r => !r.heads.contains lane) fun r => { r with heads := r.heads ++ [lane] })
        else (false, s)

/-! ## Words of a line -/

def Line.word (l : Line) (i : Nat) : Word := (l.data >>> (32 * i)).setWidth 32

/-- A word of the line written, with a new tag of its sector (R274, R462). -/
def Line.setWord (l : Line) (i : Nat) (w : Word) : Line :=
  let l := { l with data := (l.data &&& ~~~(0xFFFFFFFF#512 <<< (32 * i))) ||| ((w.setWidth 512) <<< (32 * i)), dirty := true }
  { l with tags := (l.tags &&& ~~~(0xFFFF#32 <<< (16 * (i / 8)))) ||| ((l.trueTag (i / 8)).setWidth 32 <<< (16 * (i / 8))) }

def emptyLine : Line :=
  { data := 0, tags := lineTags 0, rp := false, wp := false, xp := false, dt := false, dirty := false, poison := 0, fill := .local 0, leaf := 0,
    first := false }

/-- The line of a word key. -/
def State.lineOfWord (s : State) (w : Nat) : Line := (s.lines.find (w / 16)).getD emptyLine

/-- H(w).value, by word key. -/
def State.homeWord (s : State) (w : Nat) : Word := (s.lineOfWord w).word (w % 16)

/-- The 64-bit value of two words. -/
def State.homeWide (s : State) (w : Nat) : Dword := s.homeWord (w + 1) ++ s.homeWord w

/-- Bytes under the mask replaced (R33). -/
def mergeBytes (old new : Word) (mask : BitVec 4) : Word :=
  let m (i : Nat) : Word := if mask.getLsbD i then 0xFF#32 <<< (8 * i) else 0
  let all := m 0 ||| m 1 ||| m 2 ||| m 3
  (old &&& ~~~all) ||| (new &&& all)

/-- H(w).value := v; a line whose DT copy is 0 first sets DT in the leaf (R218). -/
def State.setHome (s : State) (w : Nat) (v : Word) : State :=
  let l := s.lineOfWord w
  let s := if l.dt then s else s.writeTable l.leaf (s.tableWord l.leaf ||| 2 ^ 6)
  { s with lines := s.lines.set (w / 16) { l.setWord (w % 16) v with dt := true }, stamp := s.stamp + 1 }

/-- What sector i of a line tells of its bytes (R274, R461). -/
def Line.taint (l : Line) (i : Nat) : Taint :=
  if l.poison.getLsbD i then .poison else if l.tag i = l.trueTag i then .clean else .tag

/-- What the sector of a word tells. -/
def State.taint (s : State) (w : Nat) : Taint := (s.lineOfWord w).taint (w % 16 / 8)

/-- A poisoned sector holds the word, or one whose tag mismatches (R274). -/
def State.badWord (s : State) (w : Nat) : Bool := s.taint w ≠ .clean

/-- The DETAIL of TRIG 2 for a sector with an error: 0 DRAM, 1 tag (R447). -/
def Taint.detail (x : Taint) : Nat := if x = .tag then 1 else 0

/-- A mismatch found in a word's sector is counted at its partition (R463, R465). -/
def State.countTaint (s : State) (w : Nat) (x : Taint) : State := if x = .tag then s.countEcc (homeOf (keyVa (4 * w))) 32 else s

/-- A write of a whole sector makes a new tag: the sector is poisoned no more (R274, R461). -/
def State.clearPoison (s : State) (w : Nat) : State :=
  { s with lines := s.lines.adjust (w / 16) fun l => { l with poison := l.poison &&& ~~~(1#2 <<< (w % 16 / 8)) } }

/-! ## Ranges of virtual memory, as engines, ports and management read them at home (R20, R249) -/

/-- The line-aligned addresses of a range, as far as they differ from address to address. -/
def lineAddrs (va n : Nat) : List Nat :=
  if n = 0 then [] else (List.range ((va + n - 1) / lineBytes + 1 - va / lineBytes)).map fun i => max va ((va / lineBytes + i) * lineBytes)

/-- A page that is not present is left to Tsunath's service; its accesses wait (R147, R321). -/
def State.noteAbsent (s : State) (key : Nat) : State :=
  if s.absent.contains key then s else { s with absent := s.absent ++ [key] }

/-- The verdict of a range: the lowest address that fails with a fault other than not present; waiting while a line is not
there. -/
def State.touchLines (s : State) (asid kind : Nat) : List Nat → Option (Nat × Nat) × Bool × State
  | [] => (none, true, s)
  | a :: r =>
    if a / 2 ^ 57 ≠ 0 then (some (0x09, a), false, s)
    else match s.verdict (byteKey asid a) kind with
      | (.permitted, s) => s.touchLines asid kind r
      | (.fault c, s) =>
        if c = 0x08 then (none, false, ((s.noteAbsent (byteKey asid a)).touchLines asid kind r).2.2)
        else (some (c, a), false, s)
      | (.wait, s) => (none, false, (s.touchLines asid kind r).2.2)

/-- A range's verdict: none and true when every line is there and grants the access; none and false while some line is not there;
the fault code and lowest failing address otherwise. -/
def State.touch (s : State) (asid va n kind : Nat) : Option (Nat × Nat) × Bool × State := s.touchLines asid kind (lineAddrs va n)

/-- A byte at home, by byte key. -/
def State.homeByte (s : State) (key : Nat) : Byte := ((s.homeWord (key / 4)) >>> (8 * (key % 4))).setWidth 8

def State.homeBytes (s : State) (asid va : Nat) : Nat → List Byte
  | 0 => []
  | n + 1 => s.homeByte (byteKey asid va) :: s.homeBytes asid (va + 1) n

/-- A little-endian number at home. -/
def State.homeNat (s : State) (asid va n : Nat) : Nat := leNat (s.homeBytes asid va n)

end Sys2Proof.Machine
end

