-- ==== Sys2Proof/Machine/Home.lean ====
section
/-!
DEFINITION. The steps of the store buffer, the load queue, the fabric and the homes (spec/02_ordering_machine.md R32 to R36,
spec/11_memory_model.md R237 to R248, spec/12_memory_instructions.md R272 to R274).
-/
namespace Sys2Proof.Machine

/-! ## The fabric (R28, R29, R34) -/

def pushLane (l : List Lane) (id : LaneId) (m : Msg) : List Lane :=
  if l.any fun x => x.id = id then l.map fun x => if x.id = id then { x with msgs := x.msgs ++ [m] } else x
  else l ++ [⟨id, [m]⟩]

/-- A message is appended to a fabric lane. -/
def State.push (s : State) (id : LaneId) (m : Msg) : State := { s with lanes := pushLane s.lanes id m }

/-- The head of a lane. -/
def State.head (s : State) (id : LaneId) : Option Msg :=
  match s.lanes.find? fun x => x.id = id with
  | some l => l.msgs.head?
  | none => none

/-- The head leaves its lane; an empty lane is not listed. -/
def State.pop (s : State) (id : LaneId) : State :=
  { s with lanes := (s.lanes.map fun x => if x.id = id then { x with msgs := x.msgs.tail } else x).filter fun x => !x.msgs.isEmpty }

/-- The lane in which an answer goes back. -/
def LaneBack (id : LaneId) : LaneId := ⟨id.dst, id.src, id.hash⟩

/-- The lane of a message about a word of memory. -/
def homeLane (src : Endpoint) (w : Nat) : LaneId := ⟨src, .part (homeOf (keyVa (4 * w))), laneHash (keyVa (4 * w))⟩

/-! ## Views (R33, R36, R237) -/

/-- A core's copy of a word is owned no more. -/
def Core.disown (k : Core) (w : Nat) : Core := { k with v1 := k.v1.adjust w fun v => { v with owned := false } }

/-- The previous owner of a word, if it is not the core named, loses it. -/
def State.disown (s : State) (w : Nat) (keep : Option Nat) : State :=
  match s.owners.find w with
  | some o => if keep = some o then s else s.updCore o fun k => k.disown w
  | none => s

/-- SelfInvalidate(c) (R32). -/
def State.selfInvalidate (s : State) (c : Nat) : State :=
  (s.updCore c fun k => { k with v1 := k.v1.filter fun e => e.2.owned, e1 := k.e1 + 1 }).updCluster (clusterOf c) fun q =>
    { q with v2 := [], e2 := q.e2 + 1 }

/-! ## The caches behind the views (R217, R220) -/

/-- The lines of a view in the set of a line: each with its mark. -/
def viewSet (sets line : Nat) (v : FMap ViewWord) : List (Nat × Bool) :=
  let mine := v.filter fun e => Config.cacheSet sets (e.1 / 16) % sets = Config.cacheSet sets line % sets
  (mine.foldl (fun (m : FMap Bool) e => m.set (e.1 / 16) e.2.first) [])

/-- A word's copy enters a view: into its line, or into one more of its set; a full set loses a line (R217). With the hint .ll a
line is only brought up to date (R220). -/
def viewPut (sets n hint : Nat) (v : FMap ViewWord) (w : Nat) (x : ViewWord) : FMap ViewWord :=
  if (v.find w).isSome then v.set w x
  else if hint = 2 then v
  else if v.length < Config.cacheWays || v.any (fun e => e.1 / 16 = w / 16) then v.set w x
  else
    let set := viewSet sets (w / 16) v
    if set.length < Config.cacheWays then v.set w x
    else FMap.set (v.filter fun e => e.1 / 16 ≠ victimOf set id n) w x

/-! ## Containment by a consumed error (R274, R446) -/

/-- A gang has a trigger that awaits its kill (R446). -/
def State.containing (s : State) (lid gang : Nat) : Bool := s.contain.any fun c => c.lid = lid && c.gang = gang

/-- A trigger befalls a gang; one that awaits its kill takes no second one (R453). -/
def State.contained (s : State) (lid gang : Nat) (t : TriggerReq) : State :=
  if s.containing lid gang then s else { s with contain := s.contain ++ [⟨lid, gang, t, s.cycle⟩] }

/-- TRIG codes that count against a core (R449). -/
def tripCode (n : Nat) : Bool := n = 1 || n = 3 || n = 6

/-- A core has raised a trigger: it counts once, also where it befalls several gangs (R449). -/
def State.trip (s : State) (t : TriggerReq) : State :=
  if tripCode t.trig then { s with trips := FMap.put 0 s.trips t.core (FMap.get 0 s.trips t.core + 1) } else s

/-- A trigger of the gang of a crew. -/
def State.raise (s : State) (core crew trig detail : Nat) (addr : Dword) : State :=
  let c := (s.core core).crew crew
  let t : TriggerReq := ⟨trig, detail, core, addr⟩
  if s.containing c.lid c.gang then s else (s.contained c.lid c.gang t).trip t

/-- TRIG 2 of R446, for bytes of a sector of memory with an error, charged to a crew. -/
def State.consumeWord (s : State) (core crew w : Nat) (x : Taint) : State :=
  s.raise core crew 2 x.detail (BitVec.ofNat 64 (keyVa (4 * w)))

/-- TRIG 2 for an SRAM word with a double-bit error (R464); addr is its scratch address, or 0. -/
def State.consumeSram (s : State) (core crew : Nat) (addr : Dword) : State := s.raise core crew 2 2 addr

/-! ## What holds a load back (R237, R239, R244) -/

/-- An older atomic of the thread holds the load back: it names the word (R239), or it is an acquire (R237). -/
def atomicHolds (q a : LqEntry) : Bool :=
  a.atomic && a.slot = q.slot && decide (a.id < q.id) &&
    (a.acquire || (q.space = .global && q.parts.any fun p => a.parts.any fun b => b.word = p.word))

def heldByAtomic (k : Core) (q : LqEntry) : Bool := k.lq.any (atomicHolds q)

/-- An older evwait of the thread has not taken its record: its acquire comes with the Take (R202, R237). (DEDUCED, log 77) -/
def heldByEvent (k : Core) (q : LqEntry) : Bool := (k.crewAt q.slot).evReqs.any fun r => r.slot = q.slot && decide (r.result < q.id)

/-- An older load of the thread, from before an acquire that lies between the two, names the word too: the load may read no
earlier value than that one (R244). -/
def heldByElder (k : Core) (q : LqEntry) : Bool :=
  k.lq.any fun a => !a.atomic && a.slot = q.slot && decide (a.id < q.id) && decide (a.acq < q.acq) && a.space = q.space &&
    q.parts.any fun p => a.parts.any fun b => b.word = p.word

/-- Satisfy is not enabled for the load. -/
def heldBack (k : Core) (q : LqEntry) : Bool := heldByAtomic k q || heldByEvent k q || heldByElder k q

/-- The load waits for an atomic that DET holds back until the next generation drains. -/
def waitsLong (k : Core) (q : LqEntry) : Bool := k.lq.any fun a => atomicHolds q a && k.dab.any fun d => d.load = some a.id

/-- The loads of the thread that were issued before the number n have their bytes, but for those that wait for a drain.
(DEDUCED, log 77) -/
def Core.loadsBefore (k : Core) (slot n : Nat) : Bool :=
  k.lq.all fun q => q.atomic || q.slot ≠ slot || decide (n ≤ q.id) || waitsLong k q

/-- The loads of the thread have their bytes: what a release or an acquire at issue waits for (R42, R244, R245, R258, R259).
(DEDUCED, log 77) -/
def Core.loadsDone (k : Core) (slot : Nat) : Bool := k.lq.all fun q => q.atomic || q.slot ≠ slot || waitsLong k q

/-- The thread is drained and its loads have their bytes: the condition of a release. -/
def Core.released (k : Core) (slot : Nat) : Bool := k.drained slot && k.loadsDone slot

/-- The threads have passed an acquire: SelfInvalidate of their core, and their later loads count from here (R237). -/
def State.acquire (s : State) (c : Nat) (slots : List Nat) : State :=
  (s.selfInvalidate c).updCore c fun k => k.mapThreads slots fun _ t => { t with acquires := t.acquires + 1 }

/-- The least stamp of an unowned copy of a word that the thread takes in an epoch. -/
def floorOf (m : FMap (Word × Nat)) (e1 : Word) (w : Nat) : Nat :=
  match m.find w with
  | some x => if x.1 = e1 then x.2 else 0
  | none => 0

def Thread.floor (t : Thread) (e1 : Word) (w : Nat) : Nat := floorOf t.fresh e1 w

/-- From here on, until the next SelfInvalidate, the thread takes these words from no unowned copy of a home value older than the one
named with each: than its own write, or than what it has read (R239, R244, R245). (DEDUCED, log 77) -/
def Core.refresh (k : Core) (slot : Nat) (words : List (Nat × Nat)) : Core :=
  let put (m : FMap (Word × Nat)) (x : Nat × Nat) : FMap (Word × Nat) := m.set x.1 (k.e1, max x.2 (floorOf m k.e1 x.1))
  k.updThread slot fun t => { t with fresh := words.foldl put (t.fresh.filter fun e => e.2.1 = k.e1) }

/-! ## The store buffer: Send and WriteScratch (R32, R237) -/

/-- The entry with its elders, oldest first. -/
def sobSplit (id : Nat) : List SobEntry → Option (List SobEntry × SobEntry)
  | [] => none
  | e :: r => if e.id = id then some ([], e) else (sobSplit id r).map fun q => (e :: q.1, q.2)

def sharesThread (a b : SobEntry) : Bool := a.slots.any b.slots.contains

/-- Entries that leave for a home. -/
def isGlobal (k : SobKind) : Bool := match k with | .global | .atomic _ _ _ _ _ | .reduction _ _ _ _ => true | _ => false

/-- A release atomic that has not been sent holds back its thread's younger entries; it waits itself for every older one. -/
def heldByRelease (elders : List SobEntry) (x : SobEntry) : Bool :=
  elders.any fun e => sharesThread e x && (x.release || (e.release && !e.sent))

/-- Whether Send(x) is enabled in the buffer. -/
def canSend (elders : List SobEntry) (x : SobEntry) : Bool :=
  isGlobal x.kind && !x.sent && !heldByRelease elders x &&
  !elders.any fun e => isGlobal e.kind && !e.sent && e.word / 16 = x.word / 16

/-- The message of an entry. -/
def entryMsg (core : Nat) (x : SobEntry) : Msg :=
  match x.kind with
  | .atomic min sub operand other load => .atomic core x.id load min sub x.hint x.word operand other
  | .reduction min sub operand half => .reduce core x.id none min sub x.hint x.word operand half
  | _ => .register (some core) core x.id none x.hint x.word x.mask x.data

def Core.markSent (k : Core) (id : Nat) : Core := { k with sob := k.sob.map fun e => if e.id = id then { e with sent := true } else e }

def Core.dropEntry (k : Core) (id : Nat) : Core := { k with sob := k.sob.filter fun e => e.id ≠ id }

/-- The number from which on the loads of its thread are younger than an entry: an atomic's is that of its own result, which a drain
leaves as it is. -/
def SobEntry.issued (x : SobEntry) : Nat := match x.kind with | .atomic _ _ _ _ load => load | _ => x.id

/-- The Send of a release atomic waits for the older loads of its thread too (R245). -/
def Core.loadsAllow (k : Core) (x : SobEntry) : Bool := !x.release || x.slots.all fun t => k.loadsBefore t x.issued

def execSend (core entry : Nat) (s : State) : Out :=
  match sobSplit entry (s.core core).sob with
  | some (elders, x) =>
    if canSend elders x && (s.core core).loadsAllow x then
      .next ((s.updCore core fun k => k.markSent entry).push (homeLane (.lse core) x.word) (entryMsg core x))
    else .next s
  | none => .next s

/-- Bytes of a word under a mask. -/
def maskedBytes (addr : Nat) (mask : BitVec 4) (data : Word) : List (Nat × Byte) :=
  (List.range 4).filterMap fun i => if mask.getLsbD i then some (addr + i, (data >>> (8 * i)).setWidth 8) else none

/-- Bytes are written to a scratchpad array; a word written whole has no error (R464). -/
def Core.storeScratch (k : Core) (l : List (Nat × Byte)) : Core :=
  { k with scratch := FMap.putAll 0 k.scratch l,
           badScratch := k.badScratch.filter fun w => !(List.range 4).all fun i => l.any fun e => e.1 = 4 * w + i }

/-- The core whose array a scratch access of a core names. -/
def SobKind.array (core : Nat) (k : SobKind) : Option Nat :=
  match k with
  | .scratch => some core
  | .window peer => some peer
  | _ => none

/-- The crew of a gang that is bound on a core. -/
def Core.gangCrew (k : Core) (lid gang : Nat) : Option Crew :=
  (k.crews.find? fun e => e.2.lid = lid && e.2.gang = gang).map (·.2)

/-- The hash lane of a gang-window access: by the offset within the target crew's allotment (R29). -/
def windowHash (peer : Core) (c : Crew) (addr : Nat) : Nat :=
  laneHash (addr - ((peer.gangCrew c.lid c.gang).map (·.sbase)).getD 0)

/-- Whether WriteScratch(x) is enabled: no older entry names the word in the same array, own or through the window (R32, R266). -/
def canWriteScratch (core : Nat) (elders : List SobEntry) (x : SobEntry) : Bool :=
  !isGlobal x.kind && !x.sent && !heldByRelease elders x &&
  !elders.any fun e => e.kind.array core = x.kind.array core && e.word = x.word

def execWriteScratch (core entry : Nat) (s : State) : Out :=
  match sobSplit entry (s.core core).sob with
  | some (elders, x) =>
    if canWriteScratch core elders x then
      match x.kind with
      | .scratch => .next (s.updCore core fun k => (k.storeScratch (maskedBytes (4 * x.word) x.mask x.data)).dropEntry entry)
      | .window peer =>
        let hash := windowHash (s.core peer) ((s.core core).crewAt (x.slots.headD 0)) (4 * x.word)
        .next ((s.updCore core fun k => k.markSent entry).push ⟨.lse core, .lse peer, hash⟩ (.window core entry none (4 * x.word) x.mask x.data))
      | _ => .next s
    else .next s
  | none => .next s

/-! ## Deliver at the homes (R33, R35, R240) -/

/-- The value is registered at home for an owner (R33). Under the hint .ll the owner's L1 takes no line for it (R220). -/
def State.register (s : State) (owner : Option Nat) (w : Nat) (mask : BitVec 4) (data : Word) (hint : Nat := 0) : State :=
  let s := s.disown w owner
  let v := mergeBytes (s.homeWord w) data mask
  let s := s.setHome w v
  match owner with
  | some c =>
    let l := s.lineOfWord w
    ({ s with owners := s.owners.set w c }).updCore c fun k =>
      { k with v1 := viewPut Config.l1Sets s.freeCtr hint k.v1 w ⟨v, true, l.rp, l.wp, l.xp, .clean, hint = 1, s.stamp⟩ }
  | none => { s with owners := s.owners.erase w }

/-- A whole sector is registered in one step: a new tag is made and the old one is not checked (R274, R461). -/
def State.registerSector (s : State) (owner : Option Nat) (w : Nat) (data : BitVec 256) : State :=
  (List.range 8).foldl (fun s i => s.register owner (w + i) 0xF ((data >>> (32 * i)).setWidth 32)) (s.clearPoison w)

/-- The crews of some threads, each once. -/
def Core.crewsOf (k : Core) (slots : List Nat) : List Nat := (slots.map k.crewOf).foldr insertNat []

/-- An engine command finds an error in a sector of memory: the first time it is counted, and charged to its crew (R446, R463). -/
def State.consumeCmd (s : State) (e : EngineId) (id w : Nat) (x : Taint) : State :=
  let mark (c : Cmd) : Cmd := if c.id = id then { c with work := { c.work with bad := insertNat (w / 8) c.work.bad } } else c
  match (s.engine e).queue.find? fun c => c.id = id with
  | some c =>
    if c.work.bad.contains (w / 8) then s
    else ((s.countTaint w x).consumeWord c.core c.crew w x).setEngine e { s.engine e with queue := (s.engine e).queue.map mark }
  | none => s

/-- A home step finds an error in its sector: it is counted, and charged to the issuers of the message (R446, R463). -/
def State.consumeAt (s : State) (core entry w : Nat) (cmd : Option (EngineId × Nat)) (x : Taint) : State :=
  match cmd with
  | some (e, id) => s.consumeCmd e id w x
  | none => match (s.core core).sob.find? fun e => e.id = entry with
    | some e => ((s.core core).crewsOf e.slots).foldl (fun s b => s.consumeWord core b w x) (s.countTaint w x)
    | none => s.countTaint w x

/-- A thread's entry has taken its step at home: it keeps the stamp. -/
def State.markHome (s : State) (core entry : Nat) (cmd : Option (EngineId × Nat)) : State :=
  if cmd.isSome then s
  else s.updCore core fun k => { k with sob := k.sob.map fun e => if e.id = entry then { e with stamp := s.stamp } else e }

/-- A register message at the head of a lane. It waits while its line is not there (R483). A write of a whole sector does not
check the old tag (R274). -/
def execRegister (lane : LaneId) (s : State) : Out :=
  match s.head lane with
  | some (.register owner core entry cmd hint w mask data) =>
    match s.ensureLine lane (4 * w) 1 hint with
    | (false, s) => .next s
    | (true, s) =>
      let s := s.pop lane
      let s := if s.badWord w then s.consumeAt core entry w cmd (s.taint w) else (s.register owner w mask data hint).markHome core entry cmd
      .next (s.push (LaneBack lane) (.ack core entry cmd))
  | some (.sector owner core cmd w data) =>
    match s.ensureLine lane (4 * w) 1 with
    | (false, s) => .next s
    | (true, s) => .next (((s.pop lane).registerSector owner w data).push (LaneBack lane) (.ack core 0 cmd))
  | _ => .next s

/-- Width and signedness by MIN (R270). -/
def atomWidth (min : Nat) : Nat := if min < 2 then 32 else 64
def atomSigned (min : Nat) : Bool := min % 2 = 0

/-- AtomicOp (R272): the new value, and whether the predicate is to be true. -/
def atomicOp (min sub old operand other : Nat) : Nat × Bool :=
  let w := atomWidth min
  let i (x : Nat) : Int := toInt w (atomSigned min) x
  match sub with
  | 0 => ((old + operand) % 2 ^ w, false)
  | 1 => (if i old ≤ i operand then old else operand, false)
  | 2 => (if i old ≤ i operand then operand else old, false)
  | 3 => (old &&& operand, false)
  | 4 => (old ||| operand, false)
  | 5 => (old ^^^ operand, false)
  | 6 => (operand, false)
  | 7 => if old = operand then (other, true) else (old, false)
  | 8 => if i old < i operand then ((old + 1) % 2 ^ w, true) else (old, false)
  | _ => if i operand < i old then ((old + (2 ^ w - 1)) % 2 ^ w, true) else (old, false)

/-- The operator of a reduction (R273). -/
def reduceOp (min sub old operand : Nat) : Nat :=
  match sub with
  | 1 => if atomWidth min = 32 then addF f32 old operand else addF f64 old operand
  | 0 => (atomicOp min 0 old operand 0).1
  | n => (atomicOp min (n - 1) old operand 0).1

/-- The words that an atomic or reduction of a width covers. -/
def wordsOf (min w : Nat) : List Nat := if min < 2 then [w] else [w, w + 1]

/-- The value at home of the width of MIN. -/
def State.homeOld (s : State) (min w : Nat) : Nat := if min < 2 then (s.homeWord w).toNat else (s.homeWide w).toNat

/-- The home value replaced; the words are owned by nobody, and a previous owner loses them (R33, R240). -/
def State.setUnowned (s : State) (min w v : Nat) : State :=
  let x := BitVec.ofNat 64 v
  let s := (wordsOf min w).foldl (fun s u => s.disown u none) s
  let s := s.setHome w (x.setWidth 32)
  let s := if min < 2 then s else s.setHome (w + 1) ((x >>> 32).setWidth 32)
  { s with owners := (wordsOf min w).foldl (fun o u => o.erase u) s.owners }

def execAtomicAtHome (lane : LaneId) (s : State) : Out :=
  match s.head lane with
  | some (.atomic core entry load min sub hint w operand other) =>
    match s.ensureLine lane (4 * w) 3 hint with
    | (false, s) => .next s
    | (true, s) =>
      let s := s.pop lane
      if s.badWord w then .next ((s.consumeAt core entry w none (s.taint w)).push (LaneBack lane) (.ack core entry none))
      else
        let old := s.homeOld min w
        let r := atomicOp min sub old (operand.toNat % 2 ^ atomWidth min) (other.toNat % 2 ^ atomWidth min)
        .next (((s.setUnowned min w r.1).markHome core entry none).push (LaneBack lane) (.result core entry load (BitVec.ofNat 64 old) r.2 w))
  | _ => .next s

/-- A bf16 addition in one half of a word (R387). -/
def halfAdd (old operand : Nat) (high : Bool) : Nat :=
  if high then old % 2 ^ 16 + 2 ^ 16 * addF bf16 (old / 2 ^ 16 % 2 ^ 16) operand
  else old / 2 ^ 16 * 2 ^ 16 + addF bf16 (old % 2 ^ 16) operand

/-- A reduction message (R240): the operator at home, an acknowledgement back. -/
def execHomeReduction (lane : LaneId) (s : State) : Out :=
  match s.head lane with
  | some (.reduce core entry cmd min sub hint w operand half) =>
    match s.ensureLine lane (4 * w) 3 hint with
    | (false, s) => .next s
    | (true, s) =>
      let s := s.pop lane
      if s.badWord w then .next ((s.consumeAt core entry w cmd (s.taint w)).push (LaneBack lane) (.ack core entry cmd))
      else
        let old := s.homeOld min w
        let v := match half with
          | some h => halfAdd old (operand.toNat % 2 ^ 16) h
          | none => reduceOp min sub old (operand.toNat % 2 ^ atomWidth min)
        .next (((s.setUnowned min w v).markHome core entry cmd).push (LaneBack lane) (.ack core entry cmd))
  | _ => .next s

/-- A read request is answered with the home value (R35). -/
def execReadRequest (lane : LaneId) (s : State) : Out :=
  match s.head lane with
  | some (.readReq core load cmd hint w) =>
    match s.ensureLine lane (4 * w) 0 hint with
    | (false, s) => .next s
    | (true, s) =>
      let l := s.lineOfWord w
      .next ((s.pop lane).push (LaneBack lane) (.readResp core load cmd w (s.homeWord w) l.rp l.wp l.xp (s.taint w) s.stamp))
  | _ => .next s

/-! ## Loads (R35, R36, R242) -/

/-- The value of a load whose parts are known, extended by its type (R265). -/
def loadValue (q : LqEntry) : Dword :=
  let all := (q.parts.zipIdx.map fun e => e.1.data.toNat * 2 ^ (32 * e.2)).foldr (· + ·) 0
  let w := 8 * q.bytes
  let x := all / 2 ^ (8 * (q.addr % 4)) % 2 ^ w
  if q.signed && decide (w < 32) then BitVec.ofNat 64 (narrow 32 (toInt w true x)) else BitVec.ofNat 64 x

/-- A load all of whose bytes are known leaves the queue; its result awaits its return. -/
def Core.finishLoad (k : Core) (id : Nat) : Core :=
  match k.lq.find? fun q => q.id = id with
  | some q =>
    if !q.atomic && q.parts.all fun p => p.known = 0xF then
      let k := if q.space = .global && decide (q.acq < (k.thread q.slot).acquires) then
        k.refresh q.slot (q.parts.map fun p => (p.word, p.stamp)) else k
      { k with lq := k.lq.filter fun q => q.id ≠ id, results := k.results ++ [⟨id, q.slot, q.dsts, some (loadValue q), none⟩] }
    else k
  | none => k

/-- Unknown bytes of a part become known. -/
def LqPart.fill (p : LqPart) (mask : BitVec 4) (w : Word) : LqPart :=
  let fresh := mask &&& ~~~p.known
  { p with known := p.known ||| fresh, data := mergeBytes p.data w fresh }

/-- A part takes what it lacks of a copy of the home value with a stamp. -/
def LqPart.take (p : LqPart) (w : Word) (stamp : Nat) : LqPart := if p.known = 0xF then p else { p.fill 0xF w with stamp := stamp }

def LqEntry.fillPart (q : LqEntry) (w : Nat) (f : LqPart → LqPart) : LqEntry :=
  { q with parts := q.parts.map fun p => if p.word = w then f p else p }

def Core.updLoad (k : Core) (id : Nat) (f : LqEntry → LqEntry) : Core :=
  { k with lq := k.lq.map fun q => if q.id = id then f q else q }

/-- Entries of the thread that give it its own bytes of a word, youngest first (R35 source 1). -/
def ownBytes (core : Nat) (k : Core) (q : LqEntry) (p : LqPart) : LqPart :=
  let mine (e : SobEntry) : Bool := (e.kind = .global && q.space = .global) || (!isGlobal e.kind && e.kind.array core = q.space.array core)
  (k.sob.reverse.filter fun e => e.slots.contains q.slot && mine e && e.word = p.word).foldl (fun p e => p.fill e.mask e.data) p

/-- Bytes of the thread in the deterministic buffer of its crew (R252), youngest first. -/
def ownDet (k : Core) (q : LqEntry) (p : LqPart) : LqPart :=
  if q.space ≠ .global then p else
  let give (p : LqPart) (e : DsbEntry) : LqPart :=
    let b : Word := e.byte.setWidth 32
    p.fill (1#4 <<< (e.key % 4)) (b <<< (8 * (e.key % 4)))
  ((k.crewAt q.slot).dsb.reverse.filter fun e => e.tid = k.tid q.slot && e.key / 4 = p.word).foldl give p

/-- The copy that the sources 2 and 3 hold for a thread: a core view, then a cluster view. An unowned copy older than what the thread
has written or read does not serve it. -/
def State.viewFor (s : State) (core slot w : Nat) : Option ViewWord :=
  let k := s.core core
  let floor := (k.thread slot).floor k.e1 w
  match (k.v1.find w).filter fun v => v.owned || floor ≤ v.stamp with
  | some v => some v
  | none => ((s.cluster (clusterOf core)).v2.find w).filter fun v => floor ≤ v.stamp

/-- A part takes what the views hold. -/
def viewBytes (s : State) (core slot : Nat) (p : LqPart) : LqPart :=
  match s.viewFor core slot p.word with
  | some v => p.take v.value v.stamp
  | none => p

/-- A word of a scratchpad array. -/
def scratchWord (k : Core) (w : Nat) : Word := BitVec.ofNat 32 (k.scratch.readNat (4 * w) 4)

/-- Bytes of a word that lie in one of some ranges of a core's array. -/
def rangeMask (core w : Nat) (l : List (Nat × Nat × Nat)) : BitVec 4 :=
  BitVec.ofNat 4 (((List.range 4).map fun i =>
    if l.any fun r => r.1 = core && r.2.1 ≤ 4 * w + i && 4 * w + i < r.2.1 + r.2.2 then 2 ^ i else 0).foldr (· + ·) 0)

/-- The scratch address of a word of an array, as a crew names it (R211). -/
def State.scratchName (s : State) (core crew array w : Nat) : Dword :=
  let c := (s.core core).crew crew
  if array = core then BitVec.ofNat 64 (4 * w - c.sbase)
  else
    let base := (((s.core array).gangCrew c.lid c.gang).map (·.sbase)).getD 0
    BitVec.ofNat 64 (2 ^ 23 + array % Config.coresPerCluster * 2 ^ 20 + (4 * w - base))

/-- The parts of a load in a sector get no bytes: its error has been consumed. -/
def LqEntry.lose (q : LqEntry) (w : Nat) : LqEntry :=
  { q with parts := q.parts.map fun p => if p.word / 8 = w / 8 then { p with asked := true, lost := true } else p }

/-- The error in a word of an array is charged to the load's gang, that in a sector of memory counted too, once for the load; nothing
is delivered. -/
def State.consumeLoad (s : State) (core : Nat) (q : LqEntry) (w : Nat) (x : Taint) : State :=
  let crew := (s.core core).crewOf q.slot
  if q.parts.any fun p => p.lost && p.word / 8 = w / 8 then s else
  (match q.space.array core with
    | some a => s.consumeSram core crew (s.scratchName core crew a w)
    | none => (s.countTaint w x).consumeWord core crew w x).updCore core fun k => k.updLoad q.id fun q => q.lose w

/-- A copy is installed as unowned where the epochs still match and no owned copy stands (R36), in the caches that the hint names
(R220). (DEDUCED, log 14) An answer sent before a maintenance command is installed after it too. (DEDUCED, log 91) -/
def State.install (s : State) (core : Nat) (e1 e2 : Word) (hint w : Nat) (v : ViewWord) : State :=
  if hint = 2 then s else
  let owned (x : Option ViewWord) : Bool := match x with | some x => x.owned | none => false
  let s := if (s.core core).e1 = e1 && !owned ((s.core core).v1.find w) then
      s.updCore core fun k => { k with v1 := viewPut Config.l1Sets s.freeCtr hint k.v1 w v } else s
  if (s.cluster (clusterOf core)).e2 = e2 then
    s.updCluster (clusterOf core) fun x => { x with v2 := viewPut Config.l2Sets s.freeCtr hint x.v2 w v }
  else s

/-- A word arrives for the reads of an engine command (R249). -/
def Engine.arrived (e : Engine) (id w : Nat) (v : Word) : Engine :=
  { e with queue := e.queue.map fun c => if c.id = id then { c with work := { c.work with got := c.work.got.set w v } } else c }

def execReadResponse (lane : LaneId) (s : State) : Out :=
  match s.head lane with
  | some (.readResp _ _ (some (e, id)) w value _ _ _ bad _) =>
    let s := s.pop lane
    .next (if bad = .clean then s.setEngine e ((s.engine e).arrived id w value) else s.consumeCmd e id w bad)
  | some (.readResp core load none w value rp wp xp bad stamp) =>
    let s := s.pop lane
    match (s.core core).lq.find? fun q => q.id = load with
    | some q =>
      let s := s.install core q.e1 q.e2 q.hint w ⟨value, false, rp, wp, xp, bad, q.hint = 1, stamp⟩
      .next (if bad = .clean then
        s.updCore core fun k => (k.updLoad load fun q => q.fillPart w fun p => { p.take value stamp with asked := false }).finishLoad load
      else s.consumeLoad core q w bad)
    | none => .next s
  | _ => .next s

/-- A window write is written in the peer's array and acknowledged (R32). -/
def execWindowWrite (lane : LaneId) (s : State) : Out :=
  match s.head lane, lane.dst with
  | some (.window core entry cmd addr mask data), .lse peer =>
    .next (((s.pop lane).updCore peer fun k => k.storeScratch (maskedBytes addr mask data)).push (LaneBack lane) (.ack core entry cmd))
  | _, _ => .next s

/-- The words that a global entry names. -/
def SobEntry.words (e : SobEntry) : List Nat :=
  match e.kind with
  | .reduction min _ _ _ | .atomic min _ _ _ _ => wordsOf min e.word
  | _ => [e.word]

/-- The words of an entry with the stamp of its step at home. -/
def SobEntry.stamped (e : SobEntry) : List (Nat × Nat) := e.words.map fun w => (w, e.stamp)

/-- A store-buffer entry is acknowledged: it leaves, and its threads take its word from no older copy. -/
def Core.ackEntry (k : Core) (id : Nat) : Core :=
  match k.sob.find? fun e => e.id = id with
  | some e => (if isGlobal e.kind then e.slots.foldl (fun k x => k.refresh x e.stamped) k else k).dropEntry id
  | none => k

/-- One write of an engine command is acknowledged. -/
def Engine.acked (e : Engine) (id : Nat) : Engine :=
  { e with queue := e.queue.map fun c => if c.id = id then { c with outstanding := c.outstanding - 1 } else c }

/-- A write of a command that a kill has dropped is acknowledged (R448). -/
def Gang.drainAck (g : Gang) (e : EngineId) (id : Nat) : Gang :=
  let less (x : EngineId × Cmd) : EngineId × Cmd :=
    if x.1 = e && x.2.id = id then (x.1, { x.2 with outstanding := x.2.outstanding - 1 }) else x
  { g with draining := (g.draining.map less).filter fun (x : EngineId × Cmd) => x.2.outstanding ≠ 0 }

def State.drainAck (s : State) (e : EngineId) (id : Nat) : State :=
  { s with launches := s.launches.mapVals fun _ l => { l with gangs := l.gangs.mapVals fun _ g => g.drainAck e id } }

def execAcknowledgement (lane : LaneId) (s : State) : Out :=
  match s.head lane with
  | some (.ack _ entry cmd) =>
    let s := s.pop lane
    match cmd, lane.dst with
    | some (e, id), _ => .next ((s.setEngine e ((s.engine e).acked id)).drainAck e id)
    | none, .lse core => .next (s.updCore core fun k => k.ackEntry entry)
    | none, _ => .next s
  | _ => .next s

/-- The Result of an atomic (R239): destination and predicate, the entry and the word's copy leave; an acquire
self-invalidates. -/
def execAtomicResult (lane : LaneId) (s : State) : Out :=
  match s.head lane with
  | some (.result core entry load old success w) =>
    let s := s.pop lane
    match (s.core core).lq.find? fun q => q.id = load with
    | some q =>
      let stamped := (((s.core core).sob.find? fun e => e.id = entry).map SobEntry.stamped).getD []
      let s := s.updCore core fun k =>
        let k := { k.dropEntry entry with lq := k.lq.filter fun q => q.id ≠ load,
                                          v1 := k.v1.filter fun e => !q.parts.any fun p => p.word = e.1 }
        (k.refresh q.slot stamped).deliver s.cycle q.slot q.dsts old (q.pred.map fun p => (p, success))
      .next (if q.acquire then s.selfInvalidate core else s)
    | none => .next (s.updCore core fun k => { k.dropEntry entry with v1 := k.v1.erase w })
  | _ => .next s

/-- An entry of a view is removed (R32). -/
def execEvict (view : ViewId) (word : Nat) (s : State) : Out :=
  match view with
  | .v1 c => .next (s.updCore c fun k => { k with v1 := k.v1.erase word })
  | .v2 q => .next (s.updCluster q fun k => { k with v2 := k.v2.erase word })

/-- A pending result with its value is written (R105). -/
def execPendingResultReturn (core result : Nat) (s : State) : Out :=
  match (s.core core).results.find? fun r => r.id = result with
  | some ⟨_, slot, dsts, some v, pred⟩ =>
    .next (s.updCore core fun k =>
      ({ k with results := k.results.filter fun r => r.id ≠ result }).deliver s.cycle slot dsts v pred)
  | _ => .next s

end Sys2Proof.Machine
end

