-- ==== Sys2Proof/Machine/Control.lean ====
section
/-!
DEFINITION. Block entry, terminators, breaks and yield (spec/05_core_execution.md R106 to R110,
spec/06_core_control_system.md R129 to R137, spec/08_core_crosslane_sync.md R203) and the illegal instruction (R68).
-/
namespace Sys2Proof.Machine

/-! ## Block entry (R107) -/

/-- The latches that the first instruction of a group reads. -/
def entryLatches (g : Group) : List Nat :=
  match decode (g.code.drop g.pc) with
  | .ok (i, _) => latchesRead i
  | .error _ => []

/-- A park at the address where the group enters its block: DETAIL is 0, the code being neither a trap, a break nor an access
fault. (DESIGN CHOICE, log 73) -/
def parkEntry (g : Group) (slots : List Nat) (code detail : Nat) : ParkReq :=
  { slots := slots, code := code, detail := detail, addr := 0, resume := g.key.addr, header := g.header, ring := g.ring,
    latches := entryLatches g, coh := g.cf, wait := false }

/-- The header is read: HWM, CF and LEN hold from here on; threads with too small an allotment fault. -/
def execBlockHeader (cf : Bool) (hwm : BitVec 9) (len : BitVec 12) (s : State) : Out :=
  match s.curGroup with
  | none => .next s
  | some g =>
    let g := { g with entering := false, cf := cf, hwm := hwm.toNat, len := len.toNat }
    let bad := g.members.filter fun x => (s.cur.row (rowOf x)).allot < hwm.toNat
    .next ((s.park s.curCore (parkEntry g bad 0x04 0)).setCurGroup (g.without bad))

/-- R68: where the group stands at no instruction every thread of it parks at the word, with DETAIL 0 (DESIGN CHOICE, log 73). A header that is illegal for threads
that resume inside the block parks them at the address under which they were filed. (DESIGN CHOICE, log 72) -/
def execIllegalInstruction (s : State) : Out :=
  match s.curGroup with
  | none => .next s
  | some g =>
    let q : ParkReq :=
      { slots := g.members, code := 0x01, detail := 0, addr := 0, resume := if g.entering then g.key.addr else g.here,
        header := g.header, ring := g.ring, latches := if g.entering then entryLatches g else [], coh := g.cf, wait := false }
    .next (if (fetched g).isSome then s else (s.park s.curCore q).setCurGroup (g.without g.members))

/-! ## Terminators (R129 to R134) -/

/-- The address of word 0 + 4 × the offset. -/
def relTarget {n : Nat} (g : Group) (off : BitVec n) : Dword := g.here + 4 * off.signExtend 64

def cTarget (g : Group) (f : CForm) : Dword :=
  match f.tgt with
  | .rel off => relTarget g off
  | .absB lit => lit
  | .absE lit => lit

/-- The address that a code pointer names (R129). -/
def codePtr (c : Crew) (p : Word) : Dword := c.codeBase + 4 * p.setWidth 64

/-- The code pointer of an address. -/
def linkValue (c : Crew) (a : Dword) : Word := ((a - c.codeBase) >>> 2).setWidth 32

/-- The register of an indirect target. -/
def ptrSource (t : Thread) (o : Opnd) : Word := if o.latch then (t.latch o.code.toNat).setWidth 32 else t.reg o.code.toNat

def ptrRegs (o : Opnd) : List Dst := if o.latch then [.bp o.code.toNat] else [.v o.code.toNat]

def jOpnd (f : JForm) : Opnd := ⟨.vec, f.a, f.latch, false⟩

/-- The link register (R130). -/
def linkReg : Nat := 255

/-- Where the group falls through to. -/
def fallOf (g : Group) (i : Instr) : Dword := codeAddr g.header (g.pc + instrWords i)

/-- The shared terminator (R132). Threads whose guard is false fall through; link says that the instruction needs v255 (R130);
act moves a thread whose guard is true, given the thread as it stands before the instruction. -/
def issueTerm (i : Instr) (gd : Guard) (regs : List Dst) (link : Bool) (act : Group → Thread → Core → Nat → Core) (s : State) : Out :=
  match s.curGroup with
  | none => .next s
  | some g =>
    if mustStall s.cur g gd (fun _ _ => regs) then .next s
    else
      let bad := if link then (activeSlots s.cur g gd).filter fun x => (s.cur.row (rowOf x)).allot < 256 else []
      let r := s.parkFaults s.curCore g i (bad.map fun x => ⟨x, 0x04, 0, 0⟩)
      let go (k : Core) (x : Nat) : Core :=
        if guardHolds gd (s.cur.thread x) then act g (s.cur.thread x) k x else k.goTo s.cycle x (fallOf g i) false
      .next ((r.1.updCur fun k => r.2.members.foldl go k).setCurGroup (r.2.without r.2.members))

def Core.jump (k : Core) (now : Nat) (x : Nat) (a : Dword) : Core := k.goTo now x a false

def execBraB (off : BitVec 21) (s : State) : Out :=
  issueTerm (.braB off) alwaysGuard [] false (fun g _ k x => k.jump s.cycle x (relTarget g off)) s

def execBraE (f : CForm) (s : State) : Out :=
  issueTerm (.braE f) f.guard [] false (fun g _ k x => k.jump s.cycle x (cTarget g f)) s

/-- brc: the target where the predicate, negated by CN, is true. -/
def brcTo (cp : BitVec 3) (cn : Bool) (t : Thread) (target fall : Dword) : Dword := if t.pred cp.toNat ^^ cn then target else fall

def predRegs (p : BitVec 3) : List Dst := if p = 7 then [] else [.p p.toNat]

def execBrcB (cp : BitVec 3) (cn : Bool) (off : BitVec 17) (s : State) : Out :=
  issueTerm (.brcB cp cn off) alwaysGuard (predRegs cp) false
    (fun g t k x => k.jump s.cycle x (brcTo cp cn t (relTarget g off) (fallOf g (.brcB cp cn off)))) s

/-- CP and CN in the C field of the E shape: bits [2:0] and [3] (R62). -/
def cpOf (f : CForm) : BitVec 3 := f.c.setWidth 3
def cnOf (f : CForm) : Bool := f.c.getLsbD 3

def execBrcE (f : CForm) (s : State) : Out :=
  issueTerm (.brcE f) f.guard (predRegs (cpOf f)) false
    (fun g t k x => k.jump s.cycle x (brcTo (cpOf f) (cnOf f) t (cTarget g f) (fallOf g (.brcE f)))) s

/-- An indirect jump to the code pointer that the register holds. -/
def Core.jumpPtr (k : Core) (now : Nat) (x : Nat) (p : Word) : Core := k.jump now x (codePtr (k.crewAt x) p)

def execJmpiB (a : BitVec 7) (s : State) : Out :=
  let o := shortSrc a
  issueTerm (.jmpiB a) alwaysGuard (ptrRegs o) false (fun _ t k x => k.jumpPtr s.cycle x (ptrSource t o)) s

def execJmpiE (f : JForm) (s : State) : Out :=
  let o := jOpnd f
  issueTerm (.jmpiE f) f.guard (ptrRegs o) false (fun _ t k x => k.jumpPtr s.cycle x (ptrSource t o)) s

/-- The link is written. -/
def Core.link (k : Core) (x : Nat) (fall : Dword) : Core :=
  k.updThread x fun t => t.setReg linkReg (linkValue (k.crewAt x) fall)

def linkRegs : List Dst := [.v linkReg]

def execCallB (off : BitVec 21) (s : State) : Out :=
  issueTerm (.callB off) alwaysGuard linkRegs true
    (fun g _ k x => (k.link x (fallOf g (.callB off))).jump s.cycle x (relTarget g off)) s

def execCallE (f : CForm) (s : State) : Out :=
  issueTerm (.callE f) f.guard linkRegs true
    (fun g _ k x => (k.link x (fallOf g (.callE f))).jump s.cycle x (cTarget g f)) s

/-- calli reads its target before it writes the link. -/
def Core.callPtr (k : Core) (now : Nat) (x : Nat) (p : Word) (fall : Dword) : Core := (k.link x fall).jumpPtr now x p

def execCalliB (a : BitVec 7) (s : State) : Out :=
  let o := shortSrc a
  issueTerm (.calliB a) alwaysGuard (ptrRegs o ++ linkRegs) true
    (fun g t k x => k.callPtr s.cycle x (ptrSource t o) (fallOf g (.calliB a))) s

def execCalliE (f : JForm) (s : State) : Out :=
  let o := jOpnd f
  issueTerm (.calliE f) f.guard (ptrRegs o ++ linkRegs) true
    (fun g t k x => k.callPtr s.cycle x (ptrSource t o) (fallOf g (.calliE f))) s

def execRetB (s : State) : Out :=
  issueTerm .retB alwaysGuard linkRegs true (fun _ t k x => k.jumpPtr s.cycle x (t.reg linkReg)) s

def execRetE (f : XForm) (s : State) : Out :=
  issueTerm (.retE f) f.guard linkRegs true (fun _ t k x => k.jumpPtr s.cycle x (t.reg linkReg)) s

/-- A mark with its keep count: registers from there on read 0 until the thread writes them. A result that is pending for one of
them counts as a write before the mark, and does not reach it (R104). (DEDUCED, log 79) -/
def Core.mark (k : Core) (x : Nat) (keep : Nat) : Core :=
  k.updThread x fun t =>
    { t with keep := some keep, void := some keep, v := t.v.filter fun e => e.1 < keep, badV := t.badV.filter (· < keep) }

/-- exitto: marks, files, and shrinks each cohort whose live threads all carry a mark. -/
def issueExitto (i : Instr) (gd : Guard) (keep : Nat) (target : Group → Dword) (s : State) : Out :=
  match s.curGroup with
  | none => .next s
  | some g =>
    match issueTerm i gd [] false (fun g _ k x => (k.mark x keep).jump s.cycle x (target g)) s with
    | .next s' =>
      if mustStall s.cur g gd (fun _ _ => []) then .next s'
      else .next (s'.updCur fun k => (rowsOf g.members).foldl Core.shrink k)
    | o => o

def execExittoB (keep : BitVec 8) (off : BitVec 13) (s : State) : Out :=
  issueExitto (.exittoB keep off) alwaysGuard keep.toNat (fun g => relTarget g off) s

def execExittoE (f : CForm) (s : State) : Out :=
  issueExitto (.exittoE f) f.guard f.c.toNat (fun g => cTarget g f) s

def execReformB (off : BitVec 21) (s : State) : Out :=
  issueTerm (.reformB off) alwaysGuard [] false (fun g _ k x => k.goTo s.cycle x (relTarget g off) true) s

def execReformE (f : CForm) (s : State) : Out :=
  issueTerm (.reformE f) f.guard [] false (fun g _ k x => k.goTo s.cycle x (cTarget g f) true) s

/-! ## Exit (R133) -/

/-- The threads of the group that may retire now, one after the other; the others stay in the group. -/
def State.retireAll (s : State) (c : Nat) (g : Group) : List Nat → State × Group
  | [] => (s, g)
  | x :: r => match s.retire c x with
    | some s' => s'.retireAll c (g.without [x]) r
    | none => s.retireAll c g r

/-- exit: threads whose guard is false fall through; the others retire once drained, and until then the group stands here. -/
def issueExit (i : Instr) (gd : Guard) (s : State) : Out :=
  match s.curGroup with
  | none => .next s
  | some g =>
    if mustStall s.cur g gd (fun _ _ => []) then .next s
    else
      let act := activeSlots s.cur g gd
      let off := g.members.filter fun x => !act.contains x
      let s := s.updCur fun k => off.foldl (fun k x => k.goTo s.cycle x (fallOf g i) false) k
      let r := s.retireAll s.curCore { g.without off with blocked := true } act
      .next (r.1.setCurGroup r.2)

def execExitB (s : State) : Out := issueExit .exitB alwaysGuard s
def execExitE (f : XForm) (s : State) : Out := issueExit (.exitE f) f.guard s

/-- A thread that waits at its exit retires once it is drained. -/
def execThreadExit (core slot : Nat) (s : State) : Out :=
  let at_ (g : Group) : Bool := g.blocked && g.members.contains slot && match decode (g.code.drop g.pc) with
    | .ok (.exitB, _) | .ok (.exitE _, _) => true
    | _ => false
  let leave (st : Bool) : Option State :=
    match ((s.core core).stream st).group with
    | some g => if at_ g then (s.retire core slot).map fun s' =>
        let g' := g.without [slot]
        s'.updCore core fun k => k.setGroup st (if g'.members.isEmpty then none else some g')
      else none
    | none => none
  match leave false with
  | some s' => .next s'
  | none => .next ((leave true).getD s)

/-! ## trap, brk, yield (R136, R137, R203) -/

/-- Whom a trap, a break or a yield takes: the threads whose guard is true, in a cohort block the whole cohort if there is one (R137).
A yield in a cohort block with no true guard does nothing, as R137 has it for trap and brk. (DESIGN CHOICE, log 75) -/
def stopSlots (k : Core) (g : Group) (gd : Guard) : List Nat :=
  let act := activeSlots k g gd
  if g.cf && !act.isEmpty then g.members else act

/-- Whether the group must wait: the guard is pending, or an active thread is not drained. -/
def undrained (k : Core) (g : Group) (gd : Guard) : Bool :=
  mustStall k g gd (fun _ _ => []) || (activeSlots k g gd).any fun x => !k.drained x

def issueTrap (i : Instr) (gd : Guard) (code : BitVec 8) (s : State) : Out :=
  match s.curGroup with
  | none => .next s
  | some g =>
    if undrained s.cur g gd then .next s
    else
      let stop := stopSlots s.cur g gd
      let fall := fallOf g i
      let s := s.park s.curCore { slots := stop, code := 0x10, detail := code.toNat, addr := 0, resume := fall, header := fall,
                                  ring := 0, latches := [], coh := g.cf, wait := false }
      let rest := (g.without stop).members
      .next ((s.updCur fun k => rest.foldl (fun k x => k.goTo s.cycle x fall false) k).setCurGroup (g.without g.members))

def execTrapB (code : BitVec 8) (s : State) : Out := issueTrap (.trapB code) alwaysGuard code s
def execTrapE (f : XForm) (s : State) : Out := issueTrap (.trapE f) f.guard f.c s

def issueBrk (i : Instr) (gd : Guard) (code : BitVec 8) (s : State) : Out :=
  match s.curGroup with
  | none => .next s
  | some g =>
    if undrained s.cur g gd then .next s
    else
      let stop := stopSlots s.cur g gd
      let after := g.past i false
      .next ((s.park s.curCore { slots := stop, code := 0x11, detail := code.toNat, addr := 0, resume := fallOf g i,
                                 header := g.header, ring := g.ring, latches := entryLatches after, coh := g.cf,
                                 wait := false }).setCurGroup (after.without stop))

def execBrkB (code : BitVec 8) (s : State) : Out := issueBrk (.brkB code) alwaysGuard code s
def execBrkE (f : XForm) (s : State) : Out := issueBrk (.brkE f) f.guard f.c s

/-- yield: the threads are filed at the next instruction, in an entry marked yielded. -/
def execYield (f : EForm) (s : State) : Out :=
  match s.curGroup with
  | none => .next s
  | some g =>
    if mustStall s.cur g f.guard (fun _ _ => []) then .next s
    else
      let stop := stopSlots s.cur g f.guard
      let go (k : Core) (x : Nat) : Core :=
        (k.aim x (fallOf g (.yield f)) g.header (some { ring := g.ring, latches := [] }) false true).leave s.cycle x
      .next ((s.updCur fun k => stop.foldl go k).setCurGroup ((g.past (.yield f) false).without stop))

end Sys2Proof.Machine
end

