-- ==== Sys2Proof/Machine/System.lean ====
section
/-!
DEFINITION. System instructions and system registers (spec/06_core_control_system.md R139 to R143, spec/05_core_execution.md
R103, R104, R111, R112, R301), and the register writes that are steps of their own.
-/
namespace Sys2Proof.Machine

/-! ## Selector registers (R111, R112) -/

/-- A DET crew is bound. -/
def Core.detBound (k : Core) : Bool := k.crews.any fun e => e.2.det

/-- SEL.POLICY as it reads. -/
def Core.policy (k : Core) : BitVec 2 := if k.detBound then 3 else k.selPol

/-- Whether a write by a launch takes effect. -/
def Core.ownsSelector (k : Core) (lid : Nat) : Bool := k.crews.all fun e => e.2.lid = lid

def Core.writePolicy (k : Core) (lid : Nat) (v : Word) : Core :=
  if k.ownsSelector lid && !k.detBound then { k with selPol := v.setWidth 2 } else k

/-- A value written below 64 is stored as 64. -/
def ageStore (v : Word) : BitVec 16 := if (v.setWidth 16 : BitVec 16).toNat < 64 then 64 else v.setWidth 16

def Core.writeAge (k : Core) (lid : Nat) (v : Word) : Core :=
  if k.ownsSelector lid then { k with selAge := ageStore v } else k

/-- Write 1 to clear (R140). -/
def Core.clearSatf (k : Core) (crew : Nat) (v : Word) : Core :=
  if v.getLsbD 0 then k.updCrew crew fun c => { c with satf := false } else k

def execSelPolicyWrite (core lid : Nat) (value : Word) (s : State) : Out := .next (s.updCore core fun k => k.writePolicy lid value)

def execSelAgeWrite (core lid : Nat) (value : Word) (s : State) : Out := .next (s.updCore core fun k => k.writeAge lid value)

def execLfsrWrite (core slot : Nat) (value : Word) (s : State) : Out :=
  .next (s.updCore core fun k =>
    if (k.thread slot).phase = .free then k else k.updThread slot fun t => { t with lfsr := lfsrStore value })

def execAccStatWrite (core crew : Nat) (value : Word) (s : State) : Out :=
  .next (s.updCore core fun k => if (k.crews.find crew).isSome then k.clearSatf crew value else k)

/-! ## rdsys, wrsys (R139 to R141) -/

/-- The value of a system register as a thread reads it, none for an unlisted number (R140). -/
def sysValue (core cycle : Nat) (k : Core) (slot n : Nat) : Option Dword :=
  let t := k.thread slot
  let r := k.row (rowOf slot)
  let c := k.crewAt slot
  match n with
  | 0x00 => some (BitVec.ofNat 64 (k.tid slot % 2 ^ 32))
  | 0x01 => some (BitVec.ofNat 64 (laneOf slot))
  | 0x02 => some (BitVec.ofNat 64 (rowOf slot * 2 ^ 8 + r.lci))
  | 0x03 => some (BitVec.ofNat 64 core)
  | 0x04 => some (r.role.setWidth 64)
  | 0x05 => some (BitVec.ofNat 64 r.allot)
  | 0x06 => some (BitVec.ofNat 64 (c.lid % 2 ^ 32))
  | 0x07 => some (BitVec.ofNat 64 (c.det.toNat + 2 * c.chk.toNat))
  | 0x08 => some (c.asid.setWidth 64)
  | 0x09 => some c.codeBase
  | 0x0A => some (t.lfsr.setWidth 64)
  | 0x10 => some (k.policy.setWidth 64)
  | 0x11 => some (k.selAge.setWidth 64)
  | 0x18 => some (if c.det then 0 else BitVec.ofNat 64 cycle)
  | 0x19 => some (t.faultInfo.setWidth 64)
  | 0x1A => some (BitVec.ofNat 64 c.satf.toNat)
  | _ => none

/-- The fault that shows where two arise in one instruction of a thread: the lower code (R147). operands are the bounds of its
operands, 0x05. -/
def afterBounds (operands : Except Nat Unit) (r : Except Nat LaneOut) : Except Nat LaneOut :=
  match operands with
  | .error e => .error e
  | .ok _ => r

def unitOf {α : Type} (r : Except Nat α) : Except Nat Unit := match r with | .ok _ => .ok () | .error e => .error e

def execRdsys (f : EForm) (s : State) : Out :=
  let sp := entryOf (.rdsys f)
  let n := f.c.code.toNat
  issueLanes (.rdsys f) f.guard (sp.produces f) (touched sp f)
    (fun k x =>
      let out (v : Dword) : Except Nat LaneOut := laneOut (k.thread x) (k.row (rowOf x)) f (sysWide n) v
      match sysValue s.curCore s.cycle k x n with
      | some v => out v
      | none => afterBounds (unitOf (out 0)) (.error 0x07)) s

/-- The system registers with a field that can be written. -/
def sysWritable (n : Nat) : Bool := n = 0x0A || n = 0x10 || n = 0x11 || n = 0x1A

/-- Active slots by lane. -/
def byLane (slots : List Nat) : List Nat := (List.range 32).flatMap fun l => slots.filter fun x => laneOf x = l

/-- The part of a write that is not per thread; lanes write in ascending order, so the highest stands. (DEDUCED, log 20) -/
def sysWrite (n : Nat) (k : Core) (slot : Nat) (v : Word) : Core :=
  match n with
  | 0x10 => k.writePolicy (k.crewAt slot).lid v
  | 0x11 => k.writeAge (k.crewAt slot).lid v
  | 0x1A => k.clearSatf (k.crewOf slot) v
  | _ => k

def execWrsys (f : EForm) (s : State) : Out :=
  let sp := entryOf (.wrsys f)
  let n := f.c.code.toNat
  issueEff (.wrsys f) f.guard false (touched sp f)
    (fun k x =>
      match readOpnd (k.thread x) (k.row (rowOf x)) f f.b false with
      | .ok v => if sysWritable n then .ok { lfsr := if n = 0x0A then some (lfsrStore (v.setWidth 32)) else none } else .error 0x07
      | .error e => .error e)
    (fun done s' => s'.updCur fun k =>
      (byLane done).foldl (fun k x => sysWrite n k x ((s.cur.source f f.b false x).setWidth 32)) k) s

/-! ## claim, cede (R103, R142) -/

/-- A count is a multiple of 8 from 8 to 256. -/
def countOk (n : Nat) : Bool := n % 8 = 0 && 8 ≤ n && n ≤ 256

/-- The registers of every thread of a row from a on read 0. -/
def Core.dropRegs (k : Core) (r a : Nat) : Core :=
  (rowSlots r).foldl (fun k x =>
    if (k.thread x).phase = .free then k else k.updThread x fun t => { t with v := t.v.filter fun e => e.1 < a }) k

/-- The pool gives n registers to a cohort; they read 0. -/
def Core.grant (k : Core) (r n : Nat) : Core :=
  (k.dropRegs r (k.row r).allot).updRow r fun row => { row with allot := row.allot + n }

/-- A wait in the pool queue: the cohort's threads hold no stream, and go on at the next instruction. -/
def Core.queueClaim (k : Core) (g : Group) (i : Instr) (r n : Nat) : Core :=
  let wait (k : Core) (x : Nat) : Core :=
    (k.aim x (fallOf g i) g.header (some { ring := g.ring, latches := [] }) false false).updThread x fun t => { t with phase := .claimWait }
  let k := g.members.foldl wait k
  { k with claimQ := k.claimQ ++ [⟨r, n⟩] }

/-- The value of an operand that an instruction takes once for the group: that of its highest active lane (R98). -/
def onceValue (k : Core) (f : EForm) (o : Opnd) (wide : Bool) (act : List Nat) : Dword := k.source f o wide (topSlot act)

def execClaim (f : EForm) (s : State) : Out :=
  let i := Instr.claim f
  match s.curGroup with
  | none => .next s
  | some g =>
    let k := s.cur
    let act := activeSlots k g f.guard
    if mustStall k g f.guard (touched (entryOf i) f) then .next s
    else if act.isEmpty then .next (s.setCurGroup (g.past i false))
    else
      let n := (onceValue k f f.b false act).toNat
      let r := rowOf (topSlot act)
      if !countOk n || 256 < (k.row r).allot + n then .next (s.parkAll g i g.members 0x06 0)
      else if k.claimQ.isEmpty && n ≤ k.poolFree then .next ((s.updCur fun k => k.grant r n).setCurGroup (g.past i false))
      else .next ((s.updCur fun k => k.queueClaim g i r n).setCurGroup (g.without g.members))

def execCede (f : EForm) (s : State) : Out :=
  let i := Instr.cede f
  match s.curGroup with
  | none => .next s
  | some g =>
    let k := s.cur
    let act := activeSlots k g f.guard
    if mustStall k g f.guard (touched (entryOf i) f) then .next s
    else if act.isEmpty then .next (s.setCurGroup (g.past i false))
    else
      let n := (onceValue k f f.b false act).toNat
      let r := rowOf (topSlot act)
      let a := (k.row r).allot - n
      if !countOk n || (k.row r).allot < n + 8 then .next (s.parkAll g i g.members 0x06 0)
      else if (rowSlots r).any fun x => (k.thread x).pend.any fun d => match d with | .v m => a ≤ m | _ => false then .next s
      else .next ((s.updCur fun k => (k.dropRegs r a).updRow r fun row => { row with allot := a }).setCurGroup (g.past i false))

/-- The request at the head of the pool queue is granted, strictly in order (R103); its threads are filed (R105). -/
def execClaimGrant (core : Nat) (s : State) : Out :=
  let k := s.core core
  match k.claimQ with
  | q :: rest =>
    if q.n ≤ k.poolFree then
      let wake (k : Core) (x : Nat) : Core := if (k.thread x).phase = .claimWait then k.fileThread s.cycle x else k
      .next (s.setCore core ((rowSlots q.row).foldl wake { k.grant q.row q.n with claimQ := rest }))
    else .next s
  | [] => .next s

/-! ## lfsrd, lfswr (R143) -/

/-- .col. -/
def isCol (f : EForm) : Bool := f.c.code = 1

/-- Whether a .col access must wait: an earlier command of a crew of the group is in the MXE queue. -/
def colWaits (k : Core) (act : List Nat) : Bool := k.mxe.queue.any fun c => act.any fun x => k.crewOf x = c.crew

def colOf (v : Dword) : Nat := v.toNat % Config.accCols

def execLfsrd (f : EForm) (s : State) : Out :=
  let sp := entryOf (.lfsrd f)
  if isCol f && colWaits s.cur (s.actives f.guard) then .next s
  else
    issueLanes (.lfsrd f) f.guard (sp.produces f) (touched sp f)
      (fun k x =>
        let t := k.thread x
        let r := k.row (rowOf x)
        if isCol f then
          match readOpnd t r f f.b false with
          | .error e => .error e
          | .ok v =>
            let out := laneOut t r f false ((FMap.get 0 k.colLfsr (colOf v)).setWidth 64)
            if k.holder = some (k.crewOf x) then out else afterBounds (unitOf out) (.error 0x07)
        else laneOut t r f false (t.lfsr.setWidth 64)) s

def execLfswr (f : EForm) (s : State) : Out :=
  let sp := entryOf (.lfswr f)
  if isCol f && colWaits s.cur (s.actives f.guard) then .next s
  else
    issueEff (.lfswr f) f.guard false (touched sp f)
      (fun k x =>
        let t := k.thread x
        let r := k.row (rowOf x)
        match readOpnd t r f f.b false with
        | .error e => .error e
        | .ok v =>
          if isCol f then
            match readOpnd t r f f.a false with
            | .ok _ => if k.holder = some (k.crewOf x) then .ok {} else .error 0x07
            | .error e => .error e
          else .ok { lfsr := some (lfsrStore (v.setWidth 32)) })
      (fun done s' => if isCol f then
        s'.updCur fun k => (byLane done).foldl (fun k x =>
          { k with colLfsr := FMap.put 0 k.colLfsr (colOf (s.cur.source f f.a false x))
                                (lfsrStore ((s.cur.source f f.b false x).setWidth 32)) }) k
        else s') s

end Sys2Proof.Machine
end

