-- ==== Sys2Proof/Machine/Lse.lean ====
section
/-!
DEFINITION. The instructions of the load-store engine (spec/12_memory_instructions.md R260 to R276), probe and icinv
(spec/06_core_control_system.md R144, R145).
-/
namespace Sys2Proof.Machine

/-! ## Effective address and checks (R262, R263) -/

/-- DX:IMM8 as a signed displacement. -/
def disp (m : MForm) : Dword := (m.dx ++ m.e.imm8 : BitVec 12).signExtend 64

/-- Whether the base is 64 bits wide. -/
def wideBase (f : EForm) : Bool := f.a.kind ≠ .scl || f.sb = 1

/-- The effective address of a thread. -/
def effAddr (t : Thread) (r : Row) (m : MForm) : Except Nat Dword :=
  match readOpnd t r m.e m.e.a (wideBase m.e) with
  | .error e => .error e
  | .ok base => match readOpnd t r m.e m.e.b false with
    | .error e => .error e
    | .ok ix => .ok (base + (((ix.setWidth 32 : Word).signExtend 64) <<< m.sc.toNat) + disp m)

/-- An access that has passed its checks: the space, the byte's key in it, and the address. -/
structure Access where
  slot : Nat
  space : SobKind
  key : Nat
  ea : Dword
  deriving DecidableEq, Repr

/-- The checks of R263 for virtual memory up to the alignment. operands says whether the other operands are in bounds. -/
def checkVirtual (k : Core) (m : MForm) (bytes kind : Nat) (operands : Thread → Row → Except Nat Unit) (slot : Nat) :
    Except LaneFault Access :=
  let t := k.thread slot
  let r := k.row (rowOf slot)
  match effAddr t r m with
  | .error c => .error ⟨slot, c, 0, 0⟩
  | .ok ea => match operands t r with
    | .error c => .error ⟨slot, c, 0, 0⟩
    | .ok _ =>
      if ea.toNat / 2 ^ 57 ≠ 0 then .error ⟨slot, 0x09, kind, ea⟩
      else if ea.toNat % bytes ≠ 0 then .error ⟨slot, 0x0B, kind, ea⟩
      else .ok ⟨slot, .global, byteKey (k.crewAt slot).asid.toNat ea.toNat, ea⟩

/-- The space and array index that a scratch address names (R211), none for the protection fault. -/
def State.scratchTarget (s : State) (core : Nat) (c : Crew) (ea : Nat) : Option (SobKind × Nat) :=
  let off := ea % 2 ^ 20
  if ea / 2 ^ 24 ≠ 0 then none
  else if ea / 2 ^ 23 % 2 = 0 then
    (if ea / 2 ^ 20 % 8 = 0 && off < c.scr then some (.scratch, c.sbase + off) else none)
  else
    let peer := clusterOf core * Config.coresPerCluster + ea / 2 ^ 20 % 8
    match (s.core peer).gangCrew c.lid c.gang with
    | some p => if off < p.scr then some (.window peer, p.sbase + off) else none
    | none => none

/-- The checks of R263 for the scratchpads. -/
def checkScratch (s : State) (core : Nat) (m : MForm) (bytes kind : Nat) (operands : Thread → Row → Except Nat Unit) (slot : Nat) :
    Except LaneFault Access :=
  let k := s.core core
  let t := k.thread slot
  let r := k.row (rowOf slot)
  match effAddr t r m with
  | .error c => .error ⟨slot, c, 0, 0⟩
  | .ok ea => match operands t r with
    | .error c => .error ⟨slot, c, 0, 0⟩
    | .ok _ => match s.scratchTarget core (k.crewAt slot) ea.toNat with
      | none => .error ⟨slot, 0x0A, kind, ea⟩
      | some (space, a) => if ea.toNat % bytes ≠ 0 then .error ⟨slot, 0x0B, kind, ea⟩ else .ok ⟨slot, space, a, ea⟩

def faultsOf (l : List (Except LaneFault Access)) : List LaneFault :=
  l.filterMap fun x => match x with | .error f => some f | .ok _ => none

def accessesOf (l : List (Except LaneFault Access)) : List Access :=
  l.filterMap fun x => match x with | .ok a => some a | .error _ => none

/-! ## Verdicts (R120, R227) -/

/-- A hit in L1 or L2, with the line's copies: 0 permitted, 0x0A refused. -/
def State.viewVerdict (s : State) (core key kind : Nat) : Option Nat :=
  let ask (v : ViewWord) : Option Nat := some (if permits v.rp v.wp v.xp kind then 0 else 0x0A)
  match (s.core core).v1.find (key / 4) with
  | some v => ask v
  | none => match (s.cluster (clusterOf core)).v2.find (key / 4) with
    | some v => ask v
    | none => none

/-- The verdict of an access that the group stands at, if it is known. -/
def State.verdictOf (s : State) (core : Nat) (g : Group) (kind : Nat) (a : Access) : Option Nat :=
  match g.verdicts.find? fun v => v.1 = a.slot with
  | some v => some v.2.2
  | none => s.viewVerdict core a.key kind

/-- Verdicts are asked for, where they have not been, with the cache hint of the access. -/
def State.askVerdicts (s : State) (core : Nat) (g : Group) (kind hint : Nat) : List Access → State
  | [] => s
  | a :: r =>
    if (s.core core).xlat.any fun q => q.group = some g.id && q.slot = a.slot then s.askVerdicts core g kind hint r
    else
      let q : XlatReq := { id := s.ctr, group := some g.id, slot := a.slot, key := a.key, kind := kind, hint := hint, e1 := 0, e2 := 0 }
      ((s.updCore core fun k => { k with xlat := k.xlat ++ [q] }).bump).askVerdicts core g kind hint r

/-! ## The shared issue of an access -/

/-- SUSPENSION (R116): the group leaves its stream; latches are lost but those that its instruction reads. -/
def State.suspend (s : State) (g : Group) (i : Instr) : State :=
  s.updCur fun k =>
    let k := g.members.foldl (fun k x => k.updThread x fun t => t.dropLatches (latchesRead i)) k
    { k.setGroup s.curStream none with suspended := k.suspended ++ [{ g with blocked := true }] }

/-- An access instruction: the kind of its accesses (R146) and their cache hint (R220), whether they go to virtual memory, the checks
of a lane, and the store-buffer entries that some accesses need. -/
structure AccessSpec where
  form : EForm
  kind : Nat
  hint : Nat
  virt : Bool
  check : Nat → Except LaneFault Access
  need : List Access → Nat

/-- The outcome of the checks of the active lanes, by lane. -/
def AccessSpec.checks (q : AccessSpec) (k : Core) (g : Group) : List (Except LaneFault Access) :=
  (byLane (activeSlots k g q.form.guard)).map q.check

/-- The verdict of an access, 0 for permitted; a scratchpad access needs none. -/
def State.accessCode (s : State) (core : Nat) (g : Group) (q : AccessSpec) (a : Access) : Nat :=
  if q.virt then (s.verdictOf core g q.kind a).getD 0 else 0

/-- The accesses that are to be performed. -/
def State.goodAccesses (s : State) (core : Nat) (g : Group) (q : AccessSpec) : List Access :=
  (accessesOf (q.checks (s.core core) g)).filter fun a => s.accessCode core g q a = 0

/-- The store buffer has room for all entries of the instruction (R247). -/
def State.accessRoom (s : State) (core : Nat) (g : Group) (q : AccessSpec) : Bool :=
  let n := q.need (s.goodAccesses core g q)
  n = 0 || (s.core core).sob.length + n ≤ Config.sobSize

/-- Issue of an access instruction: stall on what is pending, check, hold the group for its verdicts (virtual memory), suspend it
where the store buffer lacks room, park what faults, and perform the others in lane order. -/
def issueAccess (i : Instr) (q : AccessSpec) (produces : Bool) (regs : Thread → Nat → List Dst)
    (perform : Group → List Access → State → State) (s : State) : Out :=
  match s.curGroup with
  | none => .next s
  | some g =>
    let k := s.cur
    if mustStall k g q.form.guard regs || latchBusy k g produces then .next s
    else
      let checks := q.checks k g
      let ok := accessesOf checks
      let asked := if q.virt then ok.filter fun a => (s.verdictOf s.curCore g q.kind a).isNone else []
      if !asked.isEmpty then .next (s.askVerdicts s.curCore g q.kind q.hint asked)
      else if !s.accessRoom s.curCore g q then .next (s.suspend g i)
      else
        let code := s.accessCode s.curCore g q
        let bad := (ok.filter fun a => code a ≠ 0).map fun a => (⟨a.slot, code a, q.kind, a.ea⟩ : LaneFault)
        let r := s.parkFaults s.curCore g i (faultsOf checks ++ bad)
        let done := (s.goodAccesses s.curCore g q).filter fun a => r.2.members.contains a.slot
        let s := r.1.updCur fun k => writeLanes k r.2 (done.map (·.slot)) produces fun _ => {}
        .next ((perform r.2 done s).setCurGroup (r.2.past i produces))

/-! ## Loads (R265) -/

/-- The destinations of a load or atomic in a lane, its latch among them. -/
def loadDsts (k : Core) (f : EForm) (wide produces : Bool) (ring slot : Nat) : List Dst :=
  (match dstOpnd (k.thread slot) (k.row (rowOf slot)) f f.d wide with
    | .ok d => d
    | .error _ => []) ++ (if produces then [.bp ring] else [])

/-- The bounds of the destination, and of the data. -/
def dstBounds (f : EForm) (wide : Bool) (t : Thread) (r : Row) : Except Nat Unit :=
  match dstOpnd t r f f.d wide with
  | .ok _ => .ok ()
  | .error e => .error e

def srcBounds (f : EForm) (o : Opnd) (n : Nat) (t : Thread) (r : Row) : Except Nat Unit :=
  if o.kind = .vec && !o.latch then
    match regIndex t r.allot f o n with
    | .ok _ => .ok ()
    | .error e => .error e
  else .ok ()

/-- The words of an access. -/
def accessWords (key bytes : Nat) : List Nat := if bytes = 8 then [key / 4, key / 4 + 1] else [key / 4]

/-- The load-queue entry of an access. -/
def loadEntry (s : State) (core id : Nat) (a : Access) (bytes : Nat) (signed : Bool) (hint : Nat) (dsts : List Dst) : LqEntry :=
  { id := id, slot := a.slot, addr := a.key, bytes := bytes, signed := signed, space := a.space,
    parts := (accessWords a.key bytes).map fun w => { word := w, known := 0, data := 0, asked := false }, e1 := (s.core core).e1, e2 := (s.cluster (clusterOf core)).e2,
    dsts := dsts, hint := hint, pred := none, atomic := false, acquire := false, acq := ((s.core core).thread a.slot).acquires }

/-- Loads are appended, their destinations pending. -/
def performLoad (m : MForm) (produces : Bool) (g : Group) (l : List Access) (s : State) : State :=
  let f := m.e
  let bytes := accessBytes f.sub
  let dsts (x : Nat) : List Dst := loadDsts s.cur f (bytes = 8) produces g.ring x
  let entries := l.zipIdx.map fun e =>
    loadEntry s s.curCore (s.ctr + e.2) e.1 bytes (f.sub = 0 || f.sub = 2) m.ch.toNat (dsts e.1.slot)
  { s.updCur fun k => { k.pendFor (l.map (·.slot)) dsts with lq := k.lq ++ entries } with ctr := s.ctr + l.length }

def loadSpec (s : State) (core : Nat) (m : MForm) : AccessSpec :=
  let bytes := accessBytes m.e.sub
  ⟨m.e, 0, m.ch.toNat, true, checkVirtual (s.core core) m bytes 0 (dstBounds m.e (bytes = 8)), fun _ => 0⟩

def execLd (m : MForm) (s : State) : Out :=
  let i := Instr.ld m
  let p := (entryOf i).produces m.e
  issueAccess i (loadSpec s s.curCore m) p (touched (entryOf i) m.e) (performLoad m p) s

def execLds (m : MForm) (s : State) : Out :=
  let i := Instr.lds m
  let p := (entryOf i).produces m.e
  let bytes := accessBytes m.e.sub
  issueAccess i ⟨m.e, 0, 0, false, checkScratch s s.curCore m bytes 0 (dstBounds m.e (bytes = 8)), fun _ => 0⟩ p (touched (entryOf i) m.e)
    (performLoad m p) s

/-! ## Stores (R265, R266, R252) -/

/-- The word writes of a store: word, mask, data. -/
def storeParts (key bytes : Nat) (v : Dword) : List (Nat × BitVec 4 × Word) :=
  if bytes = 8 then [(key / 4, 0xF, v.setWidth 32), (key / 4 + 1, 0xF, (v >>> 32).setWidth 32)]
  else
    let w : Word := v.setWidth 32
    [(key / 4, BitVec.ofNat 4 ((2 ^ bytes - 1) * 2 ^ (key % 4)), w <<< (8 * (key % 4)))]

/-- Entries are appended with rising numbers. -/
def State.appendSob (s : State) (core : Nat) (l : List (Nat → SobEntry)) : State :=
  { s.updCore core fun k => { k with sob := k.sob ++ l.zipIdx.map fun e => e.1 (s.ctr + e.2) } with ctr := s.ctr + l.length }

def storeEntry (slot : Nat) (space : SobKind) (hint : Nat) (p : Nat × BitVec 4 × Word) (id : Nat) : SobEntry :=
  { id := id, slots := [slot], kind := space, word := p.1, mask := p.2.1, data := p.2.2, sent := false, release := false, hint := hint }

/-- A byte of a store in the deterministic buffer: it replaces the thread's older one of the same generation, whose numbers are since
on (R253). -/
def dsbPut (l : List DsbEntry) (tid since seq hint key : Nat) (b : Byte) : List DsbEntry :=
  (l.filter fun e => !(e.key = key && e.tid = tid && decide (since ≤ e.seq))) ++ [⟨key, b, tid, seq, hint⟩]

/-- The bytes of a store in the deterministic buffer of the thread's crew. -/
def Core.dsbStore (k : Core) (slot seq hint key bytes : Nat) (v : Dword) : Core :=
  let since := (k.row (rowOf slot)).arrivedAt
  let tid := k.tid slot
  k.updCrew (k.crewOf slot) fun c =>
    { c with dsb := (List.range bytes).foldl (fun l i => dsbPut l tid since seq hint (key + i) ((v >>> (8 * i)).setWidth 8)) c.dsb }

/-- One lane's store, with its cache hint (R220). -/
def State.storeLane (s : State) (core bytes hint : Nat) (a : Access) (v : Dword) : State :=
  if a.space = .global && ((s.core core).crewAt a.slot).det then (s.updCore core fun k => k.dsbStore a.slot s.ctr hint a.key bytes v).bump
  else s.appendSob core ((storeParts a.key bytes v).map fun p => storeEntry a.slot a.space hint p)

def performStore (m : MForm) (_ : Group) (l : List Access) (s : State) : State :=
  let bytes := accessBytes m.e.sub
  let k := s.cur
  l.foldl (fun s a => s.storeLane s.curCore bytes m.ch.toNat a (k.source m.e m.e.c (bytes = 8) a.slot)) s

/-- Store-buffer entries of the stores of some lanes. -/
def storeNeed (k : Core) (bytes : Nat) (l : List Access) : Nat :=
  ((l.filter fun a => a.space ≠ .global || !(k.crewAt a.slot).det).length) * (if bytes = 8 then 2 else 1)

def storeSpec (s : State) (core : Nat) (m : MForm) : AccessSpec :=
  let bytes := accessBytes m.e.sub
  ⟨m.e, 1, m.ch.toNat, true, checkVirtual (s.core core) m bytes 1 (srcBounds m.e m.e.c (if bytes = 8 then 2 else 1)), storeNeed (s.core core) bytes⟩

def execSt (m : MForm) (s : State) : Out :=
  issueAccess (.st m) (storeSpec s s.curCore m) false (touched (entryOf (.st m)) m.e) (performStore m) s

def scratchStoreSpec (s : State) (core : Nat) (m : MForm) : AccessSpec :=
  let bytes := accessBytes m.e.sub
  ⟨m.e, 1, 0, false, checkScratch s core m bytes 1 (srcBounds m.e m.e.c (if bytes = 8 then 2 else 1)), storeNeed (s.core core) bytes⟩

def execSts (m : MForm) (s : State) : Out :=
  issueAccess (.sts m) (scratchStoreSpec s s.curCore m) false (touched (entryOf (.sts m)) m.e) (performStore m) s

/-! ## movix (R267) -/

/-- The register number that a movix names, none outside the allotment. -/
def movixIndex (t : Thread) (r : Row) (m : MForm) : Except Nat Nat :=
  match readOpnd t r m.e m.e.b false with
  | .error e => .error e
  | .ok b =>
    let j := b.setWidth 32 + (disp m).setWidth 32
    if j.toNat < r.allot && j.toNat < 2 ^ 31 then .ok j.toNat else .error 0x05

/-- The register that a movix names in an active lane is touched too: whether its result is pending. -/
def movixBusy (k : Core) (g : Group) (m : MForm) : Bool :=
  (activeSlots k g m.e.guard).any fun x => match movixIndex (k.thread x) (k.row (rowOf x)) m with
    | .ok j => (k.thread x).pend.contains (.v j)
    | .error _ => false

/-- The issue of a movix waits for the register that it names. -/
def issueMovix (i : Instr) (m : MForm) (produces : Bool) (eval : Core → Nat → Except Nat LaneOut) (s : State) : Out :=
  if (s.curGroup.map fun g => movixBusy s.cur g m).getD false then .next s
  else issueLanes i m.e.guard produces (touched (entryOf i) m.e) eval s

def execMovixRead (m : MForm) (s : State) : Out :=
  let i := Instr.movixRead m
  issueMovix i m ((entryOf i).produces m.e)
    (fun k x =>
      let t := k.thread x
      let r := k.row (rowOf x)
      match movixIndex t r m with
      | .error e => .error e
      | .ok j => laneOut t r m.e false ((t.reg j).setWidth 64)) s

def execMovixWrite (m : MForm) (s : State) : Out :=
  let i := Instr.movixWrite m
  issueMovix i m false
    (fun k x =>
      let t := k.thread x
      let r := k.row (rowOf x)
      match movixIndex t r m with
      | .error e => .error e
      | .ok j => match readOpnd t r m.e m.e.c false with
        | .error e => .error e
        | .ok c => .ok { writes := [(.v j, c.setWidth 32)] }) s

/-! ## pf (R268) -/

/-- pf asks for its lines and goes on; lanes that would fault are dropped. -/
def execPf (m : MForm) (s : State) : Out :=
  let i := Instr.pf m
  match s.curGroup with
  | none => .next s
  | some g =>
    let k := s.cur
    if mustStall k g m.e.guard (touched (entryOf i) m.e) then .next s
    else
      let ok := accessesOf ((byLane (activeSlots k g m.e.guard)).map (checkVirtual k m 1 0 fun _ _ => .ok ()))
      let e2 := (s.cluster (clusterOf s.curCore)).e2
      let reqs := ok.zipIdx.map fun e =>
        (⟨s.ctr + e.2, none, e.1.slot, e.1.key, 0, m.ch.toNat, k.e1, e2⟩ : XlatReq)
      let s := { s.updCur fun k => { k with xlat := k.xlat ++ reqs } with ctr := s.ctr + ok.length }
      .next (s.setCurGroup (g.past i false))

/-! ## Fences (R237, R238, R269) -/

/-- A fence goes on at once when no lane is active; it waits, suspended (R269), until its condition holds of the active lanes, then
does its effect. -/
def issueFence (i : Instr) (gd : Guard) (ready : Core → Nat → Bool) (go : Group → List Nat → State → State) (s : State) : Out :=
  match s.curGroup with
  | none => .next s
  | some g =>
    if mustStall s.cur g gd (fun _ _ => []) then .next s
    else
      let act := activeSlots s.cur g gd
      if act.isEmpty then .next (s.setCurGroup (g.past i false))
      else if act.all (ready s.cur) then .next (go g act s)
      else .next (s.suspend g i)

def passFence (i : Instr) (acquire : Bool) (g : Group) (act : List Nat) (s : State) : State :=
  (if acquire then s.acquire s.curCore act else s).setCurGroup (g.past i false)

def execFenceAcq (m : MForm) (s : State) : Out :=
  issueFence (.fenceAcq m) m.e.guard Core.loadsDone (passFence (.fenceAcq m) true) s

def execFenceRel (m : MForm) (s : State) : Out :=
  issueFence (.fenceRel m) m.e.guard Core.released (passFence (.fenceRel m) false) s

def execFenceAr (m : MForm) (s : State) : Out :=
  issueFence (.fenceAr m) m.e.guard Core.released (passFence (.fenceAr m) true) s

def isFar (l : Line) : Bool := match l.fill with | .far _ _ _ => true | .local _ => false

/-- Dirty far lines of some address spaces and of the global pages, and those whose write-back is under way. -/
def State.farDirty (s : State) (asids : List Nat) : List Nat :=
  let mine (line : Nat) : Bool := keyTag (line * lineBytes) = globalTag || asids.contains (keyTag (line * lineBytes))
  (s.lines.filter fun e => e.2.dirty && isFar e.2 && mine e.1).map (·.1) ++
    (s.farWrites.filter fun w => mine w.line).map (·.line)

/-- fence.sys: the far lines that are dirty once the threads are drained are written back; it goes on when each is
acknowledged. -/
def goFenceSys (m : MForm) (g : Group) (act : List Nat) (s : State) : State :=
  match g.covers with
  | some lines =>
    if s.farWrites.any fun w => lines.contains w.line then s.suspend g (.fenceSys m) else passFence (.fenceSys m) true g act s
  | none =>
    let lines := s.farDirty (act.map fun x => (s.cur.crewAt x).asid.toNat)
    let s := lines.foldl State.writeBack s
    if lines.isEmpty then passFence (.fenceSys m) true g act s
    else s.suspend { g with covers := some lines } (.fenceSys m)

def execFenceSys (m : MForm) (s : State) : Out := issueFence (.fenceSys m) m.e.guard Core.released (goFenceSys m) s

/-! ## Atomics (R270 to R272) -/

/-- The operand and the second operand of an atomic: for .cas the compare value and the new value. -/
def atomOperands (t : Thread) (r : Row) (min : BitVec 2) (f : EForm) : Except Nat (Dword × Dword) :=
  let wide := 2 ≤ min.toNat
  if f.sub = 7 then
    match f.c.kind with
    | .scl =>
      let n := f.c.code.toNat
      .ok (if wide then (r.scalars n true, r.scalars (n + 2) true) else (r.scalars n false, r.scalars (n + 1) false))
    | _ => match regIndex t r.allot f f.c (if wide then 4 else 2) with
      | .error e => .error e
      | .ok n => .ok (if wide then (t.regs n true, t.regs (n + 2) true) else (t.regs n false, t.regs (n + 1) false))
  else match readOpnd t r f f.c wide with
    | .ok v => .ok (v, 0)
    | .error e => .error e

def atomBounds (min : BitVec 2) (f : EForm) (t : Thread) (r : Row) : Except Nat Unit :=
  match atomOperands t r min f with
  | .error e => .error e
  | .ok _ => dstBounds f (2 ≤ min.toNat) t r

/-- The result predicate (R261). -/
def atomPred (f : EForm) : Option Nat := if (f.sub = 7 || f.sub = 8 || f.sub = 9) && f.sa ≠ 7 then some f.sa.toNat else none

def atomBytes (min : BitVec 2) : Nat := if 2 ≤ min.toNat then 8 else 4

/-- The release and the acquire of an atomic's OK field (R237, R270). -/
def isRelease (m : MForm) : Bool := m.ok = 2 || m.ok = 3
def isAcquire (m : MForm) : Bool := m.ok = 1 || m.ok = 3

/-- One lane's atomic: an entry of the store buffer, or of the deterministic atomic buffer, and a result entry. -/
def State.atomLane (s : State) (core : Nat) (min : BitVec 2) (m : MForm) (dsts : Nat → List Dst) (k0 : Core) (a : Access) : State :=
  let f := m.e
  let ops := match atomOperands (k0.thread a.slot) (k0.row (rowOf a.slot)) min f with | .ok x => x | .error _ => (0, 0)
  let bytes := atomBytes min
  let id := s.ctr
  let kind : SobKind := .atomic min.toNat f.sub.toNat ops.1 ops.2 id
  let q : LqEntry :=
    { loadEntry s core id a bytes false 2 (dsts a.slot) with atomic := true, acquire := isAcquire m, pred := atomPred f }
  let s := (s.updCore core fun k => { k with lq := k.lq ++ [q] }).bump
  if (k0.crewAt a.slot).det then
    let d : DabEntry :=
      { crew := k0.crewOf a.slot, cohort := (k0.row (rowOf a.slot)).lci, tid := k0.tid a.slot, seq := id, word := a.key / 4,
        kind := kind, slot := a.slot, load := some id, release := isRelease m, hint := m.ch.toNat }
    s.updCore core fun k => { k with dab := k.dab ++ [d] }
  else
    s.appendSob core [fun n => { id := n, slots := [a.slot], kind := kind, word := a.key / 4, mask := 0xF, data := 0, sent := false,
                                 release := isRelease m, hint := m.ch.toNat }]

def performAtom (min : BitVec 2) (m : MForm) (produces : Bool) (g : Group) (l : List Access) (s : State) : State :=
  let k := s.cur
  let dsts (x : Nat) : List Dst := loadDsts k m.e (2 ≤ min.toNat) produces g.ring x
  let s := s.updCur fun k => k.pendFor (l.map (·.slot)) fun x => dsts x ++ (match atomPred m.e with | some p => [.p p] | none => [])
  let s := l.foldl (fun s a => s.atomLane s.curCore min m dsts k a) s
  if isAcquire m then s.updCur fun k => k.mapThreads (l.map (·.slot)) fun _ t => { t with acquires := t.acquires + 1 } else s

/-- Entries that atomics and reductions of some lanes need. -/
def freeLanes (k : Core) (l : List Access) : List Access := l.filter fun a => !(k.crewAt a.slot).det

def atomSpec (s : State) (core : Nat) (min : BitVec 2) (m : MForm) : AccessSpec :=
  ⟨m.e, 3, m.ch.toNat, true, checkVirtual (s.core core) m (atomBytes min) 3 (atomBounds min m.e), fun l => (freeLanes (s.core core) l).length⟩

def execAtom (min : BitVec 2) (m : MForm) (s : State) : Out :=
  let i := Instr.atom min m
  let p := (entryOf i).produces m.e
  issueAccess i (atomSpec s s.curCore min m) p
    (fun t a => touched (entryOf i) m.e t a ++ (match atomPred m.e with | some p => [.p p] | none => [])) (performAtom min m p) s

/-! ## Reductions (R240, R273) -/

/-- The groups of lanes that name one word: the word, the lanes, and the operands combined in ascending lane order. -/
def combine (op : Nat → Nat → Nat) : List (Nat × Nat × Nat) → List (Nat × List Nat × Nat) → List (Nat × List Nat × Nat)
  | [], acc => acc
  | (w, x, v) :: r, acc =>
    if acc.any fun e => e.1 = w then
      combine op r (acc.map fun e => if e.1 = w then (w, e.2.1 ++ [x], op e.2.2 v) else e)
    else combine op r (acc ++ [(w, [x], v)])

/-- Lanes with their words and operands. -/
def redLanes (k : Core) (min : BitVec 2) (f : EForm) (l : List Access) : List (Nat × Nat × Nat) :=
  l.map fun a => (a.key / 4, a.slot, (k.source f f.c (2 ≤ min.toNat) a.slot).toNat)

def redGroups (k : Core) (min : BitVec 2) (f : EForm) (l : List Access) : List (Nat × List Nat × Nat) :=
  combine (reduceOp min.toNat f.sub.toNat) (redLanes k min f (freeLanes k l)) []

/-- One lane's reduction in the deterministic atomic buffer. -/
def State.dabReduce (s : State) (core slot word hint : Nat) (kind : SobKind) : State :=
  let d (k : Core) : DabEntry := { crew := k.crewOf slot, cohort := (k.row (rowOf slot)).lci, tid := k.tid slot, seq := s.ctr,
                                   word := word, kind := kind, slot := slot, load := none, release := false, hint := hint }
  (s.updCore core fun k => { k with dab := k.dab ++ [d k] }).bump

def performRed (min : BitVec 2) (m : MForm) (_ : Group) (l : List Access) (s : State) : State :=
  let f := m.e
  let k := s.cur
  let kind (v : Nat) : SobKind := .reduction min.toNat f.sub.toNat (BitVec.ofNat 64 v) none
  let entry (e : Nat × List Nat × Nat) (id : Nat) : SobEntry :=
    { id := id, slots := e.2.1, kind := kind e.2.2, word := e.1, mask := 0xF, data := 0, sent := false, release := false,
      hint := m.ch.toNat }
  let s := s.appendSob s.curCore ((redGroups k min f l).map entry)
  (redLanes k min f (l.filter fun a => (k.crewAt a.slot).det)).foldl (fun s e => s.dabReduce s.curCore e.2.1 e.1 m.ch.toNat (kind e.2.2)) s

def redSpec (s : State) (core : Nat) (min : BitVec 2) (m : MForm) : AccessSpec :=
  ⟨m.e, 3, m.ch.toNat, true, checkVirtual (s.core core) m (atomBytes min) 3 (srcBounds m.e m.e.c (if 2 ≤ min.toNat then 2 else 1)),
    fun l => (redGroups (s.core core) min m.e l).length⟩

def execRed (min : BitVec 2) (m : MForm) (s : State) : Out :=
  issueAccess (.red min m) (redSpec s s.curCore min m) false (touched (entryOf (.red min m)) m.e) (performRed min m) s

/-- Whether a store, atomic or reduction that lacked room in the store buffer finds it now (R247). -/
def State.roomNow (s : State) (core : Nat) (g : Group) (i : Instr) : Bool :=
  match i with
  | .st m => s.accessRoom core g (storeSpec s core m)
  | .sts m => s.accessRoom core g (scratchStoreSpec s core m)
  | .atom min m => s.accessRoom core g (atomSpec s core min m)
  | .red min m => s.accessRoom core g (redSpec s core min m)
  | _ => true

/-! ## probe, icinv (R144, R145) -/

/-- The home's answer to a probe: whether an access of a kind would be permitted with local residence, by the present translation.
(DEDUCED, log 26) -/
def State.probe (s : State) (key kind : Nat) : Bool :=
  match (s.translate key).1 with
  | .ok l => leafRes l.word = 0 && leafGrants l.word kind
  | .error _ => false

/-- The kind under which a lane of probe asks its home: the access kind, beyond those of R146. -/
def probeKind (f : EForm) : Nat := 8 + f.c.code.toNat

/-- What a lane of probe asks of its home: none where the address is out of bounds or of range, which answers false. -/
def probeAccess (k : Core) (f : EForm) (x : Nat) : Option Access :=
  match readOpnd (k.thread x) (k.row (rowOf x)) f f.a true with
  | .ok va => if va.toNat / 2 ^ 57 = 0 then some ⟨x, .global, byteKey (k.crewAt x).asid.toNat va.toNat, va⟩ else none
  | .error _ => none

/-- The answer that has come for a lane. -/
def Group.probed (g : Group) (x : Nat) : Option Bool := (g.verdicts.find? fun v => v.1 = x).map fun v => v.2.2 = 0

/-- probe: the group waits for the answer of every active lane (R120). It never faults. -/
def execProbe (f : EForm) (s : State) : Out :=
  let i := Instr.probe f
  match s.curGroup with
  | none => .next s
  | some g =>
    let k := s.cur
    let asked := ((byLane (activeSlots k g f.guard)).filterMap (probeAccess k f)).filter fun a => (g.probed a.slot).isNone
    if mustStall k g f.guard (touched (entryOf i) f) then .next s
    else if !asked.isEmpty then .next (s.askVerdicts s.curCore g (probeKind f) 0 asked)
    else issueLanes i f.guard false (touched (entryOf i) f)
      (fun k x => laneOut (k.thread x) (k.row (rowOf x)) f false (boolDword ((g.probed x).getD false))) s

/-- Numbers of the groups of the device that have started and not ended. -/
def State.allGroups (s : State) : List Nat := s.cores.flatMap fun e => e.2.groups.map (·.id)

/-- The instruction-cache lines of some address spaces and of the global pages leave every core. -/
def State.icInvalidate (s : State) (asids : List Nat) : State :=
  let goes (line : Nat) : Bool := keyTag (line * lineBytes) = globalTag || asids.contains (keyTag (line * lineBytes))
  { s with cores := s.cores.mapVals fun _ k => { k with icache := k.icache.filter fun e => !goes e.1 } }

def execIcinv (f : EForm) (s : State) : Out :=
  let i := Instr.icinv f
  issueFence i f.guard Core.released (fun g act s =>
    match g.covers with
    | some ids => if ids.any s.allGroups.contains then s.suspend g i else s.setCurGroup (g.past i false)
    | none =>
      let s := s.icInvalidate (act.map fun x => (s.cur.crewAt x).asid.toNat)
      let ids := s.allGroups.filter (· ≠ g.id)
      if ids.isEmpty then s.setCurGroup (g.past i false) else s.suspend { g with covers := some ids } i) s

end Sys2Proof.Machine
end

