-- ==== Sys2Proof/Machine/Barrier.lean ====
section
/-!
DEFINITION. Barriers, merges and drains of deterministic buffers, convergence declaration, guard slots and evwait
(spec/08_core_crosslane_sync.md R190 to R205, spec/02_ordering_machine.md R41, spec/11_memory_model.md R252 to R255).
-/
namespace Sys2Proof.Machine

/-! ## The barrier that a cohort uses -/

/-- The barrier instance of a group number for a crew. -/
def State.barrier (s : State) (c : Crew) (grp : Nat) : Option Barrier :=
  s.bars.find? fun b => b.id.grp = grp && barServes b.id c.lid c.gang

def State.updBarrier (s : State) (id : BarId) (f : Barrier → Barrier) : State :=
  { s with bars := s.bars.map fun b => if b.id = id then f b else b }

/-- The membership slot of a row for a group (R97). -/
def Row.slot (r : Row) (grp : Nat) : Option GroupSlot := r.groups.find? fun x => x.grp = grp

def Row.updSlot (r : Row) (grp : Nat) (f : GroupSlot → GroupSlot) : Row :=
  { r with groups := r.groups.map fun x => if x.grp = grp then f x else x }

/-- How a barrier instruction finds its cohort. -/
structure BarView where
  row : Nat
  cohort : Nat
  crew : Crew
  bar : Barrier
  slot : GroupSlot
  member : Bool

/-- The cohort's view of a group: none where no slot of it names the group, or the group has no barrier. -/
def State.barView (s : State) (core row grp : Nat) : Option BarView :=
  let k := s.core core
  let c := k.crew (k.row row).crew
  match s.barrier c grp, (k.row row).slot grp with
  | some b, some x => some ⟨row, k.cohort row, c, b, x, b.mask.contains (k.cohort row)⟩
  | _, _ => none

/-- The group is poisoned (R193). -/
def State.poisoned? (s : State) (core row grp : Nat) : Bool :=
  let k := s.core core
  match s.barrier (k.crew (k.row row).crew) grp with
  | some b => b.poisoned
  | none => false

def State.updSlot (s : State) (core row grp : Nat) (f : GroupSlot → GroupSlot) : State :=
  s.updCore core fun k => k.updRow row fun r => r.updSlot grp f

/-! ## Arrive (R193, R194) -/

/-- Every live thread of the cohort is drained and has its loads (R205, R259). -/
def Core.cohortDrained (k : Core) (r : Nat) : Bool := (k.liveSlots r).all k.released

/-- What an arrive half can do now. -/
inductive ArriveNow where
  /-- its step is taken -/
  | step
  /-- it has arrived in this generation: it waits for the Advance -/
  | again
  /-- a thread is not drained -/
  | notYet
  deriving DecidableEq, Repr

def arriveNow (k : Core) (v : BarView) : ArriveNow :=
  if v.member && v.slot.target = some (v.bar.gen + 1) then .again
  else if k.cohortDrained v.row then .step
  else .notYet

/-- Under DET what the cohort's threads buffer from here on belongs to the next generation (R253). -/
def State.closeGeneration (s : State) (core : Nat) (v : BarView) : State :=
  if v.crew.det then
    ((s.updCore core fun k => k.updRow v.row fun r => { r with arrivedAt := s.ctr }).updBarrier v.bar.id fun b =>
      { b with arrivedAt := b.arrivedAt.set v.cohort s.ctr }).bump
  else s

/-- THE ARRIVE STEP. mode: 0 none, 1 .leave, 2 .join. -/
def State.arrive (s : State) (core : Nat) (v : BarView) (mode : Nat) : State :=
  let n := v.cohort
  let arrived (b : Barrier) : Barrier :=
    { b with arrived := insertNat n b.arrived, leaves := if mode = 1 then insertNat n b.leaves else b.leaves }
  let target (s : State) : State :=
    (s.updSlot core v.row v.bar.id.grp fun x => { x with target := some (v.bar.gen + 1), elect := none }).closeGeneration core v
  if v.member then target (s.updBarrier v.bar.id arrived)
  else if mode = 2 then
    (if v.bar.mask.isEmpty then target (s.updBarrier v.bar.id fun b => { b with mask := [n], arrived := [n] })
     else s.updBarrier v.bar.id fun b => { b with joins := insertNat n b.joins })
  else s

/-- The mode of a barrier instruction. -/
def barMode (f : EForm) : Nat := if f.a.kind = .imm then (immValue f).toNat else 0

/-- The row of a cohort block's group. -/
def Group.row (g : Group) : Nat := rowOf (g.members.headD 0)

/-- The shared frame of the barrier instructions: nothing when no lane is active; a poisoned group faults. -/
def issueBarrier (i : Instr) (f : EForm) (go : Group → List Nat → Option BarView → State → State) (s : State) : Out :=
  match s.curGroup with
  | none => .next s
  | some g =>
    if mustStall s.cur g f.guard (touched (entryOf i) f) then .next s
    else
      let act := activeSlots s.cur g f.guard
      let grp := f.c.code.toNat
      if act.isEmpty then .next (s.setCurGroup (g.past i false))
      else if s.poisoned? s.curCore g.row grp then .next (s.parkAll g i g.members 0x0C 0)
      else .next (go g act (s.barView s.curCore g.row grp) s)

def execArrive (f : EForm) (s : State) : Out :=
  let i := Instr.arrive f
  issueBarrier i f (fun g _ v s => match v with
    | none => s.setCurGroup (g.past i false)
    | some v => match arriveNow s.cur v with
      | .step => (s.arrive s.curCore v (barMode f)).setCurGroup (g.past i false)
      | .again => s.suspend g i
      | .notYet => s) s

/-! ## Wait (R193, R196) -/

/-- A cohort that waits without a target takes the next generation as its own. -/
def State.aimWait (s : State) (core : Nat) (v : BarView) : State :=
  if v.member && v.slot.target = none then
    s.updSlot core v.row v.bar.id.grp fun x => { x with target := some (v.bar.gen + 1), elect := none }
  else s

/-- Whether the wait ends now: the generation has reached the target, or the cohort is no member and has none. -/
def waitOver (v : BarView) : Bool :=
  match v.slot.target with
  | some t => t ≤ v.bar.gen
  | none => !v.member

/-- The end of a wait: the target is cleared and the core self-invalidates. -/
def State.endWait (s : State) (core : Nat) (v : BarView) (slots : List Nat) : State :=
  (s.updSlot core v.row v.bar.id.grp fun x => { x with target := none, elect := none }).acquire core slots

/-- The wait half: done ends it, once the threads have their earlier loads; otherwise the group is suspended. -/
def waitHalf (i : Instr) (g : Group) (v : Option BarView) (done : Option BarView → State → State) (s : State) : State :=
  let loads := g.members.all s.cur.loadsDone
  match v with
  | none => if loads then (done none (s.acquire s.curCore g.members)).setCurGroup (g.past i false) else s.suspend g i
  | some v =>
    if waitOver v && loads then (done (some v) (s.endWait s.curCore v g.members)).setCurGroup (g.past i false)
    else (s.aimWait s.curCore v).suspend g i

def execAwait (f : EForm) (s : State) : Out :=
  issueBarrier (.await f) f (fun g _ v s => waitHalf (.await f) g v (fun _ s => s) s) s

/-- arwait: the arrive half once, then the wait half. -/
def execArwait (f : EForm) (s : State) : Out :=
  let i := Instr.arwait f
  issueBarrier i f (fun g _ v s =>
    if g.arrived then waitHalf i g v (fun _ s => s) s
    else match v with
      | none => waitHalf i g none (fun _ s => s) s
      | some v => match arriveNow s.cur v with
        | .step =>
          let s := s.arrive s.curCore v (barMode f)
          waitHalf i { g with arrived := true } (s.barView s.curCore g.row f.c.code.toNat) (fun _ s => s) s
        | .again => s.suspend g i
        | .notYet => s) s

/-- await.elect: true in the active lanes of the elected cohort. -/
def execAwaitElect (f : EForm) (s : State) : Out :=
  issueBarrier (.awaitElect f) f (fun g act v s =>
    waitHalf (.awaitElect f) g v (fun v s =>
      let b := match v with | some v => v.slot.elect = some v.cohort | none => false
      s.updCur fun k => k.mapThreads act fun _ t => t.setPred f.d.code.toNat b) s) s

/-- The Arrive step of a cohort whose group stands at arrive or arwait. -/
def execBarrierArrive (core row : Nat) (s : State) : Out :=
  let go (st : Bool) (g : Group) (f : EForm) (i : Instr) (wait : Bool) : Option State :=
    let k := s.core core
    if g.row ≠ row || g.arrived || mustStall k g f.guard (fun _ _ => []) || (activeSlots k g f.guard).isEmpty ||
        s.poisoned? core row f.c.code.toNat then none
    else match s.barView core row f.c.code.toNat with
      | some v => match arriveNow k v with
        | .step => some ((s.arrive core v (barMode f)).updCore core fun k =>
            k.setGroup st (some (if wait then { g with arrived := true } else g.past i false)))
        | _ => none
      | none => none
  let at_ (st : Bool) : Option State :=
    match ((s.core core).stream st).group with
    | some g => match fetched g with
      | some (.arrive f) => go st g f (.arrive f) false
      | some (.arwait f) => go st g f (.arwait f) true
      | _ => none
    | none => none
  match at_ false with
  | some s' => .next s'
  | none => .next ((at_ true).getD s)

/-! ## Deterministic buffers (R41, R252 to R255) -/

/-- The number of a crew: gang × 8 + crew. -/
def crewNo (c : Crew) : Nat := c.gang * 8 + c.index

/-- Crews with a cohort in a mask. -/
def maskCrews (mask : List Nat) : List Nat := (mask.map (· / 32)).foldr insertNat []

/-- For every byte the entry of highest logical thread index, keys rising. -/
def topBytes (l : List DsbEntry) : FMap DsbEntry :=
  l.foldl (fun (m : FMap DsbEntry) e =>
    match FMap.find m e.key with
    | some q => if q.tid ≤ e.tid then m.set e.key e else m
    | none => m.set e.key e) []

/-- Merged bytes of one word that one writer stored under one hint, with none of another between them. -/
structure MergedRun where
  word : Nat
  tid : Nat
  hint : Nat
  mask : BitVec 4
  data : Word
  deriving DecidableEq, Repr

def byteRun (e : DsbEntry) : MergedRun :=
  let b : Word := e.byte.setWidth 32
  ⟨e.key / 4, e.tid, e.hint, 1#4 <<< (e.key % 4), b <<< (8 * (e.key % 4))⟩

/-- A byte is put before the runs of the bytes above it. -/
def addRun (e : DsbEntry) (l : List MergedRun) : List MergedRun :=
  let q := byteRun e
  match l with
  | x :: r => if x.word = q.word && x.tid = q.tid && x.hint = q.hint then { x with mask := x.mask ||| q.mask, data := x.data ||| q.data } :: r else q :: l
  | [] => [q]

/-- The runs of merged bytes, in ascending address order. -/
def mergedRuns (m : FMap DsbEntry) : List MergedRun := (m.map (·.2)).foldr addRun []

/-- A byte of the deterministic buffer lies in a run. -/
def MergedRun.holds (q : MergedRun) (key : Nat) : Bool := q.word = key / 4 && q.mask.getLsbD (key % 4)

/-- An entry of a cohort belongs to the generation that the barrier completes: it was made before the cohort arrived. -/
def Barrier.due (b : Barrier) (cohort seq : Nat) : Bool :=
  match b.arrivedAt.find cohort with
  | some t => seq < t
  | none => true

/-- Free entries of the store buffer (R247). -/
def Core.sobRoom (k : Core) : Nat := Config.sobSize - k.sob.length

/-- The slot of a thread of a crew by its logical index. -/
def Core.slotOf (k : Core) (crew tid : Nat) : Nat := ((k.crewSlots crew).find? fun x => k.tid x = tid).getD 0

/-- The entries of a crew's store buffer that a merge takes. -/
def Core.dsbDue (k : Core) (crew : Nat) (due : DsbEntry → Bool) : List DsbEntry := (k.crew crew).dsb.filter due

/-- Merge(crew) (R41): the surviving bytes of the entries that are due are appended to the store buffer in ascending address order,
a writer's bytes of a word as one entry where no other's lie between them, as far as there is room; they and what they overwrite leave
the deterministic buffer. (DEDUCED, log 19) -/
def State.merge (s : State) (core crew : Nat) (due : DsbEntry → Bool) : State :=
  let k := s.core core
  let runs := (mergedRuns (topBytes (k.dsbDue crew due))).take k.sobRoom
  let entry (q : MergedRun) (id : Nat) : SobEntry :=
    { id := id, slots := [k.slotOf crew q.tid], kind := .global, word := q.word, mask := q.mask, data := q.data, sent := false,
      release := false, hint := q.hint }
  (s.updCore core fun k => k.updCrew crew fun c =>
    { c with dsb := c.dsb.filter fun e => !(due e && runs.any fun q => q.holds e.key) }).appendSob core (runs.map entry)

/-- Order of the deterministic atomic buffer: cohort, thread index, program order. -/
def dabBefore (a b : DabEntry) : Bool :=
  a.cohort < b.cohort || (a.cohort = b.cohort && (a.tid < b.tid || (a.tid = b.tid && a.seq ≤ b.seq)))

/-- An entry that a scat has made: it stands behind those of the crew's cohorts (R390). -/
def DabEntry.ofEngine (d : DabEntry) : Bool := 32 ≤ d.cohort

/-- The crew's atomics and reductions that a drain takes. -/
def Core.dabDue (k : Core) (crew : Nat) (due : DabEntry → Bool) : List DabEntry := k.dab.filter fun d => d.crew = crew && due d

/-- Drain: the crew's atomics and reductions that are due leave, sorted, as far as there is room. -/
def State.drain (s : State) (core crew : Nat) (due : DabEntry → Bool) : State :=
  let k := s.core core
  let mine := ((k.dabDue crew due).mergeSort dabBefore).take k.sobRoom
  let entry (d : DabEntry) (id : Nat) : SobEntry :=
    { id := id, slots := [d.slot], kind := d.kind, word := d.word, mask := 0xF, data := 0, sent := false, release := d.release,
      hint := d.hint }
  (s.updCore core fun k => { k with dab := k.dab.filter fun d => !mine.contains d }).appendSob core (mine.map entry)

/-- Of the entries numbered below upto none of the crew's waits in the store buffer. -/
def Core.crewAcked (k : Core) (crew upto : Nat) : Bool :=
  (k.crew crew).rows.all fun r => k.sob.all fun e => upto ≤ e.id || !e.slots.any fun x => rowOf x = r

/-- The core and bind record of a crew of a launch, by its number. -/
def State.crewPlace (s : State) (lid no : Nat) : Option (Nat × Nat) :=
  let hit (e : Nat × Core) : Option (Nat × Nat) :=
    (e.2.crews.find? fun q => q.2.lid = lid && crewNo q.2 = no).map fun q => (e.1, q.1)
  s.cores.findSome? hit

/-- The crew of a launch has completed: its entries were merged and drained then (R255). -/
def State.crewCompleted (s : State) (lid no : Nat) : Bool :=
  match (s.launches.find lid).bind fun l => l.gangs.find (no / 8) with
  | some g => g.crewsDone.contains (no % 8)
  | none => false

/-- A crew's merge and drain of this generation have been taken and acknowledged. -/
def State.crewSettled (s : State) (b : Barrier) (no : Nat) : Bool :=
  s.crewCompleted b.id.lid no || (b.merged.contains no && b.drained.contains no && match s.crewPlace b.id.lid no with
    | some (c, w) => (s.core c).crewAcked w (FMap.get 0 b.upto no)
    | none => true)

/-- A barrier for which the crew's merge is enabled: all its member cohorts have arrived, and every lower crew is settled
(R253). -/
def State.mergeDue (s : State) (no : Nat) (b : Barrier) : Bool :=
  let mine := b.mask.filter fun n => n / 32 = no
  !b.poisoned && !mine.isEmpty && subsetNat mine b.arrived && !b.merged.contains no && (maskCrews b.mask).all fun m => no ≤ m || s.crewSettled b m

def execMerge (core crew : Nat) (s : State) : Out :=
  let c := (s.core core).crew crew
  if !c.det then .next s else
  match s.bars.find? fun b => barServes b.id c.lid c.gang && s.mergeDue (crewNo c) b with
  | some b =>
    let due (e : DsbEntry) : Bool := b.due (e.tid / 32) e.seq
    let s := s.merge core crew due
    if ((s.core core).dsbDue crew due).isEmpty then
      .next (s.updBarrier b.id fun b => { b with merged := insertNat (crewNo c) b.merged })
    else .next s
  | none => .next s

def execDrain (core crew : Nat) (s : State) : Out :=
  let c := (s.core core).crew crew
  if !c.det then .next s else
  match s.bars.find? fun b => barServes b.id c.lid c.gang && !b.poisoned && b.merged.contains (crewNo c) && !b.drained.contains (crewNo c) with
  | some b =>
    let due (d : DabEntry) : Bool := d.ofEngine || b.due (d.tid / 32) d.seq
    let s := s.drain core crew due
    if ((s.core core).dabDue crew due).isEmpty then
      .next (s.updBarrier b.id fun b => { b with drained := insertNat (crewNo c) b.drained, upto := b.upto.set (crewNo c) s.ctr })
    else .next s
  | none => .next s

/-! ## Advance (R194, R196) -/

/-- The core on which Tsunath has placed a crew of a launch, by its number (R435). -/
def State.placedCore (s : State) (lid no : Nat) : Option Nat :=
  match (s.launches.find lid).bind fun l => l.gangs.find (no / 8) with
  | some g => (g.place.find? fun p => p.crew = no % 8).map (·.core)
  | none => (s.crewPlace lid no).map (·.1)

/-- The level that holds a mask (R191). -/
def State.levelOf (s : State) (lid : Nat) (mask : List Nat) : Level :=
  let cores := ((maskCrews mask).filterMap (s.placedCore lid)).foldr insertNat []
  match cores with
  | [] | [_] => .core
  | c :: r => if r.all fun x => clusterOf x = clusterOf c then .cluster else .device

/-- Whether the launch runs with DET. -/
def State.launchDet (s : State) (lid : Nat) : Bool := match s.launches.find lid with | some l => l.record.det | none => false

/-- Whether Advance is enabled: every member has arrived, and under DET every member crew is settled. A group whose members have
all exited, and that no cohort joins, stays where it is (R280). (DEDUCED, log 78) -/
def State.canAdvance (s : State) (b : Barrier) : Bool :=
  !b.poisoned && !b.mask.isEmpty && subsetNat b.mask b.arrived && subsetNat b.arrived b.mask && (!subsetNat b.mask b.exited || !b.joins.isEmpty) &&
  (!s.launchDet b.id.lid || (maskCrews b.mask).all (s.crewSettled b))

/-- A membership slot learns the cohort that its generation elected. (DEDUCED, log 16) -/
def GroupSlot.learn (x : GroupSlot) (grp gen elect : Nat) : GroupSlot :=
  if x.grp = grp && x.target = some gen then { x with elect := some elect } else x

/-- The rows of a launch's crews that a barrier serves learn the outcome. -/
def learnRows (b : Barrier) (crew : Nat → Crew) (rows : FMap Row) : FMap Row :=
  rows.mapVals fun _ r =>
    if barServes b.id (crew r.crew).lid (crew r.crew).gang && (crew r.crew).lid = b.id.lid then
      { r with groups := r.groups.map fun x => x.learn b.id.grp (b.gen + 1) (maxNat b.mask) }
    else r

def execAdvance (bar : BarId) (s : State) : Out :=
  match s.bars.find? fun b => b.id = bar with
  | some b =>
    if s.canAdvance b then
      let mask := unionNat (b.mask.filter fun n => !b.leaves.contains n) b.joins
      let saved (_ : Nat) (g : Gang) : Gang :=
        { g with saved := g.saved.map fun x => { x with rows := learnRows b (fun _ => x.crew) x.rows } }
      let s := { s with
        cores := s.cores.mapVals fun _ k => { k with rows := learnRows b k.crew k.rows }
        launches := s.launches.adjust b.id.lid fun l => { l with gangs := l.gangs.mapVals saved } }
      .next (s.updBarrier bar fun b =>
        { b with gen := b.gen + 1, mask := mask, arrived := [], leaves := [], joins := [], merged := [], drained := [],
                 arrivedAt := [], upto := [], exited := [], level := s.levelOf b.id.lid mask })
    else .next s
  | none => .next s

/-! ## sign (R198) -/

def convOf (f : EForm) : Nat := f.a.code.toNat - 16

/-- .new. -/
def signNew (f : EForm) : Bool := f.b.kind = .imm

/-- Adds the cohort's active threads to the declared set. A command counts as partly signed from its first signature on, even when
its signers have exited since. (DESIGN CHOICE, log 76) -/
def execSign (f : EForm) (s : State) : Out :=
  let i := Instr.sign f
  match s.curGroup with
  | none => .next s
  | some g =>
    let act := activeSlots s.cur g f.guard
    if mustStall s.cur g f.guard (fun _ _ => []) || !act.all s.cur.released then .next s
    else if act.isEmpty then .next (s.setCurGroup (g.past i false))
    else
      let crew := s.cur.crewOf (act.headD 0)
      let v := (s.cur.crew crew).conv (convOf f)
      if signNew f && v.pending.isSome then .next (s.suspend g i)
      else
        let declared := unionNat act (if signNew f then [] else v.declared)
        .next ((s.updCur fun k => k.updCrew crew fun c => c.setConv (convOf f) { v with declared := declared }).setCurGroup (g.past i false))

/-! ## Guard slots (R204) -/

def gslotOf (f : EForm) : Nat := f.d.code.toNat - 32

/-- What a gdset resolves a slot to, from the active lanes of the group. -/
def gdValue (k : Core) (f : EForm) (act : List Nat) : Bool :=
  if f.a.kind = .spc then act.any fun x => (k.thread x).pred f.a.code.toNat else onceValue k f f.a false act ≠ 0

/-- A write of a guard slot, once for the group, in each crew with an active lane (R204). (DEDUCED, log 21) -/
def issueGd (i : Instr) (f : EForm) (value : Core → List Nat → Option Bool) (s : State) : Out :=
  match s.curGroup with
  | none => .next s
  | some g =>
    let k := s.cur
    if mustStall k g f.guard (touched (entryOf i) f) then .next s
    else
      let act := activeSlots k g f.guard
      let put (k : Core) (b : Nat) : Core := k.updCrew b fun c =>
        match value s.cur act with
        | some v => { c with gd := c.gd.set (gslotOf f) v }
        | none => { c with gd := c.gd.erase (gslotOf f) }
      .next ((s.updCur fun k => (k.crewsOf act).foldl put k).setCurGroup (g.past i false))

def execGdset (f : EForm) (s : State) : Out := issueGd (.gdset f) f (fun k act => some (gdValue k f act)) s

def execGdclr (f : EForm) (s : State) : Out := issueGd (.gdclr f) f (fun _ _ => none) s

/-! ## Events (R200 to R202) -/

/-- evwait: each active thread places its request in lane order; D is pending, and its later loads come after an acquire (R237). -/
def execEvwait (f : EForm) (s : State) : Out :=
  let i := Instr.evwait f
  let p := (entryOf i).produces f
  match s.curGroup with
  | none => .next s
  | some g =>
    let k := s.cur
    if mustStall k g f.guard (touched (entryOf i) f) || latchBusy k g p then .next s
    else
      let act := byLane (activeSlots k g f.guard)
      let checks := act.map fun x => match dstBounds f true (k.thread x) (k.row (rowOf x)) with
        | .ok _ => .ok ⟨x, .global, 0, 0⟩
        | .error c => .error ⟨x, c, 0, 0⟩
      let r := s.parkFaults s.curCore g i (faultsOf checks)
      let done := act.filter fun x => (accessesOf checks).any (fun a => a.slot = x) && r.2.members.contains x
      let dsts (x : Nat) : List Dst := loadDsts k f true p g.ring x
      let place (k : Core) (e : Nat × Nat) : Core :=
        { k.updCrew (k.crewOf e.1) (fun c => { c with evReqs := c.evReqs ++ [⟨e.1, s.ctr + e.2⟩] }) with
          results := k.results ++ [⟨s.ctr + e.2, e.1, dsts e.1, none, none⟩] }
      let enter (k : Core) : Core := (k.pendFor done dsts).mapThreads done fun _ t => { t with acquires := t.acquires + 1 }
      let s := r.1.updCur fun k => done.zipIdx.foldl place (enter (writeLanes k r.2 done p fun _ => {}))
      .next (({ s with ctr := s.ctr + done.length }).setCurGroup (r.2.past i p))

/-- The oldest request takes the oldest record; the core self-invalidates (R202, R205). -/
def execTake (core crew : Nat) (s : State) : Out :=
  let c := (s.core core).crew crew
  match c.evReqs, c.evq with
  | q :: reqs, v :: evq =>
    let give (r : Result) : Result := if r.id = q.result then { r with value := some v } else r
    .next ((s.updCore core fun k =>
      { k.updCrew crew (fun c => { c with evReqs := reqs, evq := evq }) with results := k.results.map give }).selfInvalidate core)
  | _, _ => .next s

/-- A record that waits for room is appended (R393, R429). -/
def execPost (core crew : Nat) (s : State) : Out :=
  let c := (s.core core).crew crew
  match c.held with
  | v :: r =>
    if c.evq.length < Config.evqSize then .next (s.updCore core fun k => k.updCrew crew fun c => { c with evq := c.evq ++ [v], held := r })
    else .next s
  | [] => .next s

end Sys2Proof.Machine
end

