-- ==== Sys2Proof/Machine/MemEvents.lean ====
section
/-!
DEFINITION. Steps of translation, heat, migration, maintenance and write-back, and the partition registers
(spec/10_memory_translation.md R221, R226 to R236; spec/25_containment.md R461, R465).
-/
namespace Sys2Proof.Machine

/-! ## Verdicts that arrive (R120, R227) -/

/-- A verdict reaches the group that holds for it. -/
def Group.learn (g : Group) (gid slot word code : Nat) : Group :=
  if g.id = gid then { g with verdicts := g.verdicts ++ [(slot, word, code)] } else g

def Core.updGroups (k : Core) (f : Group → Group) : Core :=
  { k with stream0 := { k.stream0 with group := k.stream0.group.map f }, stream1 := { k.stream1 with group := k.stream1.group.map f },
           suspended := k.suspended.map f }

/-- A pf's line enters the views as unowned, by the epoch rule, with its errors (R268, R36, R274). (DEDUCED, log 30) -/
def State.prefetched (s : State) (core : Nat) (q : XlatReq) : State :=
  let line := q.key / lineBytes
  let l := s.lineOfWord (16 * line)
  (List.range 16).foldl (fun s i =>
    let w := 16 * line + i
    s.install core q.e1 q.e2 q.hint w ⟨l.word i, false, l.rp, l.wp, l.xp, s.taint w, q.hint = 1, s.stamp⟩) s

/-- The request ends with a verdict, 0 for permitted. -/
def State.endRequest (s : State) (core : Nat) (q : XlatReq) (code : Nat) : State :=
  let s := s.updCore core fun k => { k with xlat := k.xlat.filter fun x => x.id ≠ q.id }
  match q.group with
  | some gid => s.updCore core fun k => k.updGroups fun g => g.learn gid q.slot (q.key / 4) code
  | none => if code = 0 then s.prefetched core q else s

/-- An access waits for the transport read of its line. -/
def State.joinFar (s : State) (core : Nat) (q : XlatReq) : State :=
  s.joinRead q.key q.kind (fun r => !r.waiters.contains (core, q.id)) fun r => { r with waiters := r.waiters ++ [(core, q.id)] }

/-- The verdict of an access; the answer to a lane of probe. -/
def execTranslationVerdict (core req : Nat) (s : State) : Out :=
  match (s.core core).xlat.find? fun q => q.id = req with
  | some q =>
    if 8 ≤ q.kind then .next (s.endRequest core q (if s.probe q.key (q.kind - 8) then 0 else 0x0A))
    else match s.verdict q.key q.kind q.hint with
      | (.permitted, s) => .next (s.endRequest core q 0)
      | (.fault c, s) => .next (s.endRequest core q c)
      | (.wait, s) => .next (s.joinFar core q)
  | none => .next s

/-- A far line arrives: it fills the LLC, and the accesses that wait for it count for heat (R229, R230). A line of a range that is
blocked, or was since it was asked for, is dropped: its accesses walk again (R234). -/
def State.fillFar (s : State) (line : Nat) (data : BitVec 512) : State :=
  match s.farReads.find? fun r => r.line = line with
  | some r =>
    if r.stale || s.isBlocked (line * lineBytes) then { s with farReads := s.farReads.erase r }
    else match s.makeRoom line with
      | (false, s) => s
      | (true, s) =>
        let leaf : Leaf := ⟨r.leafAddr, r.leaf.toNat, r.level⟩
        let l := lineFrom leaf data (lineTags data) 0 (.far r.index r.addr r.dest) r.first.toNat
        r.heat.foldl (fun s h => s.sendHeat h.1 h.2 leaf) { s with lines := s.lines.set line l, farReads := s.farReads.erase r }
  | none => s

/-- The line's arrival is an ingress item (R482). -/
def execFarLineFill (line : Nat) (data : BitVec 512) (s : State) : Out := .next (s.wake.fillFar line data)

/-! ## Heat (R230 to R233) -/

/-- A leaf after a heat update. -/
def heated (e : Nat) (write : Bool) : Nat :=
  if write then withBits e 10 9 (min 3 (bitsOf e 10 9 + 1)) else withBits e 8 7 (min 3 (bitsOf e 8 7 + 1))

/-- The heat update at the head of the queue: one atomic step on the leaf, which may post a migration record. -/
def execHeatUpdate (s : State) : Out :=
  match s.heat with
  | [] => .next s
  | h :: r =>
    let s := { s with heat := r }
    let e := heated (s.tableWord h.leafAddr) h.write
    if bitsOf e 8 7 ≠ 3 || leafRes e ≠ 1 || e.testBit 11 then .next (s.writeTable h.leafAddr e)
    else if s.migQ.length < Config.migCredits then
      let rec_ : MigRec := { asid := h.tag, glb := h.glb, size := h.size, part := h.part, hw := bitsOf e 10 9, va := h.va, leafAddr := h.leafAddr }
      .next { s.writeTable h.leafAddr (e + 2 ^ 11) with migQ := s.migQ ++ [rec_] }
    else .next { s.writeTable h.leafAddr e with migdrop := FMap.put 0 s.migdrop h.part (FMap.get 0 s.migdrop h.part + 1) }

/-- Indices of the 8-byte words of a table at base that are not all zero. -/
def listedWords (m : Memory) (base n : Nat) : List Nat :=
  ((m.slice base (8 * n)).map fun e => (e.1 - base) / 8).foldr insertNat []

/-- Addresses of the words of the tables under a table that are not zero. -/
def State.wordsUnder (s : State) : Nat → Nat → List Nat
  | 0, _ => []
  | n + 1, table => (listedWords s.dram table 1024).flatMap fun i =>
    let e := s.tableWord (table + 8 * i)
    (table + 8 * i) :: if e.testBit 0 && !e.testBit 1 then s.wordsUnder n (tableBase e) else []

/-- Addresses of the words in the tables of every live ASID and of the global table. -/
def State.liveWords (s : State) : List Nat :=
  let asidt := tableBase s.asidt.toNat
  let asids := (listedWords s.dram asidt 65536).filterMap s.root
  let roots := (s.root globalTag).toList ++ asids
  (roots.flatMap (s.wordsUnder 4)).foldr insertNat []

/-- Addresses of the valid leaves among them. -/
def State.liveLeaves (s : State) : List Nat := s.liveWords.filter fun a => (s.tableWord a).testBit 0 && (s.tableWord a).testBit 1

def cooled (e : Nat) : Nat := withBits (withBits e 8 7 (bitsOf e 8 7 - 1)) 10 9 (bitsOf e 10 9 - 1)

/-- The sweeper lowers the heat of every leaf (R231), having read each sector of the tables once (R465); it pauses above C0
(R480). -/
def execSweep (s : State) : Out :=
  if s.power ≠ .c0 then .next s
  else .next (s.liveLeaves.foldl (fun s a => s.putTable a (cooled (s.tableWord a)))
    (s.countReads ((s.liveWords.map (· / 32)).foldr insertNat [])))

/-! ## Write-back (R235, R238) -/

/-- A line leaves the LLC slice: a dirty one is written back first. A far line stays until its write-back is acknowledged. -/
def execLlcWriteBack (line : Nat) (s : State) : Out :=
  let s := s.writeBack line
  if s.farWrites.any fun w => w.line = line then .next s else .next { s with lines := s.lines.erase line }

/-- The transport acknowledges a far write-back, the oldest of the line: an ingress item (R482). -/
def execFarWriteBackAck (line : Nat) (s : State) : Out := .next { s.wake with farWrites := s.farWrites.eraseP fun w => w.line = line }

/-! ## Maintenance (R234) -/

/-- The pages or paths of 2^b bytes that start at the index p meet the range. -/
def rangeMeets (r : PageRange) (tag p b : Nat) : Bool :=
  tag = (if r.glb then globalTag else r.asid) && p * 2 ^ b < r.va % 2 ^ 56 + r.len && r.va % 2 ^ 56 < (p + 1) * 2 ^ b

/-- A transport read of a line of the range: what it brings is of the old translation, and what waits for it walks again. -/
def FarRead.overtaken (r : FarRead) (p : PageRange) : FarRead :=
  if rangeHas p (r.line * lineBytes) then
    { r with stale := true, waiters := [], fetches := [], cmds := [], front := false, heads := [], heat := [] }
  else r

/-- Steps 2 to 4: lines are written back and removed, copies and translations dropped; the reads of the range that are under way
fill nothing. -/
def State.dropRange (s : State) (r : PageRange) : State :=
  let lines := (s.lines.filter fun e => rangeHas r (e.1 * lineBytes)).map (·.1)
  let s := lines.foldl State.writeBack s
  let out (w : Nat) : Bool := !rangeHas r (4 * w)
  { s with lines := s.lines.filter fun e => !rangeHas r (e.1 * lineBytes)
           owners := s.owners.filter fun e => out e.1
           farReads := s.farReads.map (·.overtaken r)
           cores := s.cores.mapVals fun _ k => { k with v1 := k.v1.filter fun e => out e.1 }
           clusters := s.clusters.mapVals fun _ q => { q with v2 := q.v2.filter fun e => out e.1 }
           tlb := s.tlb.filter fun e => !rangeMeets r e.tag (e.page % 2 ^ (56 - pageBits e.level)) (pageBits e.level)
           walks := s.walks.filter fun w => !rangeMeets r w.tag w.path (pageBits w.level) }

/-- The bytes of the page that a record names. -/
def MigRec.bytes (r : MigRec) : Nat := 2 ^ (16 + 10 * r.size)

def migRange (r : MigRec) : PageRange := ⟨r.asid, r.glb, r.va, r.bytes⟩

/-- The command that a migration issues has dropped its range. -/
def Migrating.onDrop (m : Migrating) (r : PageRange) : Migrating := if migRange m.record = r then { m with dropped := true } else m

/-- With the end of the command for the local leaf the migration has ended. -/
def Migrating.onUnblock (m : Migrating) (r : PageRange) : Option Migrating := if migRange m.record = r && m.final && m.dropped then none else some m

/-- THE COMMAND: step 1, steps 2 to 4, step 5. -/
def execMaintenanceCommand (range : PageRange) (phase : MaintPhase) (s : State) : Out :=
  match phase with
  | .block => .next { s with blocked := s.blocked ++ [range] }
  | .drop =>
    if s.blocked.contains range then
      let s := s.dropRange range
      .next { s with migrating := s.migrating.map (·.onDrop range) }
    else .next s
  | .unblock =>
    if s.blocked.contains range then
      .next { s with blocked := s.blocked.erase range, migrating := s.migrating.bind (·.onUnblock range) }
    else .next s

/-! ## Migration (R234) -/

/-- Lines of local memory written by their homes, with new tags (R20, R462). -/
def State.storeCopied (s : State) (pa : Nat) : List Nat → State
  | [] => s
  | d :: r => (s.storeLine pa (lineFrom ⟨0, 0, 4⟩ (BitVec.ofNat 512 d) (lineTags (BitVec.ofNat 512 d)) 0 (.local pa) 0)).storeCopied
      (pa + lineBytes) r

/-- Whole lines of bytes, as numbers. -/
def lineNumbers (bytes : List Byte) : List Nat :=
  (List.range (bytes.length / lineBytes)).map fun i => leNat ((bytes.drop (lineBytes * i)).take lineBytes)

/-- The page of a migration is gone from every cache: the command for its absent leaf has ended. -/
def State.cleared (s : State) (m : Migrating) : Bool := m.dropped && !m.final && !s.blocked.contains (migRange m.record)

/-- Whether the page of a migration can take these bytes at pa: it comes next in the local page, which is chosen with the first
bytes, nothing of the old page is cached or on its way to the far target, and they are whole lines. (DEDUCED, log 61) -/
def State.mayCopy (s : State) (m : Migrating) (pa n : Nat) : Bool :=
  s.cleared m && (if m.copied = 0 then pa % m.record.bytes = 0 && pa + m.record.bytes ≤ 2 ^ 43 else pa = m.target + m.copied) && n ≠ 0 &&
  n % lineBytes = 0 && m.copied + n ≤ m.record.bytes && !s.farWrites.any fun w => rangeHas (migRange m.record) (w.line * lineBytes)

/-- The leaf of a record rewritten. -/
def State.rewriteLeaf (s : State) (r : MigRec) (f : Nat → Nat) : State := s.writeTable r.leafAddr (f (s.tableWord r.leafAddr))

/-- MIGRATION: take a record and make the page absent; when the command for that has ended copy the page, in ascending order; when
all of it is there, make the leaf local, for which a second command follows. (DEDUCED, log 61) -/
def execMigration (phase : MigPhase) (s : State) : Out :=
  match phase, s.migrating, s.migQ with
  | .take, none, r :: rest =>
    .next (({ s with migrating := some { record := r, target := 0, copied := 0 }, migQ := rest }).rewriteLeaf r fun e => withBits e 13 12 2)
  | .copy pa bytes, some m, _ =>
    if s.mayCopy m pa bytes.length then
      .next ({ s with migrating := some { m with target := if m.copied = 0 then pa else m.target, copied := m.copied + bytes.length } }
        |>.storeCopied pa (lineNumbers bytes))
    else .next s
  | .finish pa, some m, _ =>
    if pa = m.target ∧ m.copied = m.record.bytes ∧ m.final = false then
      .next (({ s with migrating := some { m with final := true, dropped := false } }).rewriteLeaf m.record fun e =>
        withBits (withBits (withBits e 13 12 0) 51 16 (pa / 2 ^ 16)) 11 11 0)
    else .next s
  | _, _, _ => .next s

/-! ## Patrol and partition registers (R221, R461, R465) -/

/-- The patrol of a module rewrites every sector that it corrects, reserved ones too, and counts it (R461, R465); it pauses above C0
(R480). (DEDUCED, log 29) -/
def execPatrol (part : Nat) (s : State) : Out :=
  let fix (s : State) (n : Nat) : State :=
    if sectorPart n = part && (if n < 2 ^ 38 then s.readSector n else s.readStored n) = .corrected then
      { s.countEcc part 0 with flips := s.flips.erase n }
    else s
  .next (if s.power ≠ .c0 then s else s.flips.keys.foldl fix s)

/-- A write of a counter of a partition; a number that names no partition names no register (R10). -/
def onPart (part : Nat) (s t : State) : Out := .next (if part < Config.partitions then t else s)

def execPartMigdropClear (part : Nat) (value : Word) (s : State) : Out :=
  onPart part s { s with migdrop := FMap.put 0 s.migdrop part (FMap.get 0 s.migdrop part &&& ~~~value) }

def execPartOrphanClear (part : Nat) (value : Word) (s : State) : Out :=
  onPart part s { s with orphan := FMap.put 0 s.orphan part (FMap.get 0 s.orphan part &&& ~~~value) }

def execPartEccClear (part : Nat) (value : Dword) (s : State) : Out :=
  onPart part s { s with ecc := FMap.put 0 s.ecc part (FMap.get 0 s.ecc part &&& ~~~value) }

/-- Bits [51:lo]. -/
def baseMask (lo : Nat) : Dword := BitVec.ofNat 64 (2 ^ 52 - 2 ^ lo)

/-- Every partition holds the same value; reserved bits stay 0. -/
def execPartitionRegisterWrite (reg : PartReg) (value : Dword) (s : State) : Out :=
  match reg with
  | .asidt => .next { s with asidt := value &&& baseMask 13 }
  | .groot => .next { s with groot := value &&& (baseMask 13 ||| 1) }
  | .farmap => .next { s with farmap := value &&& baseMask 12 }

end Sys2Proof.Machine
end

