-- ==== Sys2Proof/Machine/RankTiles.lean ====
section
/-!
DEFINITION. Rank-tile arithmetic in FP64 (spec/16_rank_tiles.md R330 to R333, R337, R338, R346; spec/17_rank_instructions.md R358 to
R363). Numbers are FP64 encodings; every operation rounds once by RNE; vectors and matrices are lists.
-/
namespace Sys2Proof.Machine

/-! ## FP64 -/

def rne64 (v : FVal) : Nat := f64.encode 0 false 0 v

def fma64 (a b c : Nat) : Nat := rne64 (FVal.fma 0 (f64.decode a) (f64.decode b) (f64.decode c))
def add64 (a b : Nat) : Nat := rne64 ((f64.decode a).add 0 (f64.decode b))
def neg64 (a : Nat) : Nat := a ^^^ 2 ^ 63
def sub64 (a b : Nat) : Nat := rne64 ((f64.decode a).add 0 (f64.decode b).neg)
def mul64 (a b : Nat) : Nat := rne64 ((f64.decode a).mul (f64.decode b))
def div64 (a b : Nat) : Nat := rne64 ((f64.decode a).div 56 (f64.decode b))
def sqrt64 (a : Nat) : Nat := rne64 ((f64.decode a).sqrt 56)

def one64 : Nat := 0x3FF0000000000000
def nan64 : Nat := f64.nan

def zero64 (a : Nat) : Bool := (f64.decode a).isZero
def lt64 (a b : Nat) : Bool := (f64.decode a).lt (f64.decode b)
def le64 (a b : Nat) : Bool := lt64 a b || (f64.decode a).eq (f64.decode b)

/-- NaN or an infinity (R333). -/
def nonFinite (a : Nat) : Bool := decide (f64.inf ≤ a % 2 ^ 63)

/-- Sign(x) of R338. -/
def sign64 (a : Nat) : Nat := if le64 0 a then one64 else neg64 one64

def abs64 (a : Nat) : Nat := a % 2 ^ 63

/-! ## Sums and matrices -/

/-- A sum of products on top of s, in ascending order. -/
def dotFrom (s : Nat) : List Nat → List Nat → Nat
  | x :: r, y :: q => dotFrom (fma64 x y s) r q
  | _, _ => s

def dot64 (x y : List Nat) : Nat := dotFrom 0 x y

def at2 (x : List (List Nat)) (i j : Nat) : Nat := (x.getD i []).getD j 0

/-- Row i of a matrix held by columns. -/
def rowOf2 (cols : List (List Nat)) (i : Nat) : List Nat := cols.map fun c => c.getD i 0

/-- A matrix of n lists held the other way. -/
def transpose64 (n : Nat) (x : List (List Nat)) : List (List Nat) := (List.range n).map (rowOf2 x)

def unit64 (n i : Nat) : List Nat := (List.range n).map fun j => if j = i then one64 else 0

/-! ## Kinds (R330 to R333) -/

def zeroTile (m n : Nat) : TileVal := ⟨m, n, .zero, 0, [], [], []⟩
def denseTile (m n : Nat) (rows : List (List Nat)) : TileVal := ⟨m, n, .dense, 0, rows, [], []⟩
def lowTile (m n : Nat) (u v : List (List Nat)) : TileVal := ⟨m, n, .low, u.length, [], u, v⟩

/-- R330. -/
def admits (r rmax m n : Nat) : Bool := decide (1 ≤ r) && decide (r ≤ rmax) && decide (r * (m + n) < m * n)

/-- The elements of a tile by rows; a low-rank tile by the sum of R331 step 4. -/
def TileVal.expand (t : TileVal) : List (List Nat) :=
  match t.kind with
  | .dense => t.elems
  | .zero => List.replicate t.m (List.replicate t.n 0)
  | .low => (List.range t.m).map fun i => (List.range t.n).map fun j => dot64 (rowOf2 t.u i) (rowOf2 t.v j)

/-- An element of the tile is NaN or infinite (R333). -/
def TileVal.bad (t : TileVal) : Bool :=
  match t.kind with
  | .zero => false
  | .dense => t.elems.any fun r => r.any nonFinite
  | .low => t.u.any (fun c => c.any nonFinite) || t.v.any fun c => c.any nonFinite

/-- The dense tile of canonical NaNs (R333). -/
def nanTile (m n : Nat) : TileVal := denseTile m n (List.replicate m (List.replicate n nan64))

/-- R331. -/
def TileVal.classify (t : TileVal) (rmax : Nat) : TileVal :=
  match t.kind with
  | .zero => t
  | .dense => t
  | .low =>
    if t.rank = 0 then zeroTile t.m t.n
    else if admits t.rank rmax t.m t.n then t
    else denseTile t.m t.n t.expand

/-- Sums of kinds (R332). -/
def TileVal.plus (a b : TileVal) : TileVal :=
  match a.kind, b.kind with
  | .zero, _ => b
  | _, .zero => a
  | .low, .low => lowTile a.m a.n (a.u ++ b.u) (a.v ++ b.v)
  | _, _ => denseTile a.m a.n (List.zipWith (List.zipWith add64) a.expand b.expand)

/-- Products of kinds (R332). -/
def TileVal.times (a b : TileVal) : TileVal :=
  match a.kind, b.kind with
  | .zero, _ => zeroTile a.m b.n
  | _, .zero => zeroTile a.m b.n
  | .dense, .dense =>
    let cols := transpose64 b.n b.elems
    denseTile a.m b.n (a.elems.map fun r => cols.map (dot64 r))
  | .dense, .low => lowTile a.m b.n (b.u.map fun u => a.elems.map fun r => dot64 r u) b.v
  | .low, .dense =>
    let cols := transpose64 b.n b.elems
    lowTile a.m b.n a.u (a.v.map fun v => cols.map fun c => dot64 c v)
  | .low, .low =>
    -- C by rows: ra × rb
    let c := a.v.map fun v => b.u.map (dot64 v)
    if a.rank ≤ b.rank then
      lowTile a.m b.n a.u (c.map fun row => (List.range b.n).map fun j => dot64 (rowOf2 b.v j) row)
    else
      lowTile a.m b.n ((List.range b.rank).map fun q => (List.range a.m).map fun i => dot64 (rowOf2 a.u i) (rowOf2 c q)) b.v

/-- The exact negation of .nb (R359). -/
def TileVal.negated (t : TileVal) : TileVal := { t with elems := t.elems.map (·.map neg64), u := t.u.map (·.map neg64) }

/-- R358. -/
def TileVal.transposed (t : TileVal) : TileVal :=
  { t with m := t.n, n := t.m, elems := if t.kind = .dense then transpose64 t.n t.elems else [], u := t.v, v := t.u }

/-! ## Rank rounding (R337, R338) -/

/-- Reflect(v, g, y). -/
def reflect (v : List Nat) (g : Nat) (y : List Nat) : List Nat :=
  let f := div64 (dot64 v y) g
  List.zipWith (fun a b => fma64 f a b) v y

/-- A reflection applied from entry j on. -/
def reflectFrom (j : Nat) (v : List Nat) (g : Nat) (y : List Nat) : List Nat := y.take j ++ reflect v g (y.drop j)

/-- One column of HouseQR: the matrix by columns, and the reflections so far. -/
def houseCol (st : List (List Nat) × List (Option (List Nat × Nat))) (j : Nat) : List (List Nat) × List (Option (List Nat × Nat)) :=
  let c := st.1.getD j []
  let t := c.drop j
  let alpha := sqrt64 (dot64 t t)
  if zero64 alpha then (st.1, st.2 ++ [none])
  else
    let x := t.headD 0
    let beta := mul64 (neg64 (sign64 x)) alpha
    let v := sub64 x beta :: t.tail
    let g := mul64 beta (v.headD 0)
    let cols := st.1.zipIdx.map fun e =>
      if e.2 < j then e.1
      else if e.2 = j then c.take j ++ (beta :: List.replicate (t.length - 1) 0)
      else reflectFrom j v g e.1
    (cols, st.2 ++ [some (v, g)])

/-- HouseQR of m rows given by columns: Q by columns, R by rows. -/
def houseQR (m : Nat) (x : List (List Nat)) : List (List Nat) × List (List Nat) :=
  let k := min m x.length
  let st := (List.range k).foldl houseCol (x, [])
  let back (q : List (List Nat)) (j : Nat) : List (List Nat) := match (st.2.getD j none) with
    | some (v, g) => q.map (reflectFrom j v g)
    | none => q
  let q := (List.range k).reverse.foldl back ((List.range k).map (unit64 m))
  let r := (List.range k).map (rowOf2 st.1)
  let flip (j : Nat) : Bool := lt64 (at2 r j j) 0
  (q.zipIdx.map (fun e => if flip e.2 then e.1.map neg64 else e.1), r.zipIdx.map (fun e => if flip e.2 then e.1.map neg64 else e.1))

/-- The rotation of two columns by JacobiPair. -/
def rotate (cs sn : Nat) (x y : List Nat) : List Nat × List Nat :=
  (List.zipWith (fun p q => fma64 (neg64 sn) q (mul64 cs p)) x y, List.zipWith (fun p q => fma64 sn p (mul64 cs q)) x y)

/-- Columns i and j replaced. -/
def setPair (x : List (List Nat)) (i j : Nat) (p : List Nat × List Nat) : List (List Nat) := (x.set i p.1).set j p.2

/-- JacobiPair(W, Z, i, j), both by columns. -/
def jacobiPair (wz : List (List Nat) × List (List Nat)) (ij : Nat × Nat) : List (List Nat) × List (List Nat) :=
  let x := wz.1.getD ij.1 []
  let y := wz.1.getD ij.2 []
  let a := dot64 x x
  let b := dot64 y y
  let c := dot64 x y
  if zero64 c then wz
  else
    let z := div64 (sub64 b a) (mul64 0x4000000000000000 c)
    let t := div64 (sign64 z) (add64 (abs64 z) (sqrt64 (fma64 z z one64)))
    let cs := div64 one64 (sqrt64 (fma64 t t one64))
    let sn := mul64 cs t
    (setPair wz.1 ij.1 ij.2 (rotate cs sn x y), setPair wz.2 ij.1 ij.2 (rotate cs sn (wz.2.getD ij.1 []) (wz.2.getD ij.2 [])))

/-- The pairs of one sweep. -/
def sweepPairs (kv : Nat) : List (Nat × Nat) :=
  (List.range (kv - 1)).flatMap fun i => (List.range (kv - 1 - i)).map fun d => (i, i + 1 + d)

/-- Whether the value x comes before y in the order of R337: the greater first. (DEDUCED, log 35) -/
def before64 (x y : Nat) : Bool :=
  if (f64.decode x).isNan || (f64.decode y).isNan then Config.nanBefore x y else lt64 y x

/-- An index put among those of lower index, before those it precedes. -/
def insertBy (s : List Nat) (b : Nat) : List Nat → List Nat
  | [] => [b]
  | c :: r => if before64 (s.getD b 0) (s.getD c 0) then b :: c :: r else c :: insertBy s b r

def sortDown (s : List Nat) : List Nat := (List.range s.length).foldl (fun l b => insertBy s b l) []

/-- tail[p] for p = 0 to kv, of values in their order. -/
def tails : List Nat → List Nat
  | [] => [0]
  | x :: r => let t := tails r; fma64 x x (t.headD 0) :: t

/-- RoundRank(U, V, r, τ, TM), for factors by columns. -/
def roundRank (m n : Nat) (u v : List (List Nat)) (tau : Nat) (relative : Bool) : List (List Nat) × List (List Nat) :=
  let r := u.length
  let a := houseQR m u
  let b := houseQR n v
  let kv := b.2.length
  let s := b.2.map fun rv => a.2.map fun ru => dot64 ru rv
  let sweeps := if r ≤ 8 then 4 else if r ≤ 32 then 6 else 8
  let pairs := (List.replicate sweeps (sweepPairs kv)).flatten
  let wz := pairs.foldl jacobiPair (s, (List.range kv).map (unit64 kv))
  let sig := wz.1.map fun c => sqrt64 (dot64 c c)
  let order := sortDown sig
  let tail := tails (order.map fun q => sig.getD q 0)
  let lim := if relative then mul64 tau (sqrt64 (tail.headD 0)) else tau
  let k := if (f64.decode lim).isNan then 0 else (tail.findIdx fun x => le64 (sqrt64 x) lim)
  let times (q : List (List Nat)) (rows : Nat) (c : List Nat) : List Nat := (List.range rows).map fun i => dot64 (rowOf2 q i) c
  let kept := order.take k
  (kept.map fun q => times a.1 m (wz.1.getD q []), kept.map fun q => times b.1 n (wz.2.getD q []))

/-- The tile after rank rounding (R337, R339); a zero tile stays. -/
def TileVal.rounded (t : TileVal) (tau : Nat) (relative : Bool) : TileVal :=
  match t.kind with
  | .zero => t
  | .dense =>
    let uv := roundRank t.m t.n (transpose64 t.n t.elems) ((List.range t.n).map (unit64 t.n)) tau relative
    lowTile t.m t.n uv.1 uv.2
  | .low =>
    let uv := roundRank t.m t.n t.u t.v tau relative
    lowTile t.m t.n uv.1 uv.2

/-! ## Factorisation and solves (R360 to R363) -/

/-- One step k of tlu. -/
def luStep (x : List (List Nat)) (k : Nat) : Except Nat (List (List Nat)) :=
  let top := x.getD k []
  let p := top.getD k 0
  if zero64 p then .error k
  else .ok (x.zipIdx.map fun e =>
    if e.2 ≤ k then e.1
    else
      let l := div64 (e.1.getD k 0) p
      e.1.take k ++ (l :: List.zipWith (fun t y => fma64 (neg64 l) t y) (top.drop (k + 1)) (e.1.drop (k + 1))))

/-- tlu, or the index of the zero pivot. -/
def luTile (n : Nat) (x : List (List Nat)) : Except Nat (List (List Nat)) := (List.range n).foldlM luStep x

/-- A sum less products: s - Σ x y, in ascending order. -/
def lessFrom (s : Nat) : List Nat → List Nat → Nat
  | x :: r, y :: q => lessFrom (fma64 (neg64 x) y s) r q
  | _, _ => s

/-- One column j of tchol: the rows of L found so far get their entry j. -/
def cholStep (x : List (List Nat)) (l : List (List Nat)) (j : Nat) : Except Nat (List (List Nat)) :=
  let lj := l.getD j []
  let d := lessFrom (at2 x j j) lj lj
  if !lt64 0 d then .error j
  else
    let p := sqrt64 d
    .ok (l.zipIdx.map fun e =>
      e.1 ++ [if e.2 < j then 0 else if e.2 = j then p else div64 (lessFrom (at2 x e.2 j) e.1 lj) p])

def cholTile (n : Nat) (x : List (List Nat)) : Except Nat (List (List Nat)) :=
  (List.range n).foldlM (cholStep x) (List.replicate n [])

/-- Solve(S, y) of R362, for S by its elements. -/
def solve64 (lower unit : Bool) (n : Nat) (s : Nat → Nat → Nat) (y : List Nat) : List Nat :=
  let fin (i v : Nat) : Nat := if unit then v else div64 v (s i i)
  if lower then
    (List.range n).foldl (fun x i => x ++ [fin i (lessFrom (y.getD i 0) ((List.range i).map (s i)) x)]) []
  else
    (List.range n).reverse.foldl
      (fun x i => fin i (lessFrom (y.getD i 0) ((List.range (n - 1 - i)).map fun c => s i (i + 1 + c)) x) :: x) []

/-- The options of ttrsm. -/
structure TrsmOpt where
  right : Bool
  up : Bool
  unit : Bool
  tr : Bool

/-- The elements of A that ttrsm reads, with their indices (R363). -/
def triElems (o : TrsmOpt) (n : Nat) (a : List (List Nat)) : List Nat :=
  (List.range n).flatMap fun i => (List.range n).filterMap fun j =>
    if i = j then (if o.unit then none else some (at2 a i j))
    else if (j < i) = !o.up then some (at2 a i j) else none

/-- ttrsm (R362): the tile, or the first zero of the diagonal. -/
def trsmTile (o : TrsmOpt) (n : Nat) (a : List (List Nat)) (b : TileVal) : Except Nat TileVal :=
  match (List.range n).find? fun i => !o.unit && zero64 (at2 a i i) with
  | some i => .error i
  | none =>
    let flip := o.tr ^^ o.right
    let go (y : List Nat) : List Nat := solve64 (!o.up ^^ flip) o.unit n (fun i j => if flip then at2 a j i else at2 a i j) y
    .ok (match b.kind with
      | .zero => b
      | .dense =>
        if o.right then denseTile b.m b.n (b.elems.map go)
        else denseTile b.m b.n (transpose64 b.m ((transpose64 b.n b.elems).map go))
      | .low => if o.right then lowTile b.m b.n b.u (b.v.map go) else lowTile b.m b.n (b.u.map go) b.v)

/-! ## Deltas (R346) -/

/-- An entry of a delta list (R345). -/
structure Delta where
  tile : Nat
  row : Nat
  col : Nat
  set : Bool
  value : Nat
  deriving DecidableEq, Repr

/-- The values that the entries of a tile give to its elements, in list order, from the present elements. -/
def deltaVals (e : List (List Nat)) : List Delta → List ((Nat × Nat) × Nat) → List ((Nat × Nat) × Nat)
  | [], vs => vs
  | d :: r, vs =>
    let key := (d.row, d.col)
    let cur := ((vs.find? fun v => v.1 = key).map (·.2)).getD (at2 e d.row d.col)
    let x := if d.set then d.value else add64 cur d.value
    deltaVals e r ((vs.filter fun v => v.1 ≠ key) ++ [(key, x)])

/-- A tile with its entries applied, before rounding (R346). -/
def TileVal.applyDeltas (t : TileVal) (ds : List Delta) : TileVal :=
  let e := t.expand
  let vs := deltaVals e ds []
  let val (i j : Nat) : Option Nat := (vs.find? fun v => v.1 = (i, j)).map (·.2)
  if t.bad || vs.any fun v => nonFinite v.2 then nanTile t.m t.n
  else match t.kind with
    | .dense => denseTile t.m t.n (e.zipIdx.map fun r => r.1.zipIdx.map fun c => (val r.2 c.2).getD c.1)
    | _ =>
      let diff (i j : Nat) : Nat := match val i j with
        | some x => sub64 x (at2 e i j)
        | none => 0
      let rows := (List.range t.m).filter fun i => (List.range t.n).any fun j => !zero64 (diff i j)
      if rows.isEmpty then t
      else lowTile t.m t.n (t.u ++ rows.map (unit64 t.m)) (t.v ++ rows.map fun i => (List.range t.n).map (diff i))

end Sys2Proof.Machine
end

