-- ==== Sys2Proof/Machine/Descriptors.lean ====
section
/-!
DEFINITION. What the descriptors of tile and Starter commands say (spec/16_rank_tiles.md R327 to R330, R334; spec/22_starter.md R404,
R408), the array ranges of scratch addresses (R211), and the scratchpad destinations that a command has from its signature on
(R250, R295).
-/
namespace Sys2Proof.Machine

/-! ## Scratch ranges (R211) -/

/-- The array ranges of a range of scratch addresses: core, first byte, length. A range that leaves an allotment names its first
address outside. Only at a multiple of 2^20 can a range go on in another array. -/
def State.scratchRuns (s : State) (core : Nat) (c : Crew) : Nat → Nat → Nat → Except Nat (List (Nat × Nat × Nat))
  | 0, addr, _ => .error addr
  | fuel + 1, addr, bytes =>
    if bytes = 0 then .ok [] else
    let n := min bytes (2 ^ 20 - addr % 2 ^ 20)
    match s.scratchTarget core c addr, s.scratchTarget core c (addr + n - 1) with
    | some (kind, a), some _ => (s.scratchRuns core c fuel (addr + n) (bytes - n)).map fun r => ((kind.array core).getD core, a, n) :: r
    | some _, none => .error (addr + ((List.range n).find? fun i => (s.scratchTarget core c (addr + i)).isNone).getD 0)
    | none, _ => .error addr

/-- The array ranges of a legal range of scratch addresses. -/
def State.arrayAt (s : State) (core : Nat) (c : Crew) (addr bytes : Nat) : Option (List (Nat × Nat × Nat)) :=
  (s.scratchRuns core c 17 addr bytes).toOption

/-- The address of a command descriptor is a multiple of 64 in the crew's own allotment (R381, R404). (DESIGN CHOICE, log 32) -/
def descAddrOk (cr : Crew) (addr n : Nat) : Bool := addr % 64 = 0 && decide (addr < 2 ^ 20) && decide (addr + n ≤ cr.scr)

/-! ## Descriptors (R327 to R330) -/

/-- A tile descriptor, out of its 256 bits. -/
structure TileDesc where
  kind : Nat
  fmt : Nat
  m : Nat
  n : Nat
  rank : Nat
  rmax : Nat
  rel : Bool
  heap : Nat
  tau : Nat
  cap : Nat
  addr : Nat
  deriving DecidableEq, Repr

def tileSize (c : Nat) : Nat := 16 * 2 ^ c

def descOf (x : Nat) : TileDesc :=
  { kind := bitsOf x 1 0, fmt := bitsOf x 3 2, m := tileSize (bitsOf x 5 4), n := tileSize (bitsOf x 7 6), rank := bitsOf x 14 8,
    rmax := bitsOf x 22 16, rel := x.testBit 23, heap := bitsOf x 31 24, tau := bitsOf x 63 32, cap := bitsOf x 71 64,
    addr := bitsOf x 191 128 }

/-- The element format and its bytes (R328). -/
def tileFmt (c : Nat) : Fmt := if c = 0 then f32 else if c = 1 then f64 else bf16
def tileElem (c : Nat) : Nat := if c = 0 then 4 else if c = 1 then 8 else 2

/-- τ as FP64. -/
def TileDesc.tol (d : TileDesc) : Nat := rne64 (f32.decode d.tau)

/-- Bytes of a tile's storage. -/
def TileDesc.bytes (d : TileDesc) : Nat :=
  if d.kind = 1 then d.m * d.n * tileElem d.fmt else if d.kind = 2 then (d.m + d.n) * d.cap * tileElem d.fmt else 0

/-! ## Heaps (R334) -/

/-- A heap header, out of its 512 bits. -/
structure HeapHdr where
  val : Bool
  virt : Bool
  nblk : Nat
  base : Nat
  map : Nat
  deriving DecidableEq, Repr

def heapOf (x : Nat) : HeapHdr := ⟨x.testBit 0, x.testBit 1, bitsOf x 63 32, bitsOf x 127 64, bitsOf x 191 128⟩

def HeapHdr.mapBytes (h : HeapHdr) : Nat := (h.nblk + 7) / 8

/-- The blocks of an extent: the first and how many. -/
def extentOf (d : TileDesc) (h : HeapHdr) : Nat × Nat :=
  if d.bytes = 0 then (0, 0)
  else let lo := (d.addr - h.base) / 256; (lo, (d.addr - h.base + d.bytes - 1) / 256 + 1 - lo)

/-! ## Command descriptors of the Starter (R404, R408) -/

structure StarterDesc where
  load : Bool
  xf : Nat
  ntok : Nat
  layer : Nat
  xbase : Nat
  xstr : Nat
  list : Nat
  lcap : Nat
  list2 : Nat
  lcap2 : Nat
  wbase : Nat
  wstr : Nat
  rowb : Nat
  dst : Nat
  dstr : Nat
  deriving DecidableEq, Repr

def starterDesc (x : Nat) : StarterDesc :=
  { load := x.testBit 17, xf := bitsOf x 19 18, ntok := bitsOf x 30 24, layer := bitsOf x 127 64, xbase := bitsOf x 159 128,
    xstr := bitsOf x 191 160, list := bitsOf x 223 192, lcap := bitsOf x 239 224, list2 := bitsOf x 287 256, lcap2 := bitsOf x 303 288,
    wbase := bitsOf x 383 320, wstr := bitsOf x 415 384, rowb := bitsOf x 447 416, dst := bitsOf x 479 448, dstr := bitsOf x 511 480 }

def isSfetch (i : Instr) : Bool := match i with | .sfetch _ => true | _ => false
def isSpred (i : Instr) : Bool := match i with | .spred _ => true | _ => false

/-- Bytes of a token's element. -/
def tokElem (d : StarterDesc) : Nat := if d.xf = 0 then 1 else 2

/-! ## Destinations from the signature on (R250, R295, R343) -/

/-- A number in virtual memory as it stands at home, where its lines are or can be there. -/
def State.peek (s : State) (asid va n : Nat) : Option Nat :=
  match s.touch asid va n 0 with
  | (none, true, t) => some (t.homeNat asid va n)
  | _ => none

/-- Staging rows or lists that a Starter command writes, as array ranges; rows is how many staging rows sfetch writes. -/
def starterDest (s : State) (core crew : Nat) (i : Instr) (x rows : Nat) : List (Nat × Nat × Nat) :=
  let d := starterDesc x
  let out : List (Nat × Nat) :=
    if isSfetch i then (List.range rows).map fun n => (d.dst + n * d.dstr, d.rowb)
    else (if isSpred i then [(d.list, 8 + 2 * d.lcap)] else []) ++ [(d.list2, 8 + 2 * d.lcap2)]
  (out.filterMap fun r => s.arrayAt core ((s.core core).crew crew) r.1 r.2).flatten

/-- The scratchpad destinations of a Starter command, by its descriptor as it stands in the scratchpad. (DEDUCED, log 28) -/
def State.signDest (s : State) (core crew : Nat) (i : Instr) (addrA : Nat) : List (Nat × Nat × Nat) :=
  let k := s.core core
  let c := k.crew crew
  match i with
  | .spred _ | .sfetch _ | .scheck _ =>
    if descAddrOk c addrA 64 then
      let x := k.scratch.readNat (c.sbase + addrA) 64
      starterDest s core crew i x (((starterDesc x).lcap + 15) / 16 * 16)
    else []
  | _ => []

end Sys2Proof.Machine
end

