-- ==== Sys2Proof/Machine/Engine.lean ====
section
/-!
DEFINITION. What the engines have in common (spec/02_ordering_machine.md R38 to R40, spec/14_matrix_engine.md R281 to R295,
spec/15_matrix_instructions.md R310 to R313, R322, R323; R379, R394, R407, R415): the issue and signature of a command, its place in
the queue, its end, reservation, operand maps and the waits.
-/
namespace Sys2Proof.Machine

/-! ## Fields of a command -/

def zeroForm : GForm :=
  { guard := alwaysGuard, sub := 0, rm := 0, sat := false, d := 0, a := 0, b := 0, c := 0, n6 := 0, m2 := 0, gs := 0, gp := false, ge := false,
    cv := 0, imm8 := 0 }

/-- The engine-class fields of an instruction. -/
def gForm (i : Instr) : GForm := match gEntry i with | some (f, _) => f | none => zeroForm

def Cmd.form (c : Cmd) : GForm := gForm c.instr

/-- The commands that need the MXE (R281). -/
def needsMxe (i : Instr) : Bool := match engineOf 0 i with | .mxe _ => true | _ => false

/-- The tile commands (R343). -/
def isTile (i : Instr) : Bool :=
  match i with
  | .tnew _ | .tfree _ | .tinfo _ | .tmov _ | .tadd _ | .tmul _ | .trnd _ | .tdense _ | .tlu _ | .tchol _ | .ttrsm _ | .tdelta _ => true
  | _ => false

def isFence (i : Instr) : Bool := match i with | .mxfence _ => true | _ => false

/-- The status predicate of a tile command (R350), none for 7. -/
def statusPred (f : GForm) : Option Nat := let n := f.c.toNat / 16 % 8; if n = 7 then none else some n

/-- Registers of a lane that wait for a command: the metadata of spz (R318), the results of tinfo, the status of a tile command
(R353, R357). -/
def cmdDsts (i : Instr) (lane : Nat) : List Dst :=
  let f := gForm i
  let d := f.d.toNat
  match i with
  | .spz _ => (if lane < f.m then [.v d, .v (d + 1), .v (d + 2)] else []) ++
      (if lane + 32 < f.m then [.v (d + 3), .v (d + 4), .v (d + 5)] else [])
  | .tinfo _ => [.v d, .v (d + 1), .v (d + 2), .v (d + 3)]
  | _ => if isTile i then (match statusPred f with | some p => [.p p] | none => []) else []

/-- The registers that a command reads or writes in a lane. -/
def cmdRegs (i : Instr) (lane : Nat) : List Dst :=
  (engRegs i).flatMap (fun e => (List.range e.2).map fun n => Dst.v (e.1 + n)) ++ cmdDsts i lane

/-! ## Signing (R38, R199, R288, R310) -/

/-- The metadata of mmas: three words for each row (R315). -/
def cmdMeta (k : Core) (i : Instr) (lanes : List Nat) : List Word :=
  match i with
  | .mmas f =>
    (List.range f.m).flatMap fun r => (List.range 3).map fun j =>
      match slotInLane lanes (r % 32) with
      | some x => (k.thread x).reg (f.c.toNat + 3 * (r / 32) + j)
      | none => 0
  | _ => []

/-- The command that a cohort's signature fixes: its register operands come from its active lanes, single values from the
highest. From here on its scratchpad destinations are undefined to threads (R295). -/
def State.fixCmd (s : State) (core id : Nat) (i : Instr) (lanes : List Nat) : Cmd :=
  let k := s.core core
  let f := gForm i
  let x := topSlot lanes
  let t := k.thread x
  let crew := k.crewOf x
  let om := (k.crew crew).om
  { id := id, instr := i, core := core, crew := crew, row := rowOf x, lanes := lanes,
    addrD := t.regs f.d.toNat true, addrA := t.regs f.a.toNat true, addrB := t.regs f.b.toNat true, mta := cmdMeta k i lanes,
    dest := mapDest k core crew i (FMap.get 0 om (cmdMaps i).1) (FMap.get 0 om (cmdMaps i).2) ++
      s.signDest core crew i (t.regs f.a.toNat true).toNat }

/-- The convergence register that a command names. -/
def cvOf (i : Instr) : Nat := (gForm i).cv.toNat

/-- The command that a signature finds pending: the one fixed since the signed set was last emptied. -/
def pendingOf (v : ConvReg) : Option Cmd := if v.signed.isEmpty then none else v.pending

/-- A signature in a set fixed by another command (R288). -/
def signClash (k : Core) (i : Instr) (slot : Nat) : Bool :=
  match pendingOf ((k.crewAt slot).conv (cvOf i)) with
  | some c => c.instr ≠ i
  | none => false

/-- THE SIGNATURE of threads of one cohort, of which lanes are active: the command is fixed by the first, each undeclared lane is
declared, and the last signature appends. none when the queue has no room. -/
def State.signCohort (s : State) (core : Nat) (i : Instr) (lanes who : List Nat) : Option State :=
  let k := s.core core
  let crew := k.crewOf (topSlot lanes)
  let v := (k.crew crew).conv (cvOf i)
  let r : State × Nat := match pendingOf v with
    | some c => (s, c.id)
    | none =>
      ((s.updCore core fun k => (k.updCrew crew fun c => c.setConv (cvOf i) { v with pending := some (s.fixCmd core s.ctr i lanes) }).pendFor
          lanes fun x => cmdDsts i (laneOf x)).bump, s.ctr)
  let note (_ : Nat) (t : Thread) : Thread := { t with signed := t.signed ++ [r.2] }
  (r.1.updCore core fun k => k.mapThreads who note).convSets core crew (cvOf i) (unionNat lanes v.declared) (unionNat who v.signed)

/-- Cohorts sign in ascending row; answers the slots that have signed, and whether a queue without room holds the rest. -/
def State.signRows (s : State) (core : Nat) (i : Instr) (act : List Nat) (done : List Nat) : List Nat → State × List Nat × Bool
  | [] => (s, done, false)
  | r :: rest =>
    let lanes := act.filter fun x => rowOf x = r
    let who := lanes.filter fun x => !done.contains x
    if who.isEmpty then s.signRows core i act done rest
    else match s.signCohort core i lanes who with
      | some s => s.signRows core i act (unionNat who done) rest
      | none => (s, done, true)

/-- The faults of a command at its issue: the crew does not hold the MXE (0x07), or another command is pending (0x19). -/
def cmdFaults (k : Core) (g : Group) (i : Instr) (act : List Nat) : List LaneFault :=
  act.filterMap fun x =>
    if needsMxe i && k.holder ≠ some (k.crewOf x) then some ⟨x, 0x07, 0, 0⟩
    else if !g.doneAt.contains x && signClash k i x then some ⟨x, 0x19, 0, 0⟩
    else none

/-- Whether the group must stall before a command. The registers of a cohort are looked at before its first signature, which makes
the destinations pending. -/
def cmdStall (k : Core) (g : Group) (i : Instr) (gd : Guard) : Bool :=
  g.members.any fun x => anyPending k x (guardRegs gd) ||
    (guardHolds gd (k.thread x) && !(g.doneAt.any fun y => rowOf y = rowOf x) && anyPending k x (cmdRegs i (laneOf x)))

/-- The issue of an engine command. -/
def issueCmd (i : Instr) (s : State) : Out :=
  let gd := (gForm i).guard
  match s.curGroup with
  | none => .next s
  | some g =>
    let k := s.cur
    let act := activeSlots k g gd
    let fs := cmdFaults k g i act
    if cmdStall k g i gd then .next s
    else if !fs.isEmpty then
      let r := s.parkFaults s.curCore g i fs
      .next (r.1.setCurGroup r.2)
    else if act.any fun x => !k.released x then .next s
    else
      match s.signRows s.curCore i act g.doneAt (rowsOf act) with
      | (s, done, true) => .next (s.suspend { g with doneAt := done } i)
      | (s, _, false) => .next (s.setCurGroup (g.past i false))

/-- The signature of one thread of a group that stands at a command (R38). It is a release: its loads have their bytes (log 77). -/
def execSignature (core slot : Nat) (s : State) : Out :=
  let k := s.core core
  let go (st : Bool) (g : Group) (i : Instr) : Option State :=
    let act := activeSlots k g (gForm i).guard
    let earlier := act.filter fun x => rowOf x < rowOf slot
    if !(act.contains slot) || g.doneAt.contains slot || !k.released slot || cmdStall k g i (gForm i).guard ||
        !(cmdFaults k g i act).isEmpty || !subsetNat earlier g.doneAt then none
    else (s.signCohort core i (act.filter fun x => rowOf x = rowOf slot) [slot]).map fun s =>
      s.updCore core fun k => k.setGroup st (some { g with doneAt := insertNat slot g.doneAt })
  let at_ (st : Bool) : Option State :=
    match (k.stream st).group with
    | some g => match fetched g with
      | some i => match gEntry i with
        | some (_, e) => if e.queued then go st g i else none
        | none => none
      | none => none
    | none => none
  match at_ false with
  | some s' => .next s'
  | none => .next ((at_ true).getD s)

/-! ## The queue (R39, R290, R380, R407) -/

inductive GuardState where
  | run
  | against
  | unresolved
  deriving DecidableEq, Repr

/-- What a command's guard slot says of it. -/
def State.guardOf (s : State) (c : Cmd) : GuardState :=
  let f := c.form
  if !f.ge then .run
  else match ((s.core c.core).crew c.crew).gd.find f.gs.toNat with
    | none => .unresolved
    | some b => if b ≠ f.gp then .run else .against

/-- A command with its elders. -/
def cmdSplit (id : Nat) : List Cmd → Option (List Cmd × Cmd)
  | [] => none
  | c :: r => if c.id = id then some ([], c) else (cmdSplit id r).map fun q => (c :: q.1, q.2)

def State.findCmd (s : State) (e : EngineId) (id : Nat) : Option (List Cmd × Cmd) := cmdSplit id (s.engine e).queue

def State.putCmd (s : State) (e : EngineId) (c : Cmd) : State :=
  let x := s.engine e
  s.setEngine e { x with queue := x.queue.map fun d => if d.id = c.id then c else d }

/-- The command's registers are no longer pending; those written get their values first. -/
def Core.releaseRegs (k : Core) (now : Nat) (c : Cmd) (write : Nat → List (Dst × Word)) : Core :=
  c.lanes.foldl (fun k x =>
    if (k.thread x).live then
      let dsts := cmdDsts c.instr (laneOf x)
      (k.updThread x fun t => { t.writeAll ((write x).filter fun e => t.takes e.1) with pend := t.pend.filter fun d => !dsts.contains d }).settle
        now x
    else k) k

def State.releaseRegs (s : State) (c : Cmd) (write : Nat → List (Dst × Word)) : State :=
  s.updCore c.core fun k => k.releaseRegs s.cycle c write

/-- The command leaves its queue and becomes visible to its wait. -/
def State.endCmd (s : State) (e : EngineId) (c : Cmd) (status : Nat) (discarded : Bool) (fault : Option (Nat × Dword × Nat)) : State :=
  let x := s.engine e
  let cr := (s.core c.core).crew c.crew
  (s.setEngine e { queue := x.queue.filter (fun d => d.id ≠ c.id),
                   ended := x.ended ++ [⟨c.id, c.crew, c.core, status, discarded, fault, c.dest⟩] }).noteActive cr.lid cr.gang

/-- Whether the elders let a queued MXE command start (R290, R322, R343). -/
def mxeMayStart (elders : List Cmd) (c : Cmd) : Bool :=
  elders.all (fun d => d.phase ≠ .queued && !isFence d.instr) && (!isFence c.instr || elders.isEmpty) &&
  (!isTile c.instr || elders.all fun d => !isTile d.instr)

/-! ## Reservation and maps (R281 to R283, R311 to R313) -/

/-- The crews of a group's active lanes by ascending row. (DEDUCED, log 21) -/
def crewsByRow (k : Core) (act : List Nat) : List Nat :=
  (rowsOf act).foldl (fun l r => if l.contains (k.row r).crew then l else l ++ [(k.row r).crew]) []

/-- The seed of a column's LFSR (R303). -/
def colSeed (seed : Word) (c : Nat) : Word := lfsrStore (seed ^^^ BitVec.ofNat 32 (c + 1))

/-- The MXE is granted: the accumulator store reads +0, every column LFSR is seeded, and the queue is empty. Commands that stand in it
leave without effect: a crew had signed them before it gave the MXE up, and they were appended after. (DEDUCED, log 80) -/
def Core.grantMxe (k : Core) (now b : Nat) : Core :=
  let q := k.mxe.queue
  let k := q.foldl (fun k c => k.releaseRegs now c fun _ => []) k
  { k with holder := some b, acc := [], badAcc := [], ledger := [],
           colLfsr := (List.range Config.accCols).map fun c => (c, colSeed (k.crew b).seed c),
           mxe := { queue := [], ended := k.mxe.ended ++ q.map fun c => ⟨c.id, c.crew, c.core, 1, true, none, []⟩ } }

/-- One crew's mxacq. -/
def Core.acquireMxe (now : Nat) (k : Core) (b : Nat) : Core := if k.holder.isNone then k.grantMxe now b else k

/-- A predicate is a pending result of each of some threads: its value is there (R105). -/
def State.answerPred (s : State) (core : Nat) (slots : List Nat) (p : Nat) (value : Nat → Bool) : State :=
  let results := slots.zipIdx.map fun e => (⟨s.ctr + e.2, e.1, [], some 0, some (p, value e.1)⟩ : Result)
  { s.updCore core fun k => { k.pendFor slots fun _ => [.p p] with results := k.results ++ results } with ctr := s.ctr + slots.length }

def execMxacq (f : GForm) (s : State) : Out :=
  let i := Instr.mxacq f
  match s.curGroup with
  | none => .next s
  | some g =>
    if mustStall s.cur g f.guard (fun _ _ => [.p f.d.toNat]) then .next s
    else
      let act := activeSlots s.cur g f.guard
      let k := (crewsByRow s.cur act).foldl (Core.acquireMxe s.cycle) s.cur
      let s := (s.setCore s.curCore k).answerPred s.curCore act f.d.toNat fun x => k.holder = some (k.crewOf x)
      .next (s.setCurGroup (g.past i false))

/-- A command of the crew is in the MXE queue. -/
def Core.mxeBusy (k : Core) (b : Nat) : Bool := k.mxe.queue.any fun c => c.crew = b

def execMxrel (f : GForm) (s : State) : Out :=
  let i := Instr.mxrel f
  match s.curGroup with
  | none => .next s
  | some g =>
    if mustStall s.cur g f.guard (fun _ _ => []) then .next s
    else
      let mine := (activeSlots s.cur g f.guard).any fun x => s.cur.holder = some (s.cur.crewOf x)
      if !mine then .next (s.setCurGroup (g.past i false))
      else if (s.cur.holder.map s.cur.mxeBusy).getD false then .next (s.suspend g i)
      else .next ((s.updCur fun k => { k with holder := none }).setCurGroup (g.past i false))

/-- The fields of a map that software writes (R283). -/
def mapMask : BitVec 128 :=
  0x0000FFFF000FFFFF000FFFFF0FFFFF7F#128

/-- The 128 bits of four registers. -/
def quadOf (t : Thread) (n : Nat) : BitVec 128 := t.reg (n + 3) ++ t.reg (n + 2) ++ t.reg (n + 1) ++ t.reg n

def execOmap (f : GForm) (s : State) : Out :=
  let i := Instr.omap f
  match s.curGroup with
  | none => .next s
  | some g =>
    if mustStall s.cur g f.guard (fun _ _ => cmdRegs i 0) then .next s
    else
      let act := activeSlots s.cur g f.guard
      let put (k : Core) (b : Nat) : Core :=
        let x := topSlot act
        k.updCrew b fun c => { c with om := FMap.put 0 c.om f.d.toNat (quadOf (k.thread x) f.a.toNat &&& mapMask) }
      .next ((s.updCur fun k => (crewsByRow k act).foldl put k).setCurGroup (g.past i false))

/-! ## Waits (R293, R294, R323, R394, R415) -/

/-- The engine that a wait is for. -/
def waitEngine (core : Nat) (i : Instr) : EngineId :=
  match i with
  | .tcwait _ => .copy core
  | .swait _ => .starter (clusterOf core)
  | _ => .mxe core

/-- The commands of an engine that a crew has appended. -/
def State.appended (s : State) (e : EngineId) (core crew : Nat) : List Nat :=
  let x := s.engine e
  (x.queue.filter fun c => c.core = core && c.crew = crew).map (·.id) ++
    (x.ended.filter fun c => c.core = core && c.crew = crew).map (·.id)

/-- The crew's commands for an engine that are signed but not appended. -/
def State.unappended (e : EngineId) (core : Nat) (c : Crew) : List Nat :=
  c.cv.filterMap fun v => match v.2.pending with
    | some d => if engineOf core d.instr = e then some d.id else none
    | none => none

/-- What a wait of a thread covers when it issues: what it has signed and what its crew has appended, ended or not.
(DEDUCED, log 22) -/
def State.coverOf (s : State) (e : EngineId) (core slot : Nat) : List Nat :=
  let k := s.core core
  s.appended e core (k.crewOf slot) ++ (k.thread slot).signed.filter (State.unappended e core (k.crewAt slot)).contains

/-- An ended command of an engine. -/
def Engine.find (e : Engine) (id : Nat) : Option Ended := e.ended.find? fun x => x.id = id

/-- Whether a covered command leaves a wait's predicate true: it took no Discard by its guard (R323), and for the copy engine and the
Starter it ended without a fault and with STATUS 0 (R394, R415). A matrix command whose fault has parked the thread before does not
make mxwait answer false. (DEDUCED, log 22) -/
def endedWell (i : Instr) (x : Ended) : Bool :=
  !x.discarded && match i with | .mxwait _ => true | _ => x.fault.isNone && decide (x.status = 0)

/-- The fault that a thread's wait reports: the lowest code among its commands. -/
def worstFault : List Ended → Option (Ended × Nat × Dword × Nat)
  | [] => none
  | x :: r => match x.fault, worstFault r with
    | some q, some w => if q.1 ≤ w.2.1 then some (x, q) else some w
    | some q, none => some (x, q)
    | none, w => w

/-- The faults of a wait's commands that have not parked the thread yet. A fault parks a thread at one wait; a later wait, or the same
one after its release, takes the command as ended without success. (DEDUCED, log 22) -/
def Thread.newFaults (t : Thread) (l : List Ended) : List Ended := l.filter fun d => d.fault.isSome && !t.told.contains d.id

/-- The thread parks at a wait for these faults. -/
def Thread.tell (t : Thread) (l : List Ended) : Thread := { t with told := t.told ++ l.map (·.id) }

/-- A completed wait of the thread has covered these commands. -/
def Thread.covered (t : Thread) (ids : List Nat) : Thread := { t with signed := t.signed.filter fun n => !ids.contains n }

/-- What the wait that a lane stands at covers: fixed when it first issues. -/
def Group.waitOf (g : Group) (slot : Nat) : Option (List Nat) := (g.waits.find? fun w => w.1 = slot).map (·.2)

/-- Every covered command has ended, and the loads that the lanes issued before have their bytes: a wait is an acquire (log 77). -/
def State.waitDone (s : State) (e : EngineId) (core : Nat) (waits : List (Nat × List Nat)) : Bool :=
  waits.all fun w => (s.core core).loadsDone w.1 && w.2.all fun n => ((s.engine e).find n).isSome

/-- The issue of a wait: it covers what it finds when it first issues, and suspends its group until all of it has ended. -/
def issueWait (i : Instr) (s : State) : Out :=
  let f := gForm i
  let p := f.d.toNat
  match s.curGroup with
  | none => .next s
  | some g =>
    if mustStall s.cur g f.guard (fun _ _ => if p = 7 then [] else [.p p]) then .next s
    else
      let act := activeSlots s.cur g f.guard
      let e := waitEngine s.curCore i
      let waits := act.map fun x => (x, (g.waitOf x).getD (s.coverOf e s.curCore x))
      let own (x : Nat) : List Ended := ((waits.find? fun w => w.1 = x).map (·.2)).getD [] |>.filterMap (s.engine e).find
      if act.isEmpty then .next (s.setCurGroup (g.past i false))
      else if !s.waitDone e s.curCore waits then .next (s.suspend { g with waits := waits } i)
      else
        let new (x : Nat) : List Ended := (s.cur.thread x).newFaults (own x)
        let fs := act.filterMap fun x => (worstFault (new x)).map fun w => (⟨x, w.2.1, w.2.2.2, w.2.2.1⟩ : LaneFault)
        let r := s.parkFaults s.curCore g i fs
        let done := act.filter r.2.members.contains
        let rest := act.filter fun x => !done.contains x
        let s := if rest.isEmpty then r.1 else r.1.updCur fun k => k.mapThreads rest fun x t => t.tell (new x)
        let s := s.updCur fun k => k.mapThreads done fun x t => t.covered ((own x).map (·.id))
        let s := if done.isEmpty then s else s.acquire s.curCore done
        let s := if p = 7 then s else s.answerPred s.curCore done p fun x => (own x).all (endedWell i)
        .next (s.setCurGroup (r.2.past i false))

def execMxwait (f : GForm) (s : State) : Out := issueWait (.mxwait f) s
def execTcwait (f : GForm) (s : State) : Out := issueWait (.tcwait f) s
def execSwait (f : GForm) (s : State) : Out := issueWait (.swait f) s

/-! ## The commands at their issue -/

def execMxfence (f : GForm) (s : State) : Out := issueCmd (.mxfence f) s
def execMmad (f : GForm) (s : State) : Out := issueCmd (.mmad f) s
def execMmas (f : GForm) (s : State) : Out := issueCmd (.mmas f) s
def execMmaq (f : GForm) (s : State) : Out := issueCmd (.mmaq f) s
def execMscal (f : GForm) (s : State) : Out := issueCmd (.mscal f) s
def execAczero (f : GForm) (s : State) : Out := issueCmd (.aczero f) s
def execAcld (f : GForm) (s : State) : Out := issueCmd (.acld f) s
def execAcst (f : GForm) (s : State) : Out := issueCmd (.acst f) s
def execAcmov (f : GForm) (s : State) : Out := issueCmd (.acmov f) s
def execSpz (f : GForm) (s : State) : Out := issueCmd (.spz f) s
def execTnew (f : GForm) (s : State) : Out := issueCmd (.tnew f) s
def execTfree (f : GForm) (s : State) : Out := issueCmd (.tfree f) s
def execTinfo (f : GForm) (s : State) : Out := issueCmd (.tinfo f) s
def execTmov (f : GForm) (s : State) : Out := issueCmd (.tmov f) s
def execTadd (f : GForm) (s : State) : Out := issueCmd (.tadd f) s
def execTmul (f : GForm) (s : State) : Out := issueCmd (.tmul f) s
def execTrnd (f : GForm) (s : State) : Out := issueCmd (.trnd f) s
def execTdense (f : GForm) (s : State) : Out := issueCmd (.tdense f) s
def execTlu (f : GForm) (s : State) : Out := issueCmd (.tlu f) s
def execTchol (f : GForm) (s : State) : Out := issueCmd (.tchol f) s
def execTtrsm (f : GForm) (s : State) : Out := issueCmd (.ttrsm f) s
def execTdelta (f : GForm) (s : State) : Out := issueCmd (.tdelta f) s
def execTcopy (f : GForm) (s : State) : Out := issueCmd (.tcopy f) s
def execGath (f : GForm) (s : State) : Out := issueCmd (.gath f) s
def execScat (f : GForm) (s : State) : Out := issueCmd (.scat f) s
def execRules (f : GForm) (s : State) : Out := issueCmd (.rules f) s
def execSpred (f : GForm) (s : State) : Out := issueCmd (.spred f) s
def execSfetch (f : GForm) (s : State) : Out := issueCmd (.sfetch f) s
def execScheck (f : GForm) (s : State) : Out := issueCmd (.scheck f) s

end Sys2Proof.Machine
end

