-- ==== Sys2Proof/Machine/EngineIo.lean ====
section
/-!
DEFINITION. How engines reach storage (spec/11_memory_model.md R249; R211, R227, R274, R321, R352, R354): the verdicts of the ranges
they touch, their reads, and their writes.
-/
namespace Sys2Proof.Machine

/-! ## Ranges and their verdicts -/

/-- A range that an engine touches for a crew: space, first address, bytes, access kind. -/
structure Span where
  virt : Bool
  addr : Nat
  bytes : Nat
  kind : Nat
  /-- the address must be a multiple of this (R321, R327) -/
  align : Nat
  /-- the code that a scratch address reports when it breaks R211 (R392) -/
  code : Nat := 0x0A
  deriving DecidableEq, Repr

/-- What an engine learns of the ranges it touches: a fault is code, address and DETAIL. -/
inductive Ready where
  | ok
  | fault (f : Nat × Dword × Nat)
  | wait
  deriving DecidableEq, Repr

/-- Faults come before waiting, and of two the lower address (R321, R354). -/
def Ready.with (a b : Ready) : Ready :=
  match a, b with
  | .fault f, .fault g => if f.2.1.toNat ≤ g.2.1.toNat then a else b
  | .fault _, _ => a
  | _, .fault _ => b
  | .wait, _ => .wait
  | _, r => r

def State.checkSpan (s : State) (core crew : Nat) (q : Span) : Ready × State :=
  let c := (s.core core).crew crew
  if q.bytes = 0 then (.ok, s)
  else if q.addr % q.align ≠ 0 then (.fault (0x0B, BitVec.ofNat 64 q.addr, q.kind), s)
  else if q.virt then
    match s.touch c.asid.toNat q.addr q.bytes q.kind with
    | (some (code, a), _, s) => (.fault (code, BitVec.ofNat 64 a, q.kind), s)
    | (none, ok, s) => (if ok then .ok else .wait, s)
  else match s.scratchRuns core c 17 q.addr q.bytes with
    | .ok _ => (.ok, s)
    | .error a => (.fault (q.code, BitVec.ofNat 64 a, q.kind), s)

/-- The verdict of several ranges. -/
def State.checkSpans (s : State) (core crew : Nat) : List Span → Ready × State
  | [] => (.ok, s)
  | q :: r =>
    let a := s.checkSpan core crew q
    let b := a.2.checkSpans core crew r
    (a.1.with b.1, b.2)

/-! ## Reads (R249) -/

/-- A byte of an array as the keys of a command's work name it. -/
def arrayKey (core a : Nat) : Nat := core * 2 ^ 20 + a

/-- A core as a command sees it: scratchpad bytes that it has read already are as they were then. -/
def State.seenCore (s : State) (c : Cmd) (core : Nat) : Core :=
  let k := s.core core
  let mine := c.work.early.filter fun e => e.1 / 2 ^ 20 = core
  if mine.isEmpty then k else { k with scratch := FMap.putAll 0 k.scratch (mine.map fun e => (e.1 % 2 ^ 20, e.2)) }

/-- The bytes of a range: of virtual memory those that its read requests have brought. -/
def State.readSpan (s : State) (c : Cmd) (virt : Bool) (addr bytes : Nat) : List Byte :=
  let cr := (s.core c.core).crew c.crew
  let byte (i : Nat) : Byte :=
    let key := byteKey cr.asid.toNat (addr + i)
    ((FMap.get 0 c.work.got (key / 4)) >>> (8 * (key % 4))).setWidth 8
  if virt then (List.range bytes).map byte
  else match s.arrayAt c.core cr addr bytes with
    | some l => l.flatMap fun r => (s.seenCore c r.1).scratch.readBytes r.2.1 r.2.2
    | none => []

def State.readNum (s : State) (c : Cmd) (virt : Bool) (addr bytes : Nat) : Nat := leNat (s.readSpan c virt addr bytes)

/-- The words of a range of virtual memory, by key. -/
def spanKeys (asid va n : Nat) : List Nat :=
  if n = 0 then [] else (List.range ((va + n - 1) / 4 + 1 - va / 4)).map fun i => byteKey asid (4 * (va / 4 + i)) / 4

/-- The words of a range that a command reads and has not got. -/
def Cmd.lacks (c : Cmd) (asid : Nat) (q : Span) : List Nat :=
  if q.virt && q.kind = 0 then (spanKeys asid q.addr q.bytes).filter fun w => (c.work.got.find w).isNone else []

/-- The gang of a command has a trigger that awaits its kill: its engine commands write nothing further (R306). -/
def State.cmdHeld (s : State) (c : Cmd) : Bool :=
  let cr := (s.core c.core).crew c.crew
  s.containing cr.lid cr.gang

/-- A word with a double-bit error in array ranges (R464): the array's core and the word. -/
def State.badIn (s : State) (l : List (Nat × Nat × Nat)) : Option (Nat × Nat) :=
  l.findSome? fun r =>
    ((s.core r.1).badScratch.find? fun w => decide (r.2.1 < 4 * w + 4) && decide (4 * w < r.2.1 + r.2.2)).map fun w => (r.1, w)

/-- The scratch address of such a word, as a crew names it. -/
def State.badAt (s : State) (core crew : Nat) (l : List (Nat × Nat × Nat)) : Option Dword :=
  (s.badIn l).map fun b => s.scratchName core crew b.1 b.2

/-- The first such word in the scratch ranges that are read. -/
def State.badSpan (s : State) (core crew : Nat) (q : List Span) : Option Dword :=
  q.findSome? fun x =>
    if !x.virt && x.kind = 0 then (s.arrayAt core ((s.core core).crew crew) x.addr x.bytes).bind (s.badAt core crew) else none

/-! ## Writes -/

/-- A write that goes out in one step: bytes of a word, or a whole sector by its first word (R274, R461). -/
inductive Chunk where
  | word (w : Nat) (mask : BitVec 4) (data : Word)
  | sector (w : Nat) (data : BitVec 256)
  deriving DecidableEq, Repr

/-- A byte is put before the words of the bytes above it. -/
def addByte (e : Nat × Byte) (l : List (Nat × BitVec 4 × Word)) : List (Nat × BitVec 4 × Word) :=
  let b : Word := e.2.setWidth 32
  let m := 1#4 <<< (e.1 % 4)
  let d := b <<< (8 * (e.1 % 4))
  match l with
  | x :: r => if x.1 = e.1 / 4 then (x.1, x.2.1 ||| m, x.2.2 ||| d) :: r else (e.1 / 4, m, d) :: l
  | [] => [(e.1 / 4, m, d)]

/-- The chunks of the seven words that complete the sector of a word. -/
def completes (w : Nat) (l : List Chunk) : Bool :=
  w % 8 = 0 && l.length = 7 && l.zipIdx.all fun e => match e.1 with
    | .word v m _ => v = w + 1 + e.2 && m = 0xF
    | .sector _ _ => false

def Chunk.value : Chunk → Nat
  | .word _ _ d => d.toNat
  | .sector _ d => d.toNat

/-- A word is put before the chunks of the words above it; with the rest of its sector it is one. -/
def addChunk (x : Nat × BitVec 4 × Word) (l : List Chunk) : List Chunk :=
  if x.2.1 = 0xF && completes x.1 (l.take 7) then
    .sector x.1 (BitVec.ofNat 256 ((l.take 7).foldr (fun c n => c.value + 2 ^ 32 * n) 0 * 2 ^ 32 + x.2.2.toNat)) :: l.drop 7
  else .word x.1 x.2.1 x.2.2 :: l

/-- The chunks of bytes by rising key. -/
def chunksOf (l : List (Nat × Byte)) : List Chunk := (l.foldr addByte []).foldr addChunk []

/-- Runs whose addresses rise without meeting. -/
def runsRise : List (Nat × List Byte) → Bool
  | a :: b :: r => decide (a.1 + a.2.length ≤ b.1) && runsRise (b :: r)
  | _ => true

/-- Runs of virtual memory as bytes by rising key: of two writes of a byte the later stands. -/
def runBytes (asid : Nat) (l : List (Nat × List Byte)) : List (Nat × Byte) :=
  let bytes := l.flatMap fun r => r.2.zipIdx.map fun b => (byteKey asid (r.1 + b.2), b.1)
  if runsRise l then bytes else bytes.foldl (fun (m : FMap Byte) b => m.set b.1 b.2) []

def Chunk.first : Chunk → Nat
  | .word w _ _ => w
  | .sector w _ => w

def Chunk.msg (owner : Option Nat) (core : Nat) (cmd : Option (EngineId × Nat)) : Chunk → Msg
  | .word w m d => .register owner core 0 cmd 0 w m d
  | .sector w d => .sector owner core cmd w d

/-- The endpoint of an engine, and who owns what it writes (R249). -/
def engineEnd (e : EngineId) : Endpoint :=
  match e with
  | .mxe c => .mxe c
  | .copy c => .copy c
  | .starter q => .starter q

def engineOwner (e : EngineId) : Option Nat :=
  match e with
  | .mxe c => some c
  | .copy c => some c
  | .starter _ => none

/-- Bytes of the arrays under the keys of a command's work. -/
def runKeys (runs : List (Nat × Nat × Nat)) (bs : List Byte) : List (Nat × Byte) :=
  (runs.flatMap fun r => (List.range r.2.2).map fun i => arrayKey r.1 (r.2.1 + i)).zip bs

/-- Bytes written to the arrays of several cores. -/
def State.storeKeys (s : State) (l : List (Nat × Byte)) : State :=
  ((l.map fun e => e.1 / 2 ^ 20).foldr insertNat []).foldl (fun s core =>
    s.updCore core fun k => k.storeScratch ((l.filter fun e => e.1 / 2 ^ 20 = core).map fun e => (e.1 % 2 ^ 20, e.2))) s

/-- Runs of bytes that a command writes in virtual memory, by messages that it then waits for (R249). Answers how many. -/
def State.sendRuns (s : State) (e : EngineId) (c : Cmd) (l : List (Nat × List Byte)) : State × Nat :=
  let cs := chunksOf (runBytes ((s.core c.core).crew c.crew).asid.toNat l)
  (cs.foldl (fun s x => s.push (homeLane (engineEnd e) x.first) (x.msg (engineOwner e) c.core (some (e, c.id)))) s, cs.length)

/-- Runs of bytes written by an engine's command: to an array at once, to virtual memory by messages. -/
def State.writeSpans (s : State) (e : EngineId) (c : Cmd) (virt : Bool) (l : List (Nat × List Byte)) : State × Nat :=
  if virt then s.sendRuns e c l
  else
    let crew := (s.core c.core).crew c.crew
    (l.foldl (fun s w => s.storeKeys (runKeys ((s.arrayAt c.core crew w.1 w.2.length).getD []) w.2)) s, 0)

/-- Scratchpad bytes that the command writes in bank slots to come (R213). -/
def Cmd.later (c : Cmd) (l : List (Nat × Byte)) : Cmd := { c with work := { c.work with todo := c.work.todo ++ l } }

/-- The command's bank slots come for the bytes named by p among those that it has yet to write. -/
def State.flush (s : State) (e : EngineId) (c : Cmd) (p : Nat → Bool) : State :=
  (s.storeKeys (c.work.todo.filter fun b => p b.1)).putCmd e { c with work := { c.work with todo := c.work.todo.filter fun b => !p b.1 } }

/-! ## What a command gathers -/

/-- A command waits for the far lines under way among its ranges (R321, R392): an access more that each fill counts (R230). -/
def State.noteFar (s : State) (c : Cmd) (q : List Span) : State :=
  let asid := ((s.core c.core).crew c.crew).asid.toNat
  let e := engineOf c.core c.instr
  let hit (r : FarRead) (x : Span) : Option (Nat × Nat) :=
    if x.virt && x.bytes ≠ 0 && byteKey asid x.addr / lineBytes ≤ r.line && r.line ≤ byteKey asid (x.addr + x.bytes - 1) / lineBytes
    then some (max x.addr (keyVa (lineBytes * r.line)), x.kind) else none
  { s with farReads := s.farReads.map fun r =>
      match q.filterMap (hit r) with
      | [] => r
      | w :: ws =>
        let low := ws.foldl (fun a b => if b.1 < a.1 then b else a) w
        let heat := if r.cmds.any fun x => x.1 = (e, c.id) then [] else [(byteKey asid low.1, low.2)]
        { r with cmds := (r.cmds.filter fun x => x.1 ≠ (e, c.id)) ++ [((e, c.id), low)], heat := r.heat ++ heat } }

/-- What the ranges of a command give it: leave to go on, a fault, or the work with which it waits. -/
inductive Gather where
  | ok
  | fault (f : Nat × Dword × Nat)
  | wait (w : Work)
  deriving DecidableEq, Repr

/-- Every read request of the command has been answered. -/
def Work.answered (w : Work) : Bool := w.got.length = w.asked.length

/-- The ranges of a command: the verdict of each that it has not read, a read request for every word of those it reads (R249), and
the errors of what it reads in the scratchpads (R464). -/
def State.gather (s : State) (c : Cmd) (q : List Span) : Gather × State :=
  let asid := ((s.core c.core).crew c.crew).asid.toNat
  let e := engineOf c.core c.instr
  if !c.work.answered then (.wait c.work, s)
  else
    let todo := q.filter fun x => !x.virt || x.kind ≠ 0 || !(c.lacks asid x).isEmpty
    match s.checkSpans c.core c.crew todo with
    | (.fault f, s) => (.fault f, s)
    | (.wait, s) => (.wait c.work, s.noteFar c todo)
    | (.ok, s) =>
      let ws := (todo.flatMap (c.lacks asid)).foldr insertNat []
      if ws.isEmpty then match s.badSpan c.core c.crew q with
        | some a => (.wait c.work, s.consumeSram c.core c.crew a)
        | none => (.ok, s)
      else
        let s := ws.foldl (fun s w => s.push (homeLane (engineEnd e) w) (.readReq c.core 0 (some (e, c.id)) 0 w)) s
        (.wait { c.work with asked := c.work.asked ++ ws }, s)

/-! ## What EngineStart finds -/

/-- A command has all that EngineStart reads, is discarded with a fault, or goes on waiting. -/
inductive Start where
  | run (w : Work)
  | fault (f : Nat × Dword × Nat)
  | wait (w : Work)
  deriving DecidableEq, Repr

/-- The command carries on only when its ranges are there: k runs then. -/
def State.withSpans (s : State) (c : Cmd) (q : List Span) (k : State → Start × State) : Start × State :=
  match s.gather c q with
  | (.fault f, s) => (.fault f, s)
  | (.wait w, s) => (.wait w, s)
  | (.ok, s) => k s

/-- A commit whose ranges are there: k runs then. A fault is kept for the command's end. -/
def State.commitWith (s : State) (e : EngineId) (c : Cmd) (q : List Span) (k : State → State) : State :=
  match s.gather c q with
  | (.fault f, s) => s.putCmd e { c with fault := some f }
  | (.wait w, s) => s.putCmd e { c with work := w }
  | (.ok, s) => k s

/-! ## Writes of a piece (R274, R392) -/

/-- A piece's runs: to virtual memory by messages, to the scratchpads in bank slots to come. Answers the command. -/
def State.writeRuns (s : State) (e : EngineId) (c : Cmd) (virt : Bool) (l : List (Nat × List Byte)) : State × Cmd :=
  if virt then
    let r := s.sendRuns e c l
    (r.1, { c with outstanding := c.outstanding + r.2 })
  else
    let cr := (s.core c.core).crew c.crew
    (s, c.later (l.flatMap fun r => runKeys ((s.arrayAt c.core cr r.1 r.2.length).getD []) r.2))

/-- What a piece has read is used up. -/
def Work.fresh (w : Work) : Work := { w with got := [], asked := [], early := [] }

/-! ## Completion records (R200, R393, R414) -/

def completionRecord (tag src status arg : Nat) : Dword :=
  BitVec.ofNat 64 (tag % 2 ^ 16 + 2 ^ 16 * src + 2 ^ 24 * (status % 2 ^ 8) + 2 ^ 32 * (arg % 2 ^ 32))

/-- SRC of an engine's records. -/
def engineSrc (e : EngineId) : Nat :=
  match e with
  | .mxe _ => 0
  | .copy _ => 1
  | .starter _ => 2

/-- The control word of a copy or Starter command: of the descriptor that it read at EngineStart, also where it was found malformed
then; none where its address is not legal. -/
def State.controlWord (s : State) (c : Cmd) : Option Nat :=
  if c.phase ≠ .queued || c.fault.isSome then some c.work.desc
  else if descAddrOk ((s.core c.core).crew c.crew) c.addrA.toNat 64 then some (s.readNum c false c.addrA.toNat 8) else none

/-- What stands of the descriptor of a copy or Starter command that is found malformed: 0 where its address is not legal. -/
def State.badDesc (s : State) (e : EngineId) (c : Cmd) : Nat :=
  match e with
  | .mxe _ => c.work.desc
  | _ =>
    if c.phase ≠ .queued then c.work.desc
    else if descAddrOk ((s.core c.core).crew c.crew) c.addrA.toNat 64 then s.readNum c false c.addrA.toNat 64 else 0

/-- The record that a command with EV = 1 posts is held for its crew. -/
def State.holdRecord (s : State) (e : EngineId) (c : Cmd) (status arg : Nat) : State :=
  match s.controlWord c with
  | some w =>
    if w.testBit 16 then
      s.updCore c.core fun k => k.updCrew c.crew fun x => { x with held := x.held ++ [completionRecord w (engineSrc e) status arg] }
    else s
  | none => s

/-- Whether the engine may take the command on: records held for the crew, with those of its running commands, stay within 4.
(DEDUCED, log 37) -/
def State.recordRoom (s : State) (e : EngineId) (elders : List Cmd) (c : Cmd) : Bool :=
  let asks (d : Cmd) : Bool := ((s.controlWord d).map fun w => w.testBit 16).getD false
  let held := ((s.core c.core).crew c.crew).held.filter fun r => r.toNat / 2 ^ 16 % 2 ^ 8 = engineSrc e
  let running := elders.filter fun d => d.core = c.core && d.crew = c.crew && asks d
  !asks c || decide (held.length + running.length < Config.heldRecords)

end Sys2Proof.Machine
end

