-- ==== Sys2Proof/Machine/CopyEngine.lean ====
section
/-!
DEFINITION. The copy engine (spec/20_copy_gather.md R379 to R393): descriptors, footprints, and the pieces of tcopy, gath, scat and
rules.
-/
namespace Sys2Proof.Machine

/-! ## Descriptors (R382, R383) -/

structure CopyDesc where
  ssp : Nat
  dsp : Nat
  isp : Nat
  sfmt : Nat
  dfmt : Nat
  rm : Nat
  sat : Bool
  ndim : Nat
  iw : Bool
  src : Nat
  dst : Nat
  idx : Nat
  nrow : Nat
  lim : Nat
  rowb : Nat
  sstr : Nat
  dstr : Nat
  /-- SIZE, SSTR and DSTR of each dimension -/
  dims : List (Nat × Int × Int)
  deriving DecidableEq, Repr

def copyDim (x d : Nat) : Nat × Int × Int :=
  let y := x / 2 ^ (512 + 192 * d)
  (bitsOf y 31 0, toInt 64 true (bitsOf y 127 64), toInt 64 true (bitsOf y 191 128))

def copyDesc (x : Nat) : CopyDesc :=
  { ssp := bitsOf x 19 18, dsp := bitsOf x 21 20, isp := bitsOf x 23 22, sfmt := bitsOf x 27 24, dfmt := bitsOf x 31 28,
    rm := bitsOf x 34 32, sat := x.testBit 35, ndim := bitsOf x 39 36, iw := x.testBit 40, src := bitsOf x 127 64,
    dst := bitsOf x 191 128, idx := bitsOf x 255 192, nrow := bitsOf x 287 256, lim := bitsOf x 319 288, rowb := bitsOf x 351 320,
    sstr := bitsOf x 447 384, dstr := bitsOf x 511 448, dims := (List.range (bitsOf x 39 36)).map (copyDim x) }

/-- Bytes of an element by conversion code. -/
def copyElem (code : Nat) : Nat := cvtWidth code / 8

def dividesInt (w : Nat) (x : Int) : Bool := x % (w : Int) = 0

/-- The rules common to the four descriptors (R381, R382). -/
def copyCommonOk (x : Nat) : Bool :=
  let d := copyDesc x
  !x.testBit 17 && bitsOf x 63 41 = 0 && bitsOf x 383 352 = 0 && d.ssp < 2 && d.isp < 2

/-- R384. -/
def tcopyOk (x : Nat) : Bool :=
  let d := copyDesc x
  let ws := copyElem d.sfmt
  let wd := copyElem d.dfmt
  let dimOk (i : Nat) : Bool :=
    let e := copyDim x i
    decide (1 ≤ e.1) && bitsOf (x / 2 ^ (512 + 192 * i)) 63 32 = 0 && dividesInt ws e.2.1 && dividesInt wd e.2.2
  d.dsp < 3 && d.isp = 0 && !d.iw && decide (1 ≤ d.ndim) && decide (d.ndim ≤ 9) && d.sfmt < 14 && d.dfmt < 14 && d.rm ≤ 4 &&
  (d.sfmt ≠ d.dfmt || (d.rm = 0 && !d.sat)) && (d.dsp ≠ 2 || d.dst.testBit 56) && bitsOf x 511 256 = 0 &&
  (if d.dsp = 2 then d.idx / 2 ^ 17 = 0 else d.idx = 0) && d.src % ws = 0 && d.dst % wd = 0 && (List.range d.ndim).all dimOk

/-- R383, R386, without the index vector. -/
def rowsOk (x : Nat) : Bool :=
  let d := copyDesc x
  d.dsp < 2 && bitsOf x 39 24 = 0 && decide (1 ≤ d.nrow) && decide (d.nrow ≤ 65535) && decide (1 ≤ d.lim) && d.rowb % 4 = 0 &&
  decide (4 ≤ d.rowb) && decide (d.rowb ≤ 65532) && d.src % 4 = 0 && d.dst % 4 = 0 && d.idx % 4 = 0 && d.sstr % 4 = 0 && d.dstr % 4 = 0

/-- R383, R389. -/
def rulesOk (x : Nat) : Bool :=
  let d := copyDesc x
  d.dsp < 2 && d.isp = 0 && bitsOf x 40 24 = 0 && d.idx = 0 && d.sstr = 0 && d.dstr = 0 && decide (1 ≤ d.nrow) &&
  decide (d.nrow ≤ 2 ^ 24) && decide (1 ≤ d.lim) && decide (d.lim ≤ 256) && d.rowb % 8 = 0 && decide (16 ≤ d.rowb) && d.src % 8 = 0 &&
  d.dst % 8 = 0

def isTcopy (i : Instr) : Bool := match i with | .tcopy _ => true | _ => false
def isGath (i : Instr) : Bool := match i with | .gath _ => true | _ => false
def isRules (i : Instr) : Bool := match i with | .rules _ => true | _ => false

def copyOk (i : Instr) (x : Nat) : Bool :=
  copyCommonOk x && match i with
    | .tcopy _ => tcopyOk x
    | .rules _ => rulesOk x
    | _ => rowsOk x

/-! ## EngineStart (R380, R381, R386) -/

/-- The bytes of a descriptor. -/
def descBytes (i : Instr) (x : Nat) : Nat := if isTcopy i then 64 + 24 * bitsOf x 39 36 else 64

/-- The descriptor of a command, as EngineStart read it; none where its address is not legal. -/
def State.readDesc (s : State) (c : Cmd) : Option Nat :=
  let cr := (s.core c.core).crew c.crew
  let a := c.addrA.toNat
  if c.phase ≠ .queued then some c.work.desc
  else if descAddrOk cr a 64 then
    let n := descBytes c.instr (s.readNum c false a 64)
    if descAddrOk cr a n then some (s.readNum c false a n) else none
  else none

/-- A span of a copy command: a scratch address that breaks R211 reports the alignment code (R392). -/
def copySpan (space addr bytes kind : Nat) : Span := ⟨space = 1, addr % 2 ^ 64, bytes, kind, 1, 0x0B⟩

/-- The index entries: none for the skip value (R386). -/
def indexEntries (d : CopyDesc) (bs : List Byte) : List (Option Nat) :=
  let w := if d.iw then 2 else 4
  (List.range d.nrow).map fun n =>
    let x := leNat ((bs.drop (n * w)).take w)
    if x = 2 ^ (8 * w) - 1 then none else some x

/-- Of equal indices only the last is performed (R387, operator 0). -/
def lastOnly : List (Option Nat) → List (Option Nat)
  | [] => []
  | none :: r => none :: lastOnly r
  | some x :: r => (if r.contains (some x) then none else some x) :: lastOnly r

/-- What a copy command checks and reads at EngineStart. -/
def copyStart (s : State) (c : Cmd) : Start × State :=
  let bad : Start := .fault (0x19, c.addrA, 0)
  match s.readDesc c with
  | none => (bad, s)
  | some x =>
    if !copyOk c.instr x then (bad, s)
    else if isTcopy c.instr || isRules c.instr then (.run { desc := x }, s)
    else
      let c := { c with work := { c.work with desc := x } }
      let d := copyDesc x
      let n := d.nrow * (if d.iw then 2 else 4)
      s.withSpans c [copySpan d.isp d.idx n 0] fun s =>
        let ix := indexEntries d (s.readSpan c (d.isp = 1) d.idx n)
        let store : Bool := match c.instr with | .scat f => f.sub = 0 | _ => false
        if ix.any fun e => match e with | some v => decide (d.lim ≤ v) | none => false then (bad, s)
        else (.run { desc := x, index := if store then lastOnly ix else ix }, s)

/-! ## Footprints (R380) -/

/-- A footprint: whether it is a destination, whether it lies in virtual memory, first and last byte. -/
structure Footprint where
  dest : Bool
  virt : Bool
  lo : Int
  hi : Int
  deriving DecidableEq, Repr

/-- The bytes that one side of a tcopy can address. -/
def dimRange (base w : Nat) (dims : List (Nat × Int)) : Int × Int :=
  dims.foldl (fun r e => let v := ((e.1 : Int) - 1) * e.2; (r.1 + min 0 v, r.2 + max 0 v)) ((base : Int), (base : Int) + w - 1)

def rowRange (base n stride bytes : Nat) : Int × Int := ((base : Int), (base : Int) + (n - 1) * stride + bytes - 1)

def footprints (i : Instr) (x : Nat) : List Footprint :=
  let d := copyDesc x
  let fp (dest : Bool) (space : Nat) (r : Int × Int) : Footprint := ⟨dest, space = 1, r.1, r.2⟩
  match i with
  | .tcopy _ =>
    fp false d.ssp (dimRange d.src (copyElem d.sfmt) (d.dims.map fun e => (e.1, e.2.1))) ::
      (if d.dsp = 2 then [] else [fp true d.dsp (dimRange d.dst (copyElem d.dfmt) (d.dims.map fun e => (e.1, e.2.2)))])
  | .rules _ => [fp false d.ssp (rowRange d.src 1 0 (4 * d.lim * d.nrow)), fp true d.dsp (rowRange d.dst d.lim d.rowb d.rowb)]
  | _ =>
    let a := if isGath i then d.lim else d.nrow
    let b := if isGath i then d.nrow else d.lim
    [fp false d.isp (rowRange d.idx 1 0 (d.nrow * if d.iw then 2 else 4)), fp false d.ssp (rowRange d.src a d.sstr d.rowb),
     fp true d.dsp (rowRange d.dst b d.dstr d.rowb)]

def footMeets (a b : Footprint) : Bool := (a.dest || b.dest) && a.virt == b.virt && decide (a.lo ≤ b.hi) && decide (b.lo ≤ a.hi)

/-- Whether a running command of the same crew keeps the next one back. (DEDUCED, log 38) -/
def footBlocks (s : State) (d c : Cmd) : Bool :=
  d.core = c.core && d.crew = c.crew && match s.readDesc c with
    | some x => (footprints d.instr d.work.desc).any fun a => (footprints c.instr x).any (footMeets a)
    | none => false

def copyMayStart (s : State) (e : EngineId) (elders : List Cmd) (c : Cmd) : Bool :=
  elders.all (fun d => d.phase ≠ .queued) && decide (elders.length < Config.copyRunning) && s.recordRoom e elders c &&
  !elders.any fun d => footBlocks s d c

/-! ## Pieces (R391) -/

def copyTuples (d : CopyDesc) : Nat := (d.dims.map (·.1)).foldr (· * ·) 1

def copyPieces (i : Instr) (x : Nat) : Nat :=
  let d := copyDesc x
  if isTcopy i then (copyTuples d + 4095) / 4096 else if isRules i then d.lim else (d.nrow + 31) / 32

/-- A piece's indices. -/
def pieceRange (p size total : Nat) : List Nat := (List.range (min size (total - p * size))).map (p * size + ·)

/-- Source and destination address of tuple j. -/
def tupleAddrs (d : CopyDesc) (j : Nat) : Nat × Nat :=
  let go (r : Nat × Int × Int) (e : Nat × Int × Int) : Nat × Int × Int :=
    (r.1 / e.1, r.2.1 + (r.1 % e.1 : Nat) * e.2.1, r.2.2 + (r.1 % e.1 : Nat) * e.2.2)
  let r := d.dims.foldl go (j, (d.src : Int), (d.dst : Int))
  (narrow 64 r.2.1, narrow 64 r.2.2)

/-- The piece is past its Commit: its writes are under way until acknowledged or written. -/
def State.pieceDone (s : State) (e : EngineId) (c : Cmd) (sent : Nat) : State :=
  s.putCmd e { c with progress := c.progress + 1, outstanding := c.outstanding + sent, work := c.work.fresh }

/-- A piece that only writes runs. -/
def State.pieceRuns (s : State) (e : EngineId) (c : Cmd) (space : Nat) (l : List (Nat × List Byte)) : State :=
  let r := s.writeRuns e c (space = 1) l
  r.1.pieceDone e r.2 0

/-- The port of a transport write to a device: the route table's, among the ports that are up (R24, R479). (log 69) -/
def State.portTo (s : State) (dev : Nat) : Nat :=
  let l := (List.range Config.ports).filter fun p => !s.boot.ports.contains p
  l.getD (Config.routePort dev % l.length) 0

def tcopyPiece (s : State) (e : EngineId) (c : Cmd) (d : CopyDesc) : State :=
  let ts := (pieceRange c.progress 4096 (copyTuples d)).map (tupleAddrs d)
  let ws := copyElem d.sfmt
  let wd := copyElem d.dfmt
  let spans := ts.flatMap fun t => copySpan d.ssp t.1 ws 0 :: (if d.dsp = 2 then [] else [copySpan d.dsp t.2 wd 1])
  s.commitWith e c spans fun s =>
    let val (t : Nat × Nat) : Nat :=
      let x := s.readNum c (d.ssp = 1) t.1 ws
      if d.sfmt = d.dfmt then x else convert d.dfmt d.sfmt d.rm d.sat 0 x
    let runs : List (Nat × List Byte) := ts.map fun t => (t.2, leBytes (val t) wd)
    if d.dsp = 2 then
      let ms := runs.map fun (r : Nat × List Byte) => OutMsg.remoteWrite (s.portTo d.idx) d.idx r.1 r.2
      State.pieceDone { s with out := s.out ++ ms } e (if c.outstanding = 0 then { c with sentAt := s.cycle } else c) runs.length
    else s.pieceRuns e c d.dsp runs

/-- The rows of a window with their index entries: n, the entry. -/
def windowRows (c : Cmd) (d : CopyDesc) : List (Nat × Option Nat) :=
  (pieceRange c.progress 32 d.nrow).map fun n => (n, c.work.index.getD n none)

def gathPiece (s : State) (e : EngineId) (c : Cmd) (d : CopyDesc) : State :=
  let rows := windowRows c d
  let from_ (i : Nat) : Nat := (d.src + i * d.sstr) % 2 ^ 64
  let to_ (n : Nat) : Nat := (d.dst + n * d.dstr) % 2 ^ 64
  let spans := rows.flatMap fun r => copySpan d.dsp (to_ r.1) d.rowb 1 :: (match r.2 with
    | some i => [copySpan d.ssp (from_ i) d.rowb 0]
    | none => [])
  s.commitWith e c spans fun s =>
    s.pieceRuns e c d.dsp (rows.map fun r => (to_ r.1, match r.2 with
      | some i => s.readSpan c (d.ssp = 1) (from_ i) d.rowb
      | none => List.replicate d.rowb 0))

/-- Element bytes of a scat operator. -/
def scatElem (sub : Nat) : Nat := if sub = 3 then 2 else 4

/-- A scat operator on two elements (R387). -/
def scatOp (sub a b : Nat) : Nat :=
  match sub with
  | 1 => reduceOp 0 0 a b
  | 2 => reduceOp 0 1 a b
  | 3 => addF bf16 a b
  | 4 => reduceOp 0 2 a b
  | _ => reduceOp 0 3 a b

/-- SUB of the reduction that carries a scat operator out at home. -/
def scatSub (sub : Nat) : Nat := if sub = 1 then 0 else if sub ≤ 3 then 1 else sub - 2

/-- One element that a scat combines: row n, element j, its address, its value. -/
structure ScatElem where
  n : Nat
  j : Nat
  addr : Nat
  value : Nat
  deriving DecidableEq, Repr

/-- Elements of one window merged: each address once, its values combined in order (R388). -/
def mergeElems (sub : Nat) : List ScatElem → List ScatElem → List ScatElem
  | acc, [] => acc
  | acc, x :: r =>
    if acc.any fun y => y.addr = x.addr then
      mergeElems sub (acc.map fun y => if y.addr = x.addr then { y with value := scatOp sub y.value x.value } else y) r
    else mergeElems sub (acc ++ [x]) r

/-- The half of its word that an element of a bf16 scat lies in. -/
def scatHalf (sub addr : Nat) : Option Bool := if sub = 3 then some (addr / 2 % 2 = 1) else none

/-- The lane of a window's reduction messages: they travel apart from those of every other window (R388). -/
def windowLane (c : Cmd) (id : LaneId) : LaneId := { id with hash := id.hash + 16 * (2 ^ 16 * c.id + c.progress + 1) }

def scatPiece (s : State) (e : EngineId) (c : Cmd) (d : CopyDesc) (sub : Nat) : State :=
  let cr := (s.core c.core).crew c.crew
  let rows := (windowRows c d).filterMap fun r => r.2.map fun i => (r.1, i)
  let from_ (n : Nat) : Nat := (d.src + n * d.sstr) % 2 ^ 64
  let to_ (i : Nat) : Nat := (d.dst + i * d.dstr) % 2 ^ 64
  let kind := if sub ≠ 0 && d.dsp = 1 then 3 else 1
  let local_ := decide (sub ≠ 0) && d.dsp = 0
  let spans := rows.flatMap fun r => [copySpan d.ssp (from_ r.1) d.rowb 0, copySpan d.dsp (to_ r.2) d.rowb kind] ++
    (if local_ then [copySpan d.dsp (to_ r.2) d.rowb 0] else [])
  let w := scatElem sub
  s.commitWith e c spans fun s =>
    let row (n : Nat) : List Byte := s.readSpan c (d.ssp = 1) (from_ n) d.rowb
    if sub = 0 then s.pieceRuns e c d.dsp (rows.map fun r => (to_ r.2, row r.1))
    else
      let elems := rows.flatMap fun r =>
        let bs := row r.1
        (List.range (d.rowb / w)).map fun j => (⟨r.1, j, to_ r.2 + j * w, leNat ((bs.drop (j * w)).take w)⟩ : ScatElem)
      if local_ then
        let add (s : State) (x : ScatElem) : State :=
          (s.writeSpans e c false [(x.addr, leBytes (scatOp sub (s.readNum { c with work := c.work.fresh } false x.addr w) x.value) w)]).1
        (elems.foldl add s).pieceDone e c 0
      else if cr.det then
        let entry (x : ScatElem) : DabEntry :=
          { crew := c.crew, cohort := 32 + c.seq, tid := x.n, seq := x.j, word := byteKey cr.asid.toNat x.addr / 4,
            kind := .reduction 0 (scatSub sub) (BitVec.ofNat 64 x.value) (scatHalf sub x.addr), slot := 32 * cr.rows.headD 0,
            load := none, release := false }
        (s.updCore c.core fun k => { k with dab := k.dab ++ elems.map entry }).pieceDone e c 0
      else
        let ms := mergeElems sub [] elems
        let send (s : State) (x : ScatElem) : State :=
          let key := byteKey cr.asid.toNat x.addr / 4
          s.push (windowLane c (homeLane (engineEnd e) key))
            (.reduce c.core 0 (some (e, c.id)) 0 (scatSub sub) 0 key (BitVec.ofNat 64 x.value) (scatHalf sub x.addr))
        (ms.foldl send s).pieceDone e c ms.length

/-- The pairs of one offset (R389): input index and output, in ascending output. -/
def rulePairs (row : List Nat) : List (Nat × Nat) := row.zipIdx.filter fun e => e.1 ≠ 0xFFFFFFFF

def rulesPiece (s : State) (e : EngineId) (c : Cmd) (d : CopyDesc) : State :=
  let o := c.progress
  let src := d.src + 4 * o * d.nrow
  s.commitWith e c [copySpan d.ssp src (4 * d.nrow) 0] fun s =>
    let bs := s.readSpan c (d.ssp = 1) (src % 2 ^ 64) (4 * d.nrow)
    let pairs := rulePairs ((List.range d.nrow).map fun n => leNat ((bs.drop (4 * n)).take 4))
    let l := (d.dst + o * d.rowb) % 2 ^ 64
    let cap := min ((d.rowb - 8) / 8) 65535
    let m := pairs.length
    let lost := decide (cap < m)
    let head := leBytes (min m cap + 2 ^ 16 * lost.toNat + 2 ^ 32 * m) 8
    let body := (pairs.take cap).flatMap fun p => leBytes (p.1 + 2 ^ 32 * p.2) 8
    let run := (l, head ++ body)
    s.commitWith e c [copySpan d.dsp l (8 + 8 * min m cap) 1] fun s =>
      s.pieceRuns e { c with overflow := c.overflow + lost.toNat } d.dsp [run]

/-- THE NEXT PIECE of a running copy command, once the bank slots have written what the piece before it left for them. -/
def copyPiece (s : State) (e : EngineId) (c : Cmd) : State :=
  let d := copyDesc c.work.desc
  if c.phase = .queued || !c.work.ready || c.unreachable then s
  else if !c.work.todo.isEmpty then s.flush e c fun _ => true
  else if c.fault.isSome || copyPieces c.instr c.work.desc ≤ c.progress then s
  else match c.instr with
    | .tcopy _ => tcopyPiece s e c d
    | .gath _ => gathPiece s e c d
    | .scat f => scatPiece s e c d f.sub.toNat
    | _ => rulesPiece s e c d

/-! ## Completion (R385, R393) -/

/-- Pieces of a remote tcopy whose writes have all been acknowledged. -/
def piecesAcked (c : Cmd) : Nat :=
  let n := copyTuples (copyDesc c.work.desc)
  if n ≤ c.acked then (n + 4095) / 4096 else c.acked / 4096

/-- Every piece is done and every write acknowledged, or the command has stopped. -/
def copyEnded (c : Cmd) : Bool :=
  c.phase ≠ .queued && c.work.ready && c.work.todo.isEmpty && (c.unreachable || (c.outstanding = 0 && (c.fault.isSome || decide (copyPieces c.instr c.work.desc ≤ c.progress))))

/-- STATUS and ARG. -/
def copyStatus (c : Cmd) : Nat × Nat :=
  let d := copyDesc c.work.desc
  if c.unreachable then (4, piecesAcked c)
  else match c.fault with
    | some f => (2, f.1)
    | none =>
      if c.overflow ≠ 0 then (3, c.overflow)
      else (0, if isTcopy c.instr then copyTuples d else if isRules c.instr then d.lim else d.nrow)

end Sys2Proof.Machine
end

