-- ==== Sys2Proof/Machine/Matrix.lean ====
section
/-!
DEFINITION. The matrix commands of the MXE (spec/14_matrix_engine.md R284 to R307, spec/15_matrix_instructions.md R314 to R321): what
each checks and reads at EngineStart, and what each writes at Commit.
-/
namespace Sys2Proof.Machine

/-! ## Accumulation (R298 to R301) -/

/-- A product cut off below 2^(emax - 64), in units of it. -/
def alignProduct (emax : Int) (p : FVal) : Int :=
  match p with
  | .fin neg m e =>
    let d := e - (emax - 64)
    let q : Int := if 0 ≤ d then (m * 2 ^ d.toNat : Nat) else (m / 2 ^ (-d).toNat : Nat)
    if neg then -q else q
  | _ => 0

def prodExp (p : FVal) : Int :=
  match p with
  | .fin _ m e => magExp m e
  | _ => 0

/-- The greatest exponent of some products. -/
def maxExp : List FVal → Int
  | [] => 0
  | [p] => prodExp p
  | p :: r => max (prodExp p) (maxExp r)

/-- The sum S of finite products (R299). -/
def sumProducts (ps : List FVal) : FVal :=
  let nz := ps.filter fun p => !p.isZero
  if nz.isEmpty then .fin (ps.all FVal.signBit) 0 0
  else
    let emax := maxExp nz
    let x := (nz.map (alignProduct emax)).foldr (· + ·) 0
    .fin (decide (x < 0)) x.natAbs (emax - 64)

def isInf (v : FVal) : Bool := match v with | .inf _ => true | _ => false

/-- Accumulate32 (R299). -/
def accum32 (acc : Nat) (ab : List (FVal × FVal)) : Nat :=
  let c := f32.decode acc
  let ps := ab.map fun p => p.1.mul p.2
  let signs := (ps ++ [c]).filter isInf
  if c.isNan || ab.any fun p => p.1.isNan || p.2.isNan then f32.nan
  else if ps.any FVal.isNan then f32.nan
  else match signs with
    | [] => f32.encode 0 false 0 (c.add 0 (sumProducts ps))
    | s :: r => if r.any fun t => t ≠ s then f32.nan else f32.encode 0 false 0 s

/-- R300. -/
def accum64 (acc : Nat) (ab : List (Nat × Nat)) : Nat :=
  ab.foldl (fun c p => f64.encode 0 false 0 (FVal.fma 0 (f64.decode p.1) (f64.decode p.2) (f64.decode c))) acc

/-- R301: the new word, and whether it was clamped. -/
def accumI8 (sat : Bool) (acc : Nat) (ab : List (Int × Int)) : Nat × Bool :=
  let x := toInt 32 true acc + (ab.map fun p => p.1 * p.2).foldr (· + ·) 0
  let y := if sat then clampInt 32 true x else x
  (narrow 32 y, y ≠ x)

/-! ## Formats (R61, R64, R296, R297, R314) -/

/-- The kind of an operand element. -/
inductive ElemKind where
  | float (f : Fmt)
  | int
  deriving DecidableEq, Repr

/-- An operand's element kind and width in bits. -/
structure ElemFmt where
  kind : ElemKind
  w : Nat
  deriving DecidableEq, Repr

def fFmt (f : Fmt) : ElemFmt := ⟨.float f, f.width⟩
def iFmt (w : Nat) : ElemFmt := ⟨.int, w⟩

/-- A and B formats and K of mmad, by SUB. -/
def mmadFmt (sub : Nat) : ElemFmt × ElemFmt × Nat :=
  match sub with
  | 0 => (fFmt bf16, fFmt bf16, 16)
  | 1 => (fFmt f16, fFmt f16, 16)
  | 2 => (fFmt e4m3, fFmt e4m3, 32)
  | 3 => (fFmt e5m2, fFmt e5m2, 32)
  | 4 => (fFmt e4m3, fFmt e5m2, 32)
  | 5 => (fFmt e5m2, fFmt e4m3, 32)
  | 6 => (iFmt 8, iFmt 8, 32)
  | 7 => (fFmt e2m1, fFmt e2m1, 64)
  | 8 => (fFmt f32, fFmt f32, 8)
  | _ => (fFmt f64, fFmt f64, 4)

/-- The format of mmas and spz by code. -/
def sparseFmt (sub : Nat) : ElemFmt :=
  match sub with
  | 0 => fFmt bf16
  | 2 => fFmt e4m3
  | 3 => fFmt e5m2
  | _ => iFmt 8

/-- Weights, activations and K of mmaq, by SUB. -/
def mmaqFmt (sub : Nat) : ElemFmt × ElemFmt × Nat :=
  let w := iFmt (if sub / 4 = 0 then 4 else 3)
  match sub % 4 with
  | 0 => (w, fFmt e4m3, 32)
  | 1 => (w, fFmt e5m2, 32)
  | _ => (w, fFmt bf16, 16)

/-- The value of an element as a factor of a product. -/
def elemVal (k : ElemFmt) (x : Nat) : FVal :=
  match k.kind with
  | .float f => f.decode x
  | .int => intVal (toInt k.w true x)

/-! ## Operand rows (R284, R285, R314, R316) -/

/-- What a multiply reads of its operands: format, dense elements of K, bytes of a row, for A and for B. -/
structure MulShape where
  fa : ElemFmt
  fb : ElemFmt
  k : Nat
  rba : Nat
  rbb : Nat
  deriving DecidableEq, Repr

def mulShape (i : Instr) : MulShape :=
  match i with
  | .mmas f =>
    let e := sparseFmt f.sub.toNat
    let k := sparseK f.sub.toNat
    ⟨e, e, k, k * e.w / 16, k * e.w / 8⟩
  | .mmaq f =>
    let e := mmaqFmt f.sub.toNat
    ⟨e.1, e.2.1, e.2.2, e.2.2 * e.1.w / 8, e.2.2 * e.2.1.w / 8⟩
  | i =>
    let e := mmadFmt (gForm i).sub.toNat
    ⟨e.1, e.2.1, e.2.2, e.2.2 * e.1.w / 8, e.2.2 * e.2.1.w / 8⟩

/-- Position code t of group g in the metadata of row r (R315). -/
def metaCode (mt : List Word) (r g t : Nat) : Nat :=
  let m := (mt.getD (3 * r) 0).toNat + 2 ^ 32 * (mt.getD (3 * r + 1) 0).toNat + 2 ^ 64 * (mt.getD (3 * r + 2) 0).toNat
  m / 2 ^ (12 * g + 3 * t) % 8

/-- The metadata of the rows in use is valid (R316). -/
def metaValid (mt : List Word) (m groups : Nat) : Bool :=
  (List.range m).all fun r => (List.range groups).all fun g =>
    let c (t : Nat) : Nat := metaCode mt r g t
    decide (c 0 < c 1) && decide (c 1 < c 2) && decide (c 2 < c 3)

/-- Expand(i) of R316: at each dense position the packed element kept there, none where it was pruned. -/
def expandRow (mt : List Word) (r k : Nat) (packed : Nat → Nat) : List (Option Nat) :=
  (List.range k).map fun p =>
    match (List.range 4).find? fun t => metaCode mt r (p / 8) t = p % 8 with
    | some t => some (packed (4 * (p / 8) + t))
    | none => none

/-! ## EngineStart of the matrix commands -/

def malformed : Start := .fault (0x19, 0, 0)

/-- The width and whether a scale map's WID is one that mscal accepts (R317). -/
def scaleWidth (wid : Nat) : Option Nat := if wid = 4 then some 32 else if wid = 2 then some 8 else none

/-- The lines of a .mem move, row by row (R320, R321). -/
def memRows (c : Cmd) (bytes kind : Nat) : List Span :=
  (List.range c.form.m).map fun i => ⟨true, (c.addrA.toNat + i * (c.addrB.toNat % 2 ^ 32)) % 2 ^ 64, bytes, kind, 1, 0x0A⟩

/-- Bytes of a row of a move (R320). -/
def moveBytes (f : GForm) : Nat := f.n * moveWidth (f.c.toNat % 16) / 8

def moveInMem (f : GForm) : Bool := f.c.toNat / 16 % 2 = 1

/-- R321: base and stride are multiples of the element width. -/
def memAligned (c : Cmd) : Bool :=
  let e := max 1 (moveWidth (c.form.c.toNat % 16) / 8)
  decide (c.addrA.toNat % e = 0) && decide (c.addrB.toNat % 2 ^ 32 % e = 0)

/-- The checks of a .mem move. -/
def memStart (s : State) (c : Cmd) (kind : Nat) (go : State → Start × State) : Start × State :=
  if !memAligned c then (.fault (0x0B, c.addrA, kind), s)
  else s.withSpans c (memRows c (moveBytes c.form) kind) go

/-- The command goes on with the operand rows that it has read in the scratchpad, unless a word of them has an error (R464). -/
def rowsStart (s : State) (c : Cmd) (reads : List (Nat × Nat × Nat)) (w : Work) : Start × State :=
  match (if (s.core c.core).badScratch.isEmpty then none else s.badAt c.core c.crew reads) with
  | some a => (.wait c.work, s.consumeSram c.core c.crew a)
  | none => (.run w, s)

/-- What a matrix command checks and reads at EngineStart (R285, R316, R317, R318, R321). -/
def matrixStart (s : State) (c : Cmd) : Start × State :=
  let k := s.seenCore c c.core
  let cr := k.crew c.crew
  let f := c.form
  let a := mapVal c.mapA
  let b := mapVal c.mapB
  match c.instr with
  | .mmad _ | .mmas _ | .mmaq _ =>
    let h := mulShape c.instr
    let isS := match c.instr with | .mmas _ => true | _ => false
    if isS && !metaValid c.mta f.m (h.k / 8) then (.fault (0x18, 0, 0), s)
    else if a.valid k cr (widOf h.fa.w) h.rba f.m && b.valid k cr (widOf h.fb.w) h.rbb f.n then
      rowsStart s c (a.reads k c.core cr h.rba f.m ++ b.reads k c.core cr h.rbb f.n)
        { rowsA := a.rows k cr h.rba f.m, rowsB := b.rows k cr h.rbb f.n }
    else (malformed, s)
  | .mscal _ =>
    match scaleWidth a.wid with
    | some w =>
      if a.valid k cr a.wid (f.m * w / 8) 1 then
        rowsStart s c (a.reads k c.core cr (f.m * w / 8) 1) { rowsA := a.rows k cr (f.m * w / 8) 1 }
      else (malformed, s)
    | none => (malformed, s)
  | .acld _ =>
    if moveInMem f then
      memStart s c 0 fun s =>
        (.run { rowsA := (memRows c (moveBytes f) 0).map fun q => s.readSpan c true q.addr q.bytes }, s)
    else if a.valid k cr (widOf (moveWidth (f.c.toNat % 16))) (moveBytes f) f.m && !a.kind then
      rowsStart s c (a.reads k c.core cr (moveBytes f) f.m) { rowsA := a.rows k cr (moveBytes f) f.m }
    else (malformed, s)
  | .acst _ =>
    if moveInMem f then memStart s c 1 fun s => (.run {}, s)
    else if a.valid k cr (widOf (moveWidth (f.c.toNat % 16))) (moveBytes f) f.m && !a.kind then (.run {}, s)
    else (malformed, s)
  | .spz _ =>
    let e := sparseFmt f.c.toNat
    let kk := sparseK f.c.toNat
    if a.valid k cr (widOf e.w) (kk * e.w / 8) f.m && b.valid k cr (widOf e.w) (kk * e.w / 16) f.m && !b.kind then
      rowsStart s c (a.reads k c.core cr (kk * e.w / 8) f.m) { rowsA := a.rows k cr (kk * e.w / 8) f.m }
    else (malformed, s)
  | _ => (.run {}, s)

/-! ## The accumulator store (R286) -/

def accKey (row col : Nat) : Nat := row * Config.accCols + col

def Core.accWord (k : Core) (row col : Nat) : Nat := (FMap.get 0 k.acc (accKey row col)).toNat

/-- The elements (i, j) of an M × N region. -/
def region (m n : Nat) : List (Nat × Nat) := (List.range m).flatMap fun i => (List.range n).map fun j => (i, j)

/-- Words written to the store: they have no error (R464). -/
def Core.accPut (k : Core) (l : List (Nat × Nat)) : Core :=
  { k with acc := FMap.putAll 0 k.acc (l.map fun e => (e.1, BitVec.ofNat 32 e.2)),
           badAcc := k.badAcc.filter fun w => !l.any fun e => e.1 = w }

/-- The pair of a .f64 element. -/
def Core.accPair (k : Core) (row col : Nat) : Nat := k.accWord row col + 2 ^ 32 * k.accWord row (col + 1)

def pairWords (row col v : Nat) : List (Nat × Nat) := [(accKey row col, v % 2 ^ 32), (accKey row (col + 1), v / 2 ^ 32)]

/-- Row i of an operand as a number. -/
def rowNum (l : List (List Byte)) (i : Nat) : Nat := leNat (l.getD i [])

/-- The A elements of a multiply's row: none for a pruned position of mmas. -/
def mulRowA (c : Cmd) (h : MulShape) (i : Nat) : List (Option Nat) :=
  let row := rowNum c.work.rowsA i
  match c.instr with
  | .mmas _ => expandRow c.mta i h.k (elemOf row h.fa.w)
  | _ => (List.range h.k).map fun p => some (elemOf row h.fa.w p)

/-- The value without its sign. -/
def magVal (v : FVal) : FVal :=
  match v with
  | .fin _ m e => .fin false m e
  | .inf _ => .inf false
  | .nan => .nan

/-- A factor pair of R299. At a pruned position A has +0 (R316), and the product is +0 whatever the sign of B's element; a NaN or an
infinity of B there counts. (DEDUCED, log 31) -/
def mulPair (h : MulShape) (a : Option Nat) (b : Nat) : FVal × FVal :=
  match a with
  | some x => (elemVal h.fa x, elemVal h.fb b)
  | none => (.fin false 0 0, magVal (elemVal h.fb b))

/-- The words that a multiply leaves in element (i, j), and whether it clamped (R314). -/
def mulElem (k : Core) (c : Cmd) (h : MulShape) (i j : Nat) : List (Nat × Nat) × Bool :=
  let f := c.form
  let row := originRow f.d + i
  let arow := mulRowA c h i
  let bnum := rowNum c.work.rowsB j
  let b (p : Nat) : Nat := elemOf bnum h.fb.w p
  if h.fa = fFmt f64 then
    let col := originCol f.d + 2 * j
    (pairWords row col (accum64 (k.accPair row col) (arow.zipIdx.map fun e => (e.1.getD 0, b e.2))), false)
  else
    let col := originCol f.d + j
    if h.fa = iFmt 8 && h.fb = iFmt 8 then
      let r := accumI8 f.sat (k.accWord row col)
        (arow.zipIdx.map fun e => (toInt 8 true (e.1.getD 0), toInt 8 true (b e.2)))
      ([(accKey row col, r.1)], r.2)
    else ([(accKey row col, accum32 (k.accWord row col) (arow.zipIdx.map fun e => mulPair h e.1 (b e.2)))], false)

def mulCommit (k : Core) (c : Cmd) : Core :=
  let h := mulShape c.instr
  let out := (region c.form.m c.form.n).map fun e => mulElem k c h e.1 e.2
  let k := k.accPut (out.flatMap (·.1))
  if out.any (·.2) then k.updCrew c.crew fun x => { x with satf := true } else k

/-- A scale of mscal (R296, R317). -/
def scaleVal (w x : Nat) : FVal := if w = 32 then f32.decode x else if x = 255 then .nan else .fin false 1 ((x : Int) - 127)

/-- mscal of one element (R298). -/
def scaleElem (c : Cmd) (w : Nat) (k : Core) (e : Nat × Nat) : Core :=
  let f := c.form
  let main := accKey (originRow f.d + e.1) (originCol f.d + e.2)
  let stage := accKey (originRow f.c + e.1) (originCol f.c + e.2)
  let s := scaleVal w (elemOf (rowNum c.work.rowsA 0) w e.1)
  let v := FVal.fma 0 s (f32.decode (FMap.get 0 k.acc stage).toNat) (f32.decode (FMap.get 0 k.acc main).toNat)
  (k.accPut [(main, f32.encode 0 false 0 v)]).accPut [(stage, 0)]

/-- What acld widens an element to (R320). -/
def widenElem (fmt x : Nat) : Nat :=
  if fmt = 0 then convert 2 0 0 false 0 x
  else if fmt = 2 || fmt = 10 || fmt = 11 then x
  else convert 10 fmt 0 false 0 x

def loadElem (c : Cmd) (i j : Nat) : List (Nat × Nat) :=
  let f := c.form
  let fmt := f.c.toNat % 16
  let x := widenElem fmt (elemOf (rowNum c.work.rowsA i) (moveWidth fmt) j)
  if fmt = 11 then pairWords (originRow f.d + i) (originCol f.d + 2 * j) x
  else [(accKey (originRow f.d + i) (originCol f.d + j), x)]

/-- What acst narrows an element to, with the rounding state of its column (R304, R320). -/
def storeElem (k : Core) (f : GForm) (lfsr : Nat → Word) (i j : Nat) : Nat :=
  let fmt := f.c.toNat % 16
  let row := originRow f.d + i
  let col := originCol f.d + j
  if fmt = 11 then k.accPair row (originCol f.d + 2 * j)
  else
    let x := k.accWord row col
    if fmt = 2 || fmt = 10 then x
    else if fmt = 0 then convert 0 2 f.rm.toNat f.sat 0 x
    else convert fmt 10 f.rm.toNat f.sat (lfsr col) x

/-- The LFSR of a column after a number of roundings. -/
def lfsrAfter : Nat → Word → Word
  | 0, w => w
  | n + 1, w => lfsrAfter n (advanceLfsr w)

/-- The rows that acst writes, as bytes: within a column each row's rounding advances the column's LFSR once (R304). -/
def storeRows (k : Core) (f : GForm) : List (List Byte) :=
  (List.range f.m).map fun i =>
    let st (col : Nat) : Word := lfsrAfter i (FMap.get 0 k.colLfsr col)
    leBytes (joinElems (moveWidth (f.c.toNat % 16)) ((List.range f.n).map fun j => storeElem k f st i j)) (moveBytes f)

/-- The column LFSRs after acst. -/
def storeLfsr (k : Core) (f : GForm) : Core :=
  if f.rm = 5 then
    { k with colLfsr := k.colLfsr.mapVals fun col w =>
        if originCol f.d ≤ col && col < originCol f.d + f.n then lfsrAfter f.m w else w }
  else k

/-! ## spz (R318) -/

/-- The magnitude of an element: a rank, then a number in units of 2^-400. -/
def magnitude (e : ElemFmt) (x : Nat) : Nat × Nat :=
  match elemVal e x with
  | .nan => (2, 0)
  | .inf _ => (1, 0)
  | .fin _ m exp => (0, m * 2 ^ (exp + 400).toNat)

def magLt (a b : Nat × Nat) : Bool := decide (a.1 < b.1) || (decide (a.1 = b.1) && decide (a.2 < b.2))

/-- The four positions kept of a group of eight: those that fewer than four others outrank. -/
def keptOf (mags : List (Nat × Nat)) : List Nat :=
  (List.range 8).filter fun p =>
    let mp := mags.getD p (0, 0)
    let above := (List.range 8).filter fun q =>
      let mq := mags.getD q (0, 0)
      magLt mp mq || (mq = mp && decide (q < p))
    decide (above.length < 4)

/-- One source row pruned: the packed row and its metadata. -/
def pruneRow (e : ElemFmt) (k row : Nat) : Nat × Nat :=
  let groups := (List.range (k / 8)).map fun g => keptOf ((List.range 8).map fun p => magnitude e (elemOf row e.w (8 * g + p)))
  let packed := groups.zipIdx.flatMap fun g => g.1.map fun p => elemOf row e.w (8 * g.2 + p)
  let codes := groups.flatMap fun g => g
  (joinElems e.w packed, joinElems 3 codes)

/-- What spz gives a lane's metadata registers (R318). -/
def pruneRegs (f : GForm) (metas : List Nat) (lane : Nat) : List (Dst × Word) :=
  let three (r d : Nat) : List (Dst × Word) :=
    (List.range 3).map fun j => (Dst.v (d + j), BitVec.ofNat 32 (metas.getD r 0 / 2 ^ (32 * j)))
  (if lane < f.m then three lane f.d.toNat else []) ++ (if lane + 32 < f.m then three (lane + 32) (f.d.toNat + 3) else [])

/-! ## Commit of the matrix commands (R291, R307) -/

/-- The words that a command writes are part of its region. -/
def inRegion (o : BitVec 8) (m n row col : Nat) : Bool :=
  originRow o ≤ row && row < originRow o + m && originCol o ≤ col && col < originCol o + n

/-- Columns of a region: a .f64 element has two. -/
def regionCols (i : Instr) : Nat :=
  let f := gForm i
  match i with
  | .mmad _ => if f.sub = 9 then 2 * f.n else f.n
  | .acld _ | .acst _ => if f.c.toNat % 16 = 11 then 2 * f.n else f.n
  | _ => f.n

/-- Whether a word has a contribution whose residue verdict has not passed, from the writers of the store, youngest first (R307,
R319). What mscal adds to a main word carries the obligations of the staging word that it scaled. -/
def owesResidue : List (Nat × Instr × Bool) → Nat → Nat → Bool
  | [], _, _ => false
  | (_, i, open_) :: older, row, col =>
    let f := gForm i
    let hit := inRegion f.d f.m (regionCols i) row col
    match i with
    | .mmad _ | .mmas _ | .mmaq _ => (hit && open_) || owesResidue older row col
    | .mscal _ =>
      ((hit || inRegion f.c f.m f.n row col) && open_) || owesResidue older row col ||
        (hit && owesResidue older (row + originRow f.c - originRow f.d) (col + originCol f.c - originCol f.d))
    | .aczero _ | .acld _ => !hit && owesResidue older row col
    | .acmov _ =>
      if hit then owesResidue older (row + originRow f.c - originRow f.d) (col + originCol f.c - originCol f.d)
      else owesResidue older row col
    | _ => owesResidue older row col

/-- acst may commit only when its source region owes no verdict. (DEDUCED, log 23) -/
def residueHolds (k : Core) (c : Cmd) : Bool :=
  match c.instr with
  | .acst f => (region f.m (regionCols c.instr)).any fun e =>
      owesResidue k.ledger.reverse (originRow f.d + e.1) (originCol f.d + e.2)
  | _ => false

/-- A command that writes the accumulator store enters the ledger, as long as a verdict is open. -/
def Core.enter (k : Core) (c : Cmd) : Core :=
  let writes := match c.instr with
    | .mmad _ | .mmas _ | .mmaq _ | .mscal _ | .aczero _ | .acld _ | .acmov _ => true
    | _ => false
  if writes && (c.residue || !k.ledger.isEmpty) then { k with ledger := k.ledger ++ [(c.id, c.instr, c.residue)] } else k

/-- A command's verdict has passed. -/
def Core.settleLedger (k : Core) (id : Nat) : Core :=
  let l := k.ledger.map fun e => if e.1 = id then (e.1, e.2.1, false) else e
  { k with ledger := if l.any fun e => e.2.2 then l else [] }

/-- Commands whose stages form results that carry a residue verdict (R305). -/
def contributes (i : Instr) : Bool :=
  match i with
  | .mmad _ | .mmas _ | .mmaq _ | .mscal _ => true
  | i => isTile i

/-- The words of the store that a command reads at its Commit. -/
def accReads (c : Cmd) : List Nat :=
  let f := c.form
  let at_ (o : BitVec 8) (n : Nat) : List Nat := (region f.m n).map fun e => accKey (originRow o + e.1) (originCol o + e.2)
  match c.instr with
  | .mmad _ | .mmas _ | .mmaq _ | .acst _ => at_ f.d (regionCols c.instr)
  | .mscal _ => at_ f.d f.n ++ at_ f.c f.n
  | .acmov _ => at_ f.c f.n
  | _ => []

/-- The accumulator store after a command's Commit. -/
def accCommit (k : Core) (c : Cmd) : Core :=
  let f := c.form
  let cells := region f.m f.n
  match c.instr with
  | .mmad _ | .mmas _ | .mmaq _ => mulCommit k c
  | .mscal _ => cells.foldl (scaleElem c (if (mapVal c.mapA).wid = 4 then 32 else 8)) k
  | .aczero _ => k.accPut (cells.map fun e => (accKey (originRow f.d + e.1) (originCol f.d + e.2), 0))
  | .acmov _ => k.accPut (cells.map fun e =>
      (accKey (originRow f.d + e.1) (originCol f.d + e.2), k.accWord (originRow f.c + e.1) (originCol f.c + e.2)))
  | .acld _ => k.accPut (cells.flatMap fun e => loadElem c e.1 e.2)
  | .acst _ => storeLfsr k f
  | _ => k

/-- THE COMMIT of a matrix command: it writes its whole destination, the scratchpad in bank slots to come. Writes to virtual memory
are under way until acknowledged. A word with an error that it reads of the store contains its gang instead (R287). -/
def matrixCommit (s : State) (c : Cmd) : State :=
  let e := EngineId.mxe c.core
  let f := c.form
  let k := s.core c.core
  let cr := k.crew c.crew
  let keys (m : MapVal) (rows : List (List Byte)) : List (Nat × Byte) :=
    rows.zipIdx.flatMap fun r => (m.writes cr r.2 r.1).map fun b => (arrayKey c.core b.1, b.2)
  let done : Cmd := { c with phase := .committed }
  if !k.badAcc.isEmpty && (accReads c).any k.badAcc.contains then s.consumeSram c.core c.crew 0
  else match c.instr with
  | .acst _ =>
    let rows := storeRows k f
    let s := s.updCore c.core fun k => accCommit k c
    if moveInMem f then
      let w := s.writeSpans e c true ((memRows c (moveBytes f) 1).zipIdx.map fun q => (q.1.addr, rows.getD q.2 []))
      w.1.putCmd e { done with outstanding := w.2 }
    else s.putCmd e (done.later (keys (mapVal c.mapA) rows))
  | .spz _ =>
    let el := sparseFmt f.c.toNat
    let kk := sparseK f.c.toNat
    let out := (List.range f.m).map fun i => pruneRow el kk (rowNum c.work.rowsA i)
    (s.releaseRegs c fun x => pruneRegs f (out.map (·.2)) (laneOf x)).putCmd e
      (done.later (keys (mapVal c.mapB) (out.map fun r => leBytes r.1 (kk * el.w / 16))))
  | _ => (s.updCore c.core fun k => (accCommit k c).enter c).putCmd e done

end Sys2Proof.Machine
end

