-- ==== Sys2Proof/Machine/Starter.lean ====
section
/-!
DEFINITION. The Starter unit (spec/22_starter.md R400 to R414): layer entries, command descriptors, and the pieces of spred, sfetch and
scheck.
-/
namespace Sys2Proof.Machine

/-! ## The layer descriptor (R400, R401) -/

structure LayerDesc where
  dff : Nat
  dmod : Nat
  rpc : Nat
  pf : Bool
  act : Bool
  sr : Nat
  paddr : Nat
  qaddr : Nat
  thi : Nat
  tlo : Nat
  eps : Nat
  step : Nat
  mw : Nat
  ml : Nat
  wpos : Nat
  wmiss : Nat
  phase : Nat
  checks : Nat
  misses : Nat
  deriving DecidableEq, Repr

def layerDesc (x : Nat) : LayerDesc :=
  { dff := bitsOf x 15 0, dmod := bitsOf x 31 16, rpc := bitsOf x 33 32, pf := x.testBit 34, act := x.testBit 35, sr := bitsOf x 38 36,
    paddr := bitsOf x 127 64, qaddr := bitsOf x 191 128, thi := bitsOf x 223 192, tlo := bitsOf x 255 224, eps := bitsOf x 287 256,
    step := bitsOf x 319 288, mw := bitsOf x 335 320, ml := bitsOf x 351 336, wpos := bitsOf x 367 352, wmiss := bitsOf x 383 368,
    phase := bitsOf x 391 384, checks := bitsOf x 447 416, misses := bitsOf x 479 448 }

def LayerDesc.rp (d : LayerDesc) : Nat := 8 * 2 ^ d.rpc
def LayerDesc.fmt (d : LayerDesc) : Fmt := if d.pf then e5m2 else e4m3
/-- The conversion code of PF's format. -/
def LayerDesc.code (d : LayerDesc) : Nat := if d.pf then 13 else 12

def finite32 (x : Nat) : Bool := match f32.decode x with | .fin _ _ _ => true | _ => false
def negative32 (x : Nat) : Bool := (f32.decode x).lt (.fin false 0 0)

/-- The negation of R401. -/
def layerOk (x : Nat) : Bool :=
  let d := layerDesc x
  bitsOf x 63 39 = 0 && bitsOf x 415 392 = 0 && bitsOf x 1023 480 = 0 && d.rpc ≠ 3 && d.paddr % 64 = 0 && d.qaddr % 64 = 0 &&
  finite32 d.thi && finite32 d.tlo && finite32 d.eps && !(f32.decode d.thi).lt (f32.decode d.tlo) && !negative32 d.eps &&
  !negative32 d.step && !(f32.decode d.step).isNan && decide (d.wpos < d.mw) && decide (d.wmiss ≤ d.wpos) && decide (d.phase < 2 ^ d.sr) &&
  d.dff ≠ 0 && d.dmod % 16 = 0 && decide (16 ≤ d.dmod) && decide (d.dmod ≤ 16384)

/-! ## Command descriptors (R404, R408) -/

def listCapOk (c : Nat) : Bool := c % 16 = 0 && decide (16 ≤ c) && decide (c ≤ 65520)

/-- Reserved and unused fields, ranges, capacities and LAYER (R404, R408). -/
def starterFieldsOk (i : Instr) (x : Nat) : Bool :=
  let d := starterDesc x
  bitsOf x 23 20 = 0 && bitsOf x 63 31 = 0 && bitsOf x 255 240 = 0 && bitsOf x 319 304 = 0 && d.xf < 2 && listCapOk d.lcap &&
  d.layer % 128 = 0 &&
  if isSfetch i then
    d.xf = 0 && d.ntok = 0 && d.xbase = 0 && d.xstr = 0 && d.list2 = 0 && d.rowb % 4 = 0 && decide (4 ≤ d.rowb) && decide (d.rowb ≤ 65532)
  else
    decide (1 ≤ d.ntok) && decide (d.ntok ≤ 64) && listCapOk d.lcap2 && d.rowb = 0 && d.dst = 0 && d.dstr = 0 &&
    (!isSpred i || (d.wbase = 0 && d.wstr = 0))

/-- Scratch regions that a command addresses: address, bytes, alignment (R408); rows is how many staging rows sfetch writes. The
address of the first is checked where there is none. (DEDUCED, log 38) -/
def starterRegions (i : Instr) (d : StarterDesc) (dmod rows : Nat) : List (Nat × Nat × Nat) :=
  let list1 := (d.list, 8 + 2 * d.lcap, 8)
  if isSfetch i then list1 :: (d.dst, 1, 2) :: (List.range rows).map fun n => (d.dst + n * d.dstr, d.rowb, 2)
  else [list1, (d.list2, 8 + 2 * d.lcap2, 8)] ++ (List.range d.ntok).map fun t => (d.xbase + t * d.xstr, dmod * tokElem d, 2)

def regionsOk (s : State) (c : Cmd) (l : List (Nat × Nat × Nat)) : Bool :=
  l.all fun r => r.1 % r.2.2 = 0 && (s.arrayAt c.core ((s.core c.core).crew c.crew) r.1 r.2.1).isSome

/-! ## The layer table (R402) -/

/-- The command descriptor, as EngineStart read it; none where its address is not legal. -/
def State.readCmdDesc (s : State) (c : Cmd) : Option Nat :=
  if c.phase ≠ .queued then some c.work.desc
  else if descAddrOk ((s.core c.core).crew c.crew) c.addrA.toNat 64 then some (s.readNum c false c.addrA.toNat 64) else none

/-- LAYER of the command descriptor that the crew's command names, with its ASID. -/
def State.layerKey (s : State) (c : Cmd) : Nat × Nat :=
  (((s.core c.core).crew c.crew).asid.toNat, ((s.readCmdDesc c).map fun x => bitsOf x 127 64).getD 0)

/-- An entry becomes the most recently used. A full table loses the least recently used one that no command of the queue names. -/
def putLayer (l : List LayerEntry) (named : List (Nat × Nat)) (e : LayerEntry) : List LayerEntry :=
  let rest := l.filter fun x => !(x.asid = e.asid && x.addr = e.addr)
  let room := if rest.length < Config.layerEntries then rest else rest.eraseP fun x => !named.contains (x.asid, x.addr)
  room ++ [e]

/-! ## EngineStart (R408, R410, R411) -/

/-- The progress record of a command that starts: the working values come from the entry. -/
def progInit (layer : Nat) : StarterProg :=
  let d := layerDesc layer
  { layer := layer, thi := d.thi, tlo := d.tlo, wpos := d.wpos, wmiss := d.wmiss, checks := d.checks, misses := d.misses }

/-- Whether position p of a band list is checked. -/
def sampled (d : LayerDesc) (p : Nat) : Bool := (p + d.phase) % 2 ^ d.sr = 0

/-- A Starter command with its descriptor and its layer's 1024 bits: the validation of R408, and the lists that it reads. -/
def starterCheck (s : State) (c : Cmd) (x layer : Nat) : Start :=
  let d := starterDesc x
  let l := layerDesc layer
  let listOk := regionsOk s c [(d.list, 8 + 2 * d.lcap, 8)]
  let count := if !isSpred c.instr && listOk then s.readNum c false d.list 2 else 0
  let rows := (count + 15) / 16 * 16
  let ix := (List.range count).map fun n => s.readNum c false (d.list + 8 + 2 * n) 2
  let entryBad (e : Nat × Nat) : Bool := decide (l.dff ≤ e.1) && (isSfetch c.instr || sampled l e.2)
  if !starterFieldsOk c.instr x || !layerOk layer || !listOk || d.lcap < count || !regionsOk s c (starterRegions c.instr d l.dmod rows) ||
      ix.zipIdx.any entryBad
  then .fault (0x19, c.addrA, 0)
  else .run { desc := x, index := ix.map some }

/-- What a Starter command checks and reads at EngineStart, with the progress record it starts with: the command descriptor, then
the layer entry, which is loaded where it is missing or LOAD asks for it (R402), then the validation. A command with progress reads no
entry (R413). -/
def starterStart (s : State) (q : Nat) (c : Cmd) : Start × State × StarterProg :=
  match s.readCmdDesc c with
  | none => (.fault (0x19, c.addrA, 0), s, c.prog)
  | some x =>
    let c := { c with work := { c.work with desc := x } }
    let d := starterDesc x
    if c.progress ≠ 0 then (starterCheck s c x c.prog.layer, s, c.prog)
    else
      let asid := ((s.core c.core).crew c.crew).asid.toNat
      let go (s : State) (layer : Nat) : Start × State × StarterProg :=
        let named := (s.engine (.starter q)).queue.map s.layerKey
        (starterCheck s c x layer, s.updCluster q fun k => { k with layers := putLayer k.layers named ⟨asid, d.layer, layer⟩ },
          progInit layer)
      match (s.cluster q).layers.find? fun e => e.asid = asid && e.addr = d.layer, d.load with
      | some e, false => go s e.desc
      | _, _ =>
        match s.gather c [⟨true, d.layer, 128, 0, 1, 0x0B⟩] with
        | (.fault f, s) => (.fault f, s, c.prog)
        | (.wait w, s) => (.wait w, s, c.prog)
        | (.ok, s) => go s (s.readNum c true d.layer 128)

/-! ## Arithmetic (R408) -/

/-- A dot product formed exactly and rounded once to FP32. -/
def dot32 (a b : List FVal) : Nat := accum32 0x80000000 (a.zip b)

/-- Token t's elements xq[t]. -/
def tokenVals (s : State) (c : Cmd) (d : StarterDesc) (l : LayerDesc) (t : Nat) : List FVal :=
  let bs := s.readSpan c false (d.xbase + t * d.xstr) (l.dmod * tokElem d)
  if d.xf = 0 then bs.map fun b => e4m3.decode b.toNat
  else (List.range l.dmod).map fun k => l.fmt.decode (convert l.code 9 0 true 0 (leNat ((bs.drop (2 * k)).take 2)))

/-- The scratch ranges of the tokens. -/
def tokenSpans (d : StarterDesc) (l : LayerDesc) : List Span :=
  (List.range d.ntok).map fun t => ⟨false, d.xbase + t * d.xstr, l.dmod * tokElem d, 0, 1, 0x0B⟩

/-- Bytes as values in PF's format. -/
def pfVals (l : LayerDesc) (bs : List Byte) : List FVal := bs.map fun b => l.fmt.decode b.toNat

/-- The greatest of some FP32 values; NaN if any is. -/
def maxNan : List Nat → Nat
  | [] => f32.sign true + f32.inf
  | x :: r =>
    let m := maxNan r
    if (f32.decode x).isNan || (f32.decode m).isNan then f32.nan else if (f32.decode m).lt (f32.decode x) then x else m

/-- Act (R400). -/
def actVal (abs : Bool) (x : Nat) : Nat :=
  let v := f32.decode x
  if v.isNan then f32.nan else if abs then x % 2 ^ 31 else if v.signBit then 0 else x

/-! ## Lists (R405) -/

/-- Entries appended to a list of a capacity that has counted n rows so far. -/
def listPut (addr cap n : Nat) (rows : List Nat) : List (Nat × List Byte) :=
  let fit := rows.take (cap - n)
  if fit.isEmpty then [] else [(addr + 8 + 2 * n, fit.flatMap fun i => leBytes i 2)]

/-- Header and padding of a list with a true count. -/
def listClose (addr cap n : Nat) : List (Nat × List Byte) :=
  let cnt := min n cap
  let pad := (16 - cnt % 16) % 16
  [(addr, leBytes (cnt + 2 ^ 16 * (decide (cap < n)).toNat + 2 ^ 32 * n) 8)] ++
    (if pad = 0 then [] else [(addr + 8 + 2 * cnt, List.replicate (2 * pad) 0xFF)])

/-! ## Pieces (R409 to R412) -/

def starterPieces (c : Cmd) : Nat :=
  let l := layerDesc c.prog.layer
  match c.instr with
  | .spred _ => (l.dff + 15) / 16
  | .sfetch _ => (c.work.index.length + 15) / 16
  | _ => max 1 c.work.index.length

/-- The piece is past its Commit: its runs are written in bank slots to come. -/
def State.starterDone (s : State) (e : EngineId) (c : Cmd) (p : StarterProg) (l : List (Nat × List Byte)) (sent : Nat) : State :=
  let r := s.writeRuns e c false l
  r.1.putCmd e { r.2 with progress := c.progress + 1, outstanding := c.outstanding + sent, prog := p, work := r.2.work.fresh }

/-- h of spred (R409), by token. -/
def predictorH (s : State) (c : Cmd) (d : StarterDesc) (l : LayerDesc) : List Nat :=
  let qs := (List.range l.rp).map fun k => pfVals l (s.readSpan c true (l.qaddr + k * l.dmod) l.dmod)
  (List.range d.ntok).flatMap fun t =>
    let x := tokenVals s c d l t
    qs.map fun q => convert l.code 10 0 true 0 (dot32 q x)

def spredPiece (s : State) (e : EngineId) (c : Cmd) : State :=
  let d := starterDesc c.work.desc
  let l := layerDesc c.prog.layer
  let rows := pieceRange16 c.progress l.dff
  let p0 := l.paddr + 16 * c.progress * l.rp
  let spans : List Span := (if c.progress = 0 then ⟨true, l.qaddr, l.rp * l.dmod, 0, 1, 0x0B⟩ :: tokenSpans d l else []) ++
    [⟨true, p0, rows.length * l.rp, 0, 1, 0x0B⟩]
  s.commitWith e c spans fun s =>
    let h := if c.progress = 0 then predictorH s c d l else c.prog.h
    let score (i : Nat) : FVal :=
      let p := pfVals l (s.readSpan c true (l.paddr + i * l.rp) l.rp)
      f32.decode (maxNan ((List.range d.ntok).map fun t => dot32 p (((h.drop (t * l.rp)).take l.rp).map l.fmt.decode)))
    let hi := rows.filter fun i => let v := score i; v.isNan || !v.lt (f32.decode c.prog.thi)
    let mid := rows.filter fun i => let v := score i; !v.isNan && v.lt (f32.decode c.prog.thi) && !v.lt (f32.decode c.prog.tlo)
    let n1 := c.prog.n1 + hi.length
    let n2 := c.prog.n2 + mid.length
    let last := if c.progress + 1 = starterPieces c then listClose d.list d.lcap n1 ++ listClose d.list2 d.lcap2 n2 else []
    s.starterDone e c { c.prog with h := h, n1 := n1, n2 := n2 }
      (listPut d.list d.lcap c.prog.n1 hi ++ listPut d.list2 d.lcap2 c.prog.n2 mid ++ last) 0
where
  pieceRange16 (p total : Nat) : List Nat := (List.range (min 16 (total - 16 * p))).map (16 * p + ·)

def sfetchPiece (s : State) (e : EngineId) (c : Cmd) : State :=
  let d := starterDesc c.work.desc
  let ns := (List.range 16).map (16 * c.progress + ·)
  let from_ (n : Nat) : Option Nat := ((c.work.index.getD n none).map fun i => (d.wbase + i * d.wstr) % 2 ^ 64)
  let spans : List Span := ns.filterMap fun n => (from_ n).map fun a => ⟨true, a, d.rowb, 0, 1, 0x0B⟩
  s.commitWith e c spans fun s =>
    s.starterDone e c c.prog (ns.map fun n => (d.dst + n * d.dstr, match from_ n with
      | some a => s.readSpan c true a d.rowb
      | none => List.replicate d.rowb 0)) 0

/-- THI or TLO one step lower. -/
def stepDown (x step : Nat) : Nat := f32.encode 0 false 0 ((f32.decode x).add 0 (f32.decode step).neg)

/-- The working values after a checked row (R410). -/
def checkRow (l : LayerDesc) (p : StarterProg) (miss : Bool) : StarterProg :=
  let p := { p with checks := min (2 ^ 32 - 1) (p.checks + 1), wpos := p.wpos + 1 }
  let p := if miss then { p with misses := min (2 ^ 32 - 1) (p.misses + 1), wmiss := p.wmiss + 1, n2 := p.n2 + 1 } else p
  if l.ml < p.wmiss then { p with thi := stepDown p.thi l.step, tlo := stepDown p.tlo l.step, wpos := 0, wmiss := 0 }
  else if p.wpos = l.mw then { p with wpos := 0, wmiss := 0 }
  else p

/-- PHASE after a list of n entries. -/
def nextPhase (l : LayerDesc) (n : Nat) : Nat := (l.phase + n) % 2 ^ l.sr

/-- The adaptive fields of a descriptor (R400), as runs at its address. -/
def adaptiveRuns (addr phase : Nat) (p : StarterProg) : List (Nat × List Byte) :=
  [(addr + 24, leBytes (p.thi + 2 ^ 32 * p.tlo) 8), (addr + 44, leBytes (p.wpos + 2 ^ 16 * p.wmiss) 4), (addr + 48, leBytes phase 1),
   (addr + 52, leBytes (p.checks + 2 ^ 32 * p.misses) 8)]

/-- A field of a descriptor replaced. -/
def setBits (x lo w v : Nat) : Nat := x / 2 ^ (lo + w) * 2 ^ (lo + w) + v % 2 ^ w * 2 ^ lo + x % 2 ^ lo

def adaptedLayer (layer phase : Nat) (p : StarterProg) : Nat :=
  let x := setBits (setBits layer 192 32 p.thi) 224 32 p.tlo
  let x := setBits (setBits x 352 16 p.wpos) 368 16 p.wmiss
  setBits (setBits (setBits x 384 8 phase) 416 32 p.checks) 448 32 p.misses

def scheckPiece (s : State) (e : EngineId) (q : Nat) (c : Cmd) : State :=
  let d := starterDesc c.work.desc
  let l := layerDesc c.prog.layer
  let pos := c.progress
  let cr := (s.core c.core).crew c.crew
  let row : Option Nat := if sampled l pos then c.work.index.getD pos none else none
  let from_ (i : Nat) : Nat := (d.wbase + i * d.wstr) % 2 ^ 64
  let last := decide (pos + 1 = starterPieces c)
  let phase := nextPhase l c.work.index.length
  let spans : List Span := (match row with
      | some i => ⟨true, from_ i, l.dmod, 0, 1, 0x0B⟩ :: tokenSpans d l
      | none => []) ++
    (if last then (adaptiveRuns d.layer phase c.prog).map fun r => ⟨true, r.1, r.2.length, 1, 1, 0x0B⟩ else [])
  s.commitWith e c spans fun s =>
    let p : StarterProg × List (Nat × List Byte) := match row with
      | none => (c.prog, [])
      | some i =>
        let w := pfVals l (s.readSpan c true (from_ i) l.dmod)
        let m := f32.decode (maxNan ((List.range d.ntok).map fun t => actVal l.act (dot32 w (tokenVals s c d l t))))
        let miss := m.isNan || (f32.decode l.eps).lt m
        (checkRow l c.prog miss, if miss then listPut d.list2 d.lcap2 c.prog.n2 [i] else [])
    if last then
      let runs := if c.work.index.isEmpty then [] else adaptiveRuns d.layer phase p.1
      let a := s.writeRuns e { c with outstanding := 0 } true runs
      let fresh (x : LayerEntry) : LayerEntry :=
        if x.asid = cr.asid.toNat && x.addr = d.layer then { x with desc := adaptedLayer x.desc phase p.1 } else x
      let s := a.1.updCluster q fun k => { k with layers := k.layers.map fresh }
      s.starterDone e c p.1 (p.2 ++ listClose d.list2 d.lcap2 p.1.n2) a.2.outstanding
    else s.starterDone e c p.1 p.2 0

/-- THE NEXT PIECE of a running Starter command, once the bank slots have written what the piece before it left for them. -/
def starterPiece (s : State) (q : Nat) (c : Cmd) : State :=
  let e := EngineId.starter q
  if c.phase = .queued || !c.work.ready then s
  else if !c.work.todo.isEmpty then s.flush e c fun _ => true
  else if c.fault.isSome || starterPieces c ≤ c.progress then s
  else match c.instr with
    | .spred _ => spredPiece s e c
    | .sfetch _ => sfetchPiece s e c
    | _ => scheckPiece s e q c

/-! ## Completion (R414) -/

def starterMayStart (s : State) (e : EngineId) (elders : List Cmd) (c : Cmd) : Bool := elders.isEmpty && s.recordRoom e elders c

def starterEnded (c : Cmd) : Bool :=
  c.phase ≠ .queued && c.work.ready && c.work.todo.isEmpty && c.outstanding = 0 && !c.residue && (c.fault.isSome || decide (starterPieces c ≤ c.progress))

/-- STATUS and ARG. -/
def starterStatus (c : Cmd) : Nat × Nat :=
  let d := starterDesc c.work.desc
  let l := layerDesc c.prog.layer
  let full := (isSpred c.instr && decide (d.lcap < c.prog.n1)).toNat + 2 * (!isSfetch c.instr && decide (d.lcap2 < c.prog.n2)).toNat
  match c.fault with
  | some f => (2, f.1)
  | none =>
    if full ≠ 0 then (3, full)
    else (0, match c.instr with
      | .spred _ => l.dff
      | .sfetch _ => c.work.index.length
      | _ => ((List.range c.work.index.length).filter (sampled l)).length)

end Sys2Proof.Machine
end

