-- ==== Sys2Proof/Machine/Tiles.lean ====
section
/-!
DEFINITION. The rank-tile commands (spec/16_rank_tiles.md R327 to R347, spec/17_rank_instructions.md R352 to R364): descriptors, heaps,
what each command checks, reads and forms at EngineStart, and the commit order of R340.
-/
namespace Sys2Proof.Machine

/-! ## Descriptors (R329, R330) -/

/-- R329: reserved fields and codes, and the fields that software alone writes. -/
def descFieldsOk (x : Nat) : Bool :=
  let d := descOf x
  let t := f32.decode d.tau
  !x.testBit 15 && bitsOf x 127 72 = 0 && bitsOf x 255 192 = 0 && d.fmt ≠ 3 && bitsOf x 5 4 ≠ 3 && bitsOf x 7 6 ≠ 3 &&
  d.rmax ≤ 64 && !t.isNan && !t.lt (.fin false 0 0)

/-! ## Heaps (R334, R354) -/

/-- The heap is valid, and its bitmap and blocks lie inside its space. -/
def heapOk (x scr : Nat) : Bool :=
  let h := heapOf x
  let top := if h.virt then 2 ^ 57 else scr
  h.val && bitsOf x 31 2 = 0 && bitsOf x 511 256 = 0 && decide (1 ≤ h.nblk) && decide (h.nblk ≤ 2 ^ 24) && h.base % 256 = 0 &&
  h.map % 8 = 0 && decide (h.base + 256 * h.nblk ≤ top) && decide (h.map + (h.nblk + 7) / 8 ≤ top)

/-- The header address of a descriptor's heap. -/
def heapAddr (cr : Crew) (raw : Nat) : Nat := cr.heaps.toNat + 64 * (descOf raw).heap

/-- R329, R330: KIND with RANK, CAP and ADDR, and the storage inside the heap's blocks. -/
def storageOk (x hx : Nat) : Bool :=
  let d := descOf x
  let h := heapOf hx
  let inside := decide (h.base ≤ d.addr) && decide (d.addr + d.bytes ≤ h.base + 256 * h.nblk)
  match d.kind with
  | 0 => d.rank = 0 && d.cap = 0 && d.addr = 0
  | 1 => d.rank = 0 && d.cap = 0 && d.addr % tileElem d.fmt = 0 && inside
  | 2 => admits d.rank d.rmax d.m d.n && decide (d.rank ≤ d.cap) && d.cap % 4 = 0 && decide (d.cap ≤ 64) && d.addr % 256 = 0 && inside
  | _ => false

/-! ## The operands of a command (R350, R352, R354) -/

/-- A descriptor that a command names: its space and address. -/
structure TileOpnd where
  virt : Bool
  addr : Nat
  deriving DecidableEq, Repr

def opndD (c : Cmd) : TileOpnd := ⟨c.form.c.getLsbD 0, c.addrD.toNat⟩
def opndA (c : Cmd) : TileOpnd := ⟨c.form.c.getLsbD 1, c.addrA.toNat⟩
def opndB (c : Cmd) : TileOpnd := ⟨c.form.c.getLsbD 2, c.addrB.toNat⟩

/-- The descriptors of a command: D, A, B as far as it has them. -/
def tileOpnds (c : Cmd) : List TileOpnd :=
  match c.instr with
  | .tnew _ | .tfree _ => [opndD c]
  | .tinfo _ => [opndA c]
  | .tadd _ | .tmul _ | .ttrsm _ => [opndD c, opndA c, opndB c]
  | _ => [opndD c, opndA c]

def TileOpnd.span (o : TileOpnd) : Span := ⟨o.virt, o.addr, 32, 0, 32, 0x0A⟩

/-- A descriptor as read, with its heap's header. -/
structure TileRead where
  at_ : TileOpnd
  raw : Nat
  heap : Nat
  deriving DecidableEq, Repr

def TileRead.d (t : TileRead) : TileDesc := descOf t.raw
def TileRead.h (t : TileRead) : HeapHdr := heapOf t.heap

/-- The storage of a tile that is read. -/
def TileRead.span (t : TileRead) : Span := ⟨t.h.virt, t.d.addr, t.d.bytes, 0, 1, 0x0A⟩

def writeSpansOf (virt : Bool) (l : List (Nat × List Byte)) : List Span := l.map fun w => ⟨virt, w.1, w.2.length, 1, 1, 0x0A⟩

/-- KIND and RANK, CAP, ADDR of a descriptor as byte runs (R340 step 4). -/
def descRuns (addr low cap at_ : Nat) : List (Nat × List Byte) := [(addr, leBytes low 2), (addr + 8, leBytes cap 1), (addr + 16, leBytes at_ 8)]

/-- The bytes of a descriptor that a command writes. -/
def TileOpnd.writes (o : TileOpnd) : List Span := writeSpansOf o.virt (descRuns o.addr 0 0 0)

/-- What a command is known to write before it has read its descriptors. -/
def knownWrites (c : Cmd) : List Span := match c.instr with | .tinfo _ | .tdelta _ => [] | _ => (opndD c).writes

/-- The command carries on when the ranges that it reads are there. Of a fault there and one of what it is known to write the lower
address stands (R354). -/
def State.withTouched (s : State) (c : Cmd) (reads writes : List Span) (k : State → Start × State) : Start × State :=
  match s.gather c reads with
  | (.fault f, s) =>
    let w := s.checkSpans c.core c.crew writes
    (match w.1 with | .fault g => .fault (if f.2.1.toNat ≤ g.2.1.toNat then f else g) | _ => .fault f, w.2)
  | (.wait w, s) => (.wait w, s)
  | (.ok, s) => k s

/-- Descriptors read and checked with their heaps (R329, R354), beside known writes; lax ignores the present storage (R355). k runs
with them. -/
def withTiles (s : State) (c : Cmd) (os : List TileOpnd) (writes : List Span) (lax : Bool) (k : State → List TileRead → Start × State) :
    Start × State :=
  let cr := (s.core c.core).crew c.crew
  s.withTouched c (os.map TileOpnd.span) writes fun s =>
    let raws := os.map fun o => s.readNum c o.virt o.addr 32
    if !raws.all descFieldsOk || (cr.heaps = 0 && !raws.isEmpty) then (.fault (0x19, 0, 0), s)
    else s.withTouched c (raws.map fun x => ⟨true, heapAddr cr x, 64, 0, 1, 0x0A⟩) writes fun s =>
      let ts := List.zipWith (fun o x => (⟨o, x, s.readNum c true (heapAddr cr x) 64⟩ : TileRead)) os raws
      if ts.all fun t => heapOk t.heap cr.scr && (lax || storageOk t.raw t.heap) then k s ts else (.fault (0x19, 0, 0), s)

/-- An element of a storage's bytes, widened to FP64. -/
def tileNum (f : Nat) (bs : List Byte) (i : Nat) : Nat :=
  let e := tileElem f
  rne64 ((tileFmt f).decode (leNat ((bs.drop (i * e)).take e)))

/-- The tile that a descriptor names (R328). -/
def State.readTile (s : State) (c : Cmd) (t : TileRead) : TileVal :=
  let d := t.d
  let bs := s.readSpan c t.h.virt d.addr d.bytes
  match d.kind with
  | 1 => denseTile d.m d.n ((List.range d.m).map fun i => (List.range d.n).map fun j => tileNum d.fmt bs (i * d.n + j))
  | 2 => lowTile d.m d.n ((List.range d.rank).map fun q => (List.range d.m).map fun i => tileNum d.fmt bs (q * d.m + i))
      ((List.range d.rank).map fun q => (List.range d.n).map fun j => tileNum d.fmt bs (d.m * d.cap + q * d.n + j))
  | _ => zeroTile d.m d.n

/-! ## The bitmap (R334 to R336, R357) -/

/-- The lowest run of n free blocks below NBLK. -/
def findRun (bm nblk n : Nat) : Option Nat := (List.range (nblk + 1 - n)).find? fun b => bm / 2 ^ b % 2 ^ n = 0

/-- Present run, longest run and number of free blocks. -/
def scanFree (bm nblk : Nat) : Nat × Nat × Nat :=
  (List.range nblk).foldl (fun r b =>
    if bm.testBit b then (0, r.2.1, r.2.2) else (r.1 + 1, max r.2.1 (r.1 + 1), r.2.2 + 1)) (0, 0, 0)

def State.readMap (s : State) (c : Cmd) (h : HeapHdr) : Nat :=
  s.readNum c h.virt h.map h.mapBytes % 2 ^ h.nblk

/-- Bits lo to lo + n - 1. -/
def runMask (lo n : Nat) : Nat := (2 ^ n - 1) * 2 ^ lo

/-- A word or byte of the bitmap with the run's bits set or cleared. -/
def applyMask (old mask : Nat) (on : Bool) : Nat := if on then old ||| mask else old &&& (old ^^^ mask)

/-- The bits of a run of a scratch heap set or cleared, by bank writes. -/
def State.setRun (s : State) (c : Cmd) (h : HeapHdr) (lo n : Nat) (on : Bool) : State :=
  let cr := (s.core c.core).crew c.crew
  let mask := runMask lo n
  let put (k : Core) (i : Nat) : Core :=
    let a := cr.sbase + h.map + i
    k.storeScratch [(a, BitVec.ofNat 8 (applyMask (k.scratch.read a).toNat (mask / 2 ^ (8 * i) % 2 ^ 8) on))]
  if n = 0 then s else s.updCore c.core fun k => ((List.range ((lo + n - 1) / 8 + 1 - lo / 8)).map (lo / 8 + ·)).foldl put k

/-- The bits of a run in 64-bit word i of the bitmap, and the last such word. -/
def wordMask (lo n i : Nat) : Nat := runMask lo n / 2 ^ (64 * i) % 2 ^ 64
def lastWord (lo n : Nat) : Nat := (lo + n - 1) / 64

/-! ## Forming the result (R355 to R364) -/

/-- RoundFmt (R331): FP64 rounded to a format, widened again. -/
def roundFmt (f x : Nat) : Nat := rne64 ((tileFmt f).decode ((tileFmt f).encode 0 false 0 (f64.decode x)))

/-- The elements of an operand that a factorisation or solve expands by R331 step 4: those of a low-rank one are rounded to the
destination's format. (DEDUCED, log 34) -/
def TileVal.expandIn (t : TileVal) (f : Nat) : List (List Nat) :=
  if t.kind = .low then t.expand.map (·.map (roundFmt f)) else t.expand

/-- R333, R339, R331. -/
def finishTile (t : TileVal) (d : TileDesc) (bad round : Bool) : TileVal :=
  if bad then nanTile d.m d.n
  else (if round then t.rounded d.tol d.rel else t).classify d.rmax

/-- The whole result of a command with destination D is one job. -/
def oneJob (t : TileRead) (fresh : Bool) (out : TileVal) : Start := .run { jobs := [⟨t.at_.virt, t.at_.addr, t.raw, t.heap, fresh, out, 0⟩] }

def badTile : Start := .fault (0x19, 0, 0)

/-- A zero pivot of A (R360 to R363). -/
def badPivot (a : TileRead) (i : Nat) : Start := .fault (0x1A, BitVec.ofNat 64 a.at_.addr, i)

def trsmOpt (f : GForm) : TrsmOpt := ⟨f.imm8.getLsbD 0, f.imm8.getLsbD 1, f.imm8.getLsbD 2, f.imm8.getLsbD 3⟩

/-- The lower triangle with its diagonal. -/
def lowerElems (n : Nat) (x : List (List Nat)) : List Nat :=
  (List.range n).flatMap fun i => (List.range (i + 1)).map fun j => at2 x i j

/-- tnew (R355). -/
def formNew (f : GForm) (t : TileRead) : Start :=
  let d := t.d
  let r := f.imm8.toNat % 32
  match f.imm8.toNat / 32 % 4 with
  | 0 => oneJob t true (zeroTile d.m d.n)
  | 1 => oneJob t true (denseTile d.m d.n (List.replicate d.m (List.replicate d.n 0)))
  | _ => if admits r d.rmax d.m d.n then
      oneJob t true (lowTile d.m d.n (List.replicate r (List.replicate d.m 0)) (List.replicate r (List.replicate d.n 0)))
    else badTile

/-- The commands of D and A. -/
def formUnary (i : Instr) (t a : TileRead) (x : TileVal) : Start :=
  let d := t.d
  let same := decide (x.m = d.m) && decide (x.n = d.n)
  match i with
  | .tmov f =>
    let y := if f.imm8 = 1 then x.transposed else x
    if y.m = d.m ∧ y.n = d.n then oneJob t false (finishTile y d x.bad false) else badTile
  | .trnd _ => if same then oneJob t false (finishTile x d x.bad true) else badTile
  | .tdense _ => if same then oneJob t false (finishTile (denseTile x.m x.n x.expand) d x.bad false) else badTile
  | .tlu _ =>
    let e := x.expandIn d.fmt
    if !same || x.m ≠ x.n then badTile
    else if e.any fun r => r.any nonFinite then oneJob t false (nanTile d.m d.n)
    else match luTile x.m e with
      | .ok y => oneJob t false (denseTile d.m d.n y)
      | .error k => badPivot a k
  | _ =>
    let e := x.expandIn d.fmt
    if !same || x.m ≠ x.n then badTile
    else if (lowerElems x.m e).any nonFinite then oneJob t false (nanTile d.m d.n)
    else match cholTile x.m e with
      | .ok y => oneJob t false (denseTile d.m d.n y)
      | .error k => badPivot a k

/-- The commands of D, A and B. -/
def formBinary (i : Instr) (t a : TileRead) (x y : TileVal) : Start :=
  let d := t.d
  let bad := x.bad || y.bad
  match i with
  | .tadd f =>
    if x.m = y.m ∧ x.n = y.n ∧ x.m = d.m ∧ x.n = d.n then
      oneJob t false (finishTile (x.plus (if f.imm8 = 1 then y.negated else y)) d bad (f.sub = 1))
    else badTile
  | .tmul f =>
    if x.n = y.m ∧ x.m = d.m ∧ y.n = d.n then oneJob t false (finishTile (x.times y) d bad (f.sub = 1)) else badTile
  | _ =>
    let o := trsmOpt (gForm i)
    let e := x.expandIn d.fmt
    if x.m ≠ x.n || y.m ≠ d.m || y.n ≠ d.n || (if o.right then y.n else y.m) ≠ x.m then badTile
    else if (triElems o x.m e).any nonFinite || y.bad then oneJob t false (nanTile d.m d.n)
    else match trsmTile o x.m e y with
      | .ok z => oneJob t false (z.classify d.rmax)
      | .error k => badPivot a k

/-- tinfo (R357). -/
def formInfo (s : State) (c : Cmd) (a : TileRead) : Start :=
  let r := scanFree (s.readMap c a.h) a.h.nblk
  .run { words := [BitVec.ofNat 32 a.raw, BitVec.ofNat 32 a.d.cap, BitVec.ofNat 32 r.2.2, BitVec.ofNat 32 r.2.1] }

/-! ## tdelta (R344 to R347, R364) -/

/-- A grid header (R344). (DEDUCED, log 34) -/
def gridOk (g : Nat) : Bool := g / 2 ^ 129 = 0 && bitsOf g 31 0 ≠ 0 && bitsOf g 63 32 ≠ 0 && bitsOf g 127 64 % 32 = 0

def deltaOf (e : Nat) : Delta := ⟨bitsOf e 31 0, bitsOf e 37 32, bitsOf e 45 40, e.testBit 48, bitsOf e 127 64⟩

/-- Reserved bits of an entry are 0 (R345). -/
def deltaOk (e : Nat) : Bool := bitsOf e 39 38 = 0 && bitsOf e 47 46 = 0 && bitsOf e 63 49 = 0

def rising : List Nat → Bool
  | a :: b :: r => decide (a ≤ b) && rising (b :: r)
  | _ => true

/-- The distinct tiles of a list, in order. -/
def tilesOf : List Delta → List Nat
  | [] => []
  | d :: r => let t := tilesOf r; if t.contains d.tile then t else d.tile :: t

/-- The jobs of the entries from DONE on, one for each tile. -/
def deltaJobs (s : State) (c : Cmd) (g : Nat) (es : List Delta) (done : Nat) (rd : List (Nat × TileRead)) : List TileJob :=
  let todo := es.drop done
  (tilesOf todo).filterMap fun t => (rd.find? fun q => q.1 = t).map fun q =>
    let mine := todo.filter fun e => e.tile = t
    let x := (s.readTile c q.2).applyDeltas mine
    let y := finishTile x q.2.d false (g.testBit 128 && x.kind = .low)
    let next := done + (todo.filter fun e => e.tile ≤ t).length
    ⟨q.2.at_.virt, q.2.at_.addr, q.2.raw, q.2.heap, false, y, next⟩

/-- The DONE word of a delta list (R345, R347). -/
def doneSpan (c : Cmd) : Span := ⟨true, c.addrA.toNat + 4, 4, 1, 1, 0x0A⟩

/-- tdelta: every descriptor of the list is read and checked; tiles before DONE are not touched (R364). -/
def formDelta (s : State) (c : Cmd) : Start × State :=
  let ga := c.addrD.toNat
  let la := c.addrA.toNat
  s.withSpans c [⟨true, ga, 64, 0, 1, 0x0A⟩, ⟨true, la, 16, 0, 1, 0x0A⟩] fun s =>
    let g := s.readNum c true ga 64
    let h := s.readNum c true la 16
    let count := bitsOf h 31 0
    let done := bitsOf h 63 32
    if !gridOk g || h / 2 ^ 64 ≠ 0 || count < done then (badTile, s)
    else s.withSpans c [⟨true, la + 16, 16 * count, 0, 1, 0x0A⟩] fun s =>
      let raw := (List.range count).map fun i => s.readNum c true (la + 16 + 16 * i) 16
      let es := raw.map deltaOf
      if !raw.all deltaOk || !rising (es.map (·.tile)) || es.any fun e => bitsOf g 31 0 * bitsOf g 63 32 ≤ e.tile then (badTile, s)
      else
        let ids := tilesOf es
        let at_ (t : Nat) : TileOpnd := ⟨true, bitsOf g 127 64 + 32 * t⟩
        let todo := tilesOf (es.drop done)
        let writes := todo.flatMap (fun t => (at_ t).writes) ++ (if todo.isEmpty then [] else [doneSpan c])
        withTiles s c (ids.map at_) writes false fun s ts =>
          let rd := ids.zip ts
          let fits (e : Delta) : Bool := match rd.find? fun q => q.1 = e.tile with
            | some q => decide (e.row < q.2.d.m) && decide (e.col < q.2.d.n)
            | none => false
          if !es.all fits then (badTile, s)
          else s.withTouched c ((rd.filter fun q => todo.contains q.1).map fun q => q.2.span) writes fun s =>
            (.run { jobs := deltaJobs s c g es done rd }, s)

/-- What a tile command reads and forms. -/
def tileForm (s : State) (c : Cmd) : Start × State :=
  match c.instr with
  | .tdelta _ => formDelta s c
  | .tnew f => withTiles s c (tileOpnds c) (knownWrites c) true fun s ts => match ts with
    | [t] => (formNew f t, s)
    | _ => (badTile, s)
  | .tfree _ => withTiles s c (tileOpnds c) (knownWrites c) false fun s ts => match ts with
    | [t] => (oneJob t false (zeroTile t.d.m t.d.n), s)
    | _ => (badTile, s)
  | .tinfo _ => withTiles s c (tileOpnds c) [] false fun s ts => match ts with
    | [a] => s.withSpans c [⟨a.h.virt, a.h.map, a.h.mapBytes, 0, 1, 0x0A⟩] fun s => (formInfo s c a, s)
    | _ => (badTile, s)
  | i => withTiles s c (tileOpnds c) (knownWrites c) false fun s ts => match ts with
    | [t, a] => s.withTouched c [a.span] (knownWrites c) fun s => (formUnary i t a (s.readTile c a), s)
    | [t, a, b] => s.withTouched c [a.span, b.span] (knownWrites c) fun s => (formBinary i t a (s.readTile c a) (s.readTile c b), s)
    | _ => (badTile, s)

/-! ## Commit (R340, R341, R347, R369) -/

/-- The bytes of elements in a descriptor's format. -/
def tileBytes (f : Nat) (l : List Nat) : List Byte :=
  l.flatMap fun x => leBytes ((tileFmt f).encode 0 false 0 (f64.decode x)) (tileElem f)

def kindCode (k : TileKind) : Nat := match k with | .zero => 0 | .dense => 1 | .low => 2

def up4 (r : Nat) : Nat := (r + 3) / 4 * 4

/-- The destination keeps its extent (R340 step 2). -/
def keepsExtent (j : TileJob) : Bool :=
  let d := descOf j.raw
  !j.fresh && match j.out.kind with
    | .zero => false
    | .dense => d.kind = 1
    | .low => d.kind = 2 && decide (up4 j.out.rank ≤ d.cap)

/-- Blocks of the new extent (R335). -/
def blocksOf (j : TileJob) : Nat :=
  let d := descOf j.raw
  let n := if j.out.kind = .low then (d.m + d.n) * up4 j.out.rank else d.m * d.n
  (n * tileElem d.fmt + 255) / 256

/-- The storage runs that a job writes at an address with a CAP (R328); a fresh low-rank extent is filled whole (R355). -/
def storageWrites (j : TileJob) (addr cap : Nat) : List (Nat × List Byte) :=
  let d := descOf j.raw
  let e := tileElem d.fmt
  let pad (cols : List (List Nat)) (rows : Nat) : List Byte :=
    tileBytes d.fmt cols.flatten ++ (if j.fresh then List.replicate ((cap - cols.length) * rows * e) 0 else [])
  match j.out.kind with
  | .zero => []
  | .dense => [(addr, tileBytes d.fmt j.out.elems.flatten)]
  | .low => [(addr, pad j.out.u d.m), (addr + d.m * cap * e, pad j.out.v d.n)]

/-- The descriptor's KIND, RANK, CAP and ADDR as byte runs. -/
def descWrites (j : TileJob) (addr cap : Nat) : List (Nat × List Byte) :=
  let r := if j.out.kind = .low then j.out.rank else 0
  descRuns j.addr (j.raw % 2 ^ 8 / 4 * 4 + kindCode j.out.kind + 256 * r) cap addr

/-- The bitmap of a job's heap, as touched by an allocation or a free. -/
def mapSpan (h : HeapHdr) : Span := ⟨h.virt, h.map, h.mapBytes, if h.virt then 3 else 1, 1, 0x0A⟩

/-- Address and CAP of a result that needs no allocation: the present extent, or none for a zero tile. -/
def keptPlace (j : TileJob) : Nat × Nat :=
  let d := descOf j.raw
  if keepsExtent j then (d.addr, if j.out.kind = .low then d.cap else 0) else (0, 0)

/-- The old extent that a result no longer names (R340 step 5). -/
def oldExtent (j : TileJob) : Nat × Nat := if j.fresh || keepsExtent j then (0, 0) else extentOf (descOf j.raw) (heapOf j.heap)

/-- What a job will write that is known at EngineStart: its descriptor, its present storage, its heap's bitmap (R354). -/
def jobSpans (j : TileJob) : List Span :=
  let h := heapOf j.heap
  let p := keptPlace j
  let maps := if keepsExtent j || (j.out.kind = .zero && (oldExtent j).2 = 0) then [] else [mapSpan h]
  writeSpansOf j.virt (descWrites j p.1 p.2) ++ maps ++ (if keepsExtent j then writeSpansOf h.virt (storageWrites j p.1 p.2) else [])

/-- CAP of a new extent (R335). -/
def newCap (j : TileJob) : Nat := if j.out.kind = .low then up4 j.out.rank else 0

/-- The result needs a new extent. -/
def allocates (j : TileJob) : Bool := !keepsExtent j && j.out.kind ≠ .zero

/-- The words of a memory heap's bitmap that a search reads. -/
def mapWords (h : HeapHdr) : Span := ⟨true, h.map, (h.nblk + 63) / 64 * 8, 0, 1, 0x0A⟩

/-- The storage that jobs would take, were they committed now, one after the other: of each the address and CAP, up to one that finds
none. bm holds the bitmaps met so far by heap header. -/
def State.placesOf (s : State) (c : Cmd) : List TileJob → List (Nat × Nat) → List (TileJob × Nat × Nat)
  | [], _ => []
  | j :: r, bm =>
    let h := heapOf j.heap
    let m := ((bm.find? fun e => e.1 = j.heap).map (·.2)).getD (s.readMap c h)
    let old := oldExtent j
    let freed (x : Nat) : Nat := if old.2 = 0 then x else applyMask x (runMask old.1 old.2) false
    if !allocates j then (j, keptPlace j) :: s.placesOf c r ((j.heap, freed m) :: bm)
    else match findRun m h.nblk (blocksOf j) with
      | some b => (j, h.base + 256 * b, newCap j) :: s.placesOf c r ((j.heap, freed (applyMask m (runMask b (blocksOf j)) true)) :: bm)
      | none => []

/-- What a tile command checks, reads and forms at EngineStart, with the verdicts of what it will write: its new storage as the heaps
stand now (R354). -/
def tileStart (s : State) (c : Cmd) : Start × State :=
  match tileForm s c with
  | (.run w, s) =>
    let done : List Span := match c.instr with
      | .tdelta _ => if w.jobs.isEmpty then [] else [doneSpan c]
      | _ => []
    let known := w.jobs.flatMap jobSpans ++ done
    let maps := (w.jobs.filter fun j => allocates j && (heapOf j.heap).virt).map fun j => mapWords (heapOf j.heap)
    s.withTouched c maps known fun s =>
      let places := if maps.isEmpty then [] else s.placesOf c w.jobs []
      let fresh := (places.filter fun p => allocates p.1).flatMap fun p =>
        writeSpansOf (heapOf p.1.heap).virt (storageWrites p.1 p.2.1 p.2.2)
      s.withSpans c (known ++ fresh) fun s => (.run w, s)
  | r => r

/-- The array ranges of byte runs in the scratchpads. -/
def State.runDest (s : State) (c : Cmd) (l : List (Nat × List Byte)) : List (Nat × Nat × Nat) :=
  let crew := (s.core c.core).crew c.crew
  (l.filterMap fun w => s.arrayAt c.core crew w.1 w.2.length).flatten

/-- The scratchpad bytes that a job writes (R250, R295): storage, and descriptor. -/
def State.jobDest (s : State) (c : Cmd) (j : TileJob) (addr cap : Nat) : List (Nat × Nat × Nat) :=
  (if (heapOf j.heap).virt then [] else s.runDest c (storageWrites j addr cap)) ++
    (if j.virt then [] else s.runDest c (descWrites j addr cap))

/-- The command past its Commit, at a stage of its first job. -/
def Cmd.stage (c : Cmd) (g : TileStage) : Cmd := { c with phase := .committed, work := { c.work with stage := g } }

/-- Step 3 of R340: the storage is written. -/
def State.storeTile (s : State) (e : EngineId) (c : Cmd) (j : TileJob) (addr cap : Nat) : State :=
  let w := s.writeSpans e c (heapOf j.heap).virt (storageWrites j addr cap)
  w.1.putCmd e { c.stage (.describe addr cap) with outstanding := w.2 }

/-- Step 4: the descriptor is written. -/
def State.describeTile (s : State) (e : EngineId) (c : Cmd) (j : TileJob) (addr cap : Nat) : State :=
  let w := s.writeSpans e c j.virt (descWrites j addr cap)
  w.1.putCmd e { c.stage (.release addr cap ((oldExtent j).1 / 64)) with outstanding := w.2, dest := c.dest ++ s.jobDest c j addr cap }

/-- The job is done: the next one, and for tdelta DONE moves (R347). -/
def State.jobDone (s : State) (e : EngineId) (c : Cmd) (j : TileJob) : State :=
  let isDelta := match c.instr with | .tdelta _ => true | _ => false
  let d := if isDelta then s.writeSpans e c true [(c.addrA.toNat + 4, leBytes j.next 4)] else (s, 0)
  d.1.putCmd e { c with
    outstanding := d.2
    work := { c.work with jobs := c.work.jobs.tail, stage := .choose, attempts := 0, got := [], asked := [] } }

/-- An AtomicAtHome step of the engine on a 64-bit word of virtual memory (R240, R336): f of the value there, or none for a failing
.cas. -/
def State.engineAtomic (s : State) (e : EngineId) (c : Cmd) (va : Nat) (f : Nat → Option Nat) (k : Bool → State → State) : State :=
  let w := byteKey ((s.core c.core).crew c.crew).asid.toNat va / 4
  s.commitWith e c [⟨true, va, 8, 3, 1, 0x0A⟩] fun s =>
    if s.badWord w then s.consumeCmd e c.id w (s.taint w)
    else match f (s.homeOld 2 w) with
      | some v => k true (s.setUnowned 2 w v)
      | none => k false (s.setUnowned 2 w (s.homeOld 2 w))

/-- Step 5: an extent no longer named is freed; of a memory heap one word of the bitmap at a time, by .and. -/
def State.releaseTile (s : State) (e : EngineId) (c : Cmd) (j : TileJob) (addr cap next : Nat) : State :=
  let h := heapOf j.heap
  let old := oldExtent j
  if old.2 = 0 then s.jobDone e c j
  else if !h.virt then (s.setRun c h old.1 old.2 false).jobDone e c j
  else if lastWord old.1 old.2 < next then s.jobDone e c j
  else s.engineAtomic e c (h.map + 8 * next) (fun x => some (applyMask x (wordMask old.1 old.2 next) false)) fun _ s =>
    s.putCmd e (c.stage (.release addr cap (next + 1)))

/-- R341: FAILS goes up by one by .add, and the command ends with status false. -/
def State.allocFail (s : State) (e : EngineId) (c : Cmd) (j : TileJob) : State :=
  let cr := (s.core c.core).crew c.crew
  s.engineAtomic e c (heapAddr cr j.raw + 24) (fun x => some ((x + 1) % 2 ^ 64)) fun _ s =>
    s.putCmd e { c.stage .choose with status := 1, work := { c.work with jobs := [], stage := .choose } }

/-- An attempt has failed: the search begins again from block 0, eight times in all (R336). -/
def State.allocRetry (s : State) (e : EngineId) (c : Cmd) : State :=
  s.putCmd e { c with work := { c.work with stage := .choose, attempts := c.work.attempts + 1, got := [], asked := [] } }

/-- Step 2: a new extent for a job (R335, R336, R341). A scratch heap is searched and claimed at once. The bitmap of a memory heap is
read, and the run found in it is claimed word by word. (DEDUCED, log 36) -/
def State.allocate (s : State) (e : EngineId) (c : Cmd) (j : TileJob) : State :=
  let h := heapOf j.heap
  let n := blocksOf j
  if c.work.attempts = Config.allocAttempts then s.allocFail e c j
  else s.commitWith e c (if h.virt then [mapWords h] else []) fun s =>
    match findRun (s.readMap c h) h.nblk n with
    | none => s.allocFail e c j
    | some b =>
      let addr := h.base + 256 * b
      if h.virt then
        s.commitWith e c (writeSpansOf true (storageWrites j addr (newCap j))) fun s =>
          s.putCmd e { c with work := { c.work with stage := .claim b n (b / 64) } }
      else (s.setRun c h b n true).putCmd e (c.stage (.store addr (newCap j)))

/-- One .cas of a claim (R336): the word must be what the search read. -/
def State.claimWord (s : State) (e : EngineId) (c : Cmd) (j : TileJob) (lo n next : Nat) : State :=
  let h := heapOf j.heap
  let seen := s.readNum c true (h.map + 8 * next) 8
  let done := c.stage (if next = lastWord lo n then .store (h.base + 256 * lo) (newCap j) else .claim lo n (next + 1))
  s.engineAtomic e c (h.map + 8 * next) (fun x => if x = seen then some (applyMask x (wordMask lo n next) true) else none) fun ok s =>
    if ok then s.putCmd e done
    else if next = lo / 64 then s.allocRetry e c
    else s.putCmd e (c.stage (.undo lo n (lo / 64) next))

/-- One .and that gives back what a failed attempt has claimed. -/
def State.undoWord (s : State) (e : EngineId) (c : Cmd) (j : TileJob) (lo n next upto : Nat) : State :=
  let h := heapOf j.heap
  s.engineAtomic e c (h.map + 8 * next) (fun x => some (applyMask x (wordMask lo n next) false)) fun _ s =>
    if next + 1 = upto then s.allocRetry e c else s.putCmd e (c.stage (.undo lo n (next + 1) upto))

/-- THE COMMIT of a tile command, one stage of R340 a step, each when the writes of the one before are acknowledged; tinfo writes its
registers (R357). -/
def tileCommit (s : State) (c : Cmd) : State :=
  let e := EngineId.mxe c.core
  if c.outstanding ≠ 0 then s
  else match c.work.jobs with
  | [] =>
    let regs := c.work.words.zipIdx.map fun w => (Dst.v (c.form.d.toNat + w.2), w.1)
    (if regs.isEmpty then s else s.releaseRegs c fun _ => regs).putCmd e { c with phase := .committed }
  | j :: _ =>
    match c.work.stage with
    | .choose =>
      if keepsExtent j then let p := keptPlace j; s.storeTile e c j p.1 p.2
      else if j.out.kind = .zero then s.describeTile e c j 0 0
      else s.allocate e c j
    | .claim lo n next => s.claimWord e c j lo n next
    | .undo lo n next upto => s.undoWord e c j lo n next upto
    | .store addr cap => s.storeTile e c j addr cap
    | .describe addr cap => s.describeTile e c j addr cap
    | .release addr cap next => s.releaseTile e c j addr cap next

end Sys2Proof.Machine
end

