-- ==== Sys2Proof/Machine/EngineSteps.lean ====
section
/-!
DEFINITION. The steps that engine queues take (spec/02_ordering_machine.md R39; R289 to R292, R305 to R307, R343, R353, R380, R391, R393,
R407, R412, R414): EngineStart, Discard, Commit, Complete, the pieces, the residue verdict and the acknowledgement of a remote write.
-/
namespace Sys2Proof.Machine

/-- A crew that does not hold the MXE has its commands leave without effect: it signed them before it gave the MXE up. (DEDUCED,
log 80) -/
def State.unheld (s : State) (e : EngineId) (c : Cmd) : Bool :=
  match e with
  | .mxe core => (s.core core).holder ≠ some c.crew
  | _ => false

/-- Whether the queue lets a queued command start or be discarded. -/
def State.mayStart (s : State) (e : EngineId) (elders : List Cmd) (c : Cmd) : Bool :=
  c.phase = .queued && !s.cmdHeld c && match e with
    | .mxe _ => mxeMayStart elders c
    | .copy _ => copyMayStart s e elders c
    | .starter _ => starterMayStart s e elders c

/-- The scratchpad words that an engine's command descriptor is read from have no error (R464). -/
def descSpan (e : EngineId) (c : Cmd) : List Span :=
  match e with
  | .mxe _ => []
  | _ => if c.phase = .queued then [⟨false, c.addrA.toNat, 64, 0, 1, 0x0B⟩] else []

/-- What a command finds that takes EngineStart, or goes on with it. -/
def State.tryStart (s : State) (e : EngineId) (c : Cmd) : Start × State × StarterProg :=
  match s.badSpan c.core c.crew (descSpan e c) with
  | some a => (.wait c.work, s.consumeSram c.core c.crew a, c.prog)
  | none => match e with
    | .mxe _ => let r := if isTile c.instr then tileStart s c else matrixStart s c; (r.1, r.2, c.prog)
    | .copy _ => let r := copyStart s c; (r.1, r.2, c.prog)
    | .starter q => starterStart s q c

/-- Whether a command forms results that a residue verdict follows (R305, R414). -/
def hasResidue (e : EngineId) (i : Instr) : Bool :=
  match e with
  | .mxe _ => contributes i
  | .copy _ => false
  | .starter _ => !isSfetch i

/-- The scratchpad destinations known at EngineStart: those of a Starter command are in its descriptor. -/
def State.startDest (s : State) (e : EngineId) (c : Cmd) (w : Work) : List (Nat × Nat × Nat) :=
  match e with
  | .starter _ => starterDest s c.core c.crew c.instr w.desc ((w.index.length + 15) / 16 * 16)
  | _ => c.dest

/-- EngineStart gives what it gives: the command is ready, has a fault to report, or stays started until its memory is there (R321). -/
def State.startWith (s : State) (e : EngineId) (c : Cmd) : Start → StarterProg → State
  | .run w, p =>
    s.putCmd e { c with phase := .started, work := { w with ready := true }, prog := p, residue := hasResidue e c.instr,
                        dest := s.startDest e c w }
  | .wait w, _ => s.putCmd e { c with phase := .started, work := w }
  | .fault f, _ => s.putCmd e { c with fault := some f, work := { c.work with desc := s.badDesc e c } }

/-- ENGINE START of a queued command, or its continuation where it reads memory that is not there yet. -/
def execEngineStart (e : EngineId) (cmd : Nat) (s : State) : Out :=
  match s.findCmd e cmd with
  | some (elders, c) =>
    if c.fault.isSome || s.cmdHeld c then .next s
    else if c.phase = .queued then
      if !s.mayStart e elders c || s.guardOf c ≠ .run || s.unheld e c then .next s
      else if isFence c.instr then .next (s.endCmd e c 0 false none)
      else let r := s.tryStart e c; .next (r.2.1.startWith e c r.1 r.2.2)
    else if c.phase = .started && !c.work.ready then let r := s.tryStart e c; .next (r.2.1.startWith e c r.1 r.2.2)
    else .next s
  | none => .next s

/-- The command leaves without its effect: its registers are released unwritten, and its record is held. -/
def State.drop (s : State) (e : EngineId) (c : Cmd) (status arg : Nat) (fault : Option (Nat × Dword × Nat)) : State :=
  let s := s.releaseRegs c fun _ => []
  let s := match e with
    | .mxe _ => s
    | _ => s.holdRecord e c status arg
  s.endCmd e c status (status = 1) fault

/-- DISCARD: of a command whose guard resolved against its polarity, of one that its crew may not run, and of one that has met a fault
before it wrote. -/
def execDiscard (e : EngineId) (cmd : Nat) (s : State) : Out :=
  match s.findCmd e cmd with
  | some (elders, c) =>
    match c.fault with
    | some f =>
      if c.phase = .queued || !c.work.ready then .next (s.drop e c 2 f.1 (some f))
      else match e with
        | .mxe _ => .next (if c.outstanding = 0 then s.drop e c 2 f.1 (some f) else s)
        | _ => .next s
    | none =>
      if !s.mayStart e elders c then .next s
      else if s.unheld e c then .next (s.drop e c 1 0 none)
      else match s.guardOf c with
        | .against => .next (s.drop e c 1 0 none)
        | .unresolved => .next s
        | .run => .next s
  | none => .next s

/-- A matrix command past its Commit: its bytes stand, and are written even where its gang is contained (R307, R448). -/
def Cmd.standing (c : Cmd) : Bool := c.phase = .committed && !isTile c.instr

/-- Whether an MXE command may commit, or go on with a commit of several stages: in queue order, with the verdicts that R307 and R340
ask for. -/
def State.mayCommit (s : State) (elders : List Cmd) (c : Cmd) : Bool :=
  ((c.phase = .started && c.work.ready) || (c.phase = .committed && (!c.work.jobs.isEmpty || !c.work.todo.isEmpty))) && c.fault.isNone &&
  (c.standing || !s.cmdHeld c) && elders.all (fun d => d.phase = .committed) && !residueHolds (s.core c.core) c && (!isTile c.instr || !c.residue)

def execCommit (e : EngineId) (cmd : Nat) (s : State) : Out :=
  match s.findCmd e cmd with
  | some (elders, c) =>
    match e with
    | .mxe _ => .next (if !s.mayCommit elders c then s
        else if !c.work.todo.isEmpty then s.flush e c fun _ => true
        else if isTile c.instr then tileCommit s c else matrixCommit s c)
    | .copy _ => .next (if s.cmdHeld c then s else copyPiece s e c)
    | .starter q => .next (if s.cmdHeld c then s else starterPiece s q c)
  | none => .next s

/-- The status predicate of a tile command (R353). -/
def statusWrites (c : Cmd) : List (Dst × Word) :=
  match statusPred c.form with
  | some p => [(Dst.p p, if c.status = 0 then 1 else 0)]
  | none => []

/-- Registers that a command writes at Complete: the status of a tile command. The registers of spz and tinfo were written at their
Commit (R318, R357). -/
def State.completeRegs (s : State) (c : Cmd) : State :=
  match c.instr with
  | .tinfo _ => s
  | i => if isTile i then s.releaseRegs c fun _ => statusWrites c else s

/-- Whether an MXE command may complete. -/
def mxeEnded (c : Cmd) : Bool :=
  c.phase = .committed && c.work.jobs.isEmpty && c.work.todo.isEmpty && c.outstanding = 0 && !c.residue && c.fault.isNone

def execComplete (e : EngineId) (cmd : Nat) (s : State) : Out :=
  match s.findCmd e cmd with
  | some (_, c) =>
    match e with
    | .mxe _ => .next (if mxeEnded c then (s.completeRegs c).endCmd e c c.status false none else s)
    | .copy _ =>
      let st := copyStatus c
      .next (if copyEnded c then (s.holdRecord e c st.1 st.2).endCmd e c st.1 false c.fault else s)
    | .starter _ =>
      let st := starterStatus c
      .next (if starterEnded c then (s.holdRecord e c st.1 st.2).endCmd e c st.1 false c.fault else s)
  | none => .next s

def execCopyPiece (core cmd : Nat) (s : State) : Out :=
  match s.findCmd (.copy core) cmd with
  | some (_, c) => .next (if s.cmdHeld c then s else copyPiece s (.copy core) c)
  | none => .next s

def execStarterPiece (cluster cmd : Nat) (s : State) : Out :=
  match s.findCmd (.starter cluster) cmd with
  | some (_, c) => .next (if s.cmdHeld c then s else starterPiece s cluster c)
  | none => .next s

/-- The residue verdict of a started command. A failure contains the gang of the holding crew, TRIG 3. -/
def execResidueVerdict (e : EngineId) (cmd : Nat) (pass : Bool) (s : State) : Out :=
  match s.findCmd e cmd with
  | some (_, c) =>
    if c.phase = .queued || !c.residue then .next s
    else if pass then .next ((s.putCmd e { c with residue := false }).updCore c.core fun k => k.settleLedger c.id)
    else .next (s.raise c.core c.crew 3 0 0)
  | none => .next s

/-- Bank slots of a command (R213, R249): a committed one writes the bytes of the range that it has yet to write; one that has its
EngineStart under way, or stands between pieces, reads those that it will use. -/
def State.bank (s : State) (e : EngineId) (cmd core addr len : Nat) : State :=
  let inside (key : Nat) : Bool := arrayKey core addr ≤ key && key < arrayKey core addr + len
  match s.findCmd e cmd with
  | none => s
  | some (elders, c) =>
    let read (c : Cmd) : State :=
      match s.badAt c.core c.crew [(core, addr, len)] with
      | some a => s.consumeSram c.core c.crew a
      | none =>
        let bytes := (s.core core).scratch.readBytes addr len
        let keys := (List.range len).map fun i => arrayKey core (addr + i)
        s.putCmd e { c with phase := .started, work := { c.work with early := keys.zip bytes ++ c.work.early } }
    let pieces := match e with | .mxe _ => false | _ => true
    if c.fault.isSome || (s.cmdHeld c && !c.standing) then s
    else if !c.work.todo.isEmpty then s.flush e c inside
    else if c.phase = .queued then
      if !s.mayStart e elders c || s.guardOf c ≠ .run || s.unheld e c || isFence c.instr then s
      else match e with
        | .mxe _ => read c
        | .copy _ => match s.readDesc c with
          | some x => read { c with work := { c.work with desc := x } }
          | none => s
        | .starter _ => match s.readCmdDesc c with
          | some x => read { c with work := { c.work with desc := x } }
          | none => s
    else if c.phase = .started && (!c.work.ready || pieces) then read c
    else s

def execRemoteWriteAck (core cmd : Nat) (s : State) : Out :=
  match s.findCmd (.copy core) cmd with
  | some (_, c) =>
    if c.outstanding = 0 || !isTcopy c.instr || (copyDesc c.work.desc).dsp ≠ 2 then .next s
    else .next (s.putCmd (.copy core) { c with outstanding := c.outstanding - 1, acked := c.acked + 1, sentAt := s.cycle })
  | none => .next (s.drainAck (.copy core) cmd)

/-! ## A destination does not answer (R229, R235, R321, R385, R470) -/

/-- A command learns that a far line it waits for is out of reach; of several the lowest address stands. -/
def State.farFault (s : State) (e : EngineId) (id addr kind : Nat) : State :=
  match s.findCmd e id with
  | some (_, c) =>
    let low := match c.fault with
      | some f => if f.1 = 0x0D && decide (f.2.1.toNat ≤ addr) then some f else some (0x0D, BitVec.ofNat 64 addr, kind)
      | none => some (0x0D, BitVec.ofNat 64 addr, kind)
    s.putCmd e { c with fault := low }
  | none => s

/-- A remote tcopy to the destination stops at its piece (R385). -/
def unreachableCopy (dest : Dest) (c : Cmd) : Cmd :=
  let d := copyDesc c.work.desc
  if c.phase ≠ .queued && isTcopy c.instr && d.dsp = 2 && Dest.peer d.idx = dest && c.outstanding ≠ 0 then
    { c with unreachable := true, outstanding := 0 }
  else c

end Sys2Proof.Machine
end

