-- ==== Sys2Proof/Machine/Selector.lean ====
section
/-!
DEFINITION. The selector, the streams and the formation of issue groups (spec/05_core_execution.md R106, R107, R109 to R118, R123,
R128; spec/06_core_control_system.md R134; spec/08_core_crosslane_sync.md R203).
-/
namespace Sys2Proof.Machine

/-! ## Fetching a block (R106, R107, R128) -/

/-- What the fetch of some lines of code finds: they are in the instruction cache, the lowest that fails with its code, or a wait
for a far line. -/
inductive Fetch where
  | ok
  | fault (code : Nat) (addr : Nat)
  | wait
  deriving DecidableEq, Repr

/-- A stream waits for the transport read of a line. -/
def State.fetchJoin (s : State) (core : Nat) (stream : Bool) (key : Nat) : State :=
  s.joinRead key 2 (fun r => !r.fetches.contains (core, stream)) fun r => { r with fetches := r.fetches ++ [(core, stream)] }

/-- Lines of code brought into the instruction cache, through their homes. -/
def State.fetchLines (s : State) (core : Nat) (stream : Bool) (asid : Nat) : List Nat → Fetch × State
  | [] => (.ok, s)
  | a :: r =>
    let line := byteKey asid a / lineBytes
    if a / 2 ^ 57 ≠ 0 then (.fault 0x09 a, s)
    else if ((s.core core).icache.find line).isSome then s.fetchLines core stream asid r
    else match s.verdict (byteKey asid a) 2 with
      | (.permitted, s) =>
        let data := ((s.lines.find line).getD emptyLine).data
        (s.updCore core fun k => { k with icache := k.icache.set line data }).fetchLines core stream asid r
      | (.fault c, s) => (.fault c a, s)
      | (.wait, s) => (.wait, s.fetchJoin core stream (byteKey asid a))

/-- A word of code out of the instruction cache. -/
def Core.codeWord (k : Core) (asid va : Nat) : Nat :=
  let key := byteKey asid va
  (((k.icache.find (key / lineBytes)).getD 0) >>> (8 * (key % lineBytes / 4 * 4))).toNat % 2 ^ 32

/-- A block as it stands: its header word and the words after it. -/
inductive BlockFetch where
  | block (head : Nat) (code : List Nat)
  /-- the address holds no block header (R107) -/
  | noHeader
  /-- cf: the header has been read and has CF = 1 -/
  | fault (code addr : Nat) (cf : Bool)
  | wait
  deriving DecidableEq, Repr

/-- CF of a header word: bit 21 (R62). -/
def headCf (w : Nat) : Bool := w.testBit 21

/-- The block at a header address. Of a header that is no legal one (R68) only the header is read. (DEDUCED, log 64) -/
def State.fetchBlock (s : State) (core : Nat) (stream : Bool) (asid : Nat) (header : Nat) : BlockFetch × State :=
  if header % 4 ≠ 0 then (.noHeader, s)
  else match s.fetchLines core stream asid (lineAddrs header 4) with
    | (.fault c a, s) => (.fault c a false, s)
    | (.wait, s) => (.wait, s)
    | (.ok, s) =>
      let head := (s.core core).codeWord asid header
      if !headerShape head then (.noHeader, s)
      else match decode [head] with
        | .ok (.blockHeader _ _ len, _) =>
          match s.fetchLines core stream asid (lineAddrs header (4 + 4 * len.toNat)) with
          | (.fault c a, s) => (.fault c a (headCf head), s)
          | (.wait, s) => (.wait, s)
          | (.ok, s) =>
            (.block head ((List.range len.toNat).map fun i => (s.core core).codeWord asid (header + 4 * (i + 1))), s)
        | _ => (.block head [], s)

/-- CF of the header at an address as the selector weighs it: of the code as it stands, with no effect; false where it cannot be
read. (DEDUCED, log 39) -/
def State.peekCf (s : State) (core asid : Nat) (header : Nat) : Bool :=
  let line := byteKey asid header / lineBytes
  let at_ (data : BitVec 512) : Bool :=
    let w := (data >>> (8 * (header % lineBytes / 4 * 4))).toNat % 2 ^ 32
    headerShape w && headCf w
  match (s.core core).icache.find line with
  | some d => at_ d
  | none => match s.lines.find line with
    | some l => at_ l.data
    | none => match (s.translate (byteKey asid header)).1 with
      | .ok l => if leafRes l.word = 0 then at_ (BitVec.ofNat 512 (s.dram.readNat (localPa l header / lineBytes * lineBytes) lineBytes)) else false
      | .error _ => false

/-! ## The selector (R109 to R113, R134, R203) -/

/-- The age of an entry (R109). -/
def Bin.age (b : Bin) (now : Nat) : Nat := min (now - b.filed) (2 ^ 20 - 1)

/-- The entry holds every thread of the crew that is neither Exited nor Parked (R134). -/
def Core.recollected (k : Core) (b : Bin) (crew : Nat) : Bool :=
  (k.crewSlots crew).all fun x => !(k.thread x).live || (k.thread x).phase = .parked || b.members.contains x

/-- The hold of an entry has ended. -/
def Core.holdOver (k : Core) (now : Nat) (b : Bin) : Bool :=
  b.held.all (k.recollected b) || (k.policy ≠ 3 && decide (k.selAge.toNat < b.age now))

/-- The entry holds every live thread of the slot's cohort (R118). -/
def Core.cohortComplete (k : Core) (members : List Nat) (slot : Nat) : Bool := (k.liveSlots (rowOf slot)).all members.contains

/-- The gang of a thread has been asked to stop for a pre-emption, or its kill has begun: it forms no issue group (R442, R448). -/
def State.halting (s : State) (core slot : Nat) : Bool :=
  let c := (s.core core).crewAt slot
  match s.launches.find c.lid with
  | some l => (l.gangs.find c.gang).any fun g => g.halting || g.phase = .stopping || (g.phase = .running && !g.deferred.isEmpty)
  | none => false

/-- The threads that count: all, in a cohort block those of complete cohorts. -/
def State.counted (s : State) (core : Nat) (b : Bin) : List Nat :=
  let l := if s.peekCf core b.key.asid b.header.toNat then b.members.filter ((s.core core).cohortComplete b.members) else b.members
  l.filter fun x => !s.halting core x

/-- The block that a stream runs: its ASID and header. -/
def Stream.block (x : Stream) : Option (Nat × Dword) :=
  match x.group, x.sel with
  | some g, _ => some (g.key.asid, g.header)
  | none, some q => some (q.key.asid, q.header)
  | none, none => none

/-- Entries that a stream may take, with the threads that count: the block that the other stream runs is not for it (R115). -/
def State.takeable (s : State) (core : Nat) (stream : Bool) : List (Bin × List Nat) :=
  let k := s.core core
  let other := (k.stream !stream).block
  ((k.bins.filter fun b => k.holdOver s.cycle b && other ≠ some (b.key.asid, b.header)).map fun b => (b, s.counted core b)).filter fun e => !e.2.isEmpty

/-- Ties go to the lower block address, then the lower ASID, then CHK = 0. The address is the one the entry is filed under. (DESIGN CHOICE,
log 72) -/
def keyBefore (a b : BinKey) : Bool :=
  a.addr.toNat < b.addr.toNat || (a.addr = b.addr && (a.asid < b.asid || (a.asid = b.asid && !a.chk)))

/-- The entry that comes first by a number, ties by the key. -/
def firstBin (n : Bin × List Nat → Nat) : List (Bin × List Nat) → Option (Bin × List Nat)
  | [] => none
  | x :: r => match firstBin n r with
    | some y => if n x < n y || (n x = n y && keyBefore x.1.key y.1.key) then some x else some y
    | none => some x

/-- The oldest entry. -/
def oldestBin (now : Nat) (l : List (Bin × List Nat)) : Option (Bin × List Nat) := firstBin (fun e => 2 ^ 20 - e.1.age now) l

/-- A full bin has a waiting thread in every lane column that holds a live thread of the core. -/
def Core.isFull (k : Core) (e : Bin × List Nat) : Bool :=
  k.threads.all fun t => !t.2.live || e.2.any fun x => laneOf x = laneOf t.1

/-- The entry that the policy selects. -/
def Core.byPolicy (k : Core) (now : Nat) (l : List (Bin × List Nat)) : Option (Bin × List Nat) :=
  if k.policy = 0 then
    (match oldestBin now (l.filter k.isFull) with
      | some e => some e
      | none => oldestBin now l)
  else if k.policy = 1 then firstBin (fun e => e.1.key.addr.toNat) l
  else if k.policy = 2 then oldestBin now l
  else firstBin (fun e => (e.2.map k.tid).foldl min (2 ^ 32)) l

/-- THE SELECTION (R113): by the age bound, else by policy among the unmarked entries, else among the yielded. -/
def State.choose (s : State) (core : Nat) (stream : Bool) : Option (Bin × List Nat) :=
  let k := s.core core
  let all := s.takeable core stream
  let old := if k.policy = 3 then [] else all.filter fun e => k.selAge.toNat < e.1.age s.cycle
  match oldestBin s.cycle old with
  | some e => some e
  | none =>
    let fresh := all.filter fun e => !e.1.yielded
    k.byPolicy s.cycle (if fresh.isEmpty then all else fresh)

/-- A stream that holds no selection and no group takes an entry. Threads that do not count stay in it. -/
def execBinSelection (core : Nat) (stream : Bool) (s : State) : Out :=
  let k := s.core core
  let x := k.stream stream
  if x.sel.isSome || x.group.isSome then .next s
  else match s.choose core stream with
    | some (b, take) =>
      let rest (e : Bin) : Bin :=
        if e.key = b.key then { e with members := e.members.filter fun m => !take.contains m, held := [], yielded := false } else e
      let k := { k with bins := (k.bins.map rest).filter fun e => !e.members.isEmpty }
      let k := take.foldl (fun k m => k.updThread m fun t => { t with phase := .streaming }) k
      .next (s.setCore core (k.setStream stream { sel := some ⟨b.key, b.header, take⟩, group := none }))
    | none => .next s

/-- The hold of an entry ends by its age, or because it is complete (R134). -/
def execReformHoldEnd (core bin : Nat) (s : State) : Out :=
  let k := s.core core
  let free (e : Bin × Nat) : Bin := if e.2 = bin && k.holdOver s.cycle e.1 then { e.1 with held := [] } else e.1
  .next (s.setCore core { k with bins := k.bins.zipIdx.map free })

/-- Spilled slots, lowest first. -/
def Core.spilled (k : Core) : List Nat := (k.threads.filter fun t => t.2.phase = .spilled).map (·.1)

/-- Spilled threads join the entry of their key, or allocate a free one, lowest slot first, at most n of them (R110). -/
def Core.unspill (k : Core) (now : Nat) : Nat → List Nat → Core
  | _, [] => k
  | 0, _ => k
  | n + 1, x :: r =>
    let k' := k.fileIn now x (decide (k.bins.length < Config.bins))
    if (k'.thread x).phase = .waiting then k'.unspill now n r else k.unspill now (n + 1) r

def execSpillRefile (core : Nat) (s : State) : Out :=
  .next (s.updCore core fun k => k.unspill s.cycle Config.spillMoves k.spilled)

/-! ## Issue groups (R114 to R118, R123) -/

/-- Lane columns that a group of the other stream holds. -/
def Core.otherGroup (k : Core) (stream : Bool) : Option Group := (k.stream !stream).group

/-- A checked group holds both pipes (R123). (DEDUCED, log 25) -/
def pipesFree (other : Option Group) (chk : Bool) : Bool :=
  match other with
  | some g => !chk && !g.key.chk
  | none => true

/-- At most one thread for each free column, the one in the lowest row. -/
def pickLowest (busy : List Nat) : List Nat → List Nat → List Nat
  | [], acc => acc
  | x :: r, acc =>
    if busy.contains (laneOf x) || acc.any (fun y => laneOf y = laneOf x) then pickLowest busy r acc else pickLowest busy r (acc ++ [x])

/-- The members of the next group out of the selected threads, rising by slot: in a cohort block the whole of the first cohort
that is complete. -/
def Core.pick (k : Core) (cf : Bool) (busy rest : List Nat) : List Nat :=
  if cf then
    match rest.filter (k.cohortComplete rest) with
    | [] => []
    | x :: _ =>
      let l := k.liveSlots (rowOf x)
      if l.any fun y => busy.contains (laneOf y) then [] else l
  else pickLowest busy rest []

/-- A thread enters its group: its saved latches, or none. (DEDUCED, log 8) -/
def Thread.enter (t : Thread) : Thread :=
  let kept := match t.resume with | some r => r.latches | none => []
  { t.dropLatches (kept.map (·.1)) with bp := kept, resume := none }

/-- The resume points of some threads. -/
def Core.resumes (k : Core) (slots : List Nat) : List (Nat × ResumePt) := slots.filterMap fun x => (k.thread x).resume.map fun r => (x, r)

/-- The group of some threads at the address they were filed under, on the pipe of a stream. -/
def Core.newGroup (k : Core) (id now : Nat) (pipe : Bool) (q : Selection) (members : List Nat) (head : Nat) (code : List Nat) : Group :=
  let rs := k.resumes members
  { id := id, started := now, pipe := pipe, key := q.key, header := q.header, members := members, cols := (members.map laneOf).foldr insertNat [], entering := true,
    headWord := head, code := code, pc := ((q.key.addr - q.header).toNat / 4) - 1, cf := headCf head,
    ring := match rs with | r :: _ => r.2.ring | [] => 0,
    doneAt := (rs.filter fun r => r.2.done).map (·.1), arrived := rs.any fun r => r.2.arrived }

/-- The gangs of some slots have formed a group. -/
def State.noteGroup (s : State) (core : Nat) (slots : List Nat) : State :=
  slots.foldl (fun s x => let c := (s.core core).crewAt x; s.noteActive c.lid c.gang) s

/-- Every selected thread parks at the address it would enter, mid-block too (R107); in a cohort block each cohort is a set (R119).
(DEDUCED, log 66; DESIGN CHOICE, log 72) -/
def State.parkSelection (s : State) (core : Nat) (stream : Bool) (q : Selection) (code detail : Nat) (absent : Option Dword) (cf : Bool) :
    State :=
  let ring := match (s.core core).resumes q.rest with | r :: _ => r.2.ring | [] => 0
  let keep (k : Core) (x : Nat) : Core := k.updThread x fun t => t.enter
  let s := s.updCore core fun k => q.rest.foldl keep (k.setStream stream { k.stream stream with sel := none })
  let set (s : State) (slots : List Nat) : State :=
    s.park core { slots := slots, code := code, detail := detail, addr := 0, resume := q.key.addr, header := q.header, ring := ring,
                  latches := [0, 1, 2, 3], coh := cf, wait := false, absent := absent }
  if cf then (rowsOf q.rest).foldl (fun s r => set s (q.rest.filter fun x => rowOf x = r)) s else set s q.rest

/-- The stream whose selection feeds a stream: its own, or, for lockstep, that of the other stream in the cycle in which its group was
formed (R115). (DEDUCED, log 4) -/
def Core.feeder (k : Core) (now : Nat) (stream : Bool) : Option (Bool × Selection) :=
  match (k.stream stream).sel with
  | some q => some (stream, q)
  | none => match (k.stream !stream).sel, (k.stream !stream).group with
    | some q, some g => if g.started = now && g.entering && g.key = q.key && !g.key.chk then some (!stream, q) else none
    | _, _ => none

/-- Threads whose cohort is not complete go back to an entry; that happens only when the code changed after the selection. -/
def Core.refile (k : Core) (now : Nat) (slots : List Nat) : Core := slots.foldl (fun k x => k.fileThread now x) k

/-- Stream 0 forms its group first when both do in one cycle (R115). -/
def Core.mayForm (k : Core) (now : Nat) (stream : Bool) : Bool :=
  (k.stream stream).group.isNone && (stream || match k.otherGroup stream with | some g => g.started ≠ now | none => true)

/-- THE FORMATION of an issue group. Selected threads of a gang that is to stop go back to their entry. -/
def execIssueGroupStart (core : Nat) (stream : Bool) (s : State) : Out :=
  let k := s.core core
  if !k.mayForm s.cycle stream then .next s
  else match k.feeder s.cycle stream with
    | none => .next s
    | some (from_, q) =>
      if !pipesFree (k.otherGroup stream) q.key.chk then .next s
      else match s.fetchBlock core stream q.key.asid q.header.toNat with
        | (.wait, s) => .next s
        | (.noHeader, s) => .next (s.parkSelection core from_ q 0x02 0 none false)
        | (.fault c a cf, s) => .next (s.parkSelection core from_ q 0x03 2 (if c = 0x08 then some (BitVec.ofNat 64 a) else none) cf)
        | (.block head code, s) =>
          let k := s.core core
          let busy := if from_ = stream then ((k.otherGroup stream).map (·.cols)).getD [] else []
          let live := q.rest.filter fun x => !s.halting core x
          let whole := if headCf head then live.filter (k.cohortComplete q.rest) else live
          let members := k.pick (headCf head) busy whole
          if members.isEmpty && !whole.isEmpty then .next s
          else
            let left := whole.filter fun x => !members.contains x
            let g := k.newGroup s.ctr s.cycle stream q members head code
            let k := k.refile s.cycle (q.rest.filter fun x => !whole.contains x)
            let k := members.foldl (fun k x => k.updThread x fun t => t.enter) k
            let k := k.setStream from_ { k.stream from_ with sel := if left.isEmpty then none else some { q with rest := left } }
            let k := k.setGroup stream (if members.isEmpty then none else some g)
            .next (((s.setCore core k).bump).noteGroup core members)

end Sys2Proof.Machine
end

