-- ==== Sys2Proof/Machine/Launch.lean ====
section
/-!
DEFINITION. Launch records, submission, refusal, queues, eligibility and the completion block (spec/24_launch_scheduling.md R422 to
R432, R438, R450), and how the front end reads and writes storage (R20, R249, R251).
-/
namespace Sys2Proof.Machine

/-! ## Storage as the front end reaches it -/

/-- What a read of the front end finds. -/
inductive Front where
  | ok
  | fault
  | wait
  deriving DecidableEq, Repr

/-- An access of the front end to a byte. A far line reported out of reach is a fault; a page that is not present is left to
Tsunath's service (R426). -/
def State.frontAt (s : State) (key kind : Nat) : Front × State :=
  if s.lost.contains (key / lineBytes) then (.fault, { s with lost := s.lost.filter (· ≠ key / lineBytes) })
  else match s.verdict key kind with
    | (.permitted, s) => (.ok, s)
    | (.fault c, s) => if c = 0x08 then (.wait, s.noteAbsent key) else (.fault, s)
    | (.wait, s) => (.wait, s.joinRead key kind (fun r => !r.front) fun r => { r with front := true })

/-- The parts of a range in its lines: first address and bytes. -/
def lineParts (va n : Nat) : List (Nat × Nat) :=
  (lineAddrs va n).map fun a => (a, min (va + n) ((a / lineBytes + 1) * lineBytes) - a)

/-- Parts of lines read one after the other, each when its verdict comes (R249); a fault comes before waiting. -/
def State.readParts (s : State) (asid : Nat) : List (Nat × Nat) → Front × List Byte × State
  | [] => (.ok, [], s)
  | p :: r =>
    match s.frontAt (byteKey asid p.1) 0 with
    | (.fault, s) => (.fault, [], s)
    | (.ok, s) =>
      let bs := s.homeBytes asid p.1 p.2
      match s.readParts asid r with
      | (q, rest, s) => (q, bs ++ rest, s)
    | (.wait, s) => match s.readParts asid r with
      | (.fault, _, s) => (.fault, [], s)
      | (_, _, s) => (.wait, [], s)

/-- A virtual address has 57 bits (R216). -/
def inSpace (va n : Nat) : Bool := va + n ≤ 2 ^ 57

/-- The bytes of a range, read at home. -/
def State.readRange (s : State) (asid va n : Nat) : Front × List Byte × State :=
  if inSpace va n then s.readParts asid (lineParts va n) else (.fault, [], s)

/-- Several ranges (address and bytes), each with its bytes. -/
def State.readRanges (s : State) (asid : Nat) : List (Nat × Nat) → Front × List (List Byte) × State
  | [] => (.ok, [], s)
  | q :: r =>
    match s.readRange asid q.1 q.2 with
    | (.fault, _, s) => (.fault, [], s)
    | (x, bs, s) => match s.readRanges asid r with
      | (.fault, _, s) => (.fault, [], s)
      | (y, rest, s) => (if x = .ok then y else x, bs :: rest, s)

/-- A REGISTER STEP WITH OWNER NONE (R251): of bytes of a word, or of a whole sector, which ends its poison (R461). Bytes of a sector
with an error are left out, and a mismatch is counted (R274, R463). The flag tells that they were. -/
def State.storeChunk (s : State) (x : Chunk) : Front × Bool × State :=
  match s.frontAt (4 * x.first) 1 with
  | (.ok, s) => match x with
    | .word w m d => if s.badWord w then (.ok, true, s.countTaint w (s.taint w)) else (.ok, false, s.register none w m d)
    | .sector w d => (.ok, false, s.registerSector none w d)
  | (q, s) => (q, false, s)

/-- Bytes of a chunk, where each bit of the mask names one. -/
def Chunk.bytes : Chunk → Nat
  | .word _ m _ => (List.range 4).countP fun i => m.getLsbD i
  | .sector _ _ => 32

/-- The chunk with which a write of a run of bytes begins (R274, R461). -/
def firstChunk (asid va : Nat) (bs : List Byte) : Option Chunk := (chunksOf (runBytes asid [(va, bs.take 32)])).head?

/-! ## The record (R422 to R424) -/

/-- n bytes of a little-endian number from a byte on. -/
def bytesAt (r byte n : Nat) : Nat := r / 2 ^ (8 * byte) % 2 ^ (8 * n)

def crewSpecOf (e : Nat) : CrewSpec := ⟨bitsOf e 5 0, bitsOf e 16 8, bitsOf e 63 32, bitsOf e 127 64⟩

/-- A used crew entry is within its ranges. -/
def crewEntryOk (e : Nat) : Bool :=
  let c := crewSpecOf e
  bitsOf e 7 6 = 0 && bitsOf e 31 17 = 0 && 1 ≤ c.coh && c.coh ≤ 32 && c.regs % 8 = 0 && 8 ≤ c.regs && c.regs ≤ 256 &&
  c.scr % 1024 = 0 && c.scr ≤ 2 ^ 20 && c.coh * c.regs ≤ Config.bankRegs

/-- CODE.BASE of an entry address (R129). -/
def codeBaseOf (entry : Nat) : Nat := entry / 2 ^ 34 * 2 ^ 34

def recNcrew (r : Nat) : Nat := bitsOf r 51 48
def recCrews (r : Nat) : List Nat := (List.range 8).map fun c => bytesAt r (64 + 16 * c) 16
def recDeps (r : Nat) : List Nat := (List.range 8).map fun i => bytesAt r (192 + 16 * i) 16
def recResets (r : Nat) : List Nat := (List.range 8).map fun i => bytesAt r (320 + 16 * i) 16
def recSnaps (r : Nat) : List Nat := (List.range 4).map fun i => bytesAt r (448 + 32 * i) 32

/-- The pairs of a table whose address is not 0. -/
def usedPairs (l : List Nat) : List (Nat × Nat) := (l.filter fun e => bitsOf e 63 0 ≠ 0).map fun e => (bitsOf e 63 0, bitsOf e 127 64)

/-- The record out of its 576 bytes, its groups not yet read. -/
def recordOf (r : Nat) : LaunchRec :=
  { tag := bitsOf r 31 0, gangs := bitsOf r 47 32, prio := bitsOf r 54 52, det := r.testBit 55, chk := r.testBit 56, rst := r.testBit 57,
    tmd := r.testBit 58, pol := bitsOf r 61 60, asid := bitsOf r 79 64, queue := bitsOf r 85 80, age := bitsOf r 111 96,
    entry := bitsOf r 191 128, bound := bitsOf r 255 192, seed := bitsOf r 287 256, gtab := bitsOf r 383 320, ngrp := bitsOf r 296 288,
    heaps := bitsOf r 447 384, cw := bitsOf r 511 448, crews := ((recCrews r).take (recNcrew r)).map crewSpecOf,
    deps := usedPairs (recDeps r), resets := usedPairs (recResets r),
    snaps := ((recSnaps r).filter fun e => bitsOf e 63 0 ≠ 0).map fun e => ⟨bitsOf e 63 0, bitsOf e 127 64, bitsOf e 191 128⟩,
    groups := [] }

/-- The conditions of R427 on the record's own words. -/
def recordOk (r : Nat) : Bool :=
  let l := recordOf r
  let n := recNcrew r
  !r.testBit 59 && bitsOf r 63 62 = 0 && bitsOf r 95 86 = 0 && bitsOf r 127 112 = 0 && bitsOf r 319 297 = 0 &&
  n ≤ 8 && (n = 0) = (l.gangs = 0) && l.ngrp ≤ 256 && l.gtab % 16 = 0 && l.cw % 16 = 0 && l.heaps % 64 = 0 && l.entry % 4 = 0 &&
  ((recCrews r).take n).all crewEntryOk && ((recCrews r).drop n).all (· = 0) &&
  l.deps.all (fun d => d.1 % 8 = 0 && d.2 ≠ 0) && l.resets.all (fun d => d.1 % 8 = 0) &&
  (recSnaps r).all (fun e => bitsOf e 255 192 = 0) &&
  l.snaps.all fun x => l.rst && x.src % 256 = 0 && x.copy % 256 = 0 && x.len % 256 = 0

/-! ## Groups (R425) -/

/-- A group-table entry is within its ranges. -/
def groupEntryOk (e : Nat) : Bool := bitsOf e 31 3 = 0 && (!e.testBit 0 || bitsOf e 127 64 % 4 = 0)

/-- The range of a group's member list. -/
def groupList (e : Nat) : Nat × Nat := if e.testBit 0 then (bitsOf e 127 64, 4 * bitsOf e 63 32) else (0, 0)

/-- The numbers of so many bytes each, out of bytes. -/
def numbersOf (n : Nat) : Nat → List Byte → List Nat
  | 0, _ => []
  | k + 1, bs => leNat (bs.take n) :: numbersOf n k (bs.drop n)

/-- A group of the table, its members as a set. -/
def groupOf (e : Nat) (list : List Byte) : GroupSpec :=
  { valid := e.testBit 0, cross := e.testBit 1, rep := e.testBit 2,
    members := (numbersOf 4 (list.length / 4) list).foldr insertNat [] }

/-- The group table and its lists are read: the groups, and whether each entry is within its ranges. -/
def State.readGroups (s : State) (r : LaunchRec) : Front × List GroupSpec × Bool × State :=
  match s.readRange r.asid r.gtab (16 * r.ngrp) with
  | (.ok, bs, s) =>
    let raw := numbersOf 16 r.ngrp bs
    if !raw.all groupEntryOk then (.ok, [], false, s)
    else match s.readRanges r.asid (raw.map groupList) with
      | (.ok, lists, s) => (.ok, (raw.zip lists).map fun e => groupOf e.1 e.2, true, s)
      | (q, _, s) => (q, [], false, s)
  | (q, _, s) => (q, [], false, s)

/-- The launch has the cohort that a member names. -/
def memberOk (r : LaunchRec) (rep : Bool) (n : Nat) : Bool :=
  (if rep then decide (n < 256) else decide (n / 256 < r.gangs)) &&
  match r.crews[n / 32 % 8]? with
  | some c => n % 32 < c.coh
  | none => false

/-- The groups that name a cohort, in ascending number. -/
def groupsNaming (gs : List GroupSpec) (n : Nat) : List Nat :=
  (gs.zipIdx.filter fun e => e.1.valid && e.1.members.contains (if e.1.rep then n % 256 else n)).map (·.2)

/-- A group without CROSS or REP has its members in one gang; none has both. -/
def groupShapeOk (g : GroupSpec) : Bool :=
  !(g.cross && g.rep) && (g.cross || g.rep || ((g.members.map (· / 256)).foldr insertNat []).length ≤ 1)

/-- The conditions of R427 on the groups. -/
def groupsOk (r : LaunchRec) (gs : List GroupSpec) : Bool :=
  let used := gs.filter (·.valid)
  used.all (fun g => groupShapeOk g && g.members.all (memberOk r g.rep)) &&
  (used.flatMap (·.members)).all fun n => (groupsNaming gs n).length ≤ 4

/-! ## The completion block (R428) and dispatch records (R429) -/

/-- An AtomicAtHome step on a word of the completion block, from the management complex; its word must be there. A word that cannot be
written, or whose sector has an error, stays as it is. (DESIGN CHOICE, log 43) -/
def State.cwAtomic (s : State) (r : LaunchRec) (word : Nat) (f : Nat → Nat) : Front × State :=
  if r.cw = 0 then (.ok, s) else
  let w := byteKey r.asid (r.cw + 8 * word) / 4
  match s.frontAt (4 * w) 3 with
  | (.ok, s) => (.ok, if s.badWord w then s.countTaint w (s.taint w) else s.setUnowned 2 w (f (s.homeWide w).toNat % 2 ^ 64))
  | (q, s) => (q, s)

def orBit (b x : Nat) : Nat := x ||| 2 ^ b

/-- The word that a step writes, and what it makes of it (R428, R438, R450). -/
def BlockOp.word : BlockOp → Nat
  | .crew g _ => 2 + g
  | .count | .done | .failed => 0

def BlockOp.apply : BlockOp → Nat → Nat
  | .crew _ c => orBit c
  | .count => (· + 1)
  | .done => orBit 63
  | .failed => orBit 61

/-- Steps on the completion block of a launch are to come. -/
def State.queueBlock (s : State) (lid : Nat) (l : List BlockOp) : State := { s with blockQ := s.blockQ ++ l.map fun o => (lid, o) }

/-- Word 0 of the block, for the completion message. -/
def State.cwWord0 (s : State) (l : Launch) (flag : Nat) (there : Bool) : Dword :=
  if l.record.cw = 0 || !there then BitVec.ofNat 64 (l.count + 2 ^ flag) else s.homeWide (byteKey l.record.asid l.record.cw / 4)

/-- The number of relaunches of a gang so far. -/
def State.attemptOf (s : State) (lid gang : Nat) : Nat :=
  match (s.launches.find lid).bind fun l => l.gangs.find gang with
  | some g => g.attempt
  | none => 0

/-- A dispatch record is held for the submitting crew until its event queue has room; it is dropped once the crew has completed
or its gang was killed. -/
def State.tell (s : State) (who : Submitter) (tag status arg : Nat) : State :=
  let rec_ := completionRecord tag 3 status arg
  let put (c : Crew) : Crew := { c with held := c.held ++ [rec_] }
  match who with
  | .host _ _ => s
  | .crew lid gang index attempt =>
    if s.attemptOf lid gang ≠ attempt then s
    else match s.crewPlace lid (gang * 8 + index) with
      | some (c, b) => s.updCore c fun k => k.updCrew b put
      | none =>
        let saved (g : Gang) : Gang := { g with saved := g.saved.map fun x => if x.crew.index = index then { x with crew := put x.crew } else x }
        { s with launches := s.launches.adjust lid fun l => { l with gangs := l.gangs.adjust gang saved } }

def State.updLaunch (s : State) (lid : Nat) (f : Launch → Launch) : State := { s with launches := s.launches.adjust lid f }

def State.updGang (s : State) (lid gang : Nat) (f : Gang → Gang) : State :=
  s.updLaunch lid fun l => { l with gangs := l.gangs.adjust gang f }

/-- The launch's end is told to its submitter: flag 63 for DONE, 61 for FAILED. -/
def State.announce (s : State) (lid : Nat) (l : Launch) (flag : Nat) (there : Bool) : State :=
  match l.submitter with
  | .host n e => s.post n fun q => .completion n e q lid l.record.tag (s.cwWord0 l flag there)
  | w => s.tell w l.record.tag (if flag = 63 then 2 else 3) lid

/-- The launch leaves its queue. -/
def State.dequeue (s : State) (lid : Nat) : State := { s with queues := s.queues.mapVals fun _ q => q.filter (· ≠ lid) }

/-- The bind record is a gang's own. -/
def Bind.isOf (b : Bind) (lid gang : Nat) : Bool := b.lid = lid && b.gang = gang

/-- The bind records of a gang, and its commit record, set free: those that are still its own. -/
def State.freeBinds (s : State) (lid gang : Nat) (place : List PlaceReq) : State :=
  let free (k : Core) (b : Nat) : Core := if (k.binds.find b).any fun x => x.isOf lid gang then { k with binds := k.binds.erase b } else k
  place.foldl (fun s p =>
    let s := s.updCore p.core fun k => free k p.bind
    if s.gcrs.find p.gcr = some (lid, gang) then { s with gcrs := s.gcrs.erase p.gcr } else s) s

/-- Gangs of a failed launch that have not started, or are to be relaunched, never start. -/
def Gang.giveUp (g : Gang) : Gang :=
  match g.phase with
  | .unplaced | .reserved | .killed => { g with phase := .done }
  | _ => g

/-! ## Queues and eligibility (R430 to R432) -/

def State.queue (s : State) (q : Nat) : List Nat := s.queues.get [] q

/-- Every used dependence entry is satisfied, by words read at home. -/
def State.depsMet (s : State) (asid : Nat) : List (Nat × Nat) → Bool × State
  | [] => (true, s)
  | d :: r =>
    match s.readRange asid d.1 8 with
    | (.ok, bs, s) => if leNat bs &&& d.2 = d.2 then s.depsMet asid r else (false, s)
    | (_, _, s) => (false, s)

/-- The head of a queue is evaluated; a launch without gangs completes once its snapshots are taken, and the next one is the head. -/
def State.pollQueue (s : State) (q : Nat) : Nat → State
  | 0 => s
  | n + 1 =>
    match (s.queue q).head? with
    | none => s
    | some lid => match s.launches.find lid with
      | none => s
      | some l =>
        match (if l.eligible then (true, s) else s.depsMet l.record.asid l.record.deps) with
        | (false, s) => s
        | (true, s) =>
          let s := s.updLaunch lid fun l => { l with eligible := true }
          if l.record.gangs ≠ 0 || !l.snapped then s else ((s.dequeue lid).queueBlock lid [.done]).pollQueue q n

/-- Every queue's head is evaluated (R430). -/
def State.poll (s : State) : State := (List.range Config.launchQueues).foldl (fun s q => s.pollQueue q Config.queueLaunches) s

/-- THE NEXT STEP ON A COMPLETION BLOCK (R428, R438, R450): it waits for its line. After it the heads of the queues are evaluated
(R430); after DONE and FAILED the end is told. -/
def State.blockStep (s : State) : State :=
  match s.blockQ with
  | [] => s
  | (lid, o) :: rest => match s.launches.find lid with
    | none => { s with blockQ := rest }
    | some l => match s.cwAtomic l.record o.word o.apply with
      | (.wait, s) => s
      | (q, s) =>
        let s : State := { s with blockQ := rest, idleSince := s.cycle }
        match o with
        | .crew _ _ | .count => s.poll
        | .done => ((s.updLaunch lid fun l => { l with done := true }).announce lid l 63 (q = .ok)).poll
        | .failed => (s.announce lid l 61 (q = .ok)).poll

/-- A launch fails (R450): no gang of it is placed any more, and FAILED is to be set. -/
def State.failLaunch (s : State) (lid : Nat) : State :=
  match s.launches.find lid with
  | some l =>
    if l.failed then s
    else
      let held := l.gangs.filter fun g => g.2.phase = .reserved || g.2.phase = .killed
      let s := held.foldl (fun s g => s.freeBinds lid g.1 g.2.place) s
      let s := (s.updLaunch lid fun l => { l with failed := true, gangs := l.gangs.mapVals fun _ g => g.giveUp }).dequeue lid
      (s.queueBlock lid [.failed]).poll
  | none => s

/-! ## Snapshots (R424, R449) -/

/-- Piece i of some snapshots, numbered from n on: the region, the offset of its 32 bytes, and the first piece of the next region. -/
def snapPiece : List SnapSpec → Nat → Nat → Option (SnapSpec × Nat × Nat)
  | [], _, _ => none
  | x :: r, n, i => if i < n + x.len / 32 then some (x, 32 * (i - n), n + x.len / 32) else snapPiece r (n + x.len / 32) i

/-- A sector with the tag and the poison of the one that it is a copy of: a copy vouches for no more than its source (R461, R463). -/
def Line.copied (l : Line) (i : Nat) (x : Taint) (tag : BitVec 16) : Line :=
  match x with
  | .clean => l
  | .poison => { l with poison := l.poison ||| (1#2 <<< i) }
  | .tag => { l with tags := (l.tags &&& ~~~(0xFFFF#32 <<< (16 * i))) ||| (tag.setWidth 32 <<< (16 * i)) }

/-- A piece of a snapshot is copied, from SRC to COPY or back, by a read and a Register step with owner none; a region whose bytes have
no permitted verdict is left. The number of the next piece; none while a line is not there. (DESIGN CHOICE, log 45) -/
def State.copyPiece (s : State) (asid : Nat) (back : Bool) (snaps : List SnapSpec) (i : Nat) : Option Nat × State :=
  match snapPiece snaps 0 i with
  | none => (some i, s)
  | some (x, o, next) =>
    let src := (if back then x.copy else x.src) + o
    let dst := (if back then x.src else x.copy) + o
    if !inSpace src 32 || !inSpace dst 32 then (some next, s)
    else match s.frontAt (byteKey asid src) 0 with
      | (.wait, s) => (none, s)
      | (.fault, s) => (some next, s)
      | (.ok, s) =>
        let w := byteKey asid src / 4
        let u := byteKey asid dst / 4
        let l := s.lineOfWord w
        let data := BitVec.ofNat 256 (s.homeNat asid src 32)
        match s.frontAt (byteKey asid dst) 1 with
        | (.wait, s) => (none, s)
        | (.fault, s) => (some next, s)
        | (.ok, s) =>
          let s := s.registerSector none u data
          let mark (d : Line) : Line := d.copied (u % 16 / 8) (l.taint (w % 16 / 8)) (l.tag (w % 16 / 8))
          (some (i + 1), { s with lines := s.lines.adjust (u / 16) mark })

/-- The next piece of a launch's snapshots: after its dependences, before any gang commits (R424). -/
def State.snapStep (s : State) (lid : Nat) : State :=
  match s.launches.find lid with
  | some l =>
    if l.snapped || !l.eligible then s
    else match s.copyPiece l.record.asid false l.record.snaps l.snapAt with
      | (none, s) => s
      | (some n, s) =>
        let all := (snapPiece l.record.snaps 0 n).isNone
        let s := s.updLaunch lid fun l => { l with snapAt := n, snapped := all }
        if all then s.poll else s
  | none => s

/-- Every 1 ms the engine evaluates the heads for words that other agents wrote. -/
def execDependencePoll (s : State) : Out := .next s.poll

/-! ## Submission (R426, R427) -/

/-- How a submission ends. -/
inductive Submitted where
  | busy
  | wait
  /-- refused; true where the record's ASID is not permitted -/
  | refused (asid : Bool)
  | accepted (lid : Nat)
  deriving DecidableEq, Repr

/-- A refusal: REFUSED is set where the record was read and names a legal block, except for a session that may not name the
record's ASID. (DESIGN CHOICE, log 44) -/
def State.refuse (s : State) (who : Submitter) (r : Option LaunchRec) (asid : Bool) : Submitted × State :=
  let go (s : State) (tag : Nat) : Submitted × State := (.refused asid, ({ s with nextLid := s.nextLid + 1 }).tell who tag 1 0)
  match r with
  | some r =>
    let quiet : Bool := match who with | .host _ _ => asid | .crew _ _ _ _ => false
    if r.cw = 0 || r.cw % 16 ≠ 0 || quiet then go s r.tag
    else match s.cwAtomic r 0 (orBit 62) with
      | (.wait, s) => (.wait, s)
      | (_, s) => go s.poll r.tag
  | none => go s Config.unreadTag.toNat

/-- The launch is accepted: word 1 is written, it has its identifier and stands in its queue. -/
def State.accept (s : State) (who : Submitter) (r : LaunchRec) : Submitted × State :=
  let lid := (s.nextLid + 1).toNat
  let gangs : FMap Gang := (List.range r.gangs).map fun g => (g, {})
  match s.cwAtomic r 1 fun _ => lid + 2 ^ 32 with
  | (.wait, s) => (.wait, s)
  | (_, s) =>
    let new : Launch := { record := r, submitter := who, gangs := gangs, snapped := r.snaps.isEmpty }
    let s := { s with nextLid := s.nextLid + 1, launches := s.launches.set lid new,
                      queues := s.queues.set r.queue (s.queue r.queue ++ [lid]) }
    (.accepted lid, (s.tell who r.tag 0 lid).poll)

/-- THE SUBMISSION of a record read in an address space; permit says which ASIDs the record may name. (DEDUCED, log 42) -/
def State.submit (s : State) (who : Submitter) (asid addr : Nat) (permit : Nat → Bool) : Submitted × State :=
  if addr % 64 ≠ 0 then s.refuse who none false
  else match s.readRange asid addr 576 with
    | (.wait, _, s) => (.wait, s)
    | (.fault, _, s) => s.refuse who none false
    | (.ok, bs, s) =>
      let raw := leNat bs
      let r := recordOf raw
      if Config.queueLaunches ≤ (s.queue r.queue).length then (.busy, s)
      else if !permit r.asid then s.refuse who (some r) true
      else if !recordOk raw then s.refuse who (some r) false
      else match s.readGroups r with
        | (.wait, _, _, s) => (.wait, s)
        | (.fault, _, _, s) => s.refuse who (some r) false
        | (.ok, gs, ok, s) => if ok && groupsOk r gs then s.accept who { r with groups := gs } else s.refuse who (some r) false

end Sys2Proof.Machine
end

