-- ==== Sys2Proof/Machine/Reads.lean ====
section
/-!
DEFINITION. What the instruction that a group stands at reads, whichever it is: results that DET holds back suspend it
(spec/11_memory_model.md R254), and registers with an error are consumed (spec/25_containment.md R446, R464).
-/
namespace Sys2Proof.Machine

/-- The guard of an instruction. -/
def instrGuard (i : Instr) : Guard :=
  match i with
  | .braE f | .brcE f | .callE f | .exittoE f | .reformE f => f.guard
  | .jmpiE f | .calliE f => f.guard
  | .retE f | .exitE f | .trapE f | .brkE f => f.guard
  | i => match eSpec i with
    | some (f, _) => f.guard
    | none => (gForm i).guard

/-- The register or latch that a short code names (R59). -/
def shortRegs (c : BitVec 7) : List Dst := if c.toNat < 124 then [.v c.toNat] else [.bp (c.toNat - 124)]

/-- The registers, predicates and latches that an instruction reads in a lane, its guard apart. -/
def readRegs (i : Instr) (t : Thread) (r : Row) : List Dst :=
  match i with
  | .addB f | .subB f | .mulB f | .mulhB f | .minB f | .maxB f | .andB f | .orB f | .xorB f | .andnB f | .shlB f | .shrB f
  | .sarB f | .rolB f | .faddB f | .fsubB f | .fmulB f | .fminB f | .fmaxB f | .fdivB f => shortRegs f.a ++ shortRegs f.b
  | .absB f | .notB f | .movB f | .frcpB f | .frsqB f | .fsqrtB f | .fexp2B f | .flog2B f | .fsinpiB f | .fcospiB f =>
    shortRegs f.a
  | .brcB cp _ _ => predRegs cp
  | .brcE f => predRegs (cpOf f)
  | .jmpiB a | .calliB a => ptrRegs (shortSrc a)
  | .jmpiE f | .calliE f => ptrRegs (jOpnd f)
  | .retB | .retE _ => linkRegs
  | .movixRead m => touchedSources i m.e ++ (match movixIndex t r m with | .ok j => [.v j] | .error _ => [])
  | .spz _ => []
  | .tinfo f => [.v f.a.toNat, .v (f.a.toNat + 1)]
  | i => match eSpec i with
    | some (f, _) => touchedSources i f
    | none => (engRegs i).flatMap fun e => (List.range e.2).map fun n => Dst.v (e.1 + n)
where
  /-- The sources of an E shape, and the index register of an indirection. -/
  touchedSources (i : Instr) (f : EForm) : List Dst :=
    let sp := entryOf i
    specRegs t r.allot f sp.a f.a ++ specRegs t r.allot f sp.b f.b ++ specRegs t r.allot f sp.c f.c ++
    (if f.indCount then [.x f.xs.toNat] else [])

/-- What a thread of the group reads at the instruction: the guard, and where it holds, the sources. -/
def laneReads (k : Core) (i : Instr) (x : Nat) : List Dst :=
  let t := k.thread x
  guardRegs (instrGuard i) ++ if guardHolds (instrGuard i) t then readRegs i t (k.row (rowOf x)) else []

/-! ## Results that DET holds back (R254) -/

/-- The entry is the result of an atomic that stands in the deterministic atomic buffer. -/
def Core.detHeld (k : Core) (q : LqEntry) : Bool := q.atomic && k.dab.any fun d => d.load = some q.id

/-- A register of a lane is the destination of such a result. -/
def Core.resultHeld (k : Core) (x : Nat) (d : Dst) : Bool :=
  k.lq.any fun q => k.detHeld q && (q.dsts.contains d || q.pred.any fun p => Dst.p p = d) && match d with
    | .s n => (k.row (rowOf x)).joins.any fun j => j.dsts.contains n && j.slots.contains q.slot
    | _ => q.slot = x && (k.thread x).pend.contains d

/-- The instruction reads a result that DET holds back. -/
def Core.readsHeld (k : Core) (g : Group) (i : Instr) : Bool := g.members.any fun x => (laneReads k i x).any (k.resultHeld x)

/-! ## Registers with an error (R464) -/

/-- The register or latch has a double-bit error. -/
def Thread.bad (t : Thread) (d : Dst) : Bool :=
  match d with
  | .v n => t.badV.contains n
  | .bp n => t.badBp.contains n
  | _ => false

/-- The threads of the group that would consume an error at the instruction. -/
def badLanes (k : Core) (g : Group) (i : Instr) : List Nat := g.members.filter fun x => (laneReads k i x).any (k.thread x).bad

/-- TRIG 2 for the gang of each, where it has not arisen yet. -/
def State.consumeRegs (s : State) (core : Nat) (slots : List Nat) : State :=
  ((s.core core).crewsOf slots).foldl (fun s b =>
    let c := (s.core core).crew b
    if s.containing c.lid c.gang then s else s.consumeSram core b 0) s

end Sys2Proof.Machine
end

