-- ==== Sys2Proof/Machine/Resume.lean ====
section
/-!
DEFINITION. evpost (spec/08_core_crosslane_sync.md R201, spec/24_launch_scheduling.md R426) and the resumption of suspended groups
(spec/05_core_execution.md R116).
-/
namespace Sys2Proof.Machine

/-! ## evpost -/

/-- A record as evpost posts it: SRC and STATUS 0, bits [23:16] ignored (R200, R201). -/
def postedRecord (v : Dword) : Dword := v &&& 0xFFFFFFFF0000FFFF#64

/-- One thread's post: whether a target took it; none while its queue has no room. (DEDUCED, log 46) -/
def State.postTo (s : State) (core slot target : Nat) (v : Dword) : Option Bool × State :=
  let c := (s.core core).crewAt slot
  if target ≤ 7 then
    match s.crewPlace c.lid (c.gang * 8 + target) with
    | some (d, b) =>
      if ((s.core d).crew b).evq.length < Config.evqSize then
        (some true, s.updCore d fun k => k.updCrew b fun c => { c with evq := c.evq ++ [postedRecord v] })
      else (none, s)
    | none => (some false, s)
  else if target = 8 then
    match s.submit (.crew c.lid c.gang c.index (s.attemptOf c.lid c.gang)) c.asid.toNat v.toNat (· = c.asid.toNat) with
    | (.busy, s) => (none, s)
    | (.wait, s) => (none, s)
    | (_, s) => (some true, s)
  else (some false, s)

/-- How far the posts of a group have come. -/
inductive PostEnd where
  | all
  /-- a thread is not drained, or waits for a load (log 77) -/
  | undrained
  /-- a queue has no room -/
  | full
  deriving DecidableEq, Repr

/-- The target and the record of a lane. -/
def postSource (k : Core) (f : EForm) (x : Nat) : Nat × Dword := ((k.source f f.a false x).toNat, k.source f f.b true x)

/-- The lanes post one after the other; each sets its predicate as it does. -/
def State.postLanes (s : State) (core : Nat) (f : EForm) (done : List Nat) : List Nat → PostEnd × List Nat × State
  | [] => (.all, done, s)
  | x :: r =>
    if !(s.core core).released x then (.undrained, done, s)
    else
      let q := postSource (s.core core) f x
      match s.postTo core x q.1 q.2 with
      | (some b, s) => (s.updCore core fun k => k.updThread x fun t => t.setPred f.d.code.toNat b).postLanes core f (insertNat x done) r
      | (none, s) => (.full, done, s)

def execEvpost (f : EForm) (s : State) : Out :=
  let i := Instr.evpost f
  match s.curGroup with
  | none => .next s
  | some g =>
    let k := s.cur
    if mustStall k g f.guard (touched (entryOf i) f) then .next s
    else
      let act := (byLane (activeSlots k g f.guard)).filter fun x => !g.doneAt.contains x
      let fs := act.filterMap fun x => match readOpnd (k.thread x) (k.row (rowOf x)) f f.b true with
        | .error c => some (⟨x, c, 0, 0⟩ : LaneFault)
        | .ok _ => none
      let r := s.parkFaults s.curCore g i fs
      match r.1.postLanes s.curCore f r.2.doneAt (act.filter r.2.members.contains) with
      | (.all, _, s) => .next (s.setCurGroup (r.2.past i false))
      | (.undrained, done, s) => .next (s.setCurGroup { r.2 with doneAt := done, blocked := true })
      | (.full, done, s) => .next (s.suspend { r.2 with doneAt := done } i)

/-! ## Resumption (R116) -/

/-- Whether a group suspended at a barrier instruction can go on: a poisoned group faults there (R451). -/
def State.barrierReady (s : State) (core : Nat) (g : Group) (f : EForm) (arrive : Bool) : Bool :=
  let grp := f.c.code.toNat
  s.poisoned? core g.row grp || match s.barView core g.row grp with
    | some v => if arrive then arriveNow (s.core core) v ≠ .again else waitOver v && g.members.all (s.core core).loadsDone
    | none => arrive || g.members.all (s.core core).loadsDone

/-- A suspended fence's condition holds of its active lanes. -/
def State.fenceReady (s : State) (core : Nat) (g : Group) (m : MForm) (ready : Core → Nat → Bool) : Bool :=
  (activeSlots (s.core core) g m.e.guard).all (ready (s.core core))

/-- A suspended fence.sys: drained, or, once it knows what it waits for, those lines are acknowledged. -/
def State.sysReady (s : State) (core : Nat) (g : Group) (m : MForm) : Bool :=
  match g.covers with
  | some lines => !s.farWrites.any fun w => lines.contains w.line
  | none => s.fenceReady core g m Core.released

/-- A suspended icinv: drained, or, once it has invalidated, the groups that had started have ended. -/
def State.icinvReady (s : State) (core : Nat) (g : Group) (f : EForm) : Bool :=
  match g.covers with
  | some ids => !ids.any s.allGroups.contains
  | none => (activeSlots (s.core core) g f.guard).all (s.core core).released

/-- The next thread of a suspended evpost finds room. -/
def State.postReady (s : State) (core : Nat) (g : Group) (f : EForm) : Bool :=
  let k := s.core core
  match (byLane (activeSlots k g f.guard)).filter fun x => !g.doneAt.contains x with
  | x :: _ => let q := postSource k f x; (s.postTo core x q.1 q.2).1.isSome
  | [] => true

/-- Whether what the instruction of a suspended group waits for has come. -/
def State.instrReady (s : State) (core : Nat) (g : Group) (i : Instr) : Bool :=
  match i with
  | .arrive f => s.barrierReady core g f true
  | .arwait f => s.barrierReady core g f (!g.arrived)
  | .await f | .awaitElect f => s.barrierReady core g f false
  | .fenceAcq m => s.fenceReady core g m Core.loadsDone
  | .fenceRel m | .fenceAr m => s.fenceReady core g m Core.released
  | .fenceSys m => s.sysReady core g m
  | .sign f => !signNew f || (((s.core core).crewAt (g.members.headD 0)).conv (convOf f)).pending.isNone
  | .evpost f => s.postReady core g f
  | .mxrel _ => !((s.core core).holder.map (s.core core).mxeBusy).getD false
  | .icinv f => s.icinvReady core g f
  | .mxwait _ | .tcwait _ | .swait _ => s.waitDone (waitEngine core i) core g.waits
  | i => match gEntry i with
    | some (f, e) =>
      !e.queued || !(s.signRows core i (activeSlots (s.core core) g f.guard) g.doneAt
        (rowsOf (activeSlots (s.core core) g f.guard))).2.2
    | none => s.roomNow core g i

/-- Whether what a suspended group waits for has come; a result that DET holds back among it (R254). -/
def State.groupReady (s : State) (core : Nat) (g : Group) : Bool :=
  match fetched g with
  | some i => !(s.core core).readsHeld g i && s.instrReady core g i
  | none => true

/-- A suspended group can go on, on its pipe (R116): its stream has no group, the other one runs another block, and its columns are free
there (R115, R117, R123). (DEDUCED, log 15) -/
def Core.pipeOpen (k : Core) (g : Group) : Bool :=
  (k.stream g.pipe).group.isNone && pipesFree (k.otherGroup g.pipe) g.key.chk &&
  (k.stream !g.pipe).block ≠ some (g.key.asid, g.header) && match k.otherGroup g.pipe with
    | some o => g.cols.all fun c => !o.cols.contains c
    | none => true

def execGroupResume (core : Nat) (group : Nat) (s : State) : Out :=
  let k := s.core core
  match k.suspended.find? fun g => g.id = group with
  | some g =>
    if !s.groupReady core g || !k.pipeOpen g then .next s
    else .next (s.setCore core
      ({ k with suspended := k.suspended.filter fun g => g.id ≠ group }.setGroup g.pipe (some { g with blocked := false })))
  | none => .next s

end Sys2Proof.Machine
end

