-- ==== Sys2Proof/Machine/Service.lean ====
section
/-!
DEFINITION. Fault service, the release of park sets, and destinations that do not answer (spec/06_core_control_system.md R147 to
R149; spec/10_memory_translation.md R229, R235, R236; spec/26_host_link.md R470).
-/
namespace Sys2Proof.Machine

/-! ## Containment triggers (R446) -/

/-- A gang can be contained from its commit on until it has completed. -/
def Gang.running (g : Gang) : Bool := g.phase = .committed || g.phase = .running || g.phase = .saved

/-- The gang can be killed and awaits no kill yet. -/
def State.killable (s : State) (lid gang : Nat) : Bool :=
  match (s.launches.find lid).bind fun l => l.gangs.find gang with
  | some g => g.running && !s.containing lid gang
  | none => false

/-- A TRIGGER arises for some gangs: those that can be killed have it, unless they have one already (R453), and where there is one the
core has raised it. -/
def State.befall (s : State) (gangs : List (Nat × Nat)) (t : TriggerReq) : State :=
  let hit := gangs.filter fun g => s.killable g.1 g.2
  if hit.isEmpty then s else (hit.foldl (fun s g => s.contained g.1 g.2 t) s).trip t

def State.trigger (s : State) (lid gang : Nat) (t : TriggerReq) : State := s.befall [(lid, gang)] t

/-! ## Release (R148, R149) -/

/-- A register that the fault service writes: within the allotment, p0 to p6, x0 to x3, LFSR. -/
def Thread.serviceWrite (t : Thread) (allot : Nat) (r : RegName) (w : Word) : Thread :=
  match r with
  | .v n => if n < allot then t.setReg n w else t
  | .p n => if n < 7 then t.setPred n (w ≠ 0) else t
  | .x n => if n < 4 then t.setIdx n w else t
  | .lfsr => { t with lfsr := lfsrStore w }

/-- The register writes of a release, to threads of its set. -/
def Core.serviceWrites (k : Core) (mask : List Nat) (l : List (Nat × RegName × Word)) : Core :=
  l.foldl (fun k e =>
    if mask.contains e.1 then k.updThread e.1 fun t => t.serviceWrite (k.row (rowOf e.1)).allot e.2.1 e.2.2 else k) k

/-- Threads retire one after the other; none while one of them cannot (R133). -/
def State.retireSlots (s : State) (core : Nat) : List Nat → Option State
  | [] => some s
  | x :: r => match s.retire core x with
    | some s => s.retireSlots core r
    | none => none

/-- A record is marked released. -/
def State.recordDone (s : State) (core pset : Nat) : State :=
  { s with faultQ := s.faultQ.filter fun r => !(r.core = core && r.pset = pset) }

/-- The gangs of some slots, each once. -/
def Core.gangsOf (k : Core) (slots : List Nat) : List (Nat × Nat) :=
  ((k.crewsOf slots).map fun b => ((k.crew b).lid, (k.crew b).gang)).eraseDups

/-- The release of a park set on its core; none while a thread that is to retire cannot. -/
def State.releaseSet (s : State) (r : ReleaseReq) (p : ParkSet) : Option State :=
  if r.action = 3 then
    some (((s.core r.core).gangsOf p.record.mask).foldl (fun s g => s.trigger g.1 g.2 ⟨5, 0, r.core, 0⟩) s)
  else
    let s := s.updCore r.core fun k => k.serviceWrites p.record.mask r.regs
    let go (redirect : Option Dword) : State :=
      (s.updCore r.core fun k => k.releaseSet s.cycle p redirect).recordDone r.core r.pset
    match r.action with
    | 0 => some (go none)
    | 1 => some (go (some r.header))
    | 2 =>
      let s := s.updCore r.core fun k => { k with psets := k.psets.filter fun e => e.pset ≠ p.pset }
      (s.retireSlots r.core p.record.mask).map fun s => s.recordDone r.core r.pset
    | _ => some s

/-- The gangs that hold threads of a park set in their save areas. -/
def State.savedIn (s : State) (core pset : Nat) : List (Nat × Nat) :=
  let holds (g : Gang) : Bool := g.saved.any fun x => x.core = core && x.psets.any fun p => p.pset = pset
  s.launches.flatMap fun l => (l.2.gangs.filter fun g => holds g.2).map fun g => (l.1, g.1)

/-- The saved part of a set: the release is kept for the resume (R149), containment excepted. -/
def State.deferRelease (s : State) (r : ReleaseReq) : State :=
  (s.savedIn r.core r.pset).foldl (fun s g =>
    if r.action = 3 then s.trigger g.1 g.2 ⟨5, 0, r.core, 0⟩
    else s.updGang g.1 g.2 fun g => { g with deferred := g.deferred ++ [r] }) s

/-- THE RETURN FROM A FAULT (R148). A release that names no parked set is ignored. Of a set with threads in several gangs those of a
saved one wait for its resume (R149). none while a thread that is to retire cannot. -/
def State.applyRelease (s : State) (r : ReleaseReq) : Option State :=
  match (s.core r.core).psets.find? fun p => p.pset = r.pset with
  | some p => (s.releaseSet r p).map fun s => s.deferRelease r
  | none => some (s.deferRelease r)

/-! ## The service of a page that is not present (R147, R225, R236, R321) -/

/-- The address of the level-4 entry of an address under a table. -/
def State.entryAddr (s : State) (va : Nat) : Nat → Nat → Nat → Option Nat
  | 0, _, _ => none
  | n + 1, level, table =>
    let a := table + 8 * (va / 2 ^ pageBits level % 1024)
    if level = 4 then some a
    else
      let e := s.tableWord a
      if e.testBit 0 && !e.testBit 1 then s.entryAddr va n (level + 1) (tableBase e) else none

/-- The leaf that Tsunath writes for an entry with VAL = 0: valid, local at a frame, with permissions of its choice. -/
def freshLeaf (key pa : Nat) : Nat :=
  3 + 4 * (Config.servicePerms (key / 2 ^ 16 * 2 ^ 16)).toNat + 32 * (keyTag key / globalTag) + pa / 2 ^ 16 * 2 ^ 16

/-- A frame of a page: aligned as the page is, in a module whose link has not failed (R479). -/
def State.frameOk (s : State) (level pa : Nat) : Bool :=
  pa % 2 ^ pageBits level = 0 && decide (pa < 2 ^ 43) && !s.boot.links.contains (sectorPart (pa / 32))

/-- The page of a byte is made present in a local frame at pa; none while it is being migrated, or where the frame does not suit it. No
cache keeps a leaf that is not present, so no maintenance command follows. (DESIGN CHOICE, log 49) -/
def State.makePresent (s : State) (key pa : Nat) : Option State :=
  if s.migrating.any fun m => rangeHas (migRange m.record) key then none
  else
    let part := homeOf (keyVa key)
    let s0 : State := { s with tlb := [], walks := [] }
    let s := s.countReads (s0.walkSectors part (keyTag key) (keyVa key))
    match (s0.walkAll part (keyTag key) (keyVa key)).1 with
    | .ok l =>
      if leafRes l.word ≠ 2 then some s
      else if s.frameOk l.level pa then
        some (s.writeTable l.addr (withBits (withBits (withBits l.word 13 12 0) 51 16 (pa / 2 ^ 16)) 11 11 0))
      else none
    | .error 0x08 =>
      if s.frameOk 4 pa then match (s.root (keyTag key)).bind (s.entryAddr (keyVa key) 4 1) with
        | some a => some (s.writeTable a (freshLeaf key pa))
        | none => some s
      else none
    | .error _ => some s

/-- Tsunath serves a park set: the page of its address is made present in a frame at pa, and the set is released with action 0.
A number from 2^16 on names a byte of State.absent, whose accesses park no thread. -/
def execFaultService (core pset : Nat) (pa : Nat) (s : State) : Out :=
  if pset < 2 ^ 16 then
    match (s.core core).psets.find? fun p => p.pset = pset with
    | some p => match p.service with
      | some a => match s.makePresent (byteKey p.record.asid a.toNat) pa with
        | some s => .next ((s.applyRelease ⟨core, pset, 0, 0, []⟩).getD s)
        | none => .next s
      | none => .next s
    | none =>
      let saved := s.launches.flatMap fun l => l.2.gangs.flatMap fun g => g.2.saved.flatMap fun x => if x.core = core then x.psets else []
      match saved.find? fun p => p.pset = pset with
      | some p => match p.service with
        | some a => match s.makePresent (byteKey p.record.asid a.toNat) pa with
          | some s => .next ((s.applyRelease ⟨core, pset, 0, 0, []⟩).getD s)
          | none => .next s
        | none => .next s
      | none => .next s
  else match s.absent[pset - 2 ^ 16]? with
    | some key => match s.makePresent key pa with
      | some s => .next { s with absent := s.absent.filter (· ≠ key) }
      | none => .next s
    | none => .next s

/-! ## A destination that does not answer (R470) -/

/-- Everything that waits for one far line learns that its target is out of reach (R229). -/
def State.loseRead (s : State) (r : FarRead) : State :=
  let s := r.waiters.foldl (fun s w =>
    match (s.core w.1).xlat.find? fun q => q.id = w.2 with
    | some q => s.endRequest w.1 q 0x0D
    | none => s) s
  let s := r.fetches.foldl (fun s f =>
    match ((s.core f.1).stream f.2).sel with
    | some q => s.parkSelection f.1 f.2 q 0x0D 2 none (s.peekCf f.1 q.key.asid q.header.toNat)
    | none => s) s
  let s := r.cmds.foldl (fun s c => s.farFault c.1.1 c.1.2 c.2.1 c.2.2) s
  if r.front then { s with lost := insertNat r.line s.lost } else s

/-- A dirty far line whose write-back cannot be delivered is discarded (R235): the line that was written back, not one that has been
filled from elsewhere since. -/
def State.loseWrite (s : State) (w : FarWrite) : State :=
  let part := homeOf (keyVa (w.line * lineBytes))
  let mine : Bool := match s.lines.find w.line with
    | some l => l.fill = .far w.index w.addr w.dest
    | none => false
  { s with lines := if mine then s.lines.erase w.line else s.lines,
           orphan := FMap.put 0 s.orphan part (FMap.get 0 s.orphan part + 1) }.post 0 fun n => .machineCheck none n .orphan 0 0

/-- The copy commands of a core, and those a kill has dropped, whose remote device is out of reach (R385, R448). -/
def State.loseRemote (s : State) (dest : Dest) : State :=
  let gone (x : EngineId × Cmd) : Bool := !(unreachableCopy dest x.2).unreachable || x.2.unreachable
  { s with cores := s.cores.mapVals fun _ k => { k with copy := { k.copy with queue := k.copy.queue.map (unreachableCopy dest) } },
           launches := s.launches.mapVals fun _ l =>
            { l with gangs := l.gangs.mapVals fun _ g => { g with draining := g.draining.filter gone } } }

/-- A copy command's remote writes to a device have been unanswered for 1 s. -/
def Cmd.unanswered (c : Cmd) (dest : Dest) (now : Nat) : Bool :=
  !c.unreachable && (unreachableCopy dest c).unreachable && decide (c.sentAt + cyclesPerSecond ≤ now)

/-- An operation to a destination has been unanswered for 1 s (R470). -/
def State.unanswered (s : State) (dest : Dest) : Bool :=
  (s.farReads.any fun r => r.dest = dest && decide (r.since + cyclesPerSecond ≤ s.cycle)) ||
  (s.farWrites.any fun w => w.dest = dest && decide (w.since + cyclesPerSecond ≤ s.cycle)) ||
  (s.cores.any fun k => k.2.copy.queue.any fun c => c.unanswered dest s.cycle) ||
  s.launches.any fun l => l.2.gangs.any fun g => g.2.draining.any fun x => x.2.unanswered dest s.cycle

/-- A destination unanswered for 1 s is declared unreachable. -/
def execDestinationUnreachable (dest : Dest) (s : State) : Out :=
  if !s.unanswered dest then .next s else
  let reads := s.farReads.filter fun r => r.dest = dest
  let writes := s.farWrites.filter fun w => w.dest = dest
  let s := { s with farReads := s.farReads.filter fun r => r.dest ≠ dest, farWrites := s.farWrites.filter fun w => w.dest ≠ dest }
  let s := reads.foldl State.loseRead s
  let s := writes.foldl State.loseWrite s
  .next (s.loseRemote dest)

end Sys2Proof.Machine
end

