-- ==== Sys2Proof/Machine/Binding.lean ====
section
/-!
DEFINITION. What a core holds of the crews bound on it, and how a crew leaves it (spec/24_launch_scheduling.md R433, R434, R438, R440;
spec/05_core_execution.md R95 to R101; R112, R212).
-/
namespace Sys2Proof.Machine

/-! ## What a core holds (R433, R434, R440) -/

/-- Reserved and live records hold rows, registers and scratchpad; saved ones hold nothing (R443). -/
def Bind.holds (b : Bind) : Bool := b.state = .reserved || b.state = .live

def noSpec : CrewSpec := ⟨0, 0, 0, 0⟩

/-- The crew-table entry of a bind record. -/
def State.specOf (s : State) (b : Bind) : CrewSpec :=
  match s.launches.find b.lid with
  | some l => (l.record.crews[b.crew]?).getD noSpec
  | none => noSpec

/-- Bytes of scratchpad that an allotment takes: a multiple of 2 KiB (R212). -/
def scratchSize (scr : Nat) : Nat := (scr + 2047) / 2048 * 2048

def Core.heldBinds (k : Core) : List Bind := (k.binds.filter fun e => e.2.holds).map (·.2)

def Core.heldRows (k : Core) : List Nat := k.heldBinds.flatMap (·.rows)

/-- Registers of each bank that a crew takes (R101, R434). -/
def CrewSpec.bankRegs (c : CrewSpec) : Nat := c.coh * c.regs

/-- Scratchpad ranges held: first byte and length. -/
def State.heldScratch (s : State) (k : Core) : List (Nat × Nat) := k.heldBinds.map fun b => (2048 * b.sbase, scratchSize (s.specOf b).scr)

/-- The range is free and lies in the scratchpad. -/
def State.scratchFree (s : State) (k : Core) (a n : Nat) : Bool :=
  a + n ≤ 2 ^ 20 && (s.heldScratch k).all fun h => n = 0 || h.2 = 0 || a + n ≤ h.1 || h.1 + h.2 ≤ a

/-- Launches with DET or TMD keep a core to themselves. -/
def Launch.exclusive (l : Launch) : Bool := l.record.det || l.record.tmd

/-- Whether a TMD launch that has not ended has used a core: no other launch is bound there, but a TMD launch of higher PRIO before
which its gang has been moved aside (R440). -/
def State.timedOn (s : State) (core lid : Nat) (l : Launch) : Bool :=
  s.launches.any fun e => e.1 ≠ lid && e.2.record.tmd && !e.2.done && !e.2.failed &&
    e.2.gangs.any fun g => g.2.phase ≠ .unplaced && !(g.2.phase = .saved && l.record.tmd && decide (e.2.record.prio < l.record.prio)) &&
      g.2.place.any fun p => p.core = core

/-- Whether a core may take a crew of a launch beside what it holds (R112, R434, R440). -/
def State.mayShare (s : State) (core lid : Nat) (l : Launch) : Bool :=
  let others := (s.core core).heldBinds.filter fun b => b.lid ≠ lid
  !s.timedOn core lid l &&
  (others.isEmpty || (!l.exclusive && others.all fun b => !((s.launches.find b.lid).map Launch.exclusive).getD false))

/-- A core meets the needs of a crew. -/
def State.coreFits (s : State) (core lid : Nat) (l : Launch) (c : CrewSpec) : Bool :=
  let k := s.core core
  let starts := 0 :: (s.heldScratch k).map fun h => h.1 + h.2
  s.mayShare core lid l && k.heldRows.length + c.coh ≤ 32 && c.bankRegs ≤ k.poolFree &&
  starts.any (fun a => s.scratchFree k a (scratchSize c.scr)) &&
  (List.range Config.binds).any fun b => (k.binds.find b).isNone

/-- Crew by crew, the core of the lowest position of a cluster that meets the needs (R434); none where some crew finds none. -/
def State.layCrews (s : State) (cluster lid : Nat) (l : Launch) : List CrewSpec → List Nat → Option (List Nat)
  | [], used => some used
  | c :: r, used =>
    match (List.range Config.coresPerCluster).find? fun p =>
        !used.contains (cluster * Config.coresPerCluster + p) && s.coreFits (cluster * Config.coresPerCluster + p) lid l c with
    | some p => s.layCrews cluster lid l r (used ++ [cluster * Config.coresPerCluster + p])
    | none => none

/-- Some cluster can take one more gang of the launch. -/
def State.canPlace (s : State) (lid : Nat) (l : Launch) : Bool :=
  (List.range Config.clusters).any fun q => (s.layCrews q lid l l.record.crews []).isSome

/-- The rows and the scratchpad range that Tsunath chose for a crew are free, the bind record too. -/
def State.spotOk (s : State) (p : PlaceReq) (c : CrewSpec) : Bool :=
  let k := s.core p.core
  p.rows.length = c.coh && (p.rows.foldr insertNat []).length = c.coh && p.rows.all (fun r => decide (r < 32) && !k.heldRows.contains r) &&
  s.scratchFree k (2048 * p.sbase) (scratchSize c.scr) && p.bind < Config.binds && (k.binds.find p.bind).isNone

/-- A place for a gang that follows R434, without the cores in a list. -/
def State.placeOk (s : State) (lid : Nat) (l : Launch) (place : List PlaceReq) (bar : List Nat := []) : Bool :=
  let cluster := clusterOf ((place.head?.map (·.core)).getD 0)
  cluster < Config.clusters && place.map (·.crew) = List.range l.record.crews.length &&
  s.layCrews cluster lid l l.record.crews bar = some (bar ++ place.map (·.core)) &&
  (place.zip l.record.crews).all (fun e => s.spotOk e.1 e.2) &&
  match place with
  | p :: r => r.all (fun q => q.gcr = p.gcr) && (s.gcrs.find p.gcr).isNone
  | [] => false

def Launch.phase (l : Launch) (gang : Nat) : GangPhase := ((l.gangs.find gang).map (·.phase)).getD .unplaced

def Launch.crossed (l : Launch) : Bool := l.record.groups.any fun g => g.valid && g.cross

/-! ## A crew leaves its core (R438, R442, R448) -/

/-- A word of an array lies outside a range of bytes. -/
def outside (a n w : Nat) : Bool := 4 * w + 4 ≤ a || a + n ≤ 4 * w

/-- A group without the threads of some slots; none when it has no thread left. -/
def Group.strip (g : Group) (mine : Nat → Bool) : Option Group :=
  let g' := { g with members := g.members.filter fun x => !mine x, doneAt := g.doneAt.filter fun x => !mine x,
                     verdicts := g.verdicts.filter (fun v => !mine v.1), waits := g.waits.filter fun w => !mine w.1 }
  if g'.members.isEmpty then none else some g'

def Stream.strip (x : Stream) (mine : Nat → Bool) : Stream :=
  { sel := match x.sel with
      | some q => let r := q.rest.filter fun x => !mine x; if r.isEmpty then none else some { q with rest := r }
      | none => none,
    group := x.group.bind fun g => g.strip mine }

def ParkSet.strip (p : ParkSet) (mine : Nat → Bool) : ParkSet :=
  { p with record := { p.record with mask := p.record.mask.filter fun x => !mine x } }

/-- Commands of a crew leave an engine. -/
def Engine.strip (e : Engine) (core crew : Nat) : Engine :=
  { queue := e.queue.filter fun c => !(c.core = core && c.crew = crew), ended := e.ended.filter fun c => !(c.core = core && c.crew = crew) }

/-- What a crew's threads do on their core ends: groups, selections, bins, park sets, claims, verdicts, loads, results and engine
commands of the crew are gone; no cohort waits for its lanes any more. (DEDUCED, logs 6, 47) -/
def Core.stopCrew (k : Core) (core b : Nat) : Core :=
  let mine (x : Nat) : Bool := k.crewOf x = b && (k.rows.find (rowOf x)).isSome
  { k with
    stream0 := k.stream0.strip mine
    stream1 := k.stream1.strip mine
    suspended := k.suspended.filterMap fun g => g.strip mine
    bins := (k.bins.map fun e => { e with members := e.members.filter (fun x => !mine x), held := e.held.filter (· ≠ b) }).filter
      fun e => !e.members.isEmpty
    psets := (k.psets.map fun p => p.strip mine).filter fun p => !p.record.mask.isEmpty
    claimQ := k.claimQ.filter fun q => !(k.crew b).rows.contains q.row
    xlat := k.xlat.filter fun q => !mine q.slot
    lq := k.lq.filter fun q => !mine q.slot
    results := k.results.filter fun r => !mine r.slot
    dab := k.dab.filter fun d => d.crew ≠ b
    rows := k.rows.mapVals fun _ r => r.joinForget (k.crewSlots b)
    mxe := k.mxe.strip core b
    copy := k.copy.strip core b }

/-- The crew's rows, registers and scratchpad are free, and its MXE reservation is released. -/
def Core.unbind (k : Core) (core b : Nat) : Core :=
  let rows := (k.crew b).rows
  let k := k.stopCrew core b
  { k with threads := k.threads.filter fun e => !rows.contains (rowOf e.1)
           rows := k.rows.filter fun e => !rows.contains e.1
           crews := k.crews.erase b
           holder := if k.holder = some b then none else k.holder }

/-- The crew leaves its core and its cluster's Starter queue. -/
def State.unbind (s : State) (core b : Nat) : State :=
  (s.updCore core fun k => k.unbind core b).updCluster (clusterOf core) fun q => { q with starter := q.starter.strip core b }

/-- No command of a crew is in a queue. -/
def State.enginesEmpty (s : State) (core b : Nat) : Bool :=
  [EngineId.mxe core, .copy core, .starter (clusterOf core)].all fun e =>
    (s.engine e).queue.all fun c => !(c.core = core && c.crew = b)

/-- Every lower-numbered crew of the launch has completed (R255), or never will (R450). -/
def Launch.lowerDone (l : Launch) (gang crew : Nat) : Bool :=
  l.gangs.all fun g => gang < g.1 || g.2.phase = .done ||
    (List.range l.record.crews.length).all fun c => (g.1 = gang && decide (crew ≤ c)) || g.2.crewsDone.contains c

/-- THE CREW HAS ENDED but for its buffers: every thread exited, every command taken Complete or Discard, and under DET no lower crew of
the launch left (R255, R438). -/
def State.crewOver (s : State) (core b : Nat) (c : Crew) (l : Launch) : Bool :=
  (((s.core core).crewSlots b).all fun x => ((s.core core).thread x).phase = .exited) && s.enginesEmpty core b &&
  (!c.det || l.lowerDone c.gang c.index)

/-- Store-buffer entries of a crew. -/
def Core.crewSob (k : Core) (b : Nat) : Bool := k.sob.any fun e => e.slots.any fun x => k.crewOf x = b

end Sys2Proof.Machine
end

