-- ==== Sys2Proof/Machine/Saved.lean ====
section
/-!
DEFINITION. The context of a pre-empted gang: what must end before it is saved, the save, and what restores it
(spec/24_launch_scheduling.md R442, R443; R40, R127, R149, R202, R275, R391, R413).
-/
namespace Sys2Proof.Machine

/-! ## The save (R442) -/

/-- Slots of a crew as a test. -/
def Core.ofCrew (k : Core) (b x : Nat) : Bool := k.crewOf x = b && (k.rows.find (rowOf x)).isSome

/-- A load-queue entry that no pre-emption waits for: it waits for a record (R202), or for what DET holds back (R254, R275). -/
def Core.longLoad (k : Core) (q : LqEntry) : Bool := k.detHeld q || waitsLong k q || heldByEvent k q

/-- The wait of an instruction at which a group is suspended ends within a bound: on draining, on loads, on room in the store
buffer. -/
def boundedWait (g : Group) (i : Instr) : Bool :=
  match i with
  | .fenceAcq _ | .fenceRel _ | .fenceAr _ | .st _ | .sts _ | .atom _ _ | .red _ _ => true
  | .fenceSys _ | .icinv _ => g.covers.isNone
  | _ => false

/-- A suspended group of the crew is to go on before a save (R127). -/
def Core.boundedGroup (k : Core) (g : Group) : Bool :=
  match fetched g with
  | some i => boundedWait g i && !k.readsHeld g i && !k.lq.any fun q => g.members.contains q.slot && k.longLoad q
  | none => false

/-- What R442 step 2 asks of a crew's threads: drained, no verdict outstanding (R275), no wait of bounded completion, and of their
results only evwait requests and what DET holds back outstanding (R127, R202). -/
def Core.quietCrew (k : Core) (b : Nat) : Bool :=
  let mine := k.ofCrew b
  k.sob.all (fun e => !e.slots.any mine) && k.xlat.all (fun q => !mine q.slot) && k.lq.all (fun q => !mine q.slot || k.longLoad q) &&
  k.results.all (fun r => !mine r.slot || r.value.isNone) && k.suspended.all fun g => !(g.members.any mine && k.boundedGroup g)

/-- A command that a save may take: queued, started, or between two pieces; nothing of it outstanding and no fault to report. -/
def savable (c : Cmd) : Bool :=
  c.phase ≠ .committed && c.work.todo.isEmpty && c.work.answered && c.outstanding = 0 && c.fault.isNone && !c.unreachable

/-- The commands of a crew in an engine. -/
def State.crewCmds (s : State) (e : EngineId) (core b : Nat) : List Cmd := (s.engine e).queue.filter fun c => c.core = core && c.crew = b

def coreEngines (core : Nat) : List EngineId := [.mxe core, .copy core, .starter (clusterOf core)]

/-- The crews of a gang with their cores and bind records. -/
def State.gangCrews (s : State) (lid gang : Nat) (g : Gang) : List (Nat × Nat) :=
  g.place.filterMap fun p =>
    match (s.core p.core).crews.find p.bind with
    | some c => if c.lid = lid && c.gang = gang then some (p.core, p.bind) else none
    | none => none

/-- A crew that has ended completes, and is not saved (R444). -/
def State.completes (s : State) (core b : Nat) : Bool :=
  let c := (s.core core).crew b
  match s.launches.find c.lid with
  | some l => s.crewOver core b c l
  | none => false

/-- Every crew of the gang can be saved. -/
def State.quietGang (s : State) (lid gang : Nat) (g : Gang) : Bool :=
  (s.gangCrews lid gang g).all fun e =>
    (s.core e.1).quietCrew e.2 && !s.completes e.1 e.2 && (coreEngines e.1).all fun q => (s.crewCmds q e.1 e.2).all savable

/-- An uncommitted command as it is saved: queued, its work to be done afresh, its progress kept (R40, R391, R413). -/
def Cmd.requeue (c : Cmd) : Cmd := { c with phase := .queued, work := {}, residue := false }

/-- Where a thread of a group resumes: the instruction the group stands at. -/
def Group.resumeOf (g : Group) (slot : Nat) (t : Thread) : Thread :=
  { t with phase := .waiting, next := if g.entering then g.key.addr else g.here, header := g.header, reform := false, yielding := false,
           resume := some { ring := g.ring, latches := t.bp, arrived := g.arrived, done := g.doneAt.contains slot } }

/-- A thread as it is saved: a member of a group resumes at its instruction; one of an entry keeps the entry's marks.
(DEDUCED, log 5) -/
def Core.saveThread (k : Core) (b slot : Nat) : Thread :=
  let t := k.thread slot
  match k.groups.find? fun g => g.members.contains slot with
  | some g => g.resumeOf slot t
  | none => match k.bins.find? fun e => e.members.contains slot with
    | some e => { t with reform := e.held.contains b, yielding := e.yielded }
    | none => if t.phase = .streaming then { t with phase := .waiting } else t

/-- The context of a crew (R442). A scalar of it waits for the lanes of the crew alone. (DEDUCED, log 6) -/
def State.saveCrew (s : State) (core b : Nat) : SavedCrew :=
  let k := s.core core
  let c := k.crew b
  let mine := k.ofCrew b
  let holds := k.holder = some b
  let eng (e : EngineId) : Engine :=
    { queue := (s.crewCmds e core b).map Cmd.requeue, ended := (s.engine e).ended.filter fun x => x.core = core && x.crew = b }
  { core := core, bind := b, crew := c,
    rows := (k.rows.filter fun e => c.rows.contains e.1).map fun e => (e.1, e.2.joinForget (k.threads.keys.filter fun x => !mine x)),
    threads := (k.threads.filter fun e => mine e.1).map fun e => (e.1, k.saveThread b e.1),
    binned := (k.bins.flatMap (·.members)).filter mine,
    scratch := k.scratch.slice c.sbase c.scr, badScratch := k.badScratch.filter fun w => !outside c.sbase c.scr w,
    holdsMxe := holds, acc := if holds then k.acc else [], badAcc := if holds then k.badAcc else [],
    colLfsr := if holds then k.colLfsr else [], claims := k.claimQ.filter fun q => c.rows.contains q.row,
    psets := (k.psets.map fun p => p.strip fun x => !mine x).filter fun p => !p.record.mask.isEmpty,
    mxe := eng (.mxe core), copy := eng (.copy core), starter := eng (.starter (clusterOf core)),
    dab := k.dab.filter fun d => d.crew = b, results := k.results.filter fun r => mine r.slot, lq := k.lq.filter fun q => mine q.slot }

/-- The crew's context is in its save area; its bind record is saved. -/
def State.saveAway (s : State) (core b : Nat) : State :=
  (s.unbind core b).updCore core fun k => { k with binds := k.binds.adjust b fun e => { e with state := .saved } }

/-- The gangs of a launch that go with a gang: all, where it has a CROSS group (R441). -/
def Launch.together (l : Launch) (gang : Nat) : List Nat := if l.crossed then l.gangs.keys else [gang]

/-- Cycles that a gang's watchdog has counted. -/
def Gang.elapsed (g : Gang) (now : Nat) : Nat := g.counted + (now - g.started)

/-! ## The restoration (R443) -/

/-- Commands of an engine with those of a saved crew. -/
def joined (a b : Engine) : Nat := a.queue.length + b.queue.length

/-- The room that a saved crew needs is free on its core. -/
def State.roomFor (s : State) (lid : Nat) (l : Launch) (x : SavedCrew) : Bool :=
  let k := s.core x.core
  s.mayShare x.core lid l && x.crew.rows.all (fun r => !k.heldRows.contains r) &&
  (x.rows.map fun r => r.2.allot).foldr (· + ·) 0 ≤ k.poolFree &&
  s.scratchFree k x.crew.sbase (scratchSize x.crew.scr) && (!x.holdsMxe || k.holder.isNone) &&
  joined k.copy x.copy ≤ Config.copyQueue && joined k.mxe x.mxe ≤ Config.mxeQueue &&
  joined (s.cluster (clusterOf x.core)).starter x.starter ≤ Config.starterQueue

/-- Commands appended anew at the tail: each with its place in the order of appends. -/
def renumber (n : Nat) (l : List Cmd) : List Cmd := l.zipIdx.map fun e => { e.1 with seq := n + e.2 }

def Engine.rejoin (e x : Engine) (queue : List Cmd) : Engine := { queue := e.queue ++ queue, ended := e.ended ++ x.ended }

/-- A saved park set comes back; part of it may be there still. -/
def joinSet (l : List ParkSet) (p : ParkSet) : List ParkSet :=
  if l.any fun q => q.pset = p.pset then
    l.map fun q => if q.pset = p.pset then { q with record := { q.record with mask := unionNat p.record.mask q.record.mask } } else q
  else l ++ [p]

/-- Saved threads in a phase are filed again, into entries as far as there are any: an entry that is free belongs to threads of other
crews in the spill bin before any of these (R110, R125). -/
def Core.refileSaved (k : Core) (now : Nat) (p : Phase) (mine slots : List Nat) : Core :=
  let others := k.threads.any fun e => !mine.contains e.1 && e.2.phase = .spilled
  let may (k : Core) : Bool := decide (k.bins.length < Config.bins) && !others
  slots.foldl (fun k x => if (k.thread x).phase = p then k.fileIn now x (may k) else k) k

/-- The context of a crew is restored where it was: threads of bin entries first, then those that stood at an instruction, then those
that were spilled; every bin age at 0; the core self-invalidates. (DEDUCED, log 59) -/
def State.restoreCrew (s : State) (x : SavedCrew) : State :=
  let n := s.ctr
  let c := x.copy.queue.length
  let back (k : Core) : Core :=
    { k with crews := k.crews.set x.bind x.crew
             rows := x.rows.foldl (fun m e => m.set e.1 e.2) k.rows
             threads := x.threads.foldl (fun m e => m.set e.1 e.2) k.threads
             scratch := FMap.putAll 0 (k.scratch.clear x.crew.sbase x.crew.scr) x.scratch
             badScratch := k.badScratch.filter (outside x.crew.sbase x.crew.scr) ++ x.badScratch
             holder := if x.holdsMxe then some x.bind else k.holder
             acc := if x.holdsMxe then x.acc else k.acc
             badAcc := if x.holdsMxe then x.badAcc else k.badAcc
             ledger := if x.holdsMxe then [] else k.ledger
             colLfsr := if x.holdsMxe then x.colLfsr else k.colLfsr
             claimQ := k.claimQ ++ x.claims
             psets := x.psets.foldl joinSet k.psets
             mxe := k.mxe.rejoin x.mxe x.mxe.queue
             copy := k.copy.rejoin x.copy (renumber n x.copy.queue)
             dab := k.dab ++ x.dab
             results := k.results ++ x.results
             lq := k.lq ++ x.lq
             binds := k.binds.adjust x.bind fun e => { e with state := .live } }
  let slots := x.threads.map (·.1)
  let file (k : Core) (p : Phase) (l : List Nat) : Core := k.refileSaved s.cycle p slots l
  let s := s.updCore x.core fun k =>
    file (file (file (back k) .waiting x.binned) .waiting (slots.filter fun y => !x.binned.contains y)) .spilled slots
  let s := s.updCluster (clusterOf x.core) fun q =>
    { q with starter := q.starter.rejoin x.starter (renumber (n + c) x.starter.queue) }
  { s with ctr := n + c + x.starter.queue.length }.selfInvalidate x.core

/-- The crews of a gang come back, each where its room is free. -/
def State.restoreCrews (s : State) (lid : Nat) (l : Launch) : List SavedCrew → Option State
  | [] => some s
  | x :: r => if s.roomFor lid l x then (s.restoreCrew x).restoreCrews lid l r else none

/-- Releases that arrived meanwhile are applied before the gang's first selection (R149): while a retirement that finds no room in an
engine queue cannot be applied, it stays deferred, and the gang forms no issue group (State.halting). -/
def State.applyDeferred (s : State) (lid gang : Nat) (l : List ReleaseReq) : State :=
  let r := l.foldl (fun (a : State × List ReleaseReq) q =>
    match a.1.applyRelease q with
    | some s => (s, a.2)
    | none => (a.1, a.2 ++ [q])) (s, [])
  r.1.updGang lid gang fun g => { g with deferred := r.2 }

/-- The saved gangs among some come back; none while one of them finds no room. -/
def State.resumeGangs (s : State) (lid : Nat) (l : Launch) : List Nat → Option State
  | [] => some s
  | n :: r => match l.gangs.find n with
    | some g =>
      if g.phase ≠ .saved then s.resumeGangs lid l r
      else match s.restoreCrews lid l g.saved with
        | some s =>
          let s := s.updGang lid n fun g => { g with phase := .running, saved := [], deferred := [], started := s.cycle, lastActive := s.cycle }
          (s.applyDeferred lid n g.deferred).resumeGangs lid l r
        | none => none
    | none => s.resumeGangs lid l r

/-- Every gang that comes back with a gang is saved (R441), and none has a trigger. -/
def State.allSaved (s : State) (lid : Nat) (l : Launch) (gang : Nat) : Bool :=
  (l.together gang).all fun n => !s.containing lid n && match l.gangs.find n with
    | some g => !(g.phase = .running || g.phase = .committed)
    | none => true

end Sys2Proof.Machine
end

