-- ==== Sys2Proof/Machine/Placement.lean ====
section
/-!
DEFINITION. Placement, the start point and completion of gangs (spec/24_launch_scheduling.md R433 to R440; spec/05_core_execution.md
R95 to R101; spec/08_core_crosslane_sync.md R190, R191; R112, R212, R255, R312).
-/
namespace Sys2Proof.Machine

/-! ## Choosing (R431, R436) -/

def State.isHead (s : State) (lid : Nat) (l : Launch) : Bool := (s.queue l.record.queue).head? = some lid

/-- Eligible launches, each at the head of its queue. -/
def State.eligibleHeads (s : State) : FMap Launch := s.launches.filter fun e => e.2.eligible && s.isHead e.1 e.2 && e.2.record.gangs ≠ 0

/-- THE ORDER OF R431: launch n, e, comes before launch m, l: by PRIO, then by queue, then by acceptance. -/
def Launch.before (n : Nat) (e : Launch) (m : Nat) (l : Launch) : Bool :=
  decide (l.record.prio < e.record.prio) || (e.record.prio = l.record.prio &&
    (decide (e.record.queue < l.record.queue) || (e.record.queue = l.record.queue && decide (n < m))))

/-- A gang of the launch is neither placed nor reserved. -/
def Launch.needs (l : Launch) : Bool := l.gangs.any fun g => g.2.phase = .unplaced

/-- What resuming a gang needs is free (R443). -/
def State.mayResume (s : State) (lid : Nat) (l : Launch) (gang : Nat) (g : Gang) : Bool :=
  g.phase = .saved && !l.suspended && s.allSaved lid l gang && (s.resumeGangs lid l (l.together gang)).isSome

/-- A gang of a launch that comes first can be resumed. -/
def State.savedBefore (s : State) (lid : Nat) (l : Launch) : Bool :=
  s.launches.any fun e => Launch.before e.1 e.2 lid l && e.2.gangs.any fun g => s.mayResume e.1 e.2 g.1 g.2

/-- The launch that Tsunath places next: the first of the eligible ones, unless a gang of an earlier one can be resumed. -/
def State.isChoice (s : State) (lid : Nat) (l : Launch) : Bool :=
  l.eligible && s.isHead lid l && (s.eligibleHeads.all fun e => !Launch.before e.1 e.2 lid l) && !s.savedBefore lid l

/-- No other launch has reservations. -/
def State.soleReserver (s : State) (lid : Nat) : Bool :=
  s.launches.all fun e => e.1 = lid || e.2.gangs.all fun g => g.2.phase ≠ .reserved

/-! ## The reads before a commit (R426, R435) -/

/-- What a gang's commit has read: the groups as they now stand, and each crew's initial values. -/
structure GangReads where
  groups : List GroupSpec := []
  inits : List (List Byte) := []
  deriving DecidableEq, Repr

/-- CINIT ranges of a launch, by crew. -/
def cinitRanges (r : LaunchRec) : List (Nat × Nat) := r.crews.map fun c => if c.cinit = 0 then (0, 0) else (c.cinit, 256 * c.coh)

/-- CINIT and the group table are read. -/
def State.readForGang (s : State) (r : LaunchRec) : Front × GangReads × State :=
  match s.readRanges r.asid (cinitRanges r) with
  | (.ok, bs, s) => match s.readGroups r with
    | (.ok, gs, true, s) => (.ok, ⟨gs, bs⟩, s)
    | (.ok, _, false, s) => (.fault, {}, s)
    | (q, _, _, s) => (q, {}, s)
  | (q, _, s) => (q, {}, s)

/-! ## The commit (R435) -/

/-- ROLE and the scalars of a logical cohort, out of its crew's records (R98, R423): s1 to s63; all zero where there are none. -/
def cohortInit (records : List Byte) (lci : Nat) : Word × FMap Word :=
  let w := numbersOf 4 64 (records.drop (256 * lci))
  (BitVec.ofNat 32 (w.headD 0), (w.tail.zipIdx.map fun e => (e.2 + 1, BitVec.ofNat 32 e.1)).foldl (fun m e => FMap.put 0 m e.1 e.2) [])

/-- The rounding state at commit (R99). -/
def lfsrStart (seed tid : Nat) : Word := lfsrStore (BitVec.ofNat 32 seed ^^^ BitVec.ofNat 32 tid)

/-- One crew is bound: rows with their cohorts, threads with the values of R99, the scratchpad zero-filled, the record live. -/
def State.bindCrew (s : State) (lid gang : Nat) (r : LaunchRec) (groups : List GroupSpec) (p : PlaceReq) (c : CrewSpec)
    (records : List Byte) : State :=
  let crew : Crew :=
    { lid := lid, gang := gang, index := p.crew, asid := BitVec.ofNat 16 r.asid, det := r.det, chk := r.chk,
      codeBase := BitVec.ofNat 64 (codeBaseOf r.entry), seed := BitVec.ofNat 32 r.seed, heaps := BitVec.ofNat 64 r.heaps,
      rows := p.rows, sbase := 2048 * p.sbase, scr := c.scr }
  let row (k : Core) (e : Nat × Nat) : Core :=
    let n := cohortNo gang p.crew e.2
    let init := cohortInit records e.2
    let rec_ : Row :=
      { crew := p.bind, lci := e.2, role := init.1, s := init.2, allot := c.regs,
        groups := (groupsNaming groups n).map fun g => ⟨g, none, none⟩ }
    let k := { k with rows := k.rows.set e.1 rec_ }
    (List.range 32).foldl (fun k j => k.setThread (32 * e.1 + j) { lfsr := lfsrStart r.seed (32 * n + j) }) k
  s.updCore p.core fun k =>
    let alone := k.crews.all fun e => e.2.lid = lid
    let k := { k with crews := k.crews.set p.bind crew, scratch := k.scratch.clear (2048 * p.sbase) c.scr,
                      badScratch := k.badScratch.filter (outside (2048 * p.sbase) c.scr),
                      binds := k.binds.set p.bind ⟨.live, p.crew, gang, lid, p.rows, p.sbase, p.gcr, 0⟩ }
    let k := if alone then { k with selPol := BitVec.ofNat 2 r.pol, selAge := ageStore (BitVec.ofNat 32 r.age) } else k
    p.rows.zipIdx.foldl row k

/-- The barriers that a gang's commit makes (R190): its instances of REP groups, the groups that lie in it, and, at the first
commit, the CROSS groups. -/
def State.makeBars (s : State) (lid gang : Nat) (groups : List GroupSpec) : State :=
  let mk (g : Nat) (inst : Option Nat) (mask : List Nat) : Barrier :=
    { id := ⟨lid, g, inst⟩, gen := 0, mask := mask, commitMask := mask, arrived := [], leaves := [], joins := [], level := s.levelOf lid mask,
      poisoned := false, merged := [], drained := [] }
  let one (e : GroupSpec × Nat) : List Barrier :=
    if !e.1.valid then []
    else if e.1.rep then [mk e.2 (some gang) (e.1.members.map (256 * gang + ·))]
    else if e.1.cross then (if s.bars.any fun b => b.id = ⟨lid, e.2, none⟩ then [] else [mk e.2 none e.1.members])
    else if e.1.members.all fun n => n / 256 = gang then [mk e.2 (some gang) e.1.members] else []
  let fresh := groups.zipIdx.flatMap one
  { s with bars := (s.bars.filter fun b => fresh.all fun f => f.id ≠ b.id) ++ fresh }

/-- THE COMMIT of a gang: the commit record, the bind records live, its barriers. The gang of a suspended launch goes no further than
its start point (R441, R444). -/
def State.commitGang (s : State) (lid gang : Nat) (l : Launch) (q : GangReads) (place : List PlaceReq) : State :=
  let gcr := (place.head?.map (·.gcr)).getD 0
  let s := { s with gcrs := s.gcrs.set gcr (lid, gang) }
  let s := (place.zip (l.record.crews.zip q.inits)).foldl (fun s e => s.bindCrew lid gang l.record q.groups e.1 e.2.1 e.2.2) s
  let s := s.updGang lid gang fun g =>
    { g with phase := .committed, halting := l.suspended, place := place, crewsDone := [], committed := s.ctr, counted := 0 }
  (s.bump).makeBars lid gang q.groups

/-- The launch leaves the head of its queue when its last gang has committed (R431). -/
def State.leaveQueue (s : State) (lid : Nat) : State :=
  match s.launches.find lid with
  | some l => if l.gangs.all fun g => g.2.phase ≠ .unplaced && g.2.phase ≠ .reserved then (s.dequeue lid).poll else s
  | none => s

/-! ## PLACEMENT, ABANDON (R435 to R437) -/

/-- Step 1: CINIT and the groups can be read, and every bind record of the gang is reserved. -/
def State.reserveGang (s : State) (lid gang : Nat) (l : Launch) (place : List PlaceReq) : State :=
  if l.phase gang ≠ .unplaced || !s.isChoice lid l || !s.soleReserver lid || !s.placeOk lid l place ||
      !(l.gangs.all fun g => gang ≤ g.1 || g.2.phase ≠ .unplaced) ||
      (!l.crossed && l.gangs.any fun g => g.2.phase = .reserved) then s
  else match s.readForGang l.record with
    | (.wait, _, s) => s
    | (.fault, _, s) => s.failLaunch lid
    | (.ok, _, s) =>
      let bind (s : State) (e : PlaceReq × CrewSpec) : State :=
        let p := e.1
        s.updCore p.core fun k => { k with binds := k.binds.set p.bind ⟨.reserved, p.crew, gang, lid, p.rows, p.sbase, p.gcr, e.2.bankRegs⟩ }
      ((place.zip l.record.crews).foldl bind s).updGang lid gang fun g => { g with phase := .reserved, place := place }

/-- Steps 2 and 3, gangs in ascending index; a launch with a CROSS group has reserved every gang first. While snapshots are not taken,
their next piece is. -/
def State.commitReserved (s : State) (lid gang : Nat) (l : Launch) : State :=
  match l.gangs.find gang with
  | some g =>
    if g.phase ≠ .reserved || !(l.gangs.all fun h => gang ≤ h.1 || (h.2.phase ≠ .unplaced && h.2.phase ≠ .reserved)) ||
        (l.crossed && l.gangs.any fun h => h.2.phase = .unplaced) then s
    else if !l.snapped then s.snapStep lid
    else match s.readForGang l.record with
      | (.wait, _, s) => s
      | (.fault, _, s) => s.failLaunch lid
      | (.ok, q, s) => (s.commitGang lid gang l q g.place).leaveQueue lid
  | none => s

def execPlacement (lid : Nat) (gang : Nat) (place : List PlaceReq) (commit : Bool) (s : State) : Out :=
  match s.launches.find lid with
  | some l => .next (if l.failed || l.done then s else if commit then s.commitReserved lid gang l else s.reserveGang lid gang l place)
  | none => .next s

/-- Whether a placement may be abandoned: it has reservations, and of a launch placed whole no commit. -/
def Launch.abandonable (l : Launch) : Bool :=
  l.gangs.any (fun g => g.2.phase = .reserved) &&
  (!l.crossed || l.gangs.all fun g => g.2.phase = .reserved || g.2.phase = .unplaced)

/-- The reservations of a launch are set free. -/
def State.abandon (s : State) (lid : Nat) (l : Launch) : State :=
  let held := l.gangs.filter fun g => g.2.phase = .reserved
  let back (g : Gang) : Gang := if g.phase = .reserved then { g with phase := .unplaced, place := [] } else g
  (held.foldl (fun s g => s.freeBinds lid g.1 g.2.place) s).updLaunch lid fun l => { l with gangs := l.gangs.mapVals fun _ g => back g }

/-- For an eligible launch of strictly higher PRIO only. -/
def execAbandon (lid : Nat) (s : State) : Out :=
  match s.launches.find lid with
  | some l => .next (if l.abandonable && s.eligibleHeads.any (fun e => l.record.prio < e.2.record.prio) then s.abandon lid l else s)
  | none => .next s

/-! ## CrewStart, CrewDone (R438) -/

/-- Slots of the crews of a gang that are bound on a core. -/
def Core.gangSlots (k : Core) (lid gang : Nat) : List Nat :=
  (k.crews.filter fun e => e.2.lid = lid && e.2.gang = gang).flatMap fun e => e.2.rows.flatMap rowSlots

/-- The start point: the cores self-invalidate, then every thread is filed at the entry address. A gang that awaits its kill starts no
thread (R453). -/
def execCrewStart (lid gang : Nat) (s : State) : Out :=
  match s.launches.find lid with
  | some l => match l.gangs.find gang with
    | some g =>
      if g.phase ≠ .committed || s.containing lid gang then .next s
      else
        let cores := g.place.map (·.core)
        let s := cores.foldl State.selfInvalidate s
        let entry : Dword := BitVec.ofNat 64 l.record.entry
        let file (k : Core) (x : Nat) : Core := (k.aim x entry entry none false false).fileThread s.cycle x
        let s := cores.foldl (fun s c => s.updCore c fun k => (k.gangSlots lid gang).foldl file k) s
        .next (s.updGang lid gang fun g => { g with phase := .running, started := s.cycle, lastActive := s.cycle })
    | none => .next s
  | none => .next s

/-- The crew's completion in the launch: the steps for its bit, the count the first time, and DONE with the last are to come. -/
def State.countCrew (s : State) (lid : Nat) (l : Launch) (gang crew : Nat) : State :=
  let first := !l.counted.contains (gang, crew)
  let count := if first then l.count + 1 else l.count
  let s := s.updLaunch lid fun l => { l with count := count, counted := if first then l.counted ++ [(gang, crew)] else l.counted }
  let s := s.updGang lid gang fun g =>
    let d := insertNat crew g.crewsDone
    let all := d.length = l.record.crews.length
    { g with crewsDone := d, phase := if all then .done else g.phase, halting := g.halting && !all }
  let last := first && count = l.record.gangs * l.record.crews.length && !l.failed
  s.queueBlock lid ([.crew gang crew] ++ (if first then [.count] else []) ++ if last then [.done] else [])

/-- The crew's last step: under DET its buffers merge and drain first (R255); then it is freed and counted. (DEDUCED, log 60) -/
def execCrewDone (core crew : Nat) (s : State) : Out :=
  let k := s.core core
  match k.crews.find crew with
  | none => .next s
  | some c => match s.launches.find c.lid with
    | none => .next s
    | some l =>
      if l.phase c.gang ≠ .running || s.containing c.lid c.gang || !s.crewOver core crew c l then .next s
      else if !c.dsb.isEmpty then .next (s.merge core crew fun _ => true)
      else if k.crewSob crew then .next s
      else if k.dab.any fun d => d.crew = crew then .next (s.drain core crew fun _ => true)
      else .next (((s.unbind core crew).updCore core fun k => { k with binds := k.binds.erase crew }).countCrew c.lid l c.gang c.index)

/-! ## Time bounds (R439) -/

/-- The core of a gang's crew 0. -/
def Gang.firstCore (g : Gang) : Nat := (g.place.head?.map (·.core)).getD 0

def execWatchdogExpiry (lid gang : Nat) (s : State) : Out :=
  match s.launches.find lid with
  | some l => match l.gangs.find gang with
    | some g =>
      if g.phase = .running && l.record.bound ≠ 0 && l.record.bound ≤ g.elapsed s.cycle && !s.containing lid gang then
        .next (s.trigger lid gang ⟨4, 0, g.firstCore, 0⟩)
      else .next s
    | none => .next s
  | none => .next s

/-- A command of the gang has started. -/
def State.gangWorks (s : State) (lid gang : Nat) (g : Gang) : Bool :=
  g.place.any fun p => [EngineId.mxe p.core, .copy p.core, .starter (clusterOf p.core)].any fun e =>
    (s.engine e).queue.any fun c =>
      let cr := (s.core c.core).crew c.crew
      c.phase ≠ .queued && cr.lid = lid && cr.gang = gang

def execStallNotice (lid gang : Nat) (s : State) : Out :=
  match s.launches.find lid with
  | some l => match l.gangs.find gang with
    | some g =>
      if g.phase = .running && l.record.bound = 0 && g.lastActive + cyclesPerSecond ≤ s.cycle && !s.gangWorks lid gang g then
        .next ((s.updGang lid gang fun g => { g with lastActive := s.cycle }).post 0 fun n => .machineCheck none n .stall lid gang)
      else .next s
    | none => .next s
  | none => .next s

end Sys2Proof.Machine
end

