-- ==== Sys2Proof/Machine/Gangs.lean ====
section
/-!
DEFINITION. Pre-emption, resumption, the kill and the relaunch of gangs (spec/24_launch_scheduling.md R441 to R444;
spec/25_containment.md R446 to R453; R40, R127, R149, R202, R391, R413).
-/
namespace Sys2Proof.Machine

/-! ## PREEMPTION (R441, R442) -/

/-- What frees room without any further pre-emption: gangs already asked to stop are saved, reservations that may be abandoned are
abandoned (R437, R441). -/
def State.foreseen (s : State) (prio : Nat) : State :=
  let halts (s : State) (e : Nat × Launch) : State := e.2.gangs.foldl (fun s g =>
    if g.2.halting && (g.2.phase = .committed || g.2.phase = .running) then
      ((s.gangCrews e.1 g.1 g.2).foldl (fun s c => s.saveAway c.1 c.2) s).updGang e.1 g.1 fun g => { g with phase := .saved }
    else s) s
  let drops (s : State) (e : Nat × Launch) : State :=
    if e.2.abandonable && decide (e.2.record.prio < prio) then s.abandon e.1 e.2 else s
  s.launches.foldl drops (s.launches.foldl halts s)

/-- An eligible launch moves gangs of another aside: it is of strictly higher PRIO, and TMD yields to TMD only (R440, R441). -/
def Launch.yieldsTo (l e : Launch) : Bool := decide (l.record.prio < e.record.prio) && (!l.record.tmd || e.record.tmd)

/-- A gang that pre-emption may take. -/
def Gang.takeable (g : Gang) : Bool := (g.phase = .running || g.phase = .committed) && !g.halting

/-- A launch with a gang yet to be placed, which can be placed in no other way, has the gang moved aside: of those that yield to it the
one of lowest PRIO, the latest committed of several (R441, R445). -/
def State.mayPreempt (s : State) (l : Launch) (g : Gang) : Bool :=
  let first (e : Launch) : Bool := s.launches.all fun q => q.2.gangs.all fun h =>
    !h.2.takeable || !q.2.yieldsTo e || decide (l.record.prio < q.2.record.prio) ||
      (l.record.prio = q.2.record.prio && decide (h.2.committed ≤ g.committed))
  s.eligibleHeads.any fun e => e.2.needs && l.yieldsTo e.2 && first e.2 && !(s.foreseen e.2.record.prio).canPlace e.1 e.2

/-- THE REQUEST: the gang, with the others that go with it, forms no issue group from here on (R442 step 1). -/
def State.halt (s : State) (lid gang : Nat) (l : Launch) : State :=
  (l.together gang).foldl (fun s n => s.updGang lid n fun g => { g with halting := g.halting || g.takeable }) s

/-- THE HOST'S REQUEST for a launch is one for all its gangs (R441). -/
def State.suspendLaunch (s : State) (lid : Nat) : State :=
  s.updLaunch lid fun l => { l with suspended := true, gangs := l.gangs.mapVals fun _ g => { g with halting := g.halting || g.takeable } }

/-- THE SAVE of a gang (R442 step 3). -/
def State.saveGang (s : State) (lid gang : Nat) (g : Gang) : State :=
  let crews := s.gangCrews lid gang g
  let saved := crews.map fun e => s.saveCrew e.1 e.2
  let s := crews.foldl (fun s e => s.saveAway e.1 e.2) s
  { s.updGang lid gang (fun g => { g with phase := .saved, halting := false, saved := saved, counted := g.elapsed s.cycle }) with
    idleSince := s.cycle }

/-- PRE-EMPTION: first the request, then, once the pending work of the gang is done, the save. (DEDUCED, log 5) -/
def execPreemption (lid gang : Nat) (s : State) : Out :=
  match s.launches.find lid with
  | some l => match l.gangs.find gang with
    | some g =>
      if s.containing lid gang then .next s
      else if g.halting then .next (if g.phase = .running && s.quietGang lid gang g then s.saveGang lid gang g else s)
      else if g.takeable && (l.suspended || s.mayPreempt l g) then .next (s.halt lid gang l)
      else .next s
    | none => .next s
  | none => .next s

/-! ## GANG_RESUME (R443) -/

/-- A launch is first in the order of R431: no gang of an earlier one can be resumed, and no earlier one that is eligible can be
placed. -/
def State.resumeTurn (s : State) (lid : Nat) (l : Launch) : Bool :=
  !s.savedBefore lid l && s.eligibleHeads.all fun e => !Launch.before e.1 e.2 lid l || !(e.2.needs && s.canPlace e.1 e.2)

/-- RESUMPTION, in the order of R431, to C0 (R480); what was kept at an earlier one is applied. -/
def execGangResume (lid gang : Nat) (s : State) : Out :=
  match s.launches.find lid with
  | some l => match l.gangs.find gang with
    | some g =>
      if g.phase = .running && !g.deferred.isEmpty then .next (s.applyDeferred lid gang g.deferred)
      else if g.phase ≠ .saved || l.suspended || !s.allSaved lid l gang || !s.resumeTurn lid l then .next s
      else match s.resumeGangs lid l (l.together gang) with
        | some s => .next s.wake
        | none => .next s
    | none => .next s
  | none => .next s

/-! ## GANG_KILL (R448, R451, R453) -/

/-- Barriers of the gang alone go back to their commit state; the launch's CROSS groups with a member in it are poisoned (R451). -/
def Barrier.contained (b : Barrier) (lid gang : Nat) : Barrier :=
  if b.id.lid ≠ lid then b
  else if b.id.gang = some gang then
    { b with gen := 0, mask := b.commitMask, arrived := [], leaves := [], joins := [], merged := [], drained := [], arrivedAt := [], upto := [],
             exited := [] }
  else if b.id.gang = none && b.commitMask.any (fun n => n / 256 = gang) then { b with poisoned := true }
  else b

/-- STEP 1: groups poisoned; the gang forms no issue group. -/
def State.killStop (s : State) (lid gang : Nat) : State :=
  ({ s with bars := s.bars.map fun (b : Barrier) => b.contained lid gang }).updGang lid gang fun g =>
    { g with phase := .stopping, halting := false, saved := [], deferred := [] }

/-- The state of a crew at commit (R451): its threads are gone. -/
def Crew.cleared (c : Crew) : Crew :=
  { c with gd := [], cv := [], om := [], evq := [], evReqs := [], held := [], satf := false, dsb := [] }

/-- Unsent entries of a crew leave the store buffer; those that its threads share lose the crew's part. -/
def Core.dropUnsent (k : Core) (b : Nat) : Core :=
  let cut (e : SobEntry) : SobEntry := if e.sent then e else { e with slots := e.slots.filter fun x => !k.ofCrew b x }
  { k with sob := (k.sob.map cut).filter fun e => !e.slots.isEmpty }

/-- A committed matrix command runs on to its end: the bytes that it has yet to write are written (R307). -/
def State.finishCmds (s : State) (core b : Nat) : State :=
  ((s.crewCmds (.mxe core) core b).filter fun c => c.standing && !c.work.todo.isEmpty).foldl
    (fun s c => s.flush (.mxe core) c fun _ => true) s

/-- Messages of a killed crew that may be under way: writes of its commands, read requests of its loads and of its commands. -/
structure Afoot where
  draining : List (EngineId × Cmd) := []
  loads : List (Nat × Nat) := []
  readers : List (EngineId × Nat) := []
  deriving DecidableEq, Repr

def State.afoot (s : State) (core b : Nat) : Afoot :=
  let k := s.core core
  let cmds := (coreEngines core).flatMap fun e => (s.crewCmds e core b).map fun c => (e, c)
  { draining := cmds.filter fun x => x.2.outstanding ≠ 0
    loads := (k.lq.filter fun q => k.ofCrew b q.slot).map fun q => (core, q.id)
    readers := (cmds.filter fun x => !x.2.work.answered).map fun x => (x.1, x.2.id) }

def Gang.awaits (g : Gang) (a : Afoot) : Gang :=
  { g with draining := g.draining ++ a.draining, loads := g.loads ++ a.loads, readers := g.readers ++ a.readers }

/-- STEP 2 for one crew: nothing further of it is written. -/
def State.killCrew (s : State) (lid gang core b : Nat) : State :=
  let s := s.finishCmds core b
  let end_ (k : Core) (x : Nat) : Core := k.updThread x fun t => { t with phase := .exited, pend := [], bp := [], resume := none, signed := [] }
  let s := s.updGang lid gang fun g => g.awaits (s.afoot core b)
  let s := s.updCore core fun k =>
    let k := (k.dropUnsent b).stopCrew core b
    (k.crewSlots b).foldl end_ (k.updCrew b Crew.cleared)
  s.updCluster (clusterOf core) fun q => { q with starter := q.starter.strip core b }

/-- STEP 2: the unwritten state of the gang is discarded. -/
def State.killDiscard (s : State) (lid gang : Nat) (g : Gang) : State :=
  ((s.gangCrews lid gang g).foldl (fun s e => s.killCrew lid gang e.1 e.2) s).updGang lid gang fun g => { g with phase := .killing }

/-- The message asks memory, or answers, for one of these loads or commands. -/
def Msg.reads (m : Msg) (g : Gang) : Bool :=
  match m with
  | .readReq core load cmd _ _ | .readResp core load cmd _ _ _ _ _ _ _ =>
    match cmd with
    | some c => g.readers.contains c
    | none => g.loads.contains (core, load)
  | _ => false

/-- STEP 3: every message sent by or for the gang has been delivered and acknowledged. -/
def State.killQuiet (s : State) (lid gang : Nat) (g : Gang) : Bool :=
  g.draining.isEmpty && ((s.gangCrews lid gang g).all fun e => !(s.core e.1).crewSob e.2) && s.lanes.all fun l => l.msgs.all fun m => !m.reads g

/-- The gang is launched again after its kill (R449). -/
def Launch.again (l : Launch) (g : Gang) : Bool := l.record.rst && decide (g.attempt < Config.relaunches) && !l.failed

/-- The bind records of a gang that are live stay reserved for its relaunch; a saved one holds nothing that could be kept.
(DEDUCED, log 48) -/
def State.holdBinds (s : State) (lid gang : Nat) (place : List PlaceReq) : State :=
  let hold (e : Bind) : Bind := if e.isOf lid gang && e.state = .live then { e with state := .reserved, regs := (s.specOf e).bankRegs } else e
  place.foldl (fun s p => s.updCore p.core fun k => { k with binds := k.binds.adjust p.bind hold }) s

/-- STEP 4: MXE reservations, rows, registers and scratchpad are free; the bind records stay for the relaunch. -/
def State.killFree (s : State) (lid gang : Nat) (l : Launch) (g : Gang) : State :=
  let s := (s.gangCrews lid gang g).foldl (fun s e => s.unbind e.1 e.2) s
  (if l.again g then s.holdBinds lid gang g.place else s).updGang lid gang fun g => { g with phase := .freed, loads := [], readers := [] }

/-- The 64 bytes of a containment record (R447). -/
def containRecord (again : Bool) (attempt asid : Nat) (t : Containment) : BitVec 512 :=
  let q := t.trigger
  BitVec.ofNat 512 (packFields [(0, q.trig % 2 ^ 8), (8, if q.trig = 2 then q.detail % 2 ^ 8 else 0), (16, q.core % 2 ^ 8), (24, again.toNat),
    (32, t.gang % 2 ^ 16), (48, attempt % 2 ^ 4), (64, t.lid % 2 ^ 32), (96, asid % 2 ^ 16), (128, if q.trig = 2 then q.addr.toNat else 0),
    (192, t.time % 2 ^ 64)])

/-- STEP 5: the record is posted. A gang that is not launched again ends its launch (R450). -/
def State.killEnd (s : State) (lid gang : Nat) (l : Launch) (g : Gang) (t : Containment) : State :=
  let again := l.again g
  let s : State := { s with contain := s.contain.filter (fun c => !(c.lid = lid && c.gang = gang)), idleSince := s.cycle }
  let s := s.post 0 fun n => .containment n (containRecord again g.attempt l.record.asid t)
  let none_ := l.record.resets.isEmpty && (snapPiece l.record.snaps 0 0).isNone
  if again then s.updGang lid gang fun g => { g with phase := .killed, attempt := g.attempt + 1, crewsDone := [], restoreAt := 0, restored := none_ }
  else ((s.freeBinds lid gang g.place).updGang lid gang fun g => { g with phase := .done }).failLaunch lid

/-- THE KILL of a gang that trigger t befell, step by step. (DEDUCED, log 48) -/
def execGangKill (lid gang : Nat) (t : TriggerReq) (s : State) : Out :=
  match s.launches.find lid with
  | some l => match l.gangs.find gang with
    | some g =>
      match s.contain.find? fun c => c.lid = lid && c.gang = gang && c.trigger = t with
      | some c => match g.phase with
        | .committed | .running | .saved => .next (s.killStop lid gang)
        | .stopping => .next (s.killDiscard lid gang g)
        | .killing => .next (if s.killQuiet lid gang g then s.killFree lid gang l g else s)
        | .freed => .next (s.killEnd lid gang l g c)
        | .unplaced | .reserved | .killed | .done => .next { s with contain := s.contain.filter fun c => !(c.lid = lid && c.gang = gang) }
      | none => .next s
    | none => .next s
  | none => .next s

/-- A kill under way begins anew (R453, R455). -/
def State.killAgain (s : State) (lid gang : Nat) (g : Gang) : State :=
  match g.phase with
  | .stopping | .killing | .freed => s.killStop lid gang
  | _ => s

/-! ## RELAUNCH (R449) -/

/-- Step 1 for one entry: both halves of a reset word. One that cannot be written, or whose sector has an error, is left out. false
while its line is not there. (DESIGN CHOICE, log 45) -/
def State.resetWord (s : State) (asid : Nat) (e : Nat × Nat) : Bool × State :=
  let w := byteKey asid e.1 / 4
  if !inSpace e.1 8 then (true, s)
  else match s.frontAt (4 * w) 1 with
    | (.wait, s) => (false, s)
    | (.fault, s) => (true, s)
    | (.ok, s) =>
      if s.badWord w then (true, s.countTaint w (s.taint w))
      else (true, (s.register none w 15 (BitVec.ofNat 32 e.2)).register none (w + 1) 15 (BitVec.ofNat 32 (e.2 / 2 ^ 32)))

/-- So many reset words and pieces of snapshots are restored. -/
def State.restoredTo (s : State) (lid gang : Nat) (r : LaunchRec) (n : Nat) : State :=
  s.updGang lid gang fun g =>
    { g with restoreAt := n, restored := r.resets.length ≤ n && (snapPiece r.snaps 0 (n - r.resets.length)).isNone }

/-- THE NEXT STEP OF THE RESTORATION: a reset word, or after them a piece of a snapshot, in table order. -/
def State.restoreStep (s : State) (lid gang : Nat) : State :=
  match s.launches.find lid with
  | some l => match l.gangs.find gang with
    | some g =>
      let r := l.record
      if g.phase ≠ .killed || g.restored then s
      else match r.resets[g.restoreAt]? with
        | some e => match s.resetWord r.asid e with
          | (false, s) => s
          | (true, s) => s.restoredTo lid gang r (g.restoreAt + 1)
        | none => match s.copyPiece r.asid true r.snaps (g.restoreAt - r.resets.length) with
          | (none, s) => s
          | (some n, s) => s.restoredTo lid gang r (r.resets.length + n)
    | none => s
  | none => s

/-- Cores that have raised TRIG 1, 3 or 6 twice. -/
def State.tripped (s : State) : List Nat := (s.trips.filter fun e => 2 ≤ e.2).map (·.1)

/-- A place for the relaunch, with what the gang holds of its old one freed: the old one, if what it needs is free there; another,
without the cores that have tripped, where one of the old place has, or something of the old place is not free.
(DESIGN CHOICE, log 51) -/
def State.relaunchPlace (s : State) (lid gang : Nat) (l : Launch) (g : Gang) (place : List PlaceReq) : Option State :=
  let t := s.freeBinds lid gang g.place
  let fits (e : PlaceReq × CrewSpec) : Bool :=
    t.spotOk e.1 e.2 && t.mayShare e.1.core lid l && e.2.bankRegs ≤ (t.core e.1.core).poolFree
  let own := (g.place.zip l.record.crews).all fits
  if place = g.place then (if own then some t else none)
  else if (!own || g.place.any fun p => s.tripped.contains p.core) && t.placeOk lid l place s.tripped then some t
  else none

/-- Reset words and snapshots are restored, and the gang commits again: it reads its groups and CINIT after that. -/
def execRelaunch (lid gang : Nat) (place : List PlaceReq) (s : State) : Out :=
  match s.launches.find lid with
  | some l => match l.gangs.find gang with
    | some g =>
      if g.phase ≠ .killed || l.failed then .next s
      else if !g.restored then .next (s.restoreStep lid gang)
      else if (s.relaunchPlace lid gang l g place).isNone then .next s
      else match s.readForGang l.record with
        | (.wait, _, s) => .next s
        | (.fault, _, s) => .next (s.failLaunch lid)
        | (.ok, q, s) => .next (((s.relaunchPlace lid gang l g place).getD s).commitGang lid gang l q place)
    | none => .next s
  | none => .next s

end Sys2Proof.Machine
end

