-- ==== Sys2Proof/Machine/Ingress.lean ====
section
/-!
DEFINITION. What the ports take: the form of messages, the recorder, admission, and the items of sessions and peers on their way from
arrival to the last of their effects (spec/26_host_link.md R469 to R474, R482; spec/25_containment.md R463, R466).
-/
namespace Sys2Proof

/-! ## The header of an OHP message (R1, R471) -/

def OhpHdr.ver (m : OhpHdr) : Nat := Machine.bitsOf m.head.toNat 7 0
def OhpHdr.type (m : OhpHdr) : Nat := Machine.bitsOf m.head.toNat 15 8
def OhpHdr.session (m : OhpHdr) : Nat := Machine.bitsOf m.head.toNat 47 32
def OhpHdr.seq (m : OhpHdr) : Nat := Machine.bitsOf m.head.toNat 127 64
def OhpHdr.len (m : OhpHdr) : Nat := Machine.bitsOf m.head.toNat 159 128
def OhpHdr.asid (m : OhpHdr) : Nat := Machine.bitsOf m.head.toNat 175 160
def OhpHdr.addr (m : OhpHdr) : Nat := Machine.bitsOf m.head.toNat 255 192

/-- A reserved bit is set. -/
def OhpHdr.reserved (m : OhpHdr) : Bool :=
  Machine.bitsOf m.head.toNat 31 24 ≠ 0 || Machine.bitsOf m.head.toNat 63 48 ≠ 0 || Machine.bitsOf m.head.toNat 191 176 ≠ 0

/-- The bytes of the range that a message names in an address space, by its type. -/
def OhpHdr.range (m : OhpHdr) : Option Nat :=
  if m.type = 0x01 then some 576
  else if m.type = 0x03 || m.type = 0x04 then some m.len
  else if m.type = 0x0E then some (leNat m.payload)
  else none

/-- The message as it stands in bytes, which the recorder writes. -/
def OhpHdr.raw (m : OhpHdr) : List Byte := leBytes m.head.toNat 32 ++ m.payload

end Sys2Proof

namespace Sys2Proof.Machine

/-- A header of a message. -/
def ohpHead (type status session seq len asid addr : Nat) : BitVec 256 :=
  BitVec.ofNat 256 (packFields [(0, 1), (8, type % 2 ^ 8), (16, status % 2 ^ 8), (32, session % 2 ^ 16), (64, seq % 2 ^ 64),
    (128, len % 2 ^ 32), (160, asid % 2 ^ 16), (192, addr % 2 ^ 64)])

/-- The bytes of a message of the device: session, type, STATUS and SEQ, ADDR, payload. -/
def ohpBytes (type status session seq addr : Nat) (payload : List Byte) : List Byte :=
  leBytes (ohpHead type status session seq payload.length 0 addr).toNat 32 ++ payload

/-- What the device sends to the host, in bytes, header first (R471, R472); none for traffic that is no OHP message, and for a far
read or write, whose transport operation has no message. A request for a line of the host's memory names the far-map index as ADDR and
the remote address as its payload. (DEDUCED, log 52) -/
def OutMsg.bytes : OutMsg → Option (List Byte)
  | .reply type status session n => some (ohpBytes type status session n 0 [])
  | .accepted session n word1 => some (ohpBytes 0x01 0 session n 0 (leBytes word1.toNat 8))
  | .completion session _ n lid tag word0 => some (ohpBytes 0x02 0 session n lid (leBytes (tag % 2 ^ 32) 4 ++ leBytes word0.toNat 8))
  | .readResponse session n status data => some (ohpBytes 0x05 status session n 0 data)
  | .fault dest n record => some (ohpBytes 0x07 0 ((dest.map (·.1)).getD 0) n 0 (leBytes record.toNat 192))
  | .containment n record => some (ohpBytes 0x0A 0 0 n 0 (leBytes record.toNat 64))
  | .machineCheck session n _ _ _ => some (ohpBytes 0x0A 0 (session.getD 0) n 0 [])
  | .hostLine n index addr => some (ohpBytes 0x0B 0 0 n index (leBytes addr 8))
  | .attestation session n body sig _ => some (ohpBytes 0x0D 0 session n 0 (leBytes (body.toNat + 2 ^ 1088 * sig.toNat) 232))
  | .recorderFull session n last => some (ohpBytes 0x0F 0 session n last.toNat [])
  | .farRequest _ _ | .farWrite _ _ _ _ _ | .remoteWrite _ _ _ _ | .farData _ _ _ | .writeAck _ _ | .failedParts _ _ => none

/-! ## Time and power (R480 to R482) -/

/-- Cycles of a microsecond at 940 MHz. -/
def cyclesPerUs : Nat := 940

/-- The depth of a power state. -/
def PowerState.depth : PowerState → Nat
  | .c0 => 0
  | .c1 => 1
  | .c2 => 2
  | .c3 => 3
  | .c4 => 4

/-- The deepest state whose exit latency a tolerance in microseconds allows (R481). -/
def deepest (tol : Nat) : PowerState :=
  if tol < 2 then .c0 else if tol < 40 then .c1 else if tol < 400 then .c2 else if tol < 5000 then .c3 else .c4

/-- The shallower of two states. -/
def PowerState.rise (a b : PowerState) : PowerState := if b.depth < a.depth then b else a

/-! ## Ports and sessions (R10, R471 to R475, R479) -/

/-- The links are up and OHP accepts sessions. -/
def State.up (s : State) : Bool := s.boot.phase = .running

/-- The device has the port, and it did not fail at link-up. -/
def State.takes (s : State) (port : Nat) : Bool := port < Config.ports && !s.boot.ports.contains port

/-- The types that a host sends (R472). -/
def hostTypes : List Nat := [0x01, 0x03, 0x04, 0x06, 0x08, 0x09, 0x0B, 0x0C, 0x0E, 0x10, 0x11, 0x12]

/-- LEN is within the limits that R471 and R472 state for a type. -/
def lenOk (type len : Nat) : Bool :=
  decide (len ≤ 2 ^ 20) && (type ≠ 0x03 || decide (1 ≤ len)) && (type ≠ 0x0C || len = 32)

/-- A memory read has no payload; LEN names the bytes to read. -/
def payloadOk (m : OhpHdr) : Bool := m.payload.length = if m.type = 0x04 then 0 else m.len

def malformedHdr (m : OhpHdr) : Bool :=
  m.ver ≠ 1 || m.reserved || !hostTypes.contains m.type || !lenOk m.type m.len || !payloadOk m

/-- The session is there for the message's endpoint: the control session for an operator, another for the endpoint named at its
opening (R474). -/
def State.known (s : State) (m : OhpHdr) : Bool :=
  if m.session = 0 then s.operators.contains m.endpoint else (s.sessions.find m.session).any fun q => q.endpoint = m.endpoint

/-- The session accepts messages of a type (R474). -/
def sessionTakes (session type : Nat) : Bool :=
  if session = 0 then type = 0x0C || type = 0x11 || type = 0x12 else type ≠ 0x10 && type ≠ 0x11 && type ≠ 0x12

/-- The session accepts a message of this type from this endpoint (R474). -/
def State.mayUse (s : State) (m : OhpHdr) : Bool := s.known m && sessionTakes m.session m.type

/-- A range of so many bytes has bytes of the global window. -/
def meetsGlobal (asid va n : Nat) : Bool := tagOf asid va = globalTag || tagOf asid (va + (n - 1)) = globalTag || decide (2 ^ 56 ≤ n)

/-- The session's grant has the ASID that a message names, and the global window where bytes that it names are global (R473, R427). -/
def Session.grants (q : Session) (asid va n : Nat) : Bool := q.asids.contains asid && (q.glb || !meetsGlobal asid va n)

def State.granted (s : State) (m : OhpHdr) : Bool :=
  match m.range with
  | some n => (s.sessions.find m.session).any fun q => q.grants m.asid m.addr n
  | none => true

/-- A reply. -/
def State.answer (s : State) (m : OhpHdr) (status : Nat) : State :=
  { s with out := s.out ++ [.reply m.type status m.session m.seq] }

/-- The ASIDs that a session may name. -/
def State.permits (s : State) (session asid : Nat) : Bool :=
  match s.sessions.find session with
  | some q => q.asids.contains asid
  | none => false

/-! ## What the items do (R472) -/

/-- How an item has come on. -/
inductive Acted where
  /-- nothing more of it can be done yet -/
  | wait
  /-- a part of it has been done -/
  | more (x : Ingress)
  | done
  deriving DecidableEq, Repr

/-- LAUNCH_SUBMISSION (R426 to R428). -/
def State.submitFor (s : State) (m : OhpHdr) : Acted × State :=
  match s.submit (.host m.session m.endpoint) m.asid m.addr (s.permits m.session) with
  | (.wait, s) => (.wait, s)
  | (.busy, s) => (.done, s.answer m 1)
  | (.refused true, s) => (.done, s.answer m 3)
  | (.refused false, s) => (.done, s.answer m (Config.openStatus 0x01).toNat)
  | (.accepted lid, s) => (.done, { s with out := s.out ++ [.accepted m.session m.seq (BitVec.ofNat 64 (lid + 2 ^ 32))] })

/-- The next bytes of a run that an item writes, in ascending address, by a Register step with owner none (R251); what follows when
all are written, and when one cannot be. -/
def State.writeOn (s : State) (x : Ingress) (asid va : Nat) (bytes : List Byte) (last : Bool → State → State) (fail : State → State) :
    Acted × State :=
  if !inSpace va bytes.length then (.done, fail s)
  else match firstChunk asid (va + x.wrote) (bytes.drop x.wrote) with
    | none => (.done, last x.bad s)
    | some c => match s.storeChunk c with
      | (.wait, _, s) => (.wait, s)
      | (.fault, _, s) => (.done, fail s)
      | (.ok, lost, s) =>
        let y : Ingress := { x with wrote := x.wrote + c.bytes, bad := x.bad || lost }
        if y.wrote < bytes.length then (.more y, s) else (.done, last y.bad s)

/-- A host's memory write; bytes of a sector with an error are not written, and the reply says so (R463). -/
def State.hostWrite (s : State) (x : Ingress) (m : OhpHdr) : Acted × State :=
  s.writeOn x m.asid m.addr m.payload (fun bad s => s.answer m (if bad then 4 else 0)) fun s => s.answer m (Config.openStatus 0x03).toNat

def State.readAnswer (s : State) (m : OhpHdr) (status : Nat) (data : List Byte) : State :=
  { s with out := s.out ++ [.readResponse m.session m.seq status data] }

/-- The next bytes of a host's memory read, those of one word, from its home (R242); a sector with an error gives STATUS 4 and no
data, and a mismatch is counted (R463). -/
def State.hostRead (s : State) (x : Ingress) (m : OhpHdr) : Acted × State :=
  if !inSpace m.addr m.len then (.done, s.readAnswer m (Config.openStatus 0x04).toNat [])
  else if m.len ≤ x.got.length then (.done, s.readAnswer m 0 x.got)
  else
    let va := m.addr + x.got.length
    let w := byteKey m.asid va / 4
    match s.frontAt (byteKey m.asid va) 0 with
    | (.wait, s) => (.wait, s)
    | (.fault, s) => (.done, s.readAnswer m (Config.openStatus 0x04).toNat [])
    | (.ok, s) =>
      if s.badWord w then (.done, (s.countTaint w (s.taint w)).readAnswer m 4 [])
      else
        let got := x.got ++ s.homeBytes m.asid va (min (4 - va % 4) (m.len - x.got.length))
        if got.length < m.len then (.more { x with got := got }, s) else (.done, s.readAnswer m 0 got)

/-- A new tolerance takes effect at the next entry; a device that is deeper than it allows rises at once to the deepest state that
it permits (R481). -/
def State.tolerate (s : State) (m : OhpHdr) : State :=
  ({ s with tolerance := m.addr, power := s.power.rise (deepest m.addr) }).answer m 0

/-- The host serves a far line of its memory: the reads that wait for that remote address are filled, and the message waits while one of
them finds no room (R229). (DEDUCED, log 55) -/
def State.serveHostLine (s : State) (index remote : Nat) (data : BitVec 512) : Acted × State :=
  let mine (r : FarRead) : Bool := r.dest = .host && r.index = index && r.addr = remote
  let t := (s.farReads.filter mine).foldl (fun s r => s.fillFar r.line data) s
  (if t.farReads.any mine then .wait else .done, t)

/-- What CFGMEAS covers, as numbers: the operator table, the session grants, the far map. (DESIGN CHOICE, log 57) -/
def State.configNumbers (s : State) : List Nat :=
  s.operators ++ (s.sessions.flatMap fun q => [q.1, q.2.endpoint, q.2.glb.toNat] ++ q.2.asids) ++
    (s.farmap.toNat :: (List.range 256).map s.farEntry)

/-- Bits [1087:0] of the report. -/
def State.attestBody (s : State) (nonce : BitVec 256) : BitVec 1088 :=
  BitVec.ofNat 1088 (nonce.toNat + Config.deviceId.toNat * 2 ^ 256 + Config.imageVersion s.boot.image % 2 ^ 16 * 2 ^ 288 +
    s.boot.bootSlot.toNat * 2 ^ 304 + s.mgmt.standby.toNat * 2 ^ 305 + (Config.imageDigest s.boot.image).toNat * 2 ^ 320 +
    (Config.configMeasure s.configNumbers).toNat * 2 ^ 704)

/-- The report; beside the first one, the memory links and ports that failed (R479). -/
def State.attest (s : State) (m : OhpHdr) (nonce : BitVec 256) : State :=
  let body := s.attestBody nonce
  let failed := s.boot.links ≠ [] || s.boot.ports ≠ []
  { s with out := s.out ++ [.attestation m.session m.seq body (Config.attestSign body) Config.certificate] ++
             (if failed && !s.boot.told then [.failedParts s.boot.links s.boot.ports] else [])
           boot := { s.boot with told := true } }

/-- A region starts the recorder; a length of 0 stops it (R466). -/
def State.controlRecorder (s : State) (m : OhpHdr) (base len : Nat) : State :=
  let r := s.recorder
  let r : Recorder := if len = 0 then { r with on := false }
    else { r with on := true, asid := m.asid, base := base, len := len, pos := 0, session := m.session }
  ({ s with recorder := r }).answer m 0

/-- A session is opened: its messages begin at SEQ 0 (R471, R474). -/
def State.openSession (s : State) (m : OhpHdr) (number endpoint : Nat) (glb : Bool) (asids : List Nat) : State :=
  if number = 0 || 63 < number || 256 < asids.length then s.answer m 2
  else if (s.sessions.find number).isSome then s.answer m 1
  else ({ s with sessions := s.sessions.set number ⟨endpoint, glb, asids⟩, flows := s.flows.erase number }).answer m 0

/-- What a closed session's launches owe goes on session 0 to the endpoint that closed it. -/
def Submitter.closed (w : Submitter) (number endpoint : Nat) : Submitter :=
  match w with
  | .host n e => if n = number then .host 0 endpoint else .host n e
  | .crew l g i a => .crew l g i a

/-- A session is closed, once its messages that have arrived are performed. -/
def State.closeSession (s : State) (m : OhpHdr) (number : Nat) : Acted × State :=
  if (s.sessions.find number).isNone then (.done, s.answer m (Config.openStatus 0x12).toNat)
  else if !(s.flow number).held.isEmpty then (.wait, s)
  else (.done, ({ s with
    sessions := s.sessions.erase number, flows := s.flows.erase number,
    launches := s.launches.mapVals fun _ (l : Launch) => { l with submitter := l.submitter.closed number m.endpoint } }).answer m 0)

/-- A peer's read of a line of the global window; data of a sector with an error is withheld, and a mismatch counted (R463). -/
def State.serveLine (s : State) (port va : Nat) : Acted × State :=
  let a := va / lineBytes * lineBytes
  match s.frontAt (byteKey 0 a) 0 with
  | (.wait, s) => (.wait, s)
  | (.fault, s) => (.done, s)
  | (.ok, s) =>
    let w := byteKey 0 a / 4
    let bad := [w, w + 8].filter s.badWord
    if bad.isEmpty then (.done, { s with out := s.out ++ [.farData port a (s.homeBytes 0 a lineBytes)] })
    else (.done, bad.foldl (fun s w => s.countTaint w (s.taint w)) s)

/-- THE EFFECT of an item, or the next part of it (R148, R229, R251, R441, R443, R446, R466, R472, R474). -/
def State.act (s : State) (x : Ingress) : Acted × State :=
  match x.item with
  | .submit m => s.submitFor m
  | .write m => s.hostWrite x m
  | .read m => s.hostRead x m
  | .tolerance m => (.done, s.tolerate m)
  | .release m r => match s.applyRelease r with
    | some s => (.done, s.answer m 0)
    | none => (.wait, s)
  | .contain m lid gang => (.done, (s.trigger lid gang ⟨5, 0, 0, 0⟩).answer m 0)
  | .suspend m lid => (.done, (s.suspendLaunch lid).answer m 0)
  | .resume m lid => (.done, (s.updLaunch lid fun l => { l with suspended := false }).answer m 0)
  | .hostLine _ index remote data => s.serveHostLine index remote data
  | .attest m nonce => (.done, s.attest m nonce)
  | .recorder m base len => (.done, s.controlRecorder m base len)
  | .openSession m number endpoint glb asids => (.done, s.openSession m number endpoint glb asids)
  | .closeSession m number => s.closeSession m number
  | .none_ _ => (.done, s)
  | .peerWrite port va bytes => s.writeOn x 0 va bytes (fun _ s => { s with out := s.out ++ [.writeAck port va] }) fun s => s
  | .peerRead port va => s.serveLine port va

/-- The message of the host that an item is. -/
def Item.message : Item → Option OhpHdr
  | .submit m | .write m | .read m | .tolerance m | .release m _ | .contain m _ _ | .suspend m _ | .resume m _ | .hostLine m _ _ _
  | .attest m _ | .recorder m _ _ | .openSession m _ _ _ _ | .closeSession m _ | .none_ m => some m
  | .peerWrite _ _ _ | .peerRead _ _ => none

/-- A message that is answered and performs nothing: malformed, or not permitted (R472, R473). -/
def State.turnAway (s : State) (m : OhpHdr) : Option State :=
  if malformedHdr m then some (s.answer m 2)
  else if !s.mayUse m || !s.granted m then some (s.answer m 3)
  else none

/-! ## The recorder (R466) -/

/-- A record: 32 bytes of header, then the item's bytes, padded with zeros to a multiple of 32. -/
def recordBytes (kind port : Nat) (seq : Nat) (addr : Nat) (bytes : List Byte) : List Byte :=
  let n := bytes.length
  leBytes (kind + port * 2 ^ 8 + n * 2 ^ 32 + seq % 2 ^ 64 * 2 ^ 64 + addr % 2 ^ 64 * 2 ^ 128) 32 ++
    (bytes ++ List.replicate ((n + 31) / 32 * 32 - n) 0)

/-- SEQ of the last record written. -/
def Recorder.lastSeq (r : Recorder) : Dword := if r.pos = 0 then Config.noRecordSeq else BitVec.ofNat 64 (r.seq - 1)

/-- The record of an item at a SEQ; a far-line request brings no payload. -/
def Item.record (seq : Nat) : Item → Option (List Byte)
  | .peerWrite port va bytes => some (recordBytes 2 port seq va bytes)
  | i => i.message.map fun m => recordBytes 1 m.port seq 0 m.raw

/-- A record is being written. -/
def State.recording (s : State) : Bool :=
  let writing (x : Ingress) : Bool := !x.record.isEmpty
  s.flows.any (fun f => f.2.held.any writing) || s.peers.any writing

/-- The recording ends; it tells the session that started it, or session 0 when that is closed, of its last record. -/
def State.recorderFull (s : State) : State :=
  let r := s.recorder
  let to_ := if (s.sessions.find r.session).isSome then r.session else 0
  ({ s with recorder := { r with on := false } }).post to_ fun n => .recorderFull to_ n r.lastSeq

/-! ## From arrival to the last effect (R466, R473, R482) -/

/-- The item goes on with its effect: what is left of it. -/
def State.perform (s : State) (x : Ingress) : Option Ingress × State :=
  match s.act x with
  | (.wait, s) => (some x, s)
  | (.more y, s) => (some { y with begun := true }, s)
  | (.done, s) => (none, s)

/-- An item that can be performed takes the next SEQ, and its place in the region, when no other record is being written. A record that
does not fit ends the recording. (DEDUCED, log 54) -/
def State.beginRecord (s : State) (x : Ingress) (bytes : List Byte) : Option Ingress × State :=
  let r := s.recorder
  match s.act x with
  | (.wait, s) => (some x, s)
  | _ =>
    if s.recording then (some x, s)
    else if r.len < r.pos + bytes.length then s.recorderFull.perform x
    else (some { x with begun := true, recAt := r.base + r.pos, record := bytes },
      { s with recorder := { r with pos := r.pos + bytes.length, seq := r.seq + 1 } })

/-- The next bytes of a record are written; a region that may not be written ends the recording. -/
def State.writeRecord (s : State) (x : Ingress) : Option Ingress × State :=
  let off (s : State) : Option Ingress × State := (some { x with record := [] }, { s with recorder := { s.recorder with on := false } })
  if !inSpace x.recAt x.record.length then off s
  else match firstChunk s.recorder.asid x.recAt x.record with
    | none => (some { x with record := [] }, s)
    | some c => match s.storeChunk c with
      | (.wait, _, s) => (some x, s)
      | (.fault, _, s) => off s
      | (.ok, _, s) => (some { x with recAt := x.recAt + c.bytes, record := x.record.drop c.bytes }, s)

/-- ONE STAGE OF AN ITEM: it is turned away, recorded, or performed. What is left of it: none when it has ended. -/
def State.stage (s : State) (x : Ingress) : Option Ingress × State :=
  if !x.record.isEmpty then s.writeRecord x
  else if x.begun then s.perform x
  else match x.item.message.bind s.turnAway with
    | some t => (none, t)
    | none => match x.item.record s.recorder.seq with
      | some bytes => if s.recorder.on then s.beginRecord x bytes else s.perform x
      | none => s.perform x

/-- The oldest message of a session goes on: the next one waits for its last effect (R473). -/
def State.serveSession (s : State) (n : Nat) : State :=
  match (s.flow n).held with
  | [] => s
  | x :: rest =>
    let r := s.stage x
    r.2.updFlow n fun f => { f with held := r.1.toList ++ rest }

/-- An item of a peer goes on. -/
def State.servePeer (s : State) (i : Nat) : State :=
  match s.peers[i]? with
  | some x =>
    let r := s.stage x
    { r.2 with peers := r.2.peers.take i ++ r.1.toList ++ r.2.peers.drop (i + 1) }
  | none => s

/-- THE ARRIVAL OF A MESSAGE, in service. The transport delivers the messages of a session in the order of SEQ (R470): with another SEQ,
or with arguments that are not what its bytes say, the step stands for no message. Of an unknown session, or from another endpoint, it is
answered at once. (DEDUCED, log 52) -/
def State.takeMessage (s : State) (fits : Bool) (m : OhpHdr) (i : Item) : State :=
  if !fits || !s.takes m.port then s
  else if !s.known m then s.wake.answer m (if malformedHdr m then 2 else 3)
  else if m.seq ≠ (s.flow m.session).next then s
  else
    let t := s.wake.updFlow m.session fun f => { f with next := f.next + 1, held := f.held ++ [{ item := i }] }
    if (s.flow m.session).held.isEmpty then t.serveSession m.session else t

/-- In recovery port 0 accepts an image load on session 0, and nothing else (R475); a device whose I/O die 0 cannot run its ROM answers
on no port (R476). -/
def State.refuseInRecovery (s : State) (m : OhpHdr) : State :=
  if m.port ≠ 0 || s.boot.mute then s else s.answer m (if malformedHdr m then 2 else 3)

/-- A message of a type; before OHP accepts sessions it has no effect. -/
def State.ohp (s : State) (fits : Bool) (type : Nat) (m : OhpHdr) (i : Item) : Out :=
  match s.boot.phase with
  | .running => .next (s.takeMessage (fits && (m.type = type || malformedHdr m)) m i)
  | .recovery => .next (s.refuseInRecovery m)
  | _ => .next s

/-- THE ARRIVAL OF A PEER'S ITEM, which wakes the device (R482); it waits in the port until it can be performed. Outside the global
window it has no effect. (DEDUCED, log 56) -/
def State.takePeer (s : State) (port va : Nat) (i : Item) : State :=
  if !s.takes port || !s.up then s
  else if va / 2 ^ 56 ≠ 1 then s.wake
  else State.servePeer { s.wake with peers := s.peers ++ [{ item := i }] } s.peers.length

end Sys2Proof.Machine
end

