-- ==== Sys2Proof/Machine/Link.lean ====
section
/-!
DEFINITION. The steps of messages and of the links: each message of the host and each item of a peer as it arrives, power states
(spec/26_host_link.md R469 to R474, R480 to R482).
-/
namespace Sys2Proof.Machine

/-! ## Power (R480 to R482) -/

/-- A gang that does not keep the device busy. -/
def Gang.asleep (g : Gang) : Bool := g.phase = .saved || g.phase = .done || g.phase = .unplaced

/-- No launch is queued, committed or running, and no step on a completion block is to come; saved gangs are allowed (R480).
(DEDUCED, log 53) -/
def State.idle (s : State) : Bool :=
  s.blockQ.isEmpty && s.queues.all (fun q => q.2.isEmpty) && s.launches.all fun l => l.2.gangs.all fun g => g.2.asleep

/-- No item waits in a port. -/
def State.quietPorts (s : State) : Bool := s.peers.isEmpty && s.flows.all fun f => f.2.held.isEmpty

def execPowerStateEntry (s : State) : Out :=
  if s.boot.phase = .running && s.idle && s.quietPorts && s.idleSince + 100 * cyclesPerUs ≤ s.cycle then
    .next { s with power := deepest s.tolerance }
  else .next s

/-- An idle link becomes active: C4 ends. -/
def execLinkActivity (port : Nat) (s : State) : Out :=
  if s.takes port && s.power = .c4 then .next { s with power := .c0 } else .next s

/-! ## Messages of the host (R472) -/

def execLaunchSubmission (m : OhpHdr) (s : State) : Out := s.ohp true 0x01 m (.submit m)

/-- The payload's bytes are written in ascending address. -/
def execMemoryWrite (m : OhpHdr) (bytes : List Byte) (s : State) : Out := s.ohp (m.payload = bytes) 0x03 m (.write m)

def execMemoryRead (m : OhpHdr) (s : State) : Out := s.ohp true 0x04 m (.read m)

def execLatencyTolerance (m : OhpHdr) (s : State) : Out := s.ohp true 0x06 m (.tolerance m)

/-- The release of a park set by the host (R148); it waits while a thread that is to retire is not drained. -/
def execRelease (m : OhpHdr) (r : ReleaseReq) (s : State) : Out := s.ohp true 0x08 m (.release m r)

/-- TRIG 5 for the named gang (R446). -/
def execOhpContain (m : OhpHdr) (lid gang : Nat) (s : State) : Out := s.ohp true 0x09 m (.contain m lid gang)

/-- The launch's gangs are to be pre-empted (R441). -/
def execOhpSuspend (m : OhpHdr) (lid _gang : Nat) (s : State) : Out := s.ohp true 0x09 m (.suspend m lid)

/-- A suspended launch's gangs may be resumed (R443). -/
def execOhpResume (m : OhpHdr) (lid _gang : Nat) (s : State) : Out := s.ohp true 0x09 m (.resume m lid)

def execFarPageService (m : OhpHdr) (index : Nat) (remote : Nat) (data : BitVec 512) (s : State) : Out :=
  s.ohp true 0x0B m (.hostLine m index remote data)

/-- The payload is the nonce (R478). -/
def execAttestationRequest (m : OhpHdr) (nonce : BitVec 256) (s : State) : Out :=
  s.ohp (leNat m.payload = nonce.toNat) 0x0C m (.attest m nonce)

/-- ADDR is the base of a region, the payload its length (R466). -/
def execRecorderControl (m : OhpHdr) (base len : Nat) (s : State) : Out :=
  s.ohp (m.addr = base && leNat m.payload = len) 0x0E m (.recorder m base len)

def execSessionOpen (m : OhpHdr) (number : Nat) (endpoint : Nat) (glb : Bool) (asids : List Nat) (s : State) : Out :=
  s.ohp true 0x11 m (.openSession m number endpoint glb asids)

def execSessionClose (m : OhpHdr) (number : Nat) (s : State) : Out := s.ohp true 0x12 m (.closeSession m number)

/-- A message that no type's effect follows: STATUS 2. -/
def execMalformedMessage (m : OhpHdr) (s : State) : Out := s.ohp (malformedHdr m) m.type m (.none_ m)

/-! ## Peers (R229, R251, R463, R469) -/

/-- A peer's write: Register steps with owner none at the homes of the global window, then its acknowledgement. -/
def execInboundWrite (port : Nat) (supported : Bool) (va : Nat) (bytes : List Byte) (s : State) : Out :=
  if supported then .next (s.takePeer port va (.peerWrite port va bytes))
  else .next (if s.takes port then { s with portErrors := FMap.put 0 s.portErrors port (FMap.get 0 s.portErrors port + 1) } else s)

def execFarLineRequest (port : Nat) (va : Nat) (s : State) : Out := .next (s.takePeer port va (.peerRead port va))

end Sys2Proof.Machine
end

