-- ==== Sys2Proof/Machine/Boot.lean ====
section
/-!
DEFINITION. Reset, boot and bring-up, and the management complexes with their mirror (spec/26_host_link.md R475, R476, R479;
spec/25_containment.md R454 to R456; R12).
-/
namespace Sys2Proof.Machine

/-! ## Reset, boot and bring-up (R475, R476, R479) -/

/-- Device reset: everything but the flash, the fuses and what the host has received. The schedule and its counters are the
model's own. -/
def State.deviceReset (s : State) : State :=
  { State.reset with
    agenda := s.agenda, ctr := s.ctr, freeCtr := s.freeCtr, out := s.out,
    boot := { slot0 := s.boot.slot0, slot1 := s.boot.slot1, fuse0 := s.boot.fuse0, fuse1 := s.boot.fuse1 } }

/-- In recovery an image load on port 0, session 0, writes a flash slot and resets the device. -/
def execImageLoad (m : OhpHdr) (slot : Bool) (image : Nat) (s : State) : Out :=
  if s.boot.phase = .recovery && m.port = 0 && !s.boot.mute && m.session = 0 && !malformedHdr m && m.type = 0x10 then
    let b := s.boot
    .next ({ s with boot := if slot then { b with slot1 := some image } else { b with slot0 := some image } }).deviceReset
  else s.ohp true 0x10 m (.none_ m)

/-- The checks of R475 for one die: security version against its fuse, then the key hash and both signatures. -/
def accepts (fuse : Nat) (image : Option Nat) : Bool :=
  match image with
  | some i => decide (fuse ≤ Config.imageVersion i) && Config.imageVerifies i
  | none => false

/-- The slot that a die's ROM accepts: 0, then 1. -/
def Boot.choice (b : Boot) (fuse : Nat) : Option (Bool × Nat) :=
  if accepts fuse b.slot0 then b.slot0.map fun i => (false, i)
  else if accepts fuse b.slot1 then b.slot1.map fun i => (true, i)
  else none

/-- Both dies accepted the same slot with the same digest (R476). -/
def Boot.agreed (b : Boot) : Option (Bool × Nat) :=
  match b.choice b.fuse0, b.choice b.fuse1 with
  | some x, some y => if x.1 = y.1 && Config.imageDigest x.2 = Config.imageDigest y.2 then some x else none
  | _, _ => none

/-- The device enters recovery. Whether the ROM of I/O die 0 runs, where a die has failed to run its own, is a free value. -/
def State.recover (s : State) (dead : Bool) : State :=
  if dead then { s.bumpFree with boot := { s.boot with phase := .recovery, mute := Config.romDead s.freeCtr } }
  else { s with boot := { s.boot with phase := .recovery } }

/-- The ROMs verify once more from slot 0, and then give up; dead: one of them has not reported. -/
def State.verifyAgain (s : State) (dead : Bool) : State :=
  if s.boot.retried then s.recover dead else { s with boot := { s.boot with retried := true, since := s.cycle } }

/-- Firmware starts: each die raises its counter, the standby begins its heartbeat, and the image's operator table, of at most 16
addresses, stands (R474). -/
def State.startFirmware (s : State) : State :=
  let v := Config.imageVersion s.boot.image
  { s with boot := { s.boot with phase := .firmware, fuse0 := max s.boot.fuse0 v, fuse1 := max s.boot.fuse1 v },
           operators := (Config.imageOperators s.boot.image).take 16,
           mgmt := { s.mgmt with beat0 := s.cycle, beat1 := s.cycle } }

/-- Firmware does not start: which dies have raised their counters is a free value (R476). (DEDUCED, log 58) -/
def State.missFirmware (s : State) : State :=
  let v := Config.imageVersion s.boot.image
  let raised := Config.fuseRaised s.freeCtr
  let s : State := { s.bumpFree with boot := { s.boot with
    fuse0 := if raised.testBit 0 then max s.boot.fuse0 v else s.boot.fuse0
    fuse1 := if raised.testBit 1 then max s.boot.fuse1 v else s.boot.fuse1 } }
  s.recover false

/-- Step 3 of R479; memory links that fail are free values. -/
def State.trainMemory (s : State) (ok : Bool) : State :=
  let s : State := { s with dram := [], poisoned := [], tags := [], flips := [], boot := { s.boot with phase := .memory } }
  if ok then s
  else { s.bumpFree with boot := { s.boot with links := (Config.failedLinks s.freeCtr).filter (· < Config.partitions) } }

/-- Step 4; ports that fail are free values. -/
def State.linkUp (s : State) (ok : Bool) : State :=
  let s : State := { s with boot := { s.boot with phase := .links } }
  if ok then s else { s.bumpFree with boot := { s.boot with ports := (Config.failedPorts s.freeCtr).filter (· < Config.ports) } }

/-- One step of the table of R479; ok tells whether the step's hardware does its part: a step that fails leaves the device in recovery,
or without the link or port. (DEDUCED, log 58) -/
def execBringUp (ok : Bool) (s : State) : Out :=
  let b := s.boot
  match b.phase with
  | .powered =>
    if !ok then .next (s.recover true)
    else match b.agreed with
      | some x => .next { s with boot := { b with phase := .verified, bootSlot := x.1, image := x.2 } }
      | none => .next (s.verifyAgain false)
  | .verified => .next (if ok then s.startFirmware else s.missFirmware)
  | .firmware => .next (s.trainMemory ok)
  | .memory => .next (s.linkUp ok)
  | .links => .next (if ok then { s with boot := { b with phase := .running }, idleSince := s.cycle } else s.recover false)
  | .running => .next s
  | .recovery => .next s

/-- A die has not reported within 2 s. -/
def execRomReportTimeout (s : State) : Out :=
  .next (if s.boot.phase = .powered && s.boot.since + 2 * cyclesPerSecond ≤ s.cycle then s.verifyAgain true else s)

/-! ## The management complexes (R12, R454 to R456) -/

/-- Tsunath runs. -/
def State.managed (s : State) : Bool :=
  match s.boot.phase with
  | .firmware | .memory | .links | .running => true
  | .powered | .verified | .recovery => false

/-- A complex has been silent for 5 ms. -/
def State.silent (s : State) (beat : Nat) : Bool := beat + 5000 * cyclesPerUs ≤ s.cycle

/-- A complex writes its heartbeat word, unless it is held or an error has stopped it. -/
def execHeartbeat (standby : Bool) (s : State) : Out :=
  let m := s.mgmt
  let down := if standby then m.standbyHeld || m.hung1 else m.primaryHeld || m.hung0
  if down || !s.managed then .next s
  else .next { s with mgmt := if standby then { m with beat1 := s.cycle } else { m with beat0 := s.cycle } }

/-- THE MIRROR (R454), whose two copies have their homes on the two I/O dies: queues, bind records and commit records, fault records not
released, sessions with their grants, partition registers and far map, save areas, placements and kills in progress. A change is registered
there before the complex acts on it: with the step that makes it. (DEDUCED, log 58) -/
structure Mirror where
  queues : FMap (List Nat)
  binds : List (Nat × FMap Bind)
  commits : FMap (Nat × Nat)
  faults : List FaultRecord
  sessions : FMap Session
  registers : Dword × Dword × Dword
  farMap : List Dword
  saved : List (Nat × Nat × List SavedCrew)
  placements : FMap Launch
  kills : List (Nat × Nat × Gang)
  deriving DecidableEq, Repr

/-- The gangs that a test picks, with their launches. -/
def State.gangsWhere (s : State) (p : Gang → Bool) : List (Nat × Nat × Gang) :=
  s.launches.flatMap fun l => (l.2.gangs.filter fun g => p g.2).map fun g => (l.1, g.1, g.2)

def State.mirror (s : State) : Mirror :=
  { queues := s.queues, binds := s.cores.map (fun k => (k.1, k.2.binds)), commits := s.gcrs, faults := s.faultQ, sessions := s.sessions,
    registers := (s.asidt, s.groot, s.farmap), farMap := (List.range 256).map fun i => BitVec.ofNat 64 (s.farEntry i),
    saved := (s.gangsWhere fun g => g.phase = .saved).map fun g => (g.1, g.2.1, g.2.2.saved),
    placements := s.launches.filter fun l => l.2.abandonable,
    kills := s.gangsWhere fun g => g.phase = .stopping || g.phase = .killing || g.phase = .freed }

/-- A fault record that no release has marked is served again: a reported one goes to the host, of a saved gang too. -/
def State.reportAgain (s : State) (r : FaultRecord) : State :=
  let mine (p : ParkSet) : Bool := p.pset = r.pset && p.service.isNone
  let saved := s.gangsWhere fun g => g.saved.any fun x => x.core = r.core && x.psets.any mine
  if (s.core r.core).psets.any mine || !saved.isEmpty then s.report r else s

/-- What the standby makes of the mirror (R455 steps 2 to 4): placements without a commit record are abandoned, kills begin anew, fault
records are served again, and every open session is told. -/
def State.takeOver (s : State) (m : Mirror) : State :=
  let s := m.placements.foldl (fun s e => s.abandon e.1 e.2) s
  let s := m.kills.foldl (fun s e => s.killAgain e.1 e.2.1 e.2.2) s
  let s := m.faults.foldl State.reportAgain s
  m.sessions.foldl (fun s q => s.post q.1 fun n => .machineCheck (some q.1) n .takeover 0 0) s

/-- The standby holds the primary and takes over. -/
def execTakeover (s : State) : Out :=
  if s.managed && !s.mgmt.standby && !s.mgmt.standbyHeld && s.silent s.mgmt.beat0 then
    .next (State.takeOver { s with mgmt := { s.mgmt with primaryHeld := true, standby := true } } s.mirror)
  else .next s

/-- The primary holds a standby whose heartbeat has stopped. -/
def execStandbyHeartbeatLoss (s : State) : Out :=
  if s.managed && !s.mgmt.standby && !s.mgmt.standbyHeld && s.silent s.mgmt.beat1 then
    .next (({ s with mgmt := { s.mgmt with standbyHeld := true } } : State).post 0 fun n => .machineCheck none n .standbyLost 0 0)
  else .next s

/-- The hardware watchdog: the complex in control is silent and no standby remains. -/
def execDeviceReset (s : State) : Out :=
  let beat := if s.mgmt.standby then s.mgmt.beat1 else s.mgmt.beat0
  if s.managed && (s.mgmt.standby || s.mgmt.standbyHeld) && s.silent beat then .next s.deviceReset else .next s

end Sys2Proof.Machine
end

