-- ==== Sys2Proof/Machine/Satisfy.lean ====
section
/-!
DEFINITION. Satisfy (spec/02_ordering_machine.md R32, R35): what a load takes from its thread's own entries, the views and the arrays,
the scratchpad destinations that are undefined to it (spec/11_memory_model.md R250, spec/14_matrix_engine.md R295), and the errors that
it consumes (spec/12_memory_instructions.md R274, spec/25_containment.md R464).
-/
namespace Sys2Proof.Machine

/-! ## Undefined destinations -/

/-- The cores of the cluster of a core. -/
def clusterCores (core : Nat) : List Nat := (List.range Config.coresPerCluster).map (clusterOf core * Config.coresPerCluster + ·)

/-- The commands of MXEs and of the Starter unit that the crews of a gang have signed in a cluster, appended or not. -/
def State.gangCmds (s : State) (core : Nat) (c : Crew) : List Cmd :=
  let mine (b : Nat) (k : Core) : Bool := (k.crew b).lid = c.lid && (k.crew b).gang = c.gang
  let signed (k : Core) : List Cmd := k.crews.flatMap fun e => if mine e.1 k then e.2.cv.flatMap fun v => v.2.pending.toList else []
  ((clusterCores core).flatMap fun x => (s.core x).mxe.queue ++ signed (s.core x)).filter (fun q => mine q.crew (s.core q.core)) ++
    (s.cluster (clusterOf core)).starter.queue.filter fun q => mine q.crew (s.core q.core)

/-- The descriptors that a tile command's result goes to, as they stand; none where they are not there to be read. -/
def State.tileDests (s : State) (c : Cmd) : Option (List TileOpnd) :=
  match c.instr with
  | .tinfo _ => some []
  | .tdelta _ =>
    let asid := ((s.core c.core).crew c.crew).asid.toNat
    match s.peek asid c.addrD.toNat 64, s.peek asid c.addrA.toNat 16 with
    | some g, some h =>
      let ids := (List.range (bitsOf h 31 0 - bitsOf h 63 32)).mapM fun n => s.peek asid (c.addrA.toNat + 16 + 16 * (bitsOf h 63 32 + n)) 4
      ids.map fun l => l.eraseDups.map fun t => ⟨true, bitsOf g 127 64 + 32 * t⟩
    | _, _ => none
  | _ => some [opndD c]

/-- The result may need storage. -/
def storesTile (i : Instr) : Bool :=
  match i with
  | .tfree _ => false
  | .tnew f => f.imm8.toNat / 32 % 4 ≠ 0
  | _ => true

/-- The storage in the scratchpad that a result of a descriptor may go to, as the heap stands: the present extent, and the free blocks.
none where descriptor or header are not there to be read. -/
def State.heapDest (s : State) (c : Cmd) (o : TileOpnd) : Option (List (Nat × Nat × Nat)) :=
  let cr := (s.core c.core).crew c.crew
  match (if o.virt then s.peek cr.asid.toNat o.addr 32 else some (s.readNum c false o.addr 32)) with
  | none => none
  | some raw =>
    (s.peek cr.asid.toNat (heapAddr cr raw) 64).map fun x =>
      let h := heapOf x
      let at_ (a n : Nat) : List (Nat × Nat × Nat) := (s.arrayAt c.core cr a n).getD []
      if h.virt || !heapOk x cr.scr then []
      else at_ (descOf raw).addr (descOf raw).bytes ++
        ((List.range h.nblk).filter fun b => !(s.readMap c h).testBit b).flatMap fun b => at_ (h.base + 256 * b) 256

/-- What of the scratchpads a tile command may write that has not formed its results: its descriptors, and storage. Where that cannot be
told it may be anywhere in the crew's allotment. -/
def State.mayWrite (s : State) (c : Cmd) : List (Nat × Nat × Nat) :=
  let cr := (s.core c.core).crew c.crew
  let any : List (Nat × Nat × Nat) := [(c.core, cr.sbase, cr.scr)]
  match s.tileDests c with
  | none => any
  | some os => os.flatMap fun o => (if o.virt then [] else s.runDest c (descRuns o.addr 0 0 0)) ++
      (if storesTile c.instr then (s.heapDest c o).getD any else [])

/-- What of the scratchpads a tile command will write that has formed its results, as the heaps stand. -/
def State.willWrite (s : State) (c : Cmd) : List (Nat × Nat × Nat) :=
  let desc (j : TileJob) : List (Nat × Nat × Nat) := if j.virt then [] else s.runDest c (descRuns j.addr 0 0 0)
  let here (l : List TileJob) : List (TileJob × Nat × Nat) := s.placesOf c (l.filter fun j => !(heapOf j.heap).virt) []
  let places : List (TileJob × Nat × Nat) := match c.work.jobs, c.work.stage with
    | j :: r, .describe a cap => (j, a, cap) :: here r
    | j :: r, .store a cap => (j, a, cap) :: here r
    | _ :: r, .release _ _ _ => here r
    | l, _ => here l
  c.work.jobs.flatMap desc ++ places.flatMap fun p => s.jobDest c p.1 p.2.1 p.2.2

/-- The scratchpad destinations of a command that has not ended, beside those that it has had since its signature or has written. -/
def State.presentDest (s : State) (c : Cmd) : List (Nat × Nat × Nat) :=
  if isTile c.instr then (if c.work.ready then s.willWrite c else s.mayWrite c)
  else if c.phase = .queued then s.signDest c.core c.crew c.instr c.addrA.toNat else []

/-- Scratchpad destinations that are undefined to a thread (R250, R295): those of its gang's commands from their first signature
on, and those of ended commands that it signed and no wait of it has covered. (DEDUCED, log 28) -/
def State.openDests (s : State) (core slot : Nat) : List (Nat × Nat × Nat) :=
  let k := s.core core
  let signed := (k.thread slot).signed
  (s.gangCmds core (k.crewAt slot)).flatMap (fun c => c.dest ++ s.presentDest c) ++
    ((k.mxe.ended ++ (s.cluster (clusterOf core)).starter.ended).filter fun x => signed.contains x.id).flatMap (·.dest)

/-- A word of an array as the thread sees it: its bytes in such destinations are undefined, and take the free value n. -/
def State.arrayPart (s : State) (core : Nat) (q : LqEntry) (array n : Nat) (p : LqPart) : LqPart :=
  (p.fill (rangeMask array p.word (s.openDests core q.slot)) (Config.freeWord n)).fill 0xF (scratchWord (s.core array) p.word)

/-- What Satisfy learns of a part: its own bytes, then the array or the views (R35). n numbers its free value. -/
def State.satisfyPart (s : State) (core : Nat) (q : LqEntry) (p : LqPart) (n : Nat) : LqPart :=
  if p.known = 0xF || p.asked then p else
  let k := s.core core
  let p := ownBytes core k q (ownDet k q p)
  match q.space with
  | .scratch => s.arrayPart core q core n p
  | .window peer => s.arrayPart core q peer n p
  | _ => viewBytes s core q.slot p

/-- Words with an error that Satisfy would deliver bytes of, each with what its copy in a view tells (R274); words of an array tell
nothing more (R464). -/
def State.badParts (s : State) (core : Nat) (q : LqEntry) : List (Nat × Taint) :=
  let k := s.core core
  let needs (p : LqPart) : Bool := !p.asked && (ownBytes core k q (ownDet k q p)).known ≠ 0xF
  let bad (w : Nat) : Option Taint := match q.space.array core with
    | some a => if (s.core a).badScratch.contains w then some .clean else none
    | none => match s.viewFor core q.slot w with
      | some v => if v.bad = .clean then none else some v.bad
      | none => none
  (q.parts.filter needs).filterMap fun p => (bad p.word).map fun x => (p.word, x)

/-- A load has nothing left to look for: what it lacks has been asked for. -/
def LqEntry.waits (q : LqEntry) : Bool := q.parts.all fun p => p.known = 0xF || p.asked

/-- Satisfy(q) (R32, R35): what is not found is asked of the home. -/
def execSatisfy (core load : Nat) (s : State) : Out :=
  let k := s.core core
  match k.lq.find? fun q => q.id = load with
  | some q =>
    if q.atomic || heldBack k q || q.waits then .next s
    else match s.badParts core q with
    | (w, x) :: _ => .next (s.consumeLoad core q w x)
    | [] =>
      let parts := q.parts.zipIdx.map fun e => s.satisfyPart core q e.1 (s.freeCtr + e.2)
      let s := { s with freeCtr := s.freeCtr + parts.length }
      let ask := parts.filter fun p => p.known ≠ 0xF && !p.asked
      let s := ask.foldl (fun s p => s.push (homeLane (.lse core) p.word) (.readReq core load none q.hint p.word)) s
      let mark (p : LqPart) : LqPart := if p.known = 0xF then p else { p with asked := true }
      .next (s.updCore core fun k => (k.updLoad load fun q => { q with parts := parts.map mark }).finishLoad load)
  | none => .next s

end Sys2Proof.Machine
end

