-- ==== Sys2Proof/Machine/Dispatch.lean ====
section
/-!
DEFINITION. One arm per constructor of Instr: a direct call of its meaning.
-/
namespace Sys2Proof.Machine

def exec (i : Instr) (s : State) : Host.Outcome State Fault Refusal :=
  match i with
  | .nop => Sys2Proof.Machine.execNop s
  | .blockHeader cf hwm len => Sys2Proof.Machine.execBlockHeader cf hwm len s
  | .addB f => Sys2Proof.Machine.execAddB f s
  | .addE f => Sys2Proof.Machine.execAddE f s
  | .subB f => Sys2Proof.Machine.execSubB f s
  | .subE f => Sys2Proof.Machine.execSubE f s
  | .addc f => Sys2Proof.Machine.execAddc f s
  | .subb f => Sys2Proof.Machine.execSubb f s
  | .mulB f => Sys2Proof.Machine.execMulB f s
  | .mulE f => Sys2Proof.Machine.execMulE f s
  | .mulhB f => Sys2Proof.Machine.execMulhB f s
  | .mulhE f => Sys2Proof.Machine.execMulhE f s
  | .mad f => Sys2Proof.Machine.execMad f s
  | .minB f => Sys2Proof.Machine.execMinB f s
  | .minE f => Sys2Proof.Machine.execMinE f s
  | .maxB f => Sys2Proof.Machine.execMaxB f s
  | .maxE f => Sys2Proof.Machine.execMaxE f s
  | .absB f => Sys2Proof.Machine.execAbsB f s
  | .absE f => Sys2Proof.Machine.execAbsE f s
  | .andB f => Sys2Proof.Machine.execAndB f s
  | .andE f => Sys2Proof.Machine.execAndE f s
  | .orB f => Sys2Proof.Machine.execOrB f s
  | .orE f => Sys2Proof.Machine.execOrE f s
  | .xorB f => Sys2Proof.Machine.execXorB f s
  | .xorE f => Sys2Proof.Machine.execXorE f s
  | .andnB f => Sys2Proof.Machine.execAndnB f s
  | .andnE f => Sys2Proof.Machine.execAndnE f s
  | .notB f => Sys2Proof.Machine.execNotB f s
  | .notE f => Sys2Proof.Machine.execNotE f s
  | .shlB f => Sys2Proof.Machine.execShlB f s
  | .shlE f => Sys2Proof.Machine.execShlE f s
  | .shrB f => Sys2Proof.Machine.execShrB f s
  | .shrE f => Sys2Proof.Machine.execShrE f s
  | .sarB f => Sys2Proof.Machine.execSarB f s
  | .sarE f => Sys2Proof.Machine.execSarE f s
  | .rolB f => Sys2Proof.Machine.execRolB f s
  | .rolE f => Sys2Proof.Machine.execRolE f s
  | .clz f => Sys2Proof.Machine.execClz f s
  | .popc f => Sys2Proof.Machine.execPopc f s
  | .brev f => Sys2Proof.Machine.execBrev f s
  | .bfe f => Sys2Proof.Machine.execBfe f s
  | .bfi f => Sys2Proof.Machine.execBfi f s
  | .sel f => Sys2Proof.Machine.execSel f s
  | .cmp f => Sys2Proof.Machine.execCmp f s
  | .pand f => Sys2Proof.Machine.execPand f s
  | .por f => Sys2Proof.Machine.execPor f s
  | .pxor f => Sys2Proof.Machine.execPxor f s
  | .pnot f => Sys2Proof.Machine.execPnot f s
  | .movB f => Sys2Proof.Machine.execMovB f s
  | .movE f => Sys2Proof.Machine.execMovE f s
  | .movlBL w d lit => Sys2Proof.Machine.execMovlBL w d lit s
  | .movlEL f => Sys2Proof.Machine.execMovlEL f s
  | .lea f => Sys2Proof.Machine.execLea f s
  | .cvt f => Sys2Proof.Machine.execCvt f s
  | .pack8 f => Sys2Proof.Machine.execPack8 f s
  | .pack4 f => Sys2Proof.Machine.execPack4 f s
  | .faddB f => Sys2Proof.Machine.execFaddB f s
  | .faddE f => Sys2Proof.Machine.execFaddE f s
  | .fsubB f => Sys2Proof.Machine.execFsubB f s
  | .fsubE f => Sys2Proof.Machine.execFsubE f s
  | .fmulB f => Sys2Proof.Machine.execFmulB f s
  | .fmulE f => Sys2Proof.Machine.execFmulE f s
  | .fma f => Sys2Proof.Machine.execFma f s
  | .fminB f => Sys2Proof.Machine.execFminB f s
  | .fminE f => Sys2Proof.Machine.execFminE f s
  | .fmaxB f => Sys2Proof.Machine.execFmaxB f s
  | .fmaxE f => Sys2Proof.Machine.execFmaxE f s
  | .fcmp f => Sys2Proof.Machine.execFcmp f s
  | .fclass f => Sys2Proof.Machine.execFclass f s
  | .hfma2 f => Sys2Proof.Machine.execHfma2 f s
  | .fdot2 f => Sys2Proof.Machine.execFdot2 f s
  | .frcpB f => Sys2Proof.Machine.execFrcpB f s
  | .frcpE f => Sys2Proof.Machine.execFrcpE f s
  | .frsqB f => Sys2Proof.Machine.execFrsqB f s
  | .frsqE f => Sys2Proof.Machine.execFrsqE f s
  | .fsqrtB f => Sys2Proof.Machine.execFsqrtB f s
  | .fsqrtE f => Sys2Proof.Machine.execFsqrtE f s
  | .fdivB f => Sys2Proof.Machine.execFdivB f s
  | .fdivE f => Sys2Proof.Machine.execFdivE f s
  | .fexp2B f => Sys2Proof.Machine.execFexp2B f s
  | .fexp2E f => Sys2Proof.Machine.execFexp2E f s
  | .flog2B f => Sys2Proof.Machine.execFlog2B f s
  | .flog2E f => Sys2Proof.Machine.execFlog2E f s
  | .fsinpiB f => Sys2Proof.Machine.execFsinpiB f s
  | .fsinpiE f => Sys2Proof.Machine.execFsinpiE f s
  | .fcospiB f => Sys2Proof.Machine.execFcospiB f s
  | .fcospiE f => Sys2Proof.Machine.execFcospiE f s
  | .ftwid f => Sys2Proof.Machine.execFtwid f s
  | .braB off => Sys2Proof.Machine.execBraB off s
  | .braE f => Sys2Proof.Machine.execBraE f s
  | .brcB cp cn off => Sys2Proof.Machine.execBrcB cp cn off s
  | .brcE f => Sys2Proof.Machine.execBrcE f s
  | .jmpiB a => Sys2Proof.Machine.execJmpiB a s
  | .jmpiE f => Sys2Proof.Machine.execJmpiE f s
  | .callB off => Sys2Proof.Machine.execCallB off s
  | .callE f => Sys2Proof.Machine.execCallE f s
  | .calliB a => Sys2Proof.Machine.execCalliB a s
  | .calliE f => Sys2Proof.Machine.execCalliE f s
  | .retB => Sys2Proof.Machine.execRetB s
  | .retE f => Sys2Proof.Machine.execRetE f s
  | .exitB => Sys2Proof.Machine.execExitB s
  | .exitE f => Sys2Proof.Machine.execExitE f s
  | .exittoB keep off => Sys2Proof.Machine.execExittoB keep off s
  | .exittoE f => Sys2Proof.Machine.execExittoE f s
  | .reformB off => Sys2Proof.Machine.execReformB off s
  | .reformE f => Sys2Proof.Machine.execReformE f s
  | .trapB code => Sys2Proof.Machine.execTrapB code s
  | .trapE f => Sys2Proof.Machine.execTrapE f s
  | .brkB code => Sys2Proof.Machine.execBrkB code s
  | .brkE f => Sys2Proof.Machine.execBrkE f s
  | .shflIdx f => Sys2Proof.Machine.execShflIdx f s
  | .shflXor f => Sys2Proof.Machine.execShflXor f s
  | .shflUp f => Sys2Proof.Machine.execShflUp f s
  | .shflDown f => Sys2Proof.Machine.execShflDown f s
  | .voteAny f => Sys2Proof.Machine.execVoteAny f s
  | .voteAll f => Sys2Proof.Machine.execVoteAll f s
  | .voteBallot f => Sys2Proof.Machine.execVoteBallot f s
  | .matchLanes f => Sys2Proof.Machine.execMatchLanes f s
  | .redux f => Sys2Proof.Machine.execRedux f s
  | .scan f => Sys2Proof.Machine.execScan f s
  | .isect f => Sys2Proof.Machine.execIsect f s
  | .arrive f => Sys2Proof.Machine.execArrive f s
  | .await f => Sys2Proof.Machine.execAwait f s
  | .arwait f => Sys2Proof.Machine.execArwait f s
  | .awaitElect f => Sys2Proof.Machine.execAwaitElect f s
  | .sign f => Sys2Proof.Machine.execSign f s
  | .evpost f => Sys2Proof.Machine.execEvpost f s
  | .evwait f => Sys2Proof.Machine.execEvwait f s
  | .yield f => Sys2Proof.Machine.execYield f s
  | .gdset f => Sys2Proof.Machine.execGdset f s
  | .gdclr f => Sys2Proof.Machine.execGdclr f s
  | .rdsys f => Sys2Proof.Machine.execRdsys f s
  | .wrsys f => Sys2Proof.Machine.execWrsys f s
  | .claim f => Sys2Proof.Machine.execClaim f s
  | .cede f => Sys2Proof.Machine.execCede f s
  | .lfsrd f => Sys2Proof.Machine.execLfsrd f s
  | .lfswr f => Sys2Proof.Machine.execLfswr f s
  | .probe f => Sys2Proof.Machine.execProbe f s
  | .icinv f => Sys2Proof.Machine.execIcinv f s
  | .ld f => Sys2Proof.Machine.execLd f s
  | .st f => Sys2Proof.Machine.execSt f s
  | .lds f => Sys2Proof.Machine.execLds f s
  | .sts f => Sys2Proof.Machine.execSts f s
  | .movixRead f => Sys2Proof.Machine.execMovixRead f s
  | .movixWrite f => Sys2Proof.Machine.execMovixWrite f s
  | .pf f => Sys2Proof.Machine.execPf f s
  | .fenceAcq f => Sys2Proof.Machine.execFenceAcq f s
  | .fenceRel f => Sys2Proof.Machine.execFenceRel f s
  | .fenceAr f => Sys2Proof.Machine.execFenceAr f s
  | .fenceSys f => Sys2Proof.Machine.execFenceSys f s
  | .atom min f => Sys2Proof.Machine.execAtom min f s
  | .red min f => Sys2Proof.Machine.execRed min f s
  | .mxacq f => Sys2Proof.Machine.execMxacq f s
  | .mxrel f => Sys2Proof.Machine.execMxrel f s
  | .omap f => Sys2Proof.Machine.execOmap f s
  | .mxwait f => Sys2Proof.Machine.execMxwait f s
  | .mxfence f => Sys2Proof.Machine.execMxfence f s
  | .mmad f => Sys2Proof.Machine.execMmad f s
  | .mmas f => Sys2Proof.Machine.execMmas f s
  | .mmaq f => Sys2Proof.Machine.execMmaq f s
  | .mscal f => Sys2Proof.Machine.execMscal f s
  | .aczero f => Sys2Proof.Machine.execAczero f s
  | .acld f => Sys2Proof.Machine.execAcld f s
  | .acst f => Sys2Proof.Machine.execAcst f s
  | .acmov f => Sys2Proof.Machine.execAcmov f s
  | .spz f => Sys2Proof.Machine.execSpz f s
  | .tnew f => Sys2Proof.Machine.execTnew f s
  | .tfree f => Sys2Proof.Machine.execTfree f s
  | .tinfo f => Sys2Proof.Machine.execTinfo f s
  | .tmov f => Sys2Proof.Machine.execTmov f s
  | .tadd f => Sys2Proof.Machine.execTadd f s
  | .tmul f => Sys2Proof.Machine.execTmul f s
  | .trnd f => Sys2Proof.Machine.execTrnd f s
  | .tdense f => Sys2Proof.Machine.execTdense f s
  | .tlu f => Sys2Proof.Machine.execTlu f s
  | .tchol f => Sys2Proof.Machine.execTchol f s
  | .ttrsm f => Sys2Proof.Machine.execTtrsm f s
  | .tdelta f => Sys2Proof.Machine.execTdelta f s
  | .tcopy f => Sys2Proof.Machine.execTcopy f s
  | .gath f => Sys2Proof.Machine.execGath f s
  | .scat f => Sys2Proof.Machine.execScat f s
  | .rules f => Sys2Proof.Machine.execRules f s
  | .tcwait f => Sys2Proof.Machine.execTcwait f s
  | .spred f => Sys2Proof.Machine.execSpred f s
  | .sfetch f => Sys2Proof.Machine.execSfetch f s
  | .scheck f => Sys2Proof.Machine.execScheck f s
  | .swait f => Sys2Proof.Machine.execSwait f s
  | .send core entry => Sys2Proof.Machine.execSend core entry s
  | .writeScratch core entry => Sys2Proof.Machine.execWriteScratch core entry s
  | .register lane => Sys2Proof.Machine.execRegister lane s
  | .atomicAtHome lane => Sys2Proof.Machine.execAtomicAtHome lane s
  | .homeReduction lane => Sys2Proof.Machine.execHomeReduction lane s
  | .readRequest lane => Sys2Proof.Machine.execReadRequest lane s
  | .readResponse lane => Sys2Proof.Machine.execReadResponse lane s
  | .windowWrite lane => Sys2Proof.Machine.execWindowWrite lane s
  | .acknowledgement lane => Sys2Proof.Machine.execAcknowledgement lane s
  | .atomicResult lane => Sys2Proof.Machine.execAtomicResult lane s
  | .satisfy core load => Sys2Proof.Machine.execSatisfy core load s
  | .evict view word => Sys2Proof.Machine.execEvict view word s
  | .signature core slot => Sys2Proof.Machine.execSignature core slot s
  | .engineStart e cmd => Sys2Proof.Machine.execEngineStart e cmd s
  | .discard e cmd => Sys2Proof.Machine.execDiscard e cmd s
  | .commit e cmd => Sys2Proof.Machine.execCommit e cmd s
  | .complete e cmd => Sys2Proof.Machine.execComplete e cmd s
  | .copyPiece core cmd => Sys2Proof.Machine.execCopyPiece core cmd s
  | .starterPiece cluster cmd => Sys2Proof.Machine.execStarterPiece cluster cmd s
  | .residueVerdict e cmd pass => Sys2Proof.Machine.execResidueVerdict e cmd pass s
  | .remoteWriteAck core cmd => Sys2Proof.Machine.execRemoteWriteAck core cmd s
  | .post core crew => Sys2Proof.Machine.execPost core crew s
  | .take core crew => Sys2Proof.Machine.execTake core crew s
  | .barrierArrive core row => Sys2Proof.Machine.execBarrierArrive core row s
  | .advance bar => Sys2Proof.Machine.execAdvance bar s
  | .merge core crew => Sys2Proof.Machine.execMerge core crew s
  | .drain core crew => Sys2Proof.Machine.execDrain core crew s
  | .binSelection core stream => Sys2Proof.Machine.execBinSelection core stream s
  | .issueGroupStart core stream => Sys2Proof.Machine.execIssueGroupStart core stream s
  | .pendingResultReturn core result => Sys2Proof.Machine.execPendingResultReturn core result s
  | .spillRefile core => Sys2Proof.Machine.execSpillRefile core s
  | .groupResume core group => Sys2Proof.Machine.execGroupResume core group s
  | .claimGrant core => Sys2Proof.Machine.execClaimGrant core s
  | .threadExit core slot => Sys2Proof.Machine.execThreadExit core slot s
  | .reformHoldEnd core bin => Sys2Proof.Machine.execReformHoldEnd core bin s
  | .faultService core pset pa => Sys2Proof.Machine.execFaultService core pset pa s
  | .release m r => Sys2Proof.Machine.execRelease m r s
  | .translationVerdict core req => Sys2Proof.Machine.execTranslationVerdict core req s
  | .farLineFill line data => Sys2Proof.Machine.execFarLineFill line data s
  | .destinationUnreachable dest => Sys2Proof.Machine.execDestinationUnreachable dest s
  | .llcWriteBack line => Sys2Proof.Machine.execLlcWriteBack line s
  | .maintenanceCommand range phase => Sys2Proof.Machine.execMaintenanceCommand range phase s
  | .migration phase => Sys2Proof.Machine.execMigration phase s
  | .placement lid gang place commit => Sys2Proof.Machine.execPlacement lid gang place commit s
  | .abandon lid => Sys2Proof.Machine.execAbandon lid s
  | .crewStart lid gang => Sys2Proof.Machine.execCrewStart lid gang s
  | .crewDone core crew => Sys2Proof.Machine.execCrewDone core crew s
  | .watchdogExpiry lid gang => Sys2Proof.Machine.execWatchdogExpiry lid gang s
  | .stallNotice lid gang => Sys2Proof.Machine.execStallNotice lid gang s
  | .preemption lid gang => Sys2Proof.Machine.execPreemption lid gang s
  | .gangResume lid gang => Sys2Proof.Machine.execGangResume lid gang s
  | .gangKill lid gang t => Sys2Proof.Machine.execGangKill lid gang t s
  | .relaunch lid gang place => Sys2Proof.Machine.execRelaunch lid gang place s
  | .heartbeat standby => Sys2Proof.Machine.execHeartbeat standby s
  | .bringUp ok => Sys2Proof.Machine.execBringUp ok s
  | .partitionRegisterWrite reg value => Sys2Proof.Machine.execPartitionRegisterWrite reg value s
  | .farWriteBackAck line => Sys2Proof.Machine.execFarWriteBackAck line s
  | .patrol part => Sys2Proof.Machine.execPatrol part s
  | .partMigdropClear part value => Sys2Proof.Machine.execPartMigdropClear part value s
  | .partOrphanClear part value => Sys2Proof.Machine.execPartOrphanClear part value s
  | .partEccClear part value => Sys2Proof.Machine.execPartEccClear part value s
  | .selPolicyWrite core lid value => Sys2Proof.Machine.execSelPolicyWrite core lid value s
  | .selAgeWrite core lid value => Sys2Proof.Machine.execSelAgeWrite core lid value s
  | .lfsrWrite core slot value => Sys2Proof.Machine.execLfsrWrite core slot value s
  | .accStatWrite core crew value => Sys2Proof.Machine.execAccStatWrite core crew value s
  | .linkActivity port => Sys2Proof.Machine.execLinkActivity port s
  | .malformedMessage m => Sys2Proof.Machine.execMalformedMessage m s
  | .farLineRequest port va => Sys2Proof.Machine.execFarLineRequest port va s
  | .attestationRequest m nonce => Sys2Proof.Machine.execAttestationRequest m nonce s
  | .latencyTolerance m => Sys2Proof.Machine.execLatencyTolerance m s
  | .recorderControl m base len => Sys2Proof.Machine.execRecorderControl m base len s
  | .imageLoad m slot image => Sys2Proof.Machine.execImageLoad m slot image s
  | .sessionOpen m number endpoint glb asids => Sys2Proof.Machine.execSessionOpen m number endpoint glb asids s
  | .sessionClose m number => Sys2Proof.Machine.execSessionClose m number s
  | .inboundWrite port supported va bytes => Sys2Proof.Machine.execInboundWrite port supported va bytes s
  | .ohpContain m lid gang => Sys2Proof.Machine.execOhpContain m lid gang s
  | .ohpSuspend m lid gang => Sys2Proof.Machine.execOhpSuspend m lid gang s
  | .ohpResume m lid gang => Sys2Proof.Machine.execOhpResume m lid gang s
  | .farPageService m index remote data => Sys2Proof.Machine.execFarPageService m index remote data s
  | .launchSubmission m => Sys2Proof.Machine.execLaunchSubmission m s
  | .memoryWrite m bytes => Sys2Proof.Machine.execMemoryWrite m bytes s
  | .memoryRead m => Sys2Proof.Machine.execMemoryRead m s
  | .heatUpdate => Sys2Proof.Machine.execHeatUpdate s
  | .sweep => Sys2Proof.Machine.execSweep s
  | .dependencePoll => Sys2Proof.Machine.execDependencePoll s
  | .takeover => Sys2Proof.Machine.execTakeover s
  | .deviceReset => Sys2Proof.Machine.execDeviceReset s
  | .romReportTimeout => Sys2Proof.Machine.execRomReportTimeout s
  | .powerStateEntry => Sys2Proof.Machine.execPowerStateEntry s
  | .illegalInstruction => Sys2Proof.Machine.execIllegalInstruction s
  | .standbyHeartbeatLoss => Sys2Proof.Machine.execStandbyHeartbeatLoss s

end Sys2Proof.Machine
end

