-- ==== Sys2Proof/Machine/Upsets.lean ====
section
/-!
DEFINITION. Errors that hardware takes and what follows at once (spec/25_containment.md R446, R458, R464; spec/05_core_execution.md
R124). What follows later, at a read or a consumption, is where the storage is read.
-/
namespace Sys2Proof.Machine

/-- The gangs of the crews bound on a core each have a trigger. -/
def State.triggerCore (s : State) (core : Nat) (t : TriggerReq) : State :=
  s.befall (((s.core core).crews.map fun b => (b.2.lid, b.2.gang)).eraseDups) t

/-- Bits of a stored sector change; bits changed back are as they were written. -/
def State.flip (s : State) (n : Nat) (bits : BitVec 304) : State := { s with flips := FMap.put 0 s.flips n (FMap.get 0 s.flips n ^^^ bits) }

/-- A double-bit error in a line of the LLC: a clean line is fetched again, a dirty one has its sectors poisoned. -/
def State.spoilLine (s : State) (line : Nat) : State :=
  match s.lines.find line with
  | some l => { s with lines := if l.dirty then s.lines.set line { l with poison := 3 } else s.lines.erase line }
  | none => s

/-- Bits of a line of the LLC change unseen: its tags stay (R462). -/
def State.silentFlip (s : State) (line : Nat) (bits : BitVec 512) : State :=
  { s with lines := s.lines.adjust line fun l => { l with data := l.data ^^^ bits } }

def Thread.spoilReg (t : Thread) (n : Nat) : Thread := { t with badV := insertNat n t.badV }

def Thread.spoilLatch (t : Thread) (n : Nat) : Thread := { t with badBp := insertNat n t.badBp }

/-- A list without entry i of those that a test picks. -/
def dropNth {α : Type} (p : α → Bool) : Nat → List α → List α
  | _, [] => []
  | i, x :: r => if p x then (match i with | 0 => r | j + 1 => x :: dropNth p j r) else x :: dropNth p i r

/-- One upset: a move of the agenda. (DEDUCED, log 18) -/
def State.upset (s : State) (u : Upset) : State :=
  match u with
  | .sector n bits => s.flip n bits
  | .llc line => s.spoilLine line
  | .silent line bits => s.silentFlip line bits
  | .single part => s.countEcc part 48
  | .tlb part i => { s with tlb := dropNth (fun e => e.part = part) i s.tlb }
  | .walk part i => { s with walks := dropNth (fun w => w.part = part) i s.walks }
  | .l1 core word => s.updCore core fun k => { k with v1 := k.v1.erase word }
  | .l2 cluster word => s.updCluster cluster fun q => { q with v2 := q.v2.erase word }
  | .icache core line => s.updCore core fun k => { k with icache := k.icache.erase line }
  | .scratch core word => s.updCore core fun k => { k with badScratch := insertNat word k.badScratch }
  | .acc core word => s.updCore core fun k => { k with badAcc := insertNat word k.badAcc }
  | .reg core slot n => s.updCore core fun k => k.updThread slot fun t => t.spoilReg n
  | .latch core slot n => s.updCore core fun k => k.updThread slot fun t => t.spoilLatch n
  | .coreState core => s.triggerCore core ⟨6, 0, core, 0⟩
  | .harts standby => { s with mgmt := if standby then { s.mgmt with hung1 := true } else { s.mgmt with hung0 := true } }

/-- The place that an upset names exists (R9, R10, R95, R100, R284). -/
def Upset.exists_ : Upset → Bool
  | .sector n _ => n < 2 ^ 38 || (2 ^ 38 ≤ n && n < 2 ^ 38 + 2 ^ 30) || (2 ^ 39 ≤ n && n < 2 ^ 39 + 2 ^ 34)
  | .llc _ | .silent _ _ | .harts _ => true
  | .single part | .tlb part _ | .walk part _ => part < Config.partitions
  | .l1 core _ | .icache core _ | .coreState core => core < Config.cores
  | .l2 cluster _ => cluster < Config.clusters
  | .scratch core word => core < Config.cores && word < 2 ^ 18
  | .acc core word => core < Config.cores && word < Config.accRows * Config.accCols
  | .reg core slot n => core < Config.cores && slot < Config.slots && n < 256
  | .latch core slot n => core < Config.cores && slot < Config.slots && n < 4

/-- A mismatch of the two executions of the instruction that a checked group stands at: nothing is written and both are repeated; a
second one contains the gangs of the group (R124, R446). (DEDUCED, log 25) -/
def State.mismatch (s : State) (core : Nat) (stream : Bool) : State :=
  match ((s.core core).stream stream).group with
  | some g =>
    if !g.key.chk then s
    else if g.repeated then
      s.befall ((s.core core).gangsOf g.members) ⟨1, 0, core, 0⟩
    else s.updCore core fun k => k.setGroup stream (some { g with repeated := true })
  | none => s

end Sys2Proof.Machine
end

