-- ==== Sys2Proof/Machine/Schedule.lean ====
section
/-!
DEFINITION. One move of the device, and the default schedule: which of the enabled moves comes next when the agenda names none
(spec/02_ordering_machine.md R30 leaves the order of enabled steps open).
-/
namespace Sys2Proof.Machine

/-! ## One move -/

/-- The executions of the instruction that a checked group stands at have differed twice: its gangs await their kill (R124). -/
def State.disproved (s : State) (g : Group) : Bool := g.repeated && (s.cur.gangsOf g.members).any fun q => s.containing q.1 q.2

/-- The stream issues the instruction its group stands at; a word that encodes none, or none that its block allows, is illegal
(R68). An instruction that reads a result which DET holds back suspends its group (R254); one that reads a register with an error
consumes it, and is not performed (R464), nor is one whose executions have differed twice (R124). -/
def issueStep (s : State) : Host.Outcome State Fault Refusal :=
  match s.curGroup with
  | none => .next s
  | some g =>
    match fetched g with
    | some i =>
      let bad := badLanes s.cur g i
      if s.disproved g then .next s
      else if s.cur.readsHeld g i then .next (s.suspend g i)
      else if !bad.isEmpty then .next (s.consumeRegs s.curCore bad)
      else exec i s
    | none => exec .illegalInstruction s

/-- One piece of the work under way. -/
def Task.step (t : Task) (s : State) : State :=
  match t with
  | .session n => s.serveSession n
  | .peer i => s.servePeer i
  | .snapshots lid => s.snapStep lid
  | .restore lid gang => s.restoreStep lid gang
  | .blocks => s.blockStep

/-- There may be a next piece. -/
def Task.open_ (t : Task) (s : State) : Bool :=
  match t with
  | .session n => !(s.flow n).held.isEmpty
  | .peer i => decide (i < s.peers.length)
  | .snapshots lid => (s.launches.find lid).any fun l => l.eligible && !l.snapped
  | .restore lid gang => ((s.launches.find lid).bind fun l => l.gangs.find gang).any fun g => g.phase = .killed && !g.restored
  | .blocks => !s.blockQ.isEmpty

/-- At most n pieces. -/
def Task.run (t : Task) : Nat → State → State
  | 0, s => s
  | n + 1, s => if t.open_ s then t.run n (t.step s) else s

/-- One move: time passes, a step of the machine is taken, a stream issues, or hardware errs. -/
def runMove (m : Move) (s : State) : Host.Outcome State Fault Refusal :=
  match m with
  | .tick n => .next { s with cycle := s.cycle + n }
  | .op i => if i.isCode then .next s else exec i s
  | .issue c st => if c < Config.cores then issueStep { s with curCore := c, curStream := st } else .fault .noSuchCore
  | .mismatch c st => .next (s.mismatch c st)
  | .bank e cmd core addr len => .next (s.bank e cmd core addr len)
  | .upset u => .next (if u.exists_ then s.upset u else s)
  | .work t n => .next (t.run n s)

/-! ## The default schedule -/

/-- The step that delivers a message at the head of a lane. -/
def delivery (id : LaneId) : Msg → Instr
  | .register _ _ _ _ _ _ _ _ | .sector _ _ _ _ _ => .register id
  | .atomic _ _ _ _ _ _ _ _ _ => .atomicAtHome id
  | .reduce _ _ _ _ _ _ _ _ _ => .homeReduction id
  | .readReq _ _ _ _ _ => .readRequest id
  | .readResp _ _ _ _ _ _ _ _ _ _ => .readResponse id
  | .window _ _ _ _ _ _ => .windowWrite id
  | .ack _ _ _ => .acknowledgement id
  | .result _ _ _ _ _ _ => .atomicResult id

/-- The number of an endpoint, below 2^10. -/
def endpointKey : Endpoint → Nat
  | .lse c => c % 2 ^ 8
  | .mxe c => 2 ^ 8 + c % 2 ^ 8
  | .copy c => 2 * 2 ^ 8 + c % 2 ^ 8
  | .starter q => 3 * 2 ^ 8 + q % 2 ^ 5
  | .part p => 3 * 2 ^ 8 + 2 ^ 5 + p % 2 ^ 5
  | .port p => 3 * 2 ^ 8 + 2 ^ 6 + p % 2 ^ 5
  | .mgmt => 3 * 2 ^ 8 + 2 ^ 7

/-- The steps that R37 asks to be taken in the end, each with its place in the round: the head of every lane, and of every core its
store buffer and its load queue, oldest first. -/
def urgentMoves (s : State) : List (Nat × Instr) :=
  (s.lanes.flatMap fun l => (l.msgs.head?.map fun m =>
    (endpointKey l.id.src * 2 ^ 14 + endpointKey l.id.dst * 2 ^ 4 + l.id.hash % 2 ^ 4, delivery l.id m)).toList) ++
  s.cores.flatMap fun e =>
    (e.2.sob.map fun x => (2 ^ 24 + 2 * e.1, match x.kind with
      | .scratch | .window _ => .writeScratch e.1 x.id
      | .global | .atomic _ _ _ _ _ | .reduction _ _ _ _ => .send e.1 x.id)) ++
    (e.2.lq.map fun q => (2 ^ 24 + 2 * e.1 + 1, .satisfy e.1 q.id))

/-- Places of the round. -/
def roundPlaces : Nat := 2 ^ 24 + 2 ^ 9

/-- Steps of the commands of an engine; residues agree where no hardware error occurs. -/
def engineMoves (e : EngineId) (x : Engine) : List Instr :=
  x.queue.flatMap fun c =>
    let piece : List Instr := match e with
      | .mxe _ => [.residueVerdict e c.id true]
      | .copy k => [.copyPiece k c.id]
      | .starter q => [.starterPiece q c.id, .residueVerdict e c.id true]
    [.engineStart e c.id, .discard e c.id, .commit e c.id] ++ piece ++ [.complete e c.id]

/-- Steps of one thread slot. -/
def slotMoves (c slot : Nat) : List Instr := [.signature c slot, .threadExit c slot]

/-- Steps of a core; issue, and those of the round, excepted. -/
def coreMoves (c : Nat) (k : Core) : List Instr :=
  (k.results.map fun r => .pendingResultReturn c r.id) ++
  (k.xlat.map fun q => .translationVerdict c q.id) ++
  (k.rows.map fun r => .barrierArrive c r.1) ++
  (k.threads.flatMap fun t => slotMoves c t.1) ++
  (k.crews.flatMap fun b => [.post c b.1, .take c b.1, .merge c b.1, .drain c b.1, .crewDone c b.1]) ++
  [.claimGrant c, .spillRefile c] ++ ((List.range k.bins.length).map fun i => .reformHoldEnd c i) ++
  ((k.suspended ++ k.stream0.group.toList ++ k.stream1.group.toList).map fun g => .groupResume c g.id) ++
  ([false, true].flatMap fun st => [.binSelection c st, .issueGroupStart c st]) ++
  engineMoves (.mxe c) k.mxe ++ engineMoves (.copy c) k.copy

/-- The first place that R434 allows for a gang: the lowest cluster, and on each of its cores the lowest free bind record, rows
and scratchpad. -/
def firstPlace (s : State) (lid : Nat) (l : Launch) : List PlaceReq :=
  let gcr := freshFrom (s.gcrs.map (·.1)) 0 (s.gcrs.length + 1)
  let spot (e : Nat × CrewSpec × Nat) : PlaceReq :=
    let k := s.core e.1
    let starts := 0 :: (s.heldScratch k).map fun h => h.1 + h.2
    { crew := e.2.2, core := e.1, bind := ((List.range Config.binds).find? fun b => (k.binds.find b).isNone).getD 0,
      rows := ((List.range 32).filter fun r => !k.heldRows.contains r).take e.2.1.coh,
      sbase := ((starts.find? fun a => s.scratchFree k a (scratchSize e.2.1.scr)).getD 0) / 2048, gcr := gcr }
  match (List.range Config.clusters).findSome? fun q => s.layCrews q lid l l.record.crews [] with
  | some cores => (cores.zip l.record.crews.zipIdx).map spot
  | none => []

/-- Steps of a gang. -/
def gangMoves (s : State) (lid : Nat) (l : Launch) (gang : Nat) (g : Gang) : List Instr :=
  match g.phase with
  | .unplaced => [.placement lid gang (firstPlace s lid l) false]
  | .reserved => [.placement lid gang g.place true]
  | .committed => [.crewStart lid gang, .preemption lid gang]
  | .running => [.watchdogExpiry lid gang, .stallNotice lid gang, .preemption lid gang, .gangResume lid gang]
  | .saved => [.gangResume lid gang]
  | .killed => [.relaunch lid gang g.place]
  | .stopping | .killing | .freed | .done => []

/-- A period of so many cycles ends now. -/
def State.due (s : State) (period : Nat) : Bool := s.cycle % period = 0

/-- Steps of management and the dispatch engine; heartbeats and polls fall due every 1 ms. -/
def managementMoves (s : State) : List Instr :=
  (if s.due (1000 * cyclesPerUs) then [.heartbeat false, .heartbeat true, .dependencePoll] else []) ++
  s.launches.flatMap (fun e => e.2.gangs.flatMap fun g => gangMoves s e.1 e.2 g.1 g.2) ++
  (s.contain.map fun c => .gangKill c.lid c.gang c.trigger) ++ (s.bars.map fun b => .advance b.id) ++
  [.heatUpdate, .takeover, .standbyHeartbeatLoss, .deviceReset, .powerStateEntry]

/-- Work under way. -/
def State.tasks (s : State) : List Task :=
  (if s.blockQ.isEmpty then [] else [.blocks]) ++ (s.flows.map fun f => .session f.1) ++ ((List.range s.peers.length).map .peer) ++
  s.launches.flatMap fun l =>
    (if l.2.snapped then [] else [.snapshots l.1]) ++ (l.2.gangs.filter fun g => g.2.phase = .killed).map fun g => .restore l.1 g.1

/-- Pieces that the default schedule takes at a time. -/
def workLoad : Nat := 256

/-- What may come next beside the steps of the round. -/
def candidates (s : State) : List Move :=
  if s.managed && s.up then
    ((s.cores.flatMap (fun e => coreMoves e.1 e.2) ++ s.clusters.flatMap (fun e => engineMoves (.starter e.1) e.2.starter) ++
      managementMoves s).map Move.op) ++ ((s.tasks.filter fun t => t.open_ s).map fun t => .work t workLoad) ++
      s.cores.flatMap fun e => [.issue e.1 false, .issue e.1 true]
  else if s.boot.phase = .recovery then []
  else [.op (.bringUp true)]

/-- A move that does not leave the state as it is. -/
def changes (s : State) (m : Move) : Bool :=
  match runMove m s with
  | .next t => decide (t.agenda = s.agenda) && decide ({ t with curCore := s.curCore, curStream := s.curStream } ≠ s)
  | _ => false

/-- A step goes behind those that are no further ahead. -/
def placeStep (ahead : Nat × Instr → Nat) (x : Nat × Instr) : List (Nat × Instr) → List (Nat × Instr)
  | [] => [x]
  | y :: r => if ahead y ≤ ahead x then y :: placeStep ahead x r else x :: y :: r

/-- The steps of the round, from the place on that the hand shows. -/
def fromHand (hand : Nat) (l : List (Nat × Instr)) : List Move :=
  let ahead (e : Nat × Instr) : Nat := (e.1 + roundPlaces - hand % roundPlaces) % roundPlaces
  (l.foldl (fun a x => placeStep ahead x a) []).map fun e => .op e.2

/-- The move taken when the agenda is empty: in every other cycle the first of the round that changes something, so that each of them
that stays enabled has its turn (R37); else the first other candidate that does, from a place in their list that goes round with
time; time passes when nothing does. (DESIGN CHOICE, log 2) -/
def autoMove (s : State) : Move :=
  let l := candidates s
  let n := s.cycle % (l.length + 1)
  let others := l.drop n ++ l.take n
  let round := fromHand (s.cycle / 2) (urgentMoves s)
  ((if s.cycle % 2 = 0 then round ++ others else others ++ round).find? (changes s)).getD (.tick 0)

end Sys2Proof.Machine
end

