-- ==== Sys2Proof/Machine/Step.lean ====
section
/-!
DEFINITION. One step of the device: the next move of the agenda, or, with an empty agenda, the default schedule's, which takes a
cycle.
-/
namespace Sys2Proof.Machine

def step (s : State) : Host.Outcome State Fault Refusal :=
  match s.agenda with
  | m :: r => runMove m { s with agenda := r }
  | [] => runMove (autoMove s) { s with cycle := s.cycle + 1 }

/-- The instruction of nbits bits w placed where the next step fetches: see Fetch.lean. -/
def State.withFetchWord (s : State) (nbits w : Nat) : State := placeWords s (tableWords nbits w)

end Sys2Proof.Machine
end

