-- ==== Sys2Proof/Safety.lean ====
section
/-!
DEFINITION. What counts as a safe run, and the predicates that the statements are written with.
-/
namespace Sys2Proof

/-- k steps from s all answer a next state. -/
def SafeFor : Nat → Machine.State → Prop
  | 0, _ => True
  | k + 1, s => ∃ t, Machine.step s = .next t ∧ SafeFor k t

end Sys2Proof

namespace Sys2Proof.Claims

open Sys2Proof.Machine

/-! ## How an issue is described -/

/-- The stream's group after an instruction: a group that no thread is left in has ended. -/
def left (g : Group) : Option Group := if g.members.isEmpty then none else some g

/-- The state after an issue that writes threads and rows of the issuing core and moves its group to g; nothing else. -/
def issued (s : State) (g : Group) (T : FMap Thread) (R : FMap Row) : State :=
  s.setCore s.curCore { s.cur.setGroup s.curStream (left g) with threads := T, rows := R }

/-- The group g issues and nothing that the instruction touches is pending (R116). -/
structure Ready (s : State) (g : Group) (gd : Guard) (latch : Bool) (regs : Thread → Nat → List Dst) : Prop where
  group : s.curGroup = some g
  clear : mustStall s.cur g gd regs = false
  free : latchBusy s.cur g latch = false

/-- i answers a next state in which every active lane x has the effect out x, latch bp(ring) is 0 in the other members where the
instruction produces a result (R51, R152), a scalar, in every cohort with an active lane, takes the value of the group's highest
active lane (R98), and nothing else has changed. -/
def Writes (i : Instr) (s : State) (g : Group) (gd : Guard) (latch : Bool) (out : Nat → LaneOut) : Prop :=
  ∃ (T : FMap Thread) (R : FMap Row), exec i s = .next (issued s (g.past i latch) T R) ∧
    (∀ x, FMap.get {} T x =
      if x ∈ g.members then
        (if x ∈ activeSlots s.cur g gd then (s.cur.thread x).apply g.ring (out x)
          else if latch then (s.cur.thread x).setLatch g.ring 0 else s.cur.thread x)
      else s.cur.thread x) ∧
    ∀ r, FMap.get {} R r =
      if ∃ x ∈ activeSlots s.cur g gd, rowOf x = r then (s.cur.row r).writeAll (out (topSlot (activeSlots s.cur g gd))).writes
      else s.cur.row r

/-- Lane x reads v from an operand of 64 or 32 bits. -/
def Reads (s : State) (f : EForm) (o : Opnd) (wide : Bool) (x : Nat) (v : Dword) : Prop :=
  readOpnd (s.cur.thread x) (s.cur.row (rowOf x)) f o wide = .ok v

/-- Lane x writes its result to ds. -/
def Into (s : State) (f : EForm) (wide : Bool) (x : Nat) (ds : List Dst) : Prop :=
  dstOpnd (s.cur.thread x) (s.cur.row (rowOf x)) f f.d wide = .ok ds

/-- An instruction of one source that completes wherever its operands are within bounds. -/
def One (i : Instr) (f : EForm) (sp : ESpec) (wa wd : Bool) (op : Dword → Dword) : Prop :=
  ∀ (s : State) (g : Group) (a : Nat → Dword) (ds : Nat → List Dst), Ready s g f.guard (sp.produces f) (touched sp f) →
    (∀ x ∈ activeSlots s.cur g f.guard, Reads s f f.a wa x (a x) ∧ Into s f wd x (ds x)) →
    Writes i s g f.guard (sp.produces f) fun x => laneResult f (ds x) wd (op (a x))

/-- Two sources. -/
def Two (i : Instr) (f : EForm) (sp : ESpec) (wa wb wd : Bool) (op : Dword → Dword → Dword) : Prop :=
  ∀ (s : State) (g : Group) (a b : Nat → Dword) (ds : Nat → List Dst), Ready s g f.guard (sp.produces f) (touched sp f) →
    (∀ x ∈ activeSlots s.cur g f.guard, Reads s f f.a wa x (a x) ∧ Reads s f f.b wb x (b x) ∧ Into s f wd x (ds x)) →
    Writes i s g f.guard (sp.produces f) fun x => laneResult f (ds x) wd (op (a x) (b x))

/-- Three sources. -/
def Three (i : Instr) (f : EForm) (wa wb wc wd : Bool) (op : Dword → Dword → Dword → Dword) : Prop :=
  ∀ (s : State) (g : Group) (a b c : Nat → Dword) (ds : Nat → List Dst),
    Ready s g f.guard ((entryOf i).produces f) (touched (entryOf i) f) →
    (∀ x ∈ activeSlots s.cur g f.guard,
      Reads s f f.a wa x (a x) ∧ Reads s f f.b wb x (b x) ∧ Reads s f f.c wc x (c x) ∧ Into s f wd x (ds x)) →
    Writes i s g f.guard ((entryOf i).produces f) fun x => laneResult f (ds x) wd (op (a x) (b x) (c x))

/-- A two-source integer instruction in its B and E shapes. -/
def IntTwo (ib : BForm → Instr) (ie : EForm → Instr) (op : BitVec 4 → Bool → Dword → Dword → Dword) : Prop :=
  (∀ f : BForm, Two (ib f) (bToE f) (entryOf (ie (bToE f))) false false false (op 0 false)) ∧
  ∀ f : EForm, Two (ie f) f (entryOf (ie f)) (wideInt f) (wideInt f) (wideInt f) (op f.sub f.sat)

/-- A one-source integer instruction in its B and E shapes. -/
def IntOne (ib : BUnary → Instr) (ie : EForm → Instr) (op : BitVec 4 → Bool → Dword → Dword) : Prop :=
  (∀ f : BUnary, One (ib f) (uToE f) (entryOf (ie (uToE f))) false false (op 0 false)) ∧
  ∀ f : EForm, One (ie f) f (entryOf (ie f)) (wideInt f) (wideInt f) (op f.sub f.sat)

/-- A predicate of C that a lane reads beside A and B and writes beside D (R155). -/
def Chained (i : Instr) (f : EForm) (op : Nat → Nat → Nat → Bool → Nat × Bool) : Prop :=
  ∀ (s : State) (g : Group) (a b : Nat → Dword) (ds : Nat → List Dst),
    Ready s g f.guard ((entryOf i).produces f) (touched (entryOf i) f) →
    (∀ x ∈ activeSlots s.cur g f.guard, Reads s f f.a (wideInt f) x (a x) ∧ Reads s f f.b (wideInt f) x (b x) ∧ Into s f (wideInt f) x (ds x)) →
    Writes i s g f.guard ((entryOf i).produces f) fun x =>
      let y := op (intWidth f.sub) (typeNat f.sub (a x)) (typeNat f.sub (b x)) ((s.cur.thread x).pred f.c.code.toNat)
      let o := laneResult f (ds x) (wideInt f) (BitVec.ofNat 64 y.1)
      { o with writes := o.writes ++ [(.p f.c.code.toNat, if y.2 then 1 else 0)] }

/-- A two-source floating-point instruction in its B and E shapes. -/
def FloatTwo (ib : BForm → Instr) (ie : EForm → Instr) (op : EForm → Dword → Dword → Dword) : Prop :=
  (∀ f : BForm, Two (ib f) (bToE f) (entryOf (ie (bToE f))) false false false (op (bToE f))) ∧
  ∀ f : EForm, Two (ie f) f (entryOf (ie f)) (wideFloat f) (wideFloat f) (wideFloat f) (op f)

/-- A special function in its B and E shapes: FP32 in the B shape. -/
def SpecialOne (ib : BUnary → Instr) (ie : EForm → Instr) (fn : SpecialFn) : Prop :=
  let val (f : EForm) (a : Dword) : Dword := BitVec.ofNat 64 (specialFn fn (floatFmt f.sub.toNat) (pickElem (floatFmt f.sub.toNat) 0 a))
  (∀ f : BUnary, One (ib f) (uToE f) (entryOf (ie (uToE f))) false false (val (uToE f))) ∧
  ∀ f : EForm, One (ie f) f (entryOf (ie f)) false false (val f)

/-- A conversion of the elements of A, or of A and B: with RM 101 each element uses the rounding state and advances it (R173). -/
def Converts (i : Instr) (f : EForm) (wa wd : Bool) (useB : Bool) (src w : Nat) (elems : Dword → Dword → List Nat) (ext : Nat → Nat) :
    Prop :=
  ∀ (s : State) (g : Group) (a b : Nat → Dword) (ds : Nat → List Dst),
    Ready s g f.guard ((entryOf i).produces f) (touched (entryOf i) f) →
    (∀ x ∈ activeSlots s.cur g f.guard,
      Reads s f f.a wa x (a x) ∧ (useB = true → Reads s f f.b wa x (b x)) ∧ Into s f wd x (ds x)) →
    Writes i s g f.guard ((entryOf i).produces f) fun x =>
      let y := packElems f.sub.toNat src f.rm.toNat f.sat w (elems (a x) (b x)) (s.cur.thread x).lfsr
      let o := laneResult f (ds x) wd (BitVec.ofNat 64 (ext y.1))
      if f.rm = 5 then { o with lfsr := some y.2 } else o

/-- A cross-lane instruction: res gives the value of lane x from the active slots and what each of them reads. -/
def Cross (i : Instr) (f : EForm) (wa wd : Bool) (res : List Nat → (Nat → Dword) → Nat → Dword) : Prop :=
  ∀ (s : State) (g : Group) (a : Nat → Dword) (ds : Nat → List Dst),
    Ready s g f.guard ((entryOf i).produces f) (touched (entryOf i) f) →
    (∀ x ∈ activeSlots s.cur g f.guard, Reads s f f.a wa x (a x) ∧ (∃ b, Reads s f f.b false x b) ∧ Into s f wd x (ds x)) →
    Writes i s g f.guard ((entryOf i).produces f) fun x => laneResult f (ds x) wd (res (activeSlots s.cur g f.guard) a x)

/-- A vote: each active lane reads the predicate in A. -/
def Votes (i : Instr) (f : EForm) (res : List Nat → (Nat → Bool) → Dword) : Prop :=
  ∀ (s : State) (g : Group) (ds : Nat → List Dst),
    Ready s g f.guard ((entryOf i).produces f) (touched (entryOf i) f) →
    (∀ x ∈ activeSlots s.cur g f.guard, (∃ a b, Reads s f f.a false x a ∧ Reads s f f.b false x b) ∧ Into s f false x (ds x)) →
    Writes i s g f.guard ((entryOf i).produces f) fun x =>
      laneResult f (ds x) false (res (activeSlots s.cur g f.guard) fun y => (s.cur.thread y).pred f.a.code.toNat)

/-- A shuffle: A of the source lane with p6 false, or 0 with p6 true where that lane is not active (R182). -/
def Shuffles (i : Instr) (f : EForm) (m : ShflMode) : Prop :=
  ∀ (s : State) (g : Group) (a b : Nat → Dword) (ds : Nat → List Dst),
    Ready s g f.guard ((entryOf i).produces f) (fun t r => .p 6 :: touched (entryOf i) f t r) →
    (∀ x ∈ activeSlots s.cur g f.guard, Reads s f f.a (f.sub = 1) x (a x) ∧ Reads s f f.b false x (b x) ∧ Into s f (f.sub = 1) x (ds x)) →
    Writes i s g f.guard ((entryOf i).produces f) fun x =>
      let from_ := (shflSource m (laneOf x) ((b x).toNat % 2 ^ 32)).bind (slotInLane (activeSlots s.cur g f.guard))
      let o := laneResult f (ds x) (f.sub = 1) (match from_ with | some y => a y | none => 0)
      { o with writes := o.writes ++ [(.p 6, if from_ = none then 1 else 0)] }

/-- The values that the lanes 0 to 31 contribute: the identity in a lane that is not active (R185). -/
def contributions (sub : Nat) (act : List Nat) (a : Nat → Dword) : List Nat :=
  (List.range 32).map fun l => match slotInLane act l with
    | some y => (a y).toNat
    | none => reduxIdentity sub

/-! ## Where a thread goes (R105, R108, R109) -/

/-- T has t, as thread x, sent to the address a: Pending while results are outstanding; else filed in the entry of its key, or, where
there is none, in the spill bin when all entries are taken or another thread waits there (R110, R125). B are the entries after it,
held tells that it goes by reform. -/
def Filed (k : Core) (B : List Bin) (x : Nat) (t : Thread) (T : FMap Thread) (a h : Dword) (resume : Option ResumePt)
    (held yielded : Bool) : Prop :=
  ∃ ph rf y v, FMap.get {} T x = { t with next := a, header := h, resume := resume, phase := ph, reform := rf, yielding := y, void := v } ∧
    if t.pend.isEmpty then
      let key : BinKey := ⟨(k.crewAt x).asid.toNat, (k.crewAt x).chk, a⟩
      v = none ∧ ((ph = .waiting ∧ rf = false ∧ y = false ∧ ∃ b ∈ B, b.key = key ∧ x ∈ b.members ∧ (held = true → k.crewOf x ∈ b.held) ∧ (yielded = true → b.yielded = true)) ∨
        (ph = .spilled ∧ rf = held ∧ y = yielded ∧ (∀ b ∈ B, b.key ≠ key) ∧
          (Config.bins ≤ B.length ∨ ∃ z, z ≠ x ∧ ((k.thread z).phase = .spilled ∨ (FMap.get {} T z).phase = .spilled))))
    else ph = .pending ∧ rf = held ∧ y = yielded ∧ v = t.void

/-- The entries B hold what A held, and beyond it only the slots. -/
def Grown (A B : List Bin) (slots : List Nat) : Prop :=
  (∀ a ∈ A, ∃ b ∈ B, b.key = a.key ∧ b.filed = a.filed ∧ (∀ y ∈ a.members, y ∈ b.members) ∧ (∀ y ∈ a.held, y ∈ b.held) ∧
    (a.yielded = true → b.yielded = true)) ∧
  ∀ b ∈ B, ∀ y ∈ b.members, y ∈ slots ∨ ∃ a ∈ A, a.key = b.key ∧ y ∈ a.members

/-- i ends the block: it answers a next state in which every thread x of the group has left it for dest x, with the registers that
regs gives it, and nothing else has changed. -/
def Leaves (i : Instr) (s : State) (g : Group) (dest : Nat → Dword) (regs : Nat → Thread → Thread) (held : Nat → Bool) : Prop :=
  ∃ (T : FMap Thread) (B : List Bin),
    exec i s = .next (s.setCore s.curCore { s.cur.setGroup s.curStream none with threads := T, bins := B }) ∧
    (∀ x, x ∉ g.members → FMap.get {} T x = s.cur.thread x) ∧
    (∀ x ∈ g.members, Filed s.cur B x (regs x (s.cur.thread x)) T (dest x) (dest x) none (held x) false) ∧
    Grown s.cur.bins B g.members

/-! ## Taking a fault (R119, R121, R146) -/

/-- A thread parked by q: nothing of it changes but its phase, where it resumes, and its latches, of which the record keeps those that
the resume instruction reads. -/
def parkedThread (q : ParkReq) (t : Thread) : Thread :=
  { t with phase := .parked, next := q.resume, header := q.header, reform := false, yielding := false, bp := [], badBp := t.badBp.filter q.latches.contains,
           pend := t.pend.filter fun d => !dstIsLatch d,
           resume := some { ring := q.ring, latches := t.bp.filter fun e => q.latches.contains e.1 } }

/-- t is s after the park q on core c: the threads are parked, a park set with an unused number holds their record, which is
posted to the fault queue and, unless Tsunath serves the page, reported. A park of no thread is nothing. -/
def Parked (s t : State) (c : Nat) (q : ParkReq) : Prop :=
  (q.slots = [] → t = s) ∧
  (q.slots ≠ [] → ∃ (T : FMap Thread) (n : Nat), (∀ p ∈ (s.core c).psets, p.pset ≠ n) ∧ n ∉ s.savedPsets c ∧
    (∀ x, FMap.get {} T x = if x ∈ q.slots then parkedThread q ((s.core c).thread x) else (s.core c).thread x) ∧
    let r := (s.core c).faultRecord c s.cycle n q
    let u : State := { s.setCore c { s.core c with threads := T, psets := (s.core c).psets ++ [⟨n, r, q.service⟩] } with
          faultQ := s.faultQ ++ [r] }
    t = if q.service.isSome then u else u.report r)

/-- The threads of the group park, all in one set, at the instruction, which has no effect. That DETAIL is 0 is log 73. -/
def AllPark (i : Instr) (s : State) (g : Group) (code : Nat) : Prop :=
  ∃ t, Parked s t s.curCore
      { slots := g.members, code := code, detail := 0, addr := 0, resume := g.here, header := g.header, ring := g.ring,
        latches := latchesRead i, coh := g.cf, wait := isWait i } ∧
    exec i s = .next (t.setCurGroup (g.without g.members))

/-- Where each active lane is bad, the active lanes park with the code at the instruction, in a cohort block the whole cohort; what stays
of the group goes on, with latch 0 where the instruction produces a result. That DETAIL is 0 is log 73. -/
def LanesPark (i : Instr) (gd : Guard) (latch : Bool) (regs : Thread → Nat → List Dst) (code : Nat) (bad : State → Nat → Prop) : Prop :=
  ∀ (s : State) (g : Group), Ready s g gd latch regs → activeSlots s.cur g gd ≠ [] → (∀ x ∈ activeSlots s.cur g gd, bad s x) →
    let parked := if g.cf then g.members else activeSlots s.cur g gd
    ∃ (t : State) (T : FMap Thread),
      Parked s t s.curCore
        { slots := parked, code := code, detail := 0, addr := 0, resume := g.here, header := g.header, ring := g.ring,
          latches := latchesRead i, coh := g.cf, wait := false } ∧
      exec i s = .next (t.setCore s.curCore
        { (t.core s.curCore).setGroup s.curStream (left ((g.without parked).past i latch)) with threads := T }) ∧
      ∀ y, FMap.get {} T y = if y ∈ g.members ∧ y ∉ parked ∧ latch = true then ((t.core s.curCore).thread y).setLatch g.ring 0
        else (t.core s.curCore).thread y

/-- An integer instruction whose operand A is out of the bounds of its index register, or of the allotment (R53, R102). -/
def OutsideParks (ie : EForm → Instr) : Prop :=
  ∀ f : EForm, LanesPark (ie f) f.guard ((entryOf (ie f)).produces f) (touched (entryOf (ie f)) f) 0x05 fun s x =>
    readOpnd (s.cur.thread x) (s.cur.row (rowOf x)) f f.a (wideInt f) = .error 0x05

/-! ## Terminators (R129 to R137) -/

/-- i sends the threads whose guard is true to their target and the others to the next instruction's address. -/
def Jumps (i : Instr) (gd : Guard) (regs : List Dst) (target : State → Group → Nat → Dword) (held : Bool) : Prop :=
  ∀ (s : State) (g : Group), s.curGroup = some g → mustStall s.cur g gd (fun _ _ => regs) = false →
    Leaves i s g (fun x => if guardHolds gd (s.cur.thread x) then target s g x else fallOf g i) (fun _ t => t)
      fun x => held && guardHolds gd (s.cur.thread x)

/-- A call or a return: an allotment of 256 is needed where the guard is true, and a call leaves the code pointer of the next
instruction's address in v255 (R130). Threads that have less park with the allotment fault at the terminator, which has no effect
in them; in a cohort block the whole cohort does (R119). -/
def Calls (i : Instr) (gd : Guard) (regs : List Dst) (target : State → Group → Nat → Dword) (link : Bool) : Prop :=
  ∀ (s : State) (g : Group), s.curGroup = some g → mustStall s.cur g gd (fun _ _ => regs) = false →
    let on (x : Nat) : Bool := guardHolds gd (s.cur.thread x)
    let dest (x : Nat) : Dword := if on x then target s g x else fallOf g i
    let next (x : Nat) (t : Thread) : Thread := if link && on x then t.setReg 255 (linkValue (s.cur.crewAt x) (fallOf g i)) else t
    let low := (activeSlots s.cur g gd).filter fun x => (s.cur.row (rowOf x)).allot < 256
    let parked := if g.cf then g.members else low
    (low = [] → Leaves i s g dest next fun _ => false) ∧
    (low ≠ [] → ∃ (t : State) (T : FMap Thread) (B : List Bin),
      Parked s t s.curCore
        { slots := parked, code := 0x04, detail := 0, addr := 0, resume := g.here, header := g.header, ring := g.ring,
          latches := latchesRead i, coh := g.cf, wait := false } ∧
      exec i s = .next (t.setCore s.curCore { (t.core s.curCore).setGroup s.curStream none with threads := T, bins := B }) ∧
      (∀ x, x ∉ g.members ∨ x ∈ parked → FMap.get {} T x = (t.core s.curCore).thread x) ∧
      (∀ x ∈ g.members, x ∉ parked → Filed s.cur B x (next x (s.cur.thread x)) T (dest x) (dest x) none false false) ∧
      Grown s.cur.bins B g.members)

/-- exitto: the threads whose guard is true are marked and keep their registers below KEEP (R104); then each cohort of the group
shrinks if all its live threads are marked. -/
def MarksAndLeaves (i : Instr) (gd : Guard) (keep : Nat) (target : Group → Dword) : Prop :=
  ∀ (s : State) (g : Group), s.curGroup = some g → mustStall s.cur g gd (fun _ _ => []) = false →
    ∃ (T : FMap Thread) (B : List Bin),
      exec i s = .next (s.setCore s.curCore
        ((rowsOf g.members).foldl Core.shrink { s.cur.setGroup s.curStream none with threads := T, bins := B })) ∧
      (∀ x, x ∉ g.members → FMap.get {} T x = s.cur.thread x) ∧
      (∀ x ∈ g.members,
        let on := guardHolds gd (s.cur.thread x)
        let t := s.cur.thread x
        Filed s.cur B x
          (if on then { t with keep := some keep, void := some keep, v := t.v.filter fun e => e.1 < keep, badV := t.badV.filter (· < keep) }
            else t) T
          (if on then target g else fallOf g i) (if on then target g else fallOf g i) none false false) ∧
      Grown s.cur.bins B g.members

/-- exit: drained threads whose guard is true become Exited and leave every convergence set; the others fall through. -/
def Exits (i : Instr) (gd : Guard) : Prop :=
  ∀ (s : State) (g : Group), s.curGroup = some g → mustStall s.cur g gd (fun _ _ => []) = false →
    (∀ x ∈ activeSlots s.cur g gd, s.cur.drained x = true ∧ ∀ e ∈ (s.cur.crewAt x).cv, e.2.pending = none) →
    ∃ (T : FMap Thread) (R : FMap Row) (C : FMap Crew) (B : List Bin) (bars : List Barrier),
      exec i s = .next { s.setCore s.curCore { s.cur.setGroup s.curStream none with threads := T, rows := R, crews := C, bins := B } with
        bars := bars } ∧
      (∀ x ∈ activeSlots s.cur g gd, (FMap.get {} T x).phase = .exited ∧ (FMap.get {} T x).bp = [] ∧
        ∀ n, x ∉ ((FMap.get {} C (s.cur.crewOf x)).conv n).declared) ∧
      ∀ x ∈ g.members, guardHolds gd (s.cur.thread x) = false →
        (FMap.get {} T x).next = fallOf g i ∧ (FMap.get {} T x).phase ≠ .exited ∧ (FMap.get {} T x).phase ≠ .streaming

/-- The threads that a trap or a break parks: those whose guard is true, in a cohort block the whole cohort if there is one. -/
def stopped (s : State) (g : Group) (gd : Guard) : List Nat :=
  if g.cf && !(activeSlots s.cur g gd).isEmpty then g.members else activeSlots s.cur g gd

/-- trap: the stopped threads park with code 0x10 at the next instruction's address, entered as a block; the others go there. -/
def Traps (i : Instr) (gd : Guard) (code : BitVec 8) : Prop :=
  ∀ (s : State) (g : Group), s.curGroup = some g → mustStall s.cur g gd (fun _ _ => []) = false →
    (∀ x ∈ activeSlots s.cur g gd, s.cur.drained x = true) →
    ∃ (t : State) (T : FMap Thread) (B : List Bin),
      Parked s t s.curCore
        { slots := stopped s g gd, code := 0x10, detail := code.toNat, addr := 0, resume := fallOf g i,
          header := fallOf g i, ring := 0, latches := [], coh := g.cf, wait := false } ∧
      exec i s = .next (t.setCore s.curCore { (t.core s.curCore).setGroup s.curStream none with threads := T, bins := B }) ∧
      (∀ x, x ∉ g.members ∨ x ∈ stopped s g gd → FMap.get {} T x = (t.core s.curCore).thread x) ∧
      (∀ x ∈ g.members, x ∉ stopped s g gd →
        Filed s.cur B x (s.cur.thread x) T (fallOf g i) (fallOf g i) none false false) ∧
      Grown s.cur.bins B g.members

/-- brk: the stopped threads park with code 0x11 at the next instruction; the group goes on without them. -/
def Breaks (i : Instr) (gd : Guard) (code : BitVec 8) : Prop :=
  ∀ (s : State) (g : Group), s.curGroup = some g → mustStall s.cur g gd (fun _ _ => []) = false →
    (∀ x ∈ activeSlots s.cur g gd, s.cur.drained x = true) →
    ∃ t : State,
      Parked s t s.curCore
        { slots := stopped s g gd, code := 0x11, detail := code.toNat, addr := 0, resume := fallOf g i,
          header := g.header, ring := g.ring, latches := entryLatches (g.past i false), coh := g.cf, wait := false } ∧
      exec i s = .next (t.setCore s.curCore
        ((t.core s.curCore).setGroup s.curStream (left ((g.past i false).without (stopped s g gd)))))

/-! ## Accesses (R262 to R273) -/

/-- The effective address from the base and the index that a lane reads (R262). -/
def eaOf (m : MForm) (base index : Dword) : Dword := base + (((index.setWidth 32 : Word).signExtend 64) <<< m.sc.toNat) + disp m

/-- Lane x reads base and index, and the bytes lie at the address ea. -/
def Addresses (s : State) (m : MForm) (x : Nat) (ea : Dword) : Prop :=
  ∃ base index, Reads s m.e m.e.a (wideBase m.e) x base ∧ Reads s m.e m.e.b false x index ∧ ea = eaOf m base index

/-- Lane x names the virtual address ea: below 2^57, aligned, and permitted for this kind of access (R263). -/
def Permits (s : State) (g : Group) (m : MForm) (bytes kind x : Nat) (ea : Dword) : Prop :=
  Addresses s m x ea ∧ ea.toNat < 2 ^ 57 ∧ ea.toNat % bytes = 0 ∧
    s.verdictOf s.curCore g kind ⟨x, .global, byteKey (s.cur.crewAt x).asid.toNat ea.toNat, ea⟩ = some 0

/-- The byte key that lane x names. -/
def keyOf (s : State) (x : Nat) (ea : Dword) : Nat := byteKey (s.cur.crewAt x).asid.toNat ea.toNat

/-- Lane x names byte a of an array through the scratch address ea, aligned (R211, R263). -/
def Scratches (s : State) (m : MForm) (bytes x : Nat) (ea : Dword) (space : SobKind) (a : Nat) : Prop :=
  Addresses s m x ea ∧ s.scratchTarget s.curCore (s.cur.crewAt x) ea.toNat = some (space, a) ∧ ea.toNat % bytes = 0

/-- The joins of row r where a group waits for scalar results of some lanes: a row of one of them waits for them all, for the value
of the highest (R98). -/
def joinedRow (slots : List Nat) (dsts : Nat → List Dst) (r : Nat) (row : Row) : Row :=
  let n := scalarDsts (dsts (slots.headD 0))
  if (slots.any fun x => rowOf x = r) && !n.isEmpty then { row with joins := row.joins ++ [⟨n, slots, topSlot slots, 0⟩] } else row

/-- The threads and rows of an issue whose results are pending: the destinations ds of the active lanes are, and the latch of the
other members is 0 where the instruction produces a result. -/
def Pends (s : State) (g : Group) (act : List Nat) (produces : Bool) (ds : Nat → List Dst) (T : FMap Thread) (R : FMap Row) : Prop :=
  (∀ x, FMap.get {} T x =
    if x ∈ act then { s.cur.thread x with pend := (s.cur.thread x).pend ++ ds x }
    else if x ∈ g.members ∧ produces = true then (s.cur.thread x).setLatch g.ring 0 else s.cur.thread x) ∧
  ∀ r, FMap.get {} R r = joinedRow (byLane act) ds r (s.cur.row r)

/-- A load issues: one load-queue entry for each active lane, in lane order; nothing is read yet, and no byte of memory changes. -/
def Loads (i : Instr) (m : MForm) (at_ : State → Group → Nat → Dword → SobKind → Nat → Prop) : Prop :=
  ∀ (s : State) (g : Group) (ea : Nat → Dword) (space : Nat → SobKind) (key : Nat → Nat) (ds : Nat → List Dst),
    let p := (entryOf i).produces m.e
    let bytes := accessBytes m.e.sub
    let act := activeSlots s.cur g m.e.guard
    let all (x : Nat) : List Dst := ds x ++ if p then [.bp g.ring] else []
    Ready s g m.e.guard p (touched (entryOf i) m.e) →
    (∀ x ∈ act, at_ s g x (ea x) (space x) (key x) ∧ Into s m.e (bytes = 8) x (ds x)) →
    ∃ (T : FMap Thread) (R : FMap Row), Pends s g act p all T R ∧
      exec i s = .next { s.setCore s.curCore { s.cur.setGroup s.curStream (left (g.past i p)) with
          threads := T, rows := R,
          lq := s.cur.lq ++ (byLane act).zipIdx.map fun e =>
            loadEntry s s.curCore (s.ctr + e.2) ⟨e.1, space e.1, key e.1, ea e.1⟩ bytes (m.e.sub = 0 || m.e.sub = 2) m.ch.toNat (all e.1) } with
        ctr := s.ctr + (byLane act).length }

/-- Lanes with the first of the numbers that each draws, from n on. -/
def numbered (need : Nat → Nat) (n : Nat) : List Nat → List (Nat × Nat)
  | [] => []
  | x :: l => (x, n) :: numbered need (n + need x) l

/-- The store-buffer entries of the stores of some lanes. -/
def storeEntries (bytes hint : Nat) (l : List (Nat × Nat)) (space : Nat → SobKind) (key : Nat → Nat) (v : Nat → Dword) : List SobEntry :=
  l.flatMap fun e => (storeParts (key e.1) bytes (v e.1)).zipIdx.map fun p => storeEntry e.1 (space e.1) hint p.1 (e.2 + p.2)

/-- The deterministic store buffer of a crew after the stores of some of its lanes: of each thread's stores to a byte since its
cohort's last arrival the youngest is kept (R252, R253), with its cache hint (R220). -/
def dsbAfter (k : Core) (bytes hint : Nat) (l : List (Nat × Nat)) (key : Nat → Nat) (v : Nat → Dword) (c : Crew) : Crew :=
  { c with dsb := l.foldl (fun q e => (List.range bytes).foldl (fun q i =>
      dsbPut q (k.tid e.1) (k.row (rowOf e.1)).arrivedAt e.2 hint (key e.1 + i) ((v e.1 >>> (8 * i)).setWidth 8)) q) c.dsb }

/-- A store issues: its bytes enter the store buffer, in lane order, or for virtual memory in a DET crew the crew's deterministic store
buffer; no byte of memory changes yet. -/
def Stores (i : Instr) (m : MForm) (at_ : State → Group → Nat → Dword → SobKind → Nat → Prop) : Prop :=
  ∀ (s : State) (g : Group) (ea : Nat → Dword) (space : Nat → SobKind) (key : Nat → Nat) (v : Nat → Dword),
    let bytes := accessBytes m.e.sub
    let act := byLane (activeSlots s.cur g m.e.guard)
    let det (x : Nat) : Bool := space x = .global && (s.cur.crewAt x).det
    let need (x : Nat) : Nat := if det x then 1 else if bytes = 8 then 2 else 1
    let nums := numbered need s.ctr act
    let entries := storeEntries bytes m.ch.toNat (nums.filter fun e => !det e.1) space key v
    Ready s g m.e.guard false (touched (entryOf i) m.e) →
    (∀ x ∈ act, at_ s g x (ea x) (space x) (key x) ∧ Reads s m.e m.e.c (bytes = 8) x (v x)) →
    entries = [] ∨ s.cur.sob.length + entries.length ≤ Config.sobSize →
    ∃ (T : FMap Thread) (R : FMap Row) (C : FMap Crew), Pends s g [] false (fun _ => []) T R ∧
      (∀ n, FMap.get {} C n = dsbAfter s.cur bytes m.ch.toNat (nums.filter fun e => det e.1 && s.cur.crewOf e.1 = n) key v (s.cur.crew n)) ∧
      exec i s = .next { s.setCore s.curCore { s.cur.setGroup s.curStream (left (g.past i false)) with
          threads := T, rows := R, crews := C, sob := s.cur.sob ++ entries } with ctr := s.ctr + (act.map need).foldr (· + ·) 0 }

/-- A core after a word of its array is written under a mask: a word written whole has no error (R464). -/
def written (k : Core) (addr : Nat) (mask : BitVec 4) (data : Word) : Core :=
  { k with scratch := FMap.putAll 0 k.scratch (maskedBytes addr mask data),
           badScratch := k.badScratch.filter fun w => !(List.range 4).all fun i => (maskedBytes addr mask data).any fun e => e.1 = 4 * w + i }

/-! ## Atomics and reductions (R270 to R273) -/

/-- One lane's atomic on a core: its load-queue entry is appended, and its store-buffer entry; in a DET crew its entry of the
deterministic atomic buffer instead of the latter (R252). -/
def atomIssued (s : State) (k : Core) (core : Nat) (min : BitVec 2) (m : MForm) (x key : Nat) (ea operand other : Dword) (ds : List Dst) : State :=
  let kind : SobKind := .atomic min.toNat m.e.sub.toNat operand other s.ctr
  let q : LqEntry :=
    { loadEntry s core s.ctr ⟨x, .global, key, ea⟩ (atomBytes min) false 2 ds with
      atomic := true, acquire := isAcquire m, pred := atomPred m.e }
  if (k.crewAt x).det then
    { s.updCore core fun c => { c with lq := c.lq ++ [q], dab := c.dab ++ [⟨k.crewOf x, (k.row (rowOf x)).lci, k.tid x, s.ctr, key / 4, kind, x, some s.ctr, isRelease m, m.ch.toNat⟩] } with
      ctr := s.ctr + 1 }
  else
    { s.updCore core fun c => { c with lq := c.lq ++ [q], sob := c.sob ++ [⟨s.ctr + 1, [x], kind, key / 4, 0xF, 0, false, isRelease m, m.ch.toNat, 0⟩] } with
      ctr := s.ctr + 2 }

/-- The registers that an atomic touches beside its operands: the result predicate (R261). -/
def predDsts (m : MForm) : List Dst := match atomPred m.e with | some p => [.p p] | none => []

/-- The later loads of some lanes come after an acquire (R237). -/
def acquiring (on : Bool) (l : List Nat) (t : State) : State :=
  if on then t.updCur fun k => k.mapThreads l fun _ t => { t with acquires := t.acquires + 1 } else t

/-- An atomic issues: in lane order each active lane appends its entries; no byte of memory changes yet. -/
def Atomics (min : BitVec 2) (m : MForm) : Prop :=
  ∀ (s : State) (g : Group) (ea operand other : Nat → Dword) (ds : Nat → List Dst),
    let i := Instr.atom min m
    let p := (entryOf i).produces m.e
    let act := activeSlots s.cur g m.e.guard
    let mine (x : Nat) : List Dst := ds x ++ if p then [.bp g.ring] else []
    let free := act.filter fun x => !(s.cur.crewAt x).det
    Ready s g m.e.guard p (fun t a => touched (entryOf i) m.e t a ++ predDsts m) →
    (∀ x ∈ act, Permits s g m (atomBytes min) 3 x (ea x) ∧
      atomOperands (s.cur.thread x) (s.cur.row (rowOf x)) min m.e = .ok (operand x, other x) ∧ Into s m.e (2 ≤ min.toNat) x (ds x)) →
    free = [] ∨ s.cur.sob.length + (byLane free).length ≤ Config.sobSize →
    ∃ (T : FMap Thread) (R : FMap Row), Pends s g act p (fun x => mine x ++ predDsts m) T R ∧
      exec i s = .next ((acquiring (isAcquire m) (byLane act) ((byLane act).foldl
          (fun t x => atomIssued t s.cur s.curCore min m x (keyOf s x (ea x)) (ea x) (operand x) (other x) (mine x))
          (s.setCore s.curCore { s.cur with threads := T, rows := R }))).setCurGroup (g.past i p))

/-- The operands of the lanes that name a word, combined in lane order: lanes outside DET (R273). -/
def redEntries (min : BitVec 2) (m : MForm) (key : Nat → Nat) (v : Nat → Dword) (n : Nat) (l : List Nat) : List SobEntry :=
  (combine (reduceOp min.toNat m.e.sub.toNat) (l.map fun x => (key x / 4, x, (v x).toNat)) []).zipIdx.map fun e =>
    ⟨n + e.2, e.1.2.1, .reduction min.toNat m.e.sub.toNat (BitVec.ofNat 64 e.1.2.2) none, e.1.1, 0xF, 0, false, false, m.ch.toNat, 0⟩

/-- A reduction issues: one entry for each word that lanes outside DET name, one of the deterministic atomic buffer for each other
lane. -/
def Reductions (min : BitVec 2) (m : MForm) : Prop :=
  ∀ (s : State) (g : Group) (ea v : Nat → Dword),
    let i := Instr.red min m
    let act := byLane (activeSlots s.cur g m.e.guard)
    let key (x : Nat) : Nat := keyOf s x (ea x)
    let entries := redEntries min m key v s.ctr (act.filter fun x => !(s.cur.crewAt x).det)
    let held := act.filter fun x => (s.cur.crewAt x).det
    Ready s g m.e.guard false (touched (entryOf i) m.e) →
    (∀ x ∈ act, Permits s g m (atomBytes min) 3 x (ea x) ∧ Reads s m.e m.e.c (2 ≤ min.toNat) x (v x)) →
    entries = [] ∨ s.cur.sob.length + entries.length ≤ Config.sobSize →
    ∃ (T : FMap Thread) (R : FMap Row), Pends s g [] false (fun _ => []) T R ∧
      exec i s = .next { s.setCore s.curCore { s.cur.setGroup s.curStream (left (g.past i false)) with
          threads := T, rows := R, sob := s.cur.sob ++ entries,
          dab := s.cur.dab ++ held.zipIdx.map fun e =>
            ⟨s.cur.crewOf e.1, (s.cur.row (rowOf e.1)).lci, s.cur.tid e.1, s.ctr + entries.length + e.2, key e.1 / 4,
              .reduction min.toNat m.e.sub.toNat (BitVec.ofNat 64 (v e.1).toNat) none, e.1, none, false, m.ch.toNat⟩ } with
        ctr := s.ctr + entries.length + held.length }

/-! ## Instructions that wait (R193, R237, R290) -/

/-- The group g stands at i and its active lanes are act; nothing that it touches is pending. -/
structure At (s : State) (g : Group) (gd : Guard) (regs : Thread → Nat → List Dst) (act : List Nat) : Prop where
  group : s.curGroup = some g
  clear : mustStall s.cur g gd regs = false
  lanes : activeSlots s.cur g gd = act

/-- With no active lane the instruction only goes on. -/
def Skips (i : Instr) (gd : Guard) (regs : Thread → Nat → List Dst) : Prop :=
  ∀ (s : State) (g : Group), At s g gd regs [] → exec i s = .next (s.setCurGroup (g.past i false))

/-- With active lanes that nothing holds back, i does eff and goes on. -/
def Passes (i : Instr) (gd : Guard) (regs : Thread → Nat → List Dst) (when_ : State → Group → List Nat → Prop)
    (eff : State → Group → List Nat → State) : Prop :=
  ∀ (s : State) (g : Group) (act : List Nat), At s g gd regs act → act ≠ [] → when_ s g act →
    exec i s = .next ((eff s g act).setCurGroup (g.past i false))

/-- With active lanes that something holds back, the group stays where it is: res. -/
def Holds (i : Instr) (gd : Guard) (regs : Thread → Nat → List Dst) (when_ : State → Group → List Nat → Prop)
    (res : State → Group → List Nat → State) : Prop :=
  ∀ (s : State) (g : Group) (act : List Nat), At s g gd regs act → act ≠ [] → when_ s g act → exec i s = .next (res s g act)

/-- Every active lane has nothing of its own outstanding (R238), and the bytes of its loads (R42, log 77). -/
def Released (s : State) (_ : Group) (act : List Nat) : Prop := ∀ x ∈ act, s.cur.released x = true

/-- The address spaces of some lanes. -/
def spacesOf (s : State) (act : List Nat) : List Nat := act.map fun x => (s.cur.crewAt x).asid.toNat

/-! ## The register pool (R103, R142) -/

/-- Row r has n registers a thread, and every thread of it that has started holds nothing from register a on. -/
def reallot (s : State) (r a n : Nat) (T : FMap Thread) (R : FMap Row) : Prop :=
  (∀ x, FMap.get {} T x = if x ∈ rowSlots r ∧ (s.cur.thread x).phase ≠ .free
    then { s.cur.thread x with v := (s.cur.thread x).v.filter fun e => e.1 < a } else s.cur.thread x) ∧
  ∀ j, FMap.get {} R j = if j = r then { s.cur.row r with allot := n } else s.cur.row j

/-- The count that claim or cede reads, in the highest active lane (R98), and the cohort it is for. -/
def Count (s : State) (f : EForm) (act : List Nat) (n r : Nat) : Prop :=
  Reads s f f.b false (topSlot act) (BitVec.ofNat 64 n) ∧ n < 2 ^ 64 ∧ countOk n = true ∧ r = rowOf (topSlot act)

/-! ## Barriers (R193 to R196) -/

/-- The group stands at a barrier instruction of a group that is not poisoned; v is what its cohort sees of it. -/
structure AtBarrier (s : State) (g : Group) (i : Instr) (f : EForm) (act : List Nat) (v : Option BarView) : Prop where
  here : At s g f.guard (touched (entryOf i) f) act
  some_ : act ≠ []
  sound : s.poisoned? s.curCore g.row f.c.code.toNat = false
  view : s.barView s.curCore g.row f.c.code.toNat = v

/-- A barrier after the arrival of its member n; with mode 1 the member leaves at the Advance. -/
def barArrived (id : BarId) (n mode : Nat) (b : Barrier) : Barrier :=
  if b.id = id then { b with arrived := insertNat n b.arrived, leaves := if mode = 1 then insertNat n b.leaves else b.leaves } else b

/-- The cohort's membership slot of the group set by h. -/
def slotSet (s : State) (v : BarView) (h : GroupSlot → GroupSlot) : Core :=
  { s.cur with rows := s.cur.rows.set v.row ((s.cur.row v.row).updSlot v.bar.id.grp h) }

/-- Under DET what the cohort's threads buffer after its arrival belongs to the next generation (R253). -/
def closes (v : BarView) (t : State) : State :=
  if v.crew.det then
    { t.setCore t.curCore { t.cur with rows := t.cur.rows.set v.row { t.cur.row v.row with arrivedAt := t.ctr } } with
      bars := t.bars.map fun (b : Barrier) => if b.id = v.bar.id then { b with arrivedAt := b.arrivedAt.set v.cohort t.ctr } else b
      ctr := t.ctr + 1 }
  else t

/-- A wait ends: the slot has no target, the core self-invalidates and the group's later loads count from here (R193). -/
def waited (s : State) (g : Group) (v : Option BarView) : State :=
  (match v with
    | some v => s.setCore s.curCore (slotSet s v fun x => { x with target := none, elect := none })
    | none => s).acquire s.curCore g.members

/-- The threads of the group have the bytes of their loads. -/
def Loaded (s : State) (g : Group) : Prop := ∀ x ∈ g.members, s.cur.loadsDone x = true

/-- The wait half: it ends where the threads have their loads' bytes and the generation has come or the cohort has nothing to wait
for; else the group is suspended. -/
def WaitsFor (i : Instr) (f : EForm) (when_ : Group → Prop) (after : List Nat → Option BarView → State → State) : Prop :=
  (∀ (s : State) (g : Group) (act : List Nat) (v : Option BarView), when_ g → AtBarrier s g i f act v →
    Loaded s g → (∀ w, v = some w → waitOver w = true) → exec i s = .next ((after act v (waited s g v)).setCurGroup (g.past i false))) ∧
  ∀ (s : State) (g : Group) (act : List Nat) (v : Option BarView), when_ g → AtBarrier s g i f act v →
    (¬ Loaded s g ∨ ∃ w, v = some w ∧ waitOver w = false) →
    exec i s = .next ((match v with | some w => s.aimWait s.curCore w | none => s).suspend g i)

/-! ## Engine commands (R38, R199, R288, R310) -/

/-- The group stands at a command that its active lanes, which are of one cohort and released, may sign: the crew w holds the engine
where that is needed, and no other command is pending in the register. -/
structure Signs (s : State) (g : Group) (i : Instr) (act : List Nat) (w : Nat) : Prop where
  group : s.curGroup = some g
  clear : cmdStall s.cur g i (gForm i).guard = false
  lanes : activeSlots s.cur g (gForm i).guard = act
  some_ : act ≠ []
  one : ∀ x ∈ act, rowOf x = rowOf (topSlot act) ∧ s.cur.crewOf x = w
  held : needsMxe i = true → s.cur.holder = some w
  agree : ∀ p, pendingOf ((s.cur.crew w).conv (cvOf i)) = some p → p.instr = i
  released : ∀ x ∈ act, s.cur.released x = true

/-- The threads and rows after the signature of the command number n by the threads who: where it fixes the command, the registers that
the command writes in the active lanes are pending. -/
def SignedAs (s : State) (i : Instr) (act who : List Nat) (n : Nat) (fixes : Bool) (T : FMap Thread) (R : FMap Row) : Prop :=
  (∀ x, FMap.get {} T x =
    let t := s.cur.thread x
    { t with pend := if fixes = true ∧ x ∈ act then t.pend ++ cmdDsts i (laneOf x) else t.pend,
             signed := if x ∈ who then t.signed ++ [n] else t.signed }) ∧
  ∀ r, FMap.get {} R r = if fixes = true then joinedRow act (fun x => cmdDsts i (laneOf x)) r (s.cur.row r) else s.cur.row r

/-- An engine command. The first signature since the signed set was last emptied fixes the command; a later one joins it (R38). A
signature that leaves others of the declared set to sign keeps the sets; one that completes it appends the command to its engine's queue,
with the crew's operand maps as they are then, and empties the signed set in the same step (R199). Where the queue has no room the group
is suspended. -/
def SignsCommand (i : Instr) : Prop :=
  (∀ (s : State) (g : Group), s.curGroup = some g → cmdStall s.cur g i (gForm i).guard = false →
    activeSlots s.cur g (gForm i).guard = [] → exec i s = .next (s.setCurGroup (g.past i false))) ∧
  ∀ (s : State) (g : Group) (act : List Nat) (w : Nat), Signs s g i act w →
    let who := act.filter fun x => !g.doneAt.contains x
    let v := (s.cur.crew w).conv (cvOf i)
    let fixes := (pendingOf v).isNone
    let c := (pendingOf v).getD (s.fixCmd s.curCore s.ctr i act)
    let n := if fixes then s.ctr + 1 else s.ctr
    let d := unionNat act v.declared
    let signed := unionNat who v.signed
    let e := engineOf c.core i
    let room := engineRoom e (s.engine e).queue c.core c.crew
    let sets (q : ConvReg) (t : State) : State := t.updCore s.curCore fun k => k.updCrew w fun x => x.setConv (cvOf i) q
    (who = [] → exec i s = .next (s.setCurGroup (g.past i false))) ∧
    (who ≠ [] → d = signed → room = false → exec i s = .next (s.suspend g i)) ∧
    (who ≠ [] → d ≠ signed ∨ room = true →
      ∃ (T : FMap Thread) (R : FMap Row) (t : State), SignedAs s i act who c.id fixes T R ∧
        t = { s.setCore s.curCore { s.cur with
            threads := T, rows := R,
            crews := if fixes then s.cur.crews.set w ((s.cur.crew w).setConv (cvOf i) { v with pending := some c }) else s.cur.crews } with
          ctr := n } ∧
        (d ≠ signed → exec i s = .next ((sets ⟨d, signed, some c⟩ t).setCurGroup (g.past i false))) ∧
        (d = signed →
          let a := FMap.get 0 ((t.core c.core).crew c.crew).om (cmdMaps i).1
          let b := FMap.get 0 ((t.core c.core).crew c.crew).om (cmdMaps i).2
          let q : Cmd := { c with mapA := a, mapB := b, seq := n, dest := c.destAt (t.core c.core) a b }
          exec i s = .next ((sets ⟨d, [], none⟩
            { t.setEngine e { t.engine e with queue := (t.engine e).queue ++ [q] } with ctr := n + 1 }).setCurGroup (g.past i false))))

/-- The commands of the MXE, the copy engine and the Starter with the fields f. -/
def engineCommands (f : GForm) : List Instr :=
  [.mxfence f, .mmad f, .mmas f, .mmaq f, .mscal f, .aczero f, .acld f, .acst f, .acmov f, .spz f, .tnew f, .tfree f, .tinfo f, .tmov f,
   .tadd f, .tmul f, .trnd f, .tdense f, .tlu f, .tchol f, .ttrsm f, .tdelta f] ++
  [.tcopy f, .gath f, .scat f, .rules f, .spred f, .sfetch f, .scheck f]

/-- A command whose lanes are of crews that do not hold the MXE it needs (R281), or have another command pending in the register (R288):
the lanes park, in a cohort block the whole cohort, and nothing is signed. -/
def CommandStops (i : Instr) : Prop :=
  ∀ (s : State) (g : Group) (act : List Nat), s.curGroup = some g → cmdStall s.cur g i (gForm i).guard = false →
    activeSlots s.cur g (gForm i).guard = act → act ≠ [] →
    let parked := if g.cf then g.members else act
    let stops (code : Nat) : Prop := ∃ t, Parked s t s.curCore
        { slots := parked, code := code, detail := 0, addr := 0, resume := g.here, header := g.header, ring := g.ring,
          latches := latchesRead i, coh := g.cf, wait := isWait i } ∧
      exec i s = .next (t.setCurGroup (g.without parked))
    (needsMxe i = true → (∀ x ∈ act, s.cur.holder ≠ some (s.cur.crewOf x)) → stops 0x07) ∧
    ((needsMxe i = true → ∀ x ∈ act, s.cur.holder = some (s.cur.crewOf x)) →
      (∀ x ∈ act, x ∉ g.doneAt ∧ ∃ p, pendingOf ((s.cur.crewAt x).conv (cvOf i)) = some p ∧ p.instr ≠ i) → stops 0x19)

/-- A wait for an engine (R293): a lane waits for what g.waits names for it, or, when the wait first issues, for all that its thread has
signed and its crew has appended. The group is suspended until all of it has ended, and the lanes have their loads' bytes (log 77);
then, without a fault that has not parked its lane yet, the lanes acquire, and a predicate that is asked for becomes a pending result with its value. -/
def WaitsEngine (i : Instr) (f : GForm) : Prop :=
  Skips i f.guard (fun _ _ => if f.d = 7 then [] else [.p f.d.toNat]) ∧
  ∀ (s : State) (g : Group) (act : List Nat), At s g f.guard (fun _ _ => if f.d = 7 then [] else [.p f.d.toNat]) act → act ≠ [] →
    let e := s.engine (waitEngine s.curCore i)
    let mine (x : Nat) : List Nat := (g.waitOf x).getD (s.coverOf (waitEngine s.curCore i) s.curCore x)
    let own (x : Nat) : List Ended := (mine x).filterMap e.find
    let done : Prop := ∀ x ∈ act, s.cur.loadsDone x = true ∧ ∀ n ∈ mine x, e.find n ≠ none
    (¬ done → exec i s = .next (s.suspend { g with waits := act.map fun x => (x, mine x) } i)) ∧
    (done → (∀ x ∈ act, ∀ d ∈ own x, d.fault = none ∨ d.id ∈ (s.cur.thread x).told) →
      let t := (s.updCur fun k => k.mapThreads act fun x t => t.covered ((own x).map (·.id))).acquire s.curCore act
      let u := if f.d = 7 then t else t.answerPred s.curCore act f.d.toNat fun x => (own x).all (endedWell i)
      exec i s = .next (u.setCurGroup (g.past i false)))

/-! ## Messages of the host (R471 to R474) -/

/-- The message m of the type T comes in at a port that is up, as the next of its session, whose older messages are performed; it is
well-formed, its session takes it, and the grants cover it. No recording is under way. -/
structure Admitted (s : State) (m : OhpHdr) (type : Nat) : Prop where
  running : s.boot.phase = .running
  port : s.takes m.port = true
  type : m.type = type
  formed : malformedHdr m = false
  session : s.mayUse m = true
  granted : s.granted m = true
  next : m.seq = (s.flow m.session).next
  first : (s.flow m.session).held = []
  quiet : s.recorder.on = false

/-- The message stands in its port, the device awake. -/
def arrives (s : State) (m : OhpHdr) (i : Item) : State :=
  s.wake.updFlow m.session fun f => { f with next := f.next + 1, held := [{ item := i }] }

/-- It leaves the port. -/
def goes (m : OhpHdr) (t : State) : State := t.updFlow m.session fun f => { f with held := [] }

/-- An admitted message of a type, whose bytes say what its arguments are, wakes the device and has the effect eff. -/
def Serves (i : OhpHdr → Instr) (item : OhpHdr → Item) (type : Nat) (fits : OhpHdr → Prop) (eff : OhpHdr → State → State) : Prop :=
  ∀ (m : OhpHdr) (s : State), Admitted s m type → fits m → exec (i m) s = .next (goes m (eff m (arrives s m (item m))))

/-- It has been done in part, or not yet: x of it waits in the port. -/
def keeps (m : OhpHdr) (x : Ingress) (t : State) : State := t.updFlow m.session fun f => { f with held := [x] }

/-- A peer's item at the port, the device awake. -/
def peerArrives (s : State) (i : Item) : State := { s with power := .c0, peers := s.peers ++ [{ item := i }] }

/-- What is left of the item i of the peers. -/
def peerKeeps (i : Nat) (x : Option Ingress) (t : State) : State := { t with peers := t.peers.take i ++ x.toList ++ t.peers.drop (i + 1) }

/-- A command is in its queue and nothing is due to it yet; its gang is not being contained. -/
structure Queued (s : State) (e : EngineId) (n : Nat) (elders : List Cmd) (c : Cmd) : Prop where
  found : s.findCmd e n = some (elders, c)
  sound : c.fault = none
  calm : s.cmdHeld c = false

/-- A running command is due for its next piece: what the piece before left to write is written. -/
structure Piece (c : Cmd) : Prop where
  started : c.phase ≠ .queued
  ready : c.work.ready = true
  empty : c.work.todo = []

/-- The state after a piece that writes these runs: of memory by messages to the homes, one for each sector that they cover and for
each word of the others; of a scratchpad by bank slots to come. The command's progress has moved on by one, and it has read nothing for
its next piece. -/
def pieceWrites (t : State) (e : EngineId) (c : Cmd) (virt : Bool) (runs : List (Nat × List Byte)) : State :=
  let cr := (t.core c.core).crew c.crew
  let chunks := chunksOf (runBytes cr.asid.toNat runs)
  let keys := runs.flatMap fun r => runKeys ((t.arrayAt c.core cr r.1 r.2.length).getD []) r.2
  if virt then (chunks.foldl (fun t x => t.push (homeLane (engineEnd e) x.first) (x.msg (engineOwner e) c.core (some (e, c.id)))) t).putCmd e
    { c with progress := c.progress + 1, outstanding := c.outstanding + chunks.length,
             work := { c.work with got := [], asked := [], early := [] } }
  else t.putCmd e { c with progress := c.progress + 1, work := { c.work with todo := keys, got := [], asked := [], early := [] } }

/-- The command n of the MXE, a matrix command ready to commit: those before it in the queue have committed, no residue verdict holds it
back, and no word of the accumulator store has an error. -/
structure Commits (s : State) (n : Nat) (elders : List Cmd) (c : Cmd) : Prop where
  queued : Queued s (.mxe c.core) n elders c
  started : c.phase = .started
  ready : c.work.ready = true
  empty : c.work.todo = []
  first : ∀ d ∈ elders, d.phase = .committed
  verdict : residueHolds (s.core c.core) c = false
  sound : (s.core c.core).badAcc = []

/-- The element of the region of m rows and n columns at the origin o that lies in a word of the accumulator store (R286). -/
def element (o : BitVec 8) (m n row col : Nat) : Option (Nat × Nat) :=
  if inRegion o m n row col then some (row - originRow o, col - originCol o) else none

/-- A word of the accumulator store. -/
def accAt (k : Core) (row col : Nat) : Word := FMap.get 0 k.acc (accKey row col)

/-- The command i, whose region has cols columns, gives a word of the accumulator store at its Commit the value that val says, and
leaves every other word, the scratchpad and memory as they were. -/
def CommitGives (i : Instr) (cols : Nat) (val : Core → Cmd → Nat → Nat → Option Word) : Prop :=
  originCol (gForm i).d + cols ≤ Config.accCols →
    ∀ (s : State) (n : Nat) (elders : List Cmd) (c : Cmd), Commits s n elders c → c.instr = i →
      ∃ t, exec (.commit (.mxe c.core) n) s = .next t ∧ t.dram = s.dram ∧ t.lines = s.lines ∧
        (t.core c.core).scratch = (s.core c.core).scratch ∧
        ∀ row col, col < Config.accCols →
          accAt (t.core c.core) row col = (val (s.core c.core) c row col).getD (accAt (s.core c.core) row col)

/-- The factors of the K products of element (i, j). -/
def factors (c : Cmd) (i j : Nat) : List (Option Nat × Nat) :=
  let h := mulShape c.instr
  (mulRowA c h i).zipIdx.map fun e => (e.1, elemOf (rowNum c.work.rowsB j) h.fb.w e.2)

/-- The word of a multiply other than .f64 (R299, R301). -/
def mulWord (k : Core) (c : Cmd) (row col : Nat) : Option Word :=
  let h := mulShape c.instr
  let old := (accAt k row col).toNat
  (element c.form.d c.form.m c.form.n row col).map fun e => BitVec.ofNat 32 <|
    if h.fa = iFmt 8 ∧ h.fb = iFmt 8 then
      (accumI8 c.form.sat old ((factors c e.1 e.2).map fun p => (toInt 8 true (p.1.getD 0), toInt 8 true p.2))).1
    else accum32 old ((factors c e.1 e.2).map fun p => mulPair h p.1 p.2)

/-- The word of a .f64 multiply: half of the pair of its element (R286, R300). -/
def mulHalf (k : Core) (c : Cmd) (row col : Nat) : Option Word :=
  (element c.form.d c.form.m (2 * c.form.n) row col).map fun e =>
    let low := col - e.2 % 2
    let v := accum64 ((accAt k row low).toNat + 2 ^ 32 * (accAt k row (low + 1)).toNat)
      ((factors c e.1 (e.2 / 2)).map fun p => (p.1.getD 0, p.2))
    BitVec.ofNat 32 (if e.2 % 2 = 0 then v % 2 ^ 32 else v / 2 ^ 32)

/-- A word of mscal whose regions are apart: the main word takes the scaled staging word with one rounding, the staging word +0 (R298). -/
def scaledWord (k : Core) (c : Cmd) (row col : Nat) : Option Word :=
  let f := c.form
  let w := if (mapVal c.mapA).wid = 4 then 32 else 8
  match element f.d f.m f.n row col with
  | some e =>
    let scale := scaleVal w (elemOf (rowNum c.work.rowsA 0) w e.1)
    let stage := f32.decode (accAt k (originRow f.c + e.1) (originCol f.c + e.2)).toNat
    some (BitVec.ofNat 32 (f32.encode 0 false 0 (FVal.fma 0 scale stage (f32.decode (accAt k row col).toNat))))
  | none => if inRegion f.c f.m f.n row col then some 0 else none

/-- What the Commits of the matrix commands write in the accumulator store (R298 to R301, R304, R317, R319, R320). acst leaves the
store and advances the rounding states of its columns; the bytes of its rows are written by bank slots to come, or go to the homes. -/
structure CommitValues : Prop where
  mul : ∀ (i : Instr) (f : GForm), i ∈ ([.mmad f, .mmas f, .mmaq f] : List Instr) → (mulShape i).fa ≠ fFmt f64 →
    CommitGives i f.n mulWord
  mul64 : ∀ f : GForm, (mulShape (.mmad f)).fa = fFmt f64 → CommitGives (.mmad f) (2 * f.n) mulHalf
  clamped : ∀ (f : GForm) (s t : State) (n : Nat) (elders : List Cmd) (c : Cmd), Commits s n elders c → c.instr = .mmad f →
    (mulShape c.instr).fa = iFmt 8 → (mulShape c.instr).fb = iFmt 8 → exec (.commit (.mxe c.core) n) s = .next t →
    ((t.core c.core).crew c.crew).satf = (((s.core c.core).crew c.crew).satf || (region f.m f.n).any fun e =>
      (accumI8 f.sat (accAt (s.core c.core) (originRow f.d + e.1) (originCol f.d + e.2)).toNat
        ((factors c e.1 e.2).map fun p => (toInt 8 true (p.1.getD 0), toInt 8 true p.2))).2)
  scaled : ∀ f : GForm, originCol f.c + f.n ≤ Config.accCols →
    (∀ row col, inRegion f.d f.m f.n row col = true → inRegion f.c f.m f.n row col = false) → CommitGives (.mscal f) f.n scaledWord
  scaledOver : ∀ f : GForm, f.c = f.d → CommitGives (.mscal f) f.n fun _ _ row col => (element f.d f.m f.n row col).map fun _ => 0
  zeroed : ∀ f : GForm, CommitGives (.aczero f) f.n fun _ _ row col => (element f.d f.m f.n row col).map fun _ => 0
  moved : ∀ f : GForm, CommitGives (.acmov f) f.n fun k _ row col =>
    (element f.d f.m f.n row col).map fun e => accAt k (originRow f.c + e.1) (originCol f.c + e.2)
  loaded : ∀ f : GForm, f.c.toNat % 16 ≠ 11 → CommitGives (.acld f) f.n fun _ c row col => (element f.d f.m f.n row col).map fun e =>
    BitVec.ofNat 32 (widenElem (f.c.toNat % 16) (elemOf (rowNum c.work.rowsA e.1) (moveWidth (f.c.toNat % 16)) e.2))
  loaded64 : ∀ f : GForm, f.c.toNat % 16 = 11 → CommitGives (.acld f) (2 * f.n) fun _ c row col =>
    (element f.d f.m (2 * f.n) row col).map fun e =>
      let v := elemOf (rowNum c.work.rowsA e.1) 64 (e.2 / 2)
      BitVec.ofNat 32 (if e.2 % 2 = 0 then v % 2 ^ 32 else v / 2 ^ 32)
  stored : ∀ (f : GForm) (s : State) (n : Nat) (elders : List Cmd) (c : Cmd), Commits s n elders c → c.instr = .acst f →
    let t := s.updCore c.core fun k => storeLfsr k f
    let rows := storeRows (s.core c.core) f
    let w := t.sendRuns (.mxe c.core) c ((memRows c (moveBytes f) 1).zipIdx.map fun q => (q.1.addr, rows.getD q.2 []))
    let m := mapVal c.mapA
    let bytes := rows.zipIdx.flatMap fun r => (m.writes ((s.core c.core).crew c.crew) r.2 r.1).map fun b => (arrayKey c.core b.1, b.2)
    exec (.commit (.mxe c.core) n) s = .next (if moveInMem f then w.1.putCmd (.mxe c.core) { c with phase := .committed, outstanding := w.2 }
      else t.putCmd (.mxe c.core) { c with phase := .committed, work := { c.work with todo := bytes } })
  rounded : ∀ (k : Core) (f : GForm) (i j : Nat), i < f.m → j < f.n → f.rm = 5 → f.c.toNat % 16 ∈ [8, 9, 12, 13, 14] →
    elemOf (leNat ((storeRows k f).getD i [])) (moveWidth (f.c.toNat % 16)) j =
      convert (f.c.toNat % 16) 10 5 f.sat (lfsrAfter i (FMap.get 0 k.colLfsr (originCol f.d + j)))
        (accAt k (originRow f.d + i) (originCol f.d + j)).toNat % 2 ^ moveWidth (f.c.toNat % 16)
  advanced : ∀ (k : Core) (f : GForm) (col : Nat) (w : Word), (col, w) ∈ k.colLfsr →
    (col, if f.rm = 5 ∧ originCol f.d ≤ col ∧ col < originCol f.d + f.n then lfsrAfter f.m w else w) ∈ (storeLfsr k f).colLfsr

/-- Gang g of launch l, where it stands. -/
def Stands (s : State) (lid gang : Nat) (l : Launch) (g : Gang) (p : GangPhase) : Prop :=
  s.launches.find lid = some l ∧ l.gangs.find gang = some g ∧ g.phase = p

/-! ## Values (R113, R155, R156, R166, R186) -/

/-- The values y of 32 lanes after k rounds of the tree of R186. -/
def treeLevel (op : Nat → Nat → Nat) (y : Nat → Nat) : Nat → Nat → Nat
  | 0, i => y i
  | k + 1, i => if i % 2 ^ (k + 1) = 0 then op (treeLevel op y k i) (treeLevel op y k (i + 2 ^ k)) else treeLevel op y k i

/-- The rational number that a finite value stands for. -/
def ratOf (neg : Bool) (mant : Nat) (exp : Int) : Rat := (if neg then -1 else 1) * mant * (2 : Rat) ^ exp

/-- Lower block address, then lower ASID, then CHK = 0; or the same key. -/
def keyFirst (a b : BinKey) : Prop :=
  a.addr.toNat < b.addr.toNat ∨
    (a.addr = b.addr ∧ (a.asid < b.asid ∨ (a.asid = b.asid ∧ (a.chk = true → b.chk = true))))

/-- e is older than d, or as old and first by the tie rule. -/
def olderOr (now : Nat) (e d : Bin × List Nat) : Prop :=
  d.1.age now < e.1.age now ∨ (d.1.age now = e.1.age now ∧ keyFirst e.1.key d.1.key)

/-- The bounds of an integer type. -/
def typeMin (sub : BitVec 4) : Int := if intSigned sub then -2 ^ (intWidth sub - 1) else 0
def typeMax (sub : BitVec 4) : Int := if intSigned sub then 2 ^ (intWidth sub - 1) - 1 else 2 ^ intWidth sub - 1

/-- Bits of a result of width w are these. -/
def BitsAre (sub : BitVec 4) (v : Dword) (bit : Nat → Bool) : Prop := ∀ i, i < intWidth sub → v.getLsbD i = bit i

/-- Why an access of virtual memory faults (R263): out of range, misaligned, or the verdict. -/
def BadVirtual (m : MForm) (kind : Nat) (s : State) (g : Group) (x : Nat) (ea : Dword) (code : Nat) : Prop :=
  (2 ^ 57 ≤ ea.toNat ∧ code = 0x09) ∨
  (ea.toNat < 2 ^ 57 ∧ ea.toNat % accessBytes m.e.sub ≠ 0 ∧ code = 0x0B) ∨
  (ea.toNat < 2 ^ 57 ∧ ea.toNat % accessBytes m.e.sub = 0 ∧ code ≠ 0 ∧
    s.verdictOf s.curCore g kind ⟨x, .global, keyOf s x ea, ea⟩ = some code)

/-- Why an access of a scratchpad faults (R263, R211): no byte of the crew's allotment or window, or misaligned. -/
def BadScratch (m : MForm) (s : State) (_ : Group) (x : Nat) (ea : Dword) (code : Nat) : Prop :=
  (s.scratchTarget s.curCore (s.cur.crewAt x) ea.toNat = none ∧ code = 0x0A) ∨
  (s.scratchTarget s.curCore (s.cur.crewAt x) ea.toNat ≠ none ∧ ea.toNat % accessBytes m.e.sub ≠ 0 ∧ code = 0x0B)

/-- An access of one lane x that faults: it parks with this code, its kind as the detail and its address; in a cohort block the whole
cohort does. The other members of the group stay, with latch 0 where the instruction produces a result. -/
def AccessParks (i : Instr) (m : MForm) (kind : Nat) (produces : Bool) (fits : State → Nat → Prop)
    (bad : State → Group → Nat → Dword → Nat → Prop) : Prop :=
  ∀ (s : State) (g : Group) (x : Nat) (ea : Dword) (code : Nat), Ready s g m.e.guard produces (touched (entryOf i) m.e) →
    activeSlots s.cur g m.e.guard = [x] → Addresses s m x ea → fits s x → bad s g x ea code →
    let parked := if g.cf then g.members else [x]
    ∃ (t : State) (T : FMap Thread),
      Parked s t s.curCore
        { slots := parked, code := code, detail := kind, addr := ea, resume := g.here, header := g.header, ring := g.ring,
          latches := latchesRead i, coh := g.cf, wait := false } ∧
      exec i s = .next (t.setCore s.curCore
        { (t.core s.curCore).setGroup s.curStream (left ((g.without parked).past i produces)) with threads := T }) ∧
      ∀ y, FMap.get {} T y = if y ∈ g.members ∧ y ∉ parked ∧ produces = true then ((t.core s.curCore).thread y).setLatch g.ring 0
        else (t.core s.curCore).thread y

end Sys2Proof.Claims
end

