-- ==== Sys2Proof/Certificates/Slice0/Obligations.lean ====
section
/-!
DEFINITION. The statements for the provers.
-/
open Sys2Proof Sys2Proof.Machine Sys2Proof.Claims

/-! ## Integer instructions (07) -/

/-- R155, R156: the two-source integer instructions complete wherever nothing they touch is pending and their operands are within
bounds; frame and destinations as Writes says. -/
def Obligations.IntegerTwoSourcesComplete : Prop :=
  IntTwo .addB .addE opAdd ∧ IntTwo .subB .subE opSub ∧ IntTwo .mulB .mulE opMul ∧ IntTwo .mulhB .mulhE (fun t _ => opMulh t) ∧
  IntTwo .minB .minE (fun t _ => opMin t) ∧ IntTwo .maxB .maxE (fun t _ => opMax t) ∧ IntTwo .andB .andE (fun t _ => opAnd t) ∧
  IntTwo .orB .orE (fun t _ => opOr t) ∧ IntTwo .xorB .xorE (fun t _ => opXor t) ∧ IntTwo .andnB .andnE (fun t _ => opAndn t) ∧
  IntTwo .shlB .shlE (fun t _ => opShl t) ∧ IntTwo .shrB .shrE (fun t _ => opShr t) ∧ IntTwo .sarB .sarE (fun t _ => opSar t) ∧
  IntTwo .rolB .rolE (fun t _ => opRol t) ∧
  ∀ f : EForm, Two (.bfe f) f (entryOf (.bfe f)) (wideInt f) (wideInt f) (wideInt f) (opBfe f.sub)

/-- R155, R156, R159, R160: the one-source integer instructions and the moves. -/
def Obligations.IntegerOneSourceComplete : Prop :=
  IntOne .absB .absE opAbs ∧ IntOne .notB .notE (fun t _ => opNot t) ∧ IntOne .movB .movE (fun t _ => opMov t) ∧
  (∀ f : EForm, One (.clz f) f (entryOf (.clz f)) (wideInt f) (wideInt f) (opClz f.sub)) ∧
  (∀ f : EForm, One (.popc f) f (entryOf (.popc f)) (wideInt f) (wideInt f) (opPopc f.sub)) ∧
  (∀ f : EForm, One (.brev f) f (entryOf (.brev f)) (wideInt f) (wideInt f) (opBrev f.sub)) ∧
  (∀ w d lit, One (.movlBL w d lit) (movlForm w d lit) (entryOf (.movlEL (movlForm w d lit))) false false (opMov 0)) ∧
  ∀ f : EForm, One (.movlEL f) f (entryOf (.movlEL f)) (wideInt f) (wideInt f) (opMov f.sub)

/-- R155 to R158, R161: multiply-add, bit-field insert, select, compare, the predicate operations, lea, and the carry and borrow
chains. -/
def Obligations.IntegerOthersComplete : Prop :=
  (∀ f : EForm, Three (.mad f) f (wideInt f) (wideInt f) (wideInt f) (wideInt f) (opMad f.sub f.sat)) ∧
  (∀ f : EForm, Three (.bfi f) f (wideInt f) (wideInt f) (wideInt f) (wideInt f) (opBfi f.sub)) ∧
  (∀ f : EForm, Three (.sel f) f (wideInt f) (wideInt f) false (wideInt f) fun a b c => extend f.sub (if c = 0 then b else a).toNat) ∧
  (∀ f : EForm, Two (.cmp f) f (entryOf (.cmp f)) (wideInt f) (wideInt f) false fun a b =>
    boolDword (cmpCond f.c.code.toNat (typeInt f.sub a) (typeInt f.sub b))) ∧
  (∀ f : EForm, Two (.pand f) f (entryOf (.pand f)) false false false fun a b =>
    boolDword ((a ≠ 0 ^^ f.sa = 1) && (b ≠ 0 ^^ f.sb = 1))) ∧
  (∀ f : EForm, Two (.por f) f (entryOf (.por f)) false false false fun a b =>
    boolDword ((a ≠ 0 ^^ f.sa = 1) || (b ≠ 0 ^^ f.sb = 1))) ∧
  (∀ f : EForm, Two (.pxor f) f (entryOf (.pxor f)) false false false fun a b =>
    boolDword ((a ≠ 0 ^^ f.sa = 1) ^^ (b ≠ 0 ^^ f.sb = 1))) ∧
  (∀ f : EForm, One (.pnot f) f (entryOf (.pnot f)) false false fun a => boolDword (!(a ≠ 0 ^^ f.sa = 1))) ∧
  (∀ f : EForm, Two (.lea f) f (entryOf (.lea f)) true false true (opLea f)) ∧
  (∀ f : EForm, Chained (.addc f) f addCarry) ∧ ∀ f : EForm, Chained (.subb f) f subBorrow

/-! ## Floating point (07) -/

/-- R165 to R171: the floating-point instructions; their results are rounded once. The special functions and ftwid may differ from the
true value within a bound; that the result is then one value for each function, format and operand, Config.specialChoice and
Config.twiddleChoice, is the model's choice (log 12). -/
def Obligations.FloatingPointComplete : Prop :=
  FloatTwo .faddB .faddE (fun f a b => roundOut f (fAdd f (valA f a) (valB f b))) ∧
  FloatTwo .fsubB .fsubE (fun f a b => roundOut f (fSub f (valA f a) (valB f b))) ∧
  FloatTwo .fmulB .fmulE (fun f a b => roundOut f ((valA f a).mul (valB f b))) ∧
  FloatTwo .fminB .fminE (fun f a b => roundOut f ((valA f a).minNum (valB f b))) ∧
  FloatTwo .fmaxB .fmaxE (fun f a b => roundOut f ((valA f a).maxNum (valB f b))) ∧
  FloatTwo .fdivB .fdivE opFdiv ∧
  (∀ f : EForm, Three (.fma f) f (wideFloat f) (wideFloat f) (wideFloat f) (wideFloat f) fun a b c =>
    roundOut f (FVal.fma f.rm.toNat (valA f a) (valB f b) (valC f c))) ∧
  (∀ f : EForm, Two (.fcmp f) f (entryOf (.fcmp f)) (wideFloat f) (wideFloat f) false fun a b =>
    boolDword (FVal.cond f.c.code.toNat (valA f a) (valB f b))) ∧
  (∀ f : EForm, One (.fclass f) f (entryOf (.fclass f)) (wideFloat f) false fun a =>
    BitVec.ofNat 64 (2 ^ (floatFmt f.sub.toNat).classBit (valA f a))) ∧
  (∀ f : EForm, Three (.hfma2 f) f false false false false (opHfma2 f)) ∧
  (∀ f : EForm, Three (.fdot2 f) f false false false false (opFdot2 f)) ∧
  (∀ f : BUnary, One (.fsqrtB f) (uToE f) (entryOf (.fsqrtE (uToE f))) false false (opFsqrt (uToE f))) ∧
  (∀ f : EForm, One (.fsqrtE f) f (entryOf (.fsqrtE f)) (wideFloat f) (wideFloat f) (opFsqrt f)) ∧
  SpecialOne .frcpB .frcpE .rcp ∧ SpecialOne .frsqB .frsqE .rsq ∧ SpecialOne .fexp2B .fexp2E .exp2 ∧
  SpecialOne .flog2B .flog2E .log2 ∧ SpecialOne .fsinpiB .fsinpiE .sinpi ∧ SpecialOne .fcospiB .fcospiE .cospi ∧
  ∀ f : EForm, Two (.ftwid f) f (entryOf (.ftwid f)) false false true opFtwid

/-- R172 to R176: conversion and packing, with the rounding state. -/
def Obligations.ConversionsComplete : Prop :=
  (∀ f : EForm, Converts (.cvt f) f (cvtWidth f.c.code.toNat = 64) (cvtWidth f.sub.toNat = 64) false f.c.code.toNat (cvtWidth f.sub.toNat)
    (fun a _ => [if 12 ≤ f.c.code.toNat then pickElem (cvtFmt f.c.code.toNat) f.sa.toNat a else a.toNat % 2 ^ cvtWidth f.c.code.toNat])
    (cvtExtend f.sub.toNat)) ∧
  (∀ f : EForm, f.c.code = 10 → Converts (.pack8 f) f true false true 10 8 (fun a b => words32 a ++ words32 b) id) ∧
  (∀ f : EForm, f.c.code ≠ 10 → Converts (.pack8 f) f false false true f.c.code.toNat 8 (fun a b => halves16 a ++ halves16 b) id) ∧
  (∀ f : EForm, f.sub ≠ 15 → Converts (.pack4 f) f true false true f.c.code.toNat 4 (fun a b => halves64 a ++ halves64 b) id) ∧
  ∀ f : EForm, f.sub = 15 → Two (.pack4 f) f (entryOf (.pack4 f)) false false false fun a b =>
    BitVec.ofNat 64 (packQ4 f.sat (bytes4 a ++ bytes4 b))

/-! ## Cross-lane instructions (08) -/

/-- R180 to R188: shuffles, votes, match, reductions, scans and the intersection. -/
def Obligations.CrossLaneComplete : Prop :=
  (∀ f : EForm, Shuffles (.shflIdx f) f .idx) ∧ (∀ f : EForm, Shuffles (.shflXor f) f .xor) ∧
  (∀ f : EForm, Shuffles (.shflUp f) f .up) ∧ (∀ f : EForm, Shuffles (.shflDown f) f .down) ∧
  (∀ f : EForm, Votes (.voteAny f) f fun act p => boolDword (act.any p)) ∧
  (∀ f : EForm, Votes (.voteAll f) f fun act p => boolDword (act.all p)) ∧
  (∀ f : EForm, Votes (.voteBallot f) f fun act p => BitVec.ofNat 64 (laneMask (act.filter p))) ∧
  (∀ f : EForm, Cross (.matchLanes f) f (f.sub = 1) false fun act a x =>
    BitVec.ofNat 64 (laneMask (act.filter fun y => a y = a x))) ∧
  (∀ f : EForm, Cross (.redux f) f (reduxWidth f.sub = 64) (reduxWidth f.sub = 64) fun act a _ =>
    BitVec.ofNat 64 ((treeFold (reduxOp f.sub.toNat) 5 (contributions f.sub.toNat act a)).headD 0)) ∧
  (∀ f : EForm, Cross (.scan f) f (reduxWidth f.sub = 64) (reduxWidth f.sub = 64) fun act a x =>
    BitVec.ofNat 64 (((if immValue f = 1 then [reduxIdentity f.sub.toNat] else []) ++
      scanAll (reduxOp f.sub.toNat) (contributions f.sub.toNat act a)).getD (laneOf x) 0)) ∧
  ∀ (f : EForm) (s : State) (g : Group) (a b c : Nat → Dword) (ds : Nat → List Dst),
    Ready s g f.guard ((entryOf (.isect f)).produces f) (touched (entryOf (.isect f)) f) →
    (∀ x ∈ activeSlots s.cur g f.guard,
      Reads s f f.a false x (a x) ∧ Reads s f f.b false x (b x) ∧ Reads s f f.c false x (c x) ∧ Into s f true x (ds x)) →
    Writes (.isect f) s g f.guard ((entryOf (.isect f)).produces f) fun x =>
      let act := activeSlots s.cur g f.guard
      let list (v : Nat → Dword) (n : Nat) : List Nat := (List.range n).map fun l => match slotInLane act l with
        | some y => (v y).toNat
        | none => 0xFFFFFFFF
      let lens := (c (topSlot act)).toNat
      let q := isectAll (list a (min (lens % 64) 32)) (list b (min (lens / 256 % 64) 32))
      laneResult f (ds x) true (BitVec.ofNat 64 (q.1.getD (laneOf x) 0xFFFFFFFF + 2 ^ 32 * q.2))

/-! ## Control (06) -/

/-- R129, R132, R134: bra, brc, jmpi and reform. -/
def Obligations.BranchesComplete : Prop :=
  (∀ off, Jumps (.braB off) alwaysGuard [] (fun _ g _ => relTarget g off) false) ∧
  (∀ f : CForm, Jumps (.braE f) f.guard [] (fun _ g _ => cTarget g f) false) ∧
  (∀ cp cn off, Jumps (.brcB cp cn off) alwaysGuard (predRegs cp)
    (fun s g x => if (s.cur.thread x).pred cp.toNat ^^ cn then relTarget g off else fallOf g (.brcB cp cn off)) false) ∧
  (∀ f : CForm, Jumps (.brcE f) f.guard (predRegs (cpOf f))
    (fun s g x => if (s.cur.thread x).pred (cpOf f).toNat ^^ cnOf f then cTarget g f else fallOf g (.brcE f)) false) ∧
  (∀ a, Jumps (.jmpiB a) alwaysGuard (ptrRegs (shortSrc a))
    (fun s _ x => codePtr (s.cur.crewAt x) (ptrSource (s.cur.thread x) (shortSrc a))) false) ∧
  (∀ f : JForm, Jumps (.jmpiE f) f.guard (ptrRegs (jOpnd f))
    (fun s _ x => codePtr (s.cur.crewAt x) (ptrSource (s.cur.thread x) (jOpnd f))) false) ∧
  (∀ off, Jumps (.reformB off) alwaysGuard [] (fun _ g _ => relTarget g off) true) ∧
  ∀ f : CForm, Jumps (.reformE f) f.guard [] (fun _ g _ => cTarget g f) true

/-- R130: call, calli and ret go to their targets, and the link is written where the guard is true; a thread whose allotment is below 256
takes the allotment fault at the terminator instead, in a cohort block with its cohort (R119, R121). R108, R132: where the threads that go
on are filed. DETAIL 0 of the fault is the model's choice (log 73). -/
def Obligations.CallsAndReturnsComplete : Prop :=
  (∀ off, Calls (.callB off) alwaysGuard [.v 255] (fun _ g _ => relTarget g off) true) ∧
  (∀ f : CForm, Calls (.callE f) f.guard [.v 255] (fun _ g _ => cTarget g f) true) ∧
  (∀ a, Calls (.calliB a) alwaysGuard (ptrRegs (shortSrc a) ++ [.v 255])
    (fun s _ x => codePtr (s.cur.crewAt x) (ptrSource (s.cur.thread x) (shortSrc a))) true) ∧
  (∀ f : JForm, Calls (.calliE f) f.guard (ptrRegs (jOpnd f) ++ [.v 255])
    (fun s _ x => codePtr (s.cur.crewAt x) (ptrSource (s.cur.thread x) (jOpnd f))) true) ∧
  Calls .retB alwaysGuard [.v 255] (fun s _ x => codePtr (s.cur.crewAt x) ((s.cur.thread x).reg 255)) false ∧
  ∀ f : XForm, Calls (.retE f) f.guard [.v 255] (fun s _ x => codePtr (s.cur.crewAt x) ((s.cur.thread x).reg 255)) false

/-- R104, R132, R133: exitto and exit. -/
def Obligations.ExitsComplete : Prop :=
  (∀ keep off, MarksAndLeaves (.exittoB keep off) alwaysGuard keep.toNat fun g => relTarget g off) ∧
  (∀ f : CForm, MarksAndLeaves (.exittoE f) f.guard f.c.toNat fun g => cTarget g f) ∧
  Exits .exitB alwaysGuard ∧ ∀ f : XForm, Exits (.exitE f) f.guard

/-- R136, R137: trap and brk park as their effect. -/
def Obligations.TrapsAndBreaksComplete : Prop :=
  (∀ code, Traps (.trapB code) alwaysGuard code) ∧ (∀ f : XForm, Traps (.trapE f) f.guard f.c) ∧
  (∀ code, Breaks (.brkB code) alwaysGuard code) ∧ ∀ f : XForm, Breaks (.brkE f) f.guard f.c

/-- R107, R138, R203, R68: nop only goes on; a header sets what the block may use and parks, with the allotment code, the threads
whose allotment is below its HWM; yield files the threads at the next instruction; where the group stands at no instruction, an illegal
word parks the whole group, and elsewhere that step does nothing. DETAIL 0 of codes 0x04 and 0x01 is log 73, a yield in a cohort block in
which no guard holds log 75, the resume address of a thread that enters inside a block log 72 (the model's choices). -/
def Obligations.BlockEntryAndYieldComplete : Prop :=
  (∀ (s : State) (g : Group), s.curGroup = some g → exec .nop s = .next (s.setCurGroup (g.past .nop false))) ∧
  (∀ cf hwm len (s : State) (g : Group), s.curGroup = some g →
    let h := { g with entering := false, cf := cf, hwm := hwm.toNat, len := len.toNat }
    let bad := g.members.filter fun x => (s.cur.row (rowOf x)).allot < hwm.toNat
    ∃ t, Parked s t s.curCore
        { slots := bad, code := 0x04, detail := 0, addr := 0, resume := g.key.addr, header := g.header,
          ring := g.ring, latches := entryLatches g, coh := cf, wait := false } ∧
      exec (.blockHeader cf hwm len) s = .next (t.setCurGroup (h.without bad))) ∧
  (∀ (f : EForm) (s : State) (g : Group), s.curGroup = some g → mustStall s.cur g f.guard (fun _ _ => []) = false →
    ∃ (T : FMap Thread) (B : List Bin),
      exec (.yield f) s = .next (s.setCore s.curCore
        { s.cur.setGroup s.curStream (left ((g.past (.yield f) false).without (stopped s g f.guard))) with threads := T, bins := B }) ∧
      (∀ x, x ∉ stopped s g f.guard → FMap.get {} T x = s.cur.thread x) ∧
      (∀ x ∈ stopped s g f.guard, Filed s.cur B x (s.cur.thread x) T (fallOf g (.yield f)) g.header
        (some { ring := g.ring, latches := [] }) false true) ∧
      Grown s.cur.bins B (stopped s g f.guard)) ∧
  ∀ (s : State) (g : Group), s.curGroup = some g → (fetched g ≠ none → exec .illegalInstruction s = .next s) ∧
    (fetched g = none → ∃ t, Parked s t s.curCore
        { slots := g.members, code := 0x01, detail := 0, addr := 0,
          resume := if g.entering then g.key.addr else g.here, header := g.header, ring := g.ring,
          latches := if g.entering then entryLatches g else [], coh := g.cf, wait := false } ∧
      exec .illegalInstruction s = .next (t.setCurGroup (g.without g.members)))

/-! ## System instructions (06) -/

/-- R139 to R144, R267: rdsys, wrsys, lfsrd, lfswr, probe and movix. A probe asks the homes for the lanes whose address is in range,
and completes when their answers have come; the other lanes read false. R140, R143, R281: a register that cannot be read or written, and
a column of an MXE that the crew does not hold, park the lanes with code 0x07. That of several lanes that write one register the highest
stands is log 20, that a probe lane out of its index bounds asks nothing log 26 (the model's inferences), DETAIL 0 log 73. -/
def Obligations.SystemInstructionsComplete : Prop :=
  (∀ (f : EForm) (s : State) (g : Group) (v : Nat → Dword) (ds : Nat → List Dst),
    let n := f.c.code.toNat
    Ready s g f.guard ((entryOf (.rdsys f)).produces f) (touched (entryOf (.rdsys f)) f) →
    (∀ x ∈ activeSlots s.cur g f.guard, sysValue s.curCore s.cycle s.cur x n = some (v x) ∧ Into s f (sysWide n) x (ds x)) →
    Writes (.rdsys f) s g f.guard ((entryOf (.rdsys f)).produces f) fun x => laneResult f (ds x) (sysWide n) (v x)) ∧
  (∀ (f : EForm) (s : State) (g : Group) (v : Nat → Dword), f.c.code = 0x0A →
    Ready s g f.guard false (touched (entryOf (.wrsys f)) f) →
    (∀ x ∈ activeSlots s.cur g f.guard, Reads s f f.b false x (v x)) →
    Writes (.wrsys f) s g f.guard false fun x => { lfsr := some (lfsrStore ((v x).setWidth 32)) }) ∧
  (∀ (f : EForm) (s : State) (g : Group) (v : Nat → Dword), f.c.code = 0x10 ∨ f.c.code = 0x11 ∨ f.c.code = 0x1A →
    Ready s g f.guard false (touched (entryOf (.wrsys f)) f) →
    (∀ x ∈ activeSlots s.cur g f.guard, Reads s f f.b false x (v x)) →
    ∃ (T : FMap Thread) (R : FMap Row), Pends s g [] false (fun _ => []) T R ∧
      exec (.wrsys f) s = .next (s.setCore s.curCore
        (((byLane (activeSlots s.cur g f.guard)).foldl (fun k x => sysWrite f.c.code.toNat k x ((v x).setWidth 32))
          { s.cur with threads := T, rows := R }).setGroup s.curStream (left (g.past (.wrsys f) false))))) ∧
  (∀ (f : EForm) (s : State) (g : Group) (ds : Nat → List Dst), f.c.code ≠ 1 →
    Ready s g f.guard ((entryOf (.lfsrd f)).produces f) (touched (entryOf (.lfsrd f)) f) →
    (∀ x ∈ activeSlots s.cur g f.guard, Into s f false x (ds x)) →
    Writes (.lfsrd f) s g f.guard ((entryOf (.lfsrd f)).produces f) fun x => laneResult f (ds x) false ((s.cur.thread x).lfsr.setWidth 64)) ∧
  (∀ (f : EForm) (s : State) (g : Group) (n : Nat → Dword) (ds : Nat → List Dst), f.c.code = 1 →
    Ready s g f.guard ((entryOf (.lfsrd f)).produces f) (touched (entryOf (.lfsrd f)) f) → s.cur.mxe.queue = [] →
    (∀ x ∈ activeSlots s.cur g f.guard, s.cur.holder = some (s.cur.crewOf x) ∧ Reads s f f.b false x (n x) ∧ Into s f false x (ds x)) →
    Writes (.lfsrd f) s g f.guard ((entryOf (.lfsrd f)).produces f) fun x =>
      laneResult f (ds x) false ((FMap.get 0 s.cur.colLfsr (colOf (n x))).setWidth 64)) ∧
  (∀ (f : EForm) (s : State) (g : Group) (v : Nat → Dword), f.c.code ≠ 1 →
    Ready s g f.guard false (touched (entryOf (.lfswr f)) f) →
    (∀ x ∈ activeSlots s.cur g f.guard, Reads s f f.b false x (v x)) →
    Writes (.lfswr f) s g f.guard false fun x => { lfsr := some (lfsrStore ((v x).setWidth 32)) }) ∧
  (∀ (f : EForm) (s : State) (g : Group) (n v : Nat → Dword), f.c.code = 1 →
    Ready s g f.guard false (touched (entryOf (.lfswr f)) f) → s.cur.mxe.queue = [] →
    (∀ x ∈ activeSlots s.cur g f.guard, s.cur.holder = some (s.cur.crewOf x) ∧ Reads s f f.a false x (n x) ∧ Reads s f f.b false x (v x)) →
    ∃ (T : FMap Thread) (R : FMap Row), Pends s g [] false (fun _ => []) T R ∧
      exec (.lfswr f) s = .next (s.setCore s.curCore { s.cur.setGroup s.curStream (left (g.past (.lfswr f) false)) with
        threads := T, rows := R,
        colLfsr := FMap.putAll 0 s.cur.colLfsr ((byLane (activeSlots s.cur g f.guard)).map fun x =>
          (colOf (n x), lfsrStore ((v x).setWidth 32))) })) ∧
  (∀ (f : EForm) (s : State) (g : Group) (ds : Nat → List Dst), Ready s g f.guard false (touched (entryOf (.probe f)) f) →
    (∀ x ∈ activeSlots s.cur g f.guard, Into s f false x (ds x) ∧
      ∀ a, Reads s f f.a true x a → a.toNat < 2 ^ 57 → g.probed x ≠ none) →
    Writes (.probe f) s g f.guard false fun x => laneResult f (ds x) false (boolDword ((g.probed x).getD false))) ∧
  (∀ (f : EForm) (s : State) (g : Group) (a : Nat → Option Dword), Ready s g f.guard false (touched (entryOf (.probe f)) f) →
    let asked := (byLane (activeSlots s.cur g f.guard)).filterMap fun x => (a x).map fun v => (x, keyOf s x v)
    (∀ x ∈ activeSlots s.cur g f.guard, g.probed x = none ∧ match a x with
      | some v => Reads s f f.a true x v ∧ v.toNat < 2 ^ 57
      | none => ∀ v, Reads s f f.a true x v → ¬ v.toNat < 2 ^ 57) →
    asked ≠ [] → (∀ q ∈ s.cur.xlat, q.group ≠ some g.id) →
    exec (.probe f) s = .next { s.setCore s.curCore { s.cur with xlat := s.cur.xlat ++ asked.zipIdx.map fun e =>
        ⟨s.ctr + e.2, some g.id, e.1.1, e.1.2, probeKind f, 0, 0, 0⟩ } with ctr := s.ctr + asked.length }) ∧
  (∀ (m : MForm) (s : State) (g : Group) (j : Nat → Dword) (ds : Nat → List Dst),
    let n (x : Nat) : Word := (j x).setWidth 32 + (disp m).setWidth 32
    Ready s g m.e.guard ((entryOf (.movixRead m)).produces m.e) (touched (entryOf (.movixRead m)) m.e) →
    (∀ x ∈ activeSlots s.cur g m.e.guard, Reads s m.e m.e.b false x (j x) ∧ (n x).toNat < (s.cur.row (rowOf x)).allot ∧
      (n x).toNat < 2 ^ 31 ∧ .v (n x).toNat ∉ (s.cur.thread x).pend ∧ Into s m.e false x (ds x)) →
    Writes (.movixRead m) s g m.e.guard ((entryOf (.movixRead m)).produces m.e) fun x =>
      laneResult m.e (ds x) false (((s.cur.thread x).reg (n x).toNat).setWidth 64)) ∧
  (∀ f : EForm, LanesPark (.rdsys f) f.guard ((entryOf (.rdsys f)).produces f) (touched (entryOf (.rdsys f)) f) 0x07 fun s x =>
    sysValue s.curCore s.cycle s.cur x f.c.code.toNat = none ∧ ∃ ds, Into s f (sysWide f.c.code.toNat) x ds) ∧
  (∀ f : EForm, f.c.code ≠ 0x0A → f.c.code ≠ 0x10 → f.c.code ≠ 0x11 → f.c.code ≠ 0x1A →
    LanesPark (.wrsys f) f.guard false (touched (entryOf (.wrsys f)) f) 0x07 fun s x => ∃ v, Reads s f f.b false x v) ∧
  (∀ f : EForm, f.c.code = 1 →
    LanesPark (.lfsrd f) f.guard ((entryOf (.lfsrd f)).produces f) (touched (entryOf (.lfsrd f)) f) 0x07 (fun s x =>
      s.cur.mxe.queue = [] ∧ s.cur.holder ≠ some (s.cur.crewOf x) ∧ (∃ v, Reads s f f.b false x v) ∧ ∃ ds, Into s f false x ds) ∧
    LanesPark (.lfswr f) f.guard false (touched (entryOf (.lfswr f)) f) 0x07 fun s x =>
      s.cur.mxe.queue = [] ∧ s.cur.holder ≠ some (s.cur.crewOf x) ∧ (∃ v, Reads s f f.a false x v) ∧ ∃ v, Reads s f f.b false x v) ∧
  ∀ (m : MForm) (s : State) (g : Group) (j v : Nat → Dword),
    let n (x : Nat) : Word := (j x).setWidth 32 + (disp m).setWidth 32
    Ready s g m.e.guard false (touched (entryOf (.movixWrite m)) m.e) →
    (∀ x ∈ activeSlots s.cur g m.e.guard, Reads s m.e m.e.b false x (j x) ∧ (n x).toNat < (s.cur.row (rowOf x)).allot ∧
      (n x).toNat < 2 ^ 31 ∧ .v (n x).toNat ∉ (s.cur.thread x).pend ∧ Reads s m.e m.e.c false x (v x)) →
    Writes (.movixWrite m) s g m.e.guard false fun x => { writes := [(.v (n x).toNat, (v x).setWidth 32)] }

/-! ## Memory instructions (11, 12) -/

/-- R262, R263, R265: ld and lds. -/
def Obligations.LoadsComplete : Prop :=
  (∀ m : MForm, Loads (.ld m) m fun s g x ea space key =>
    Permits s g m (accessBytes m.e.sub) 0 x ea ∧ space = .global ∧ key = keyOf s x ea) ∧
  ∀ m : MForm, Loads (.lds m) m fun s _ x ea space key => Scratches s m (accessBytes m.e.sub) x ea space key

/-- R262, R263, R265, R266, R252: st and sts. -/
def Obligations.StoresComplete : Prop :=
  (∀ m : MForm, Stores (.st m) m fun s g x ea space key =>
    Permits s g m (accessBytes m.e.sub) 1 x ea ∧ space = .global ∧ key = keyOf s x ea) ∧
  ∀ m : MForm, Stores (.sts m) m fun s _ x ea space key => Scratches s m (accessBytes m.e.sub) x ea space key

/-- R261, R270 to R273: atom and red. -/
def Obligations.AtomicsAndReductionsComplete : Prop :=
  (∀ min m, Atomics min m) ∧ ∀ min m, Reductions min m

/-- R268: pf asks for the line of every lane whose address is in range and goes on; no lane faults. R237, R238, R269: each fence goes on
where no lane is active; a release completes where its active lanes have nothing outstanding, and where they have, the group is
suspended (R116); an acquire self-invalidates. That an acquire waits for its threads' loads is the model's inference (log 77). A
system fence first writes back the dirty far lines of its threads' address spaces, and completes once they are acknowledged. R145:
icinv takes the lines of its threads' address spaces and of the global pages from every instruction cache, and completes once every
other group that had started has ended. -/
def Obligations.MemoryOrderingComplete : Prop :=
  (∀ (m : MForm) (s : State) (g : Group) (ea : Nat → Option Dword),
     let act := byLane (activeSlots s.cur g m.e.guard)
     let lines := act.filterMap fun x => (ea x).map fun a => (x, keyOf s x a)
     s.curGroup = some g → mustStall s.cur g m.e.guard (touched (entryOf (.pf m)) m.e) = false →
     (∀ x ∈ act, match ea x with
       | some a => Addresses s m x a ∧ a.toNat < 2 ^ 57
       | none => ∀ a, Addresses s m x a → ¬ a.toNat < 2 ^ 57) →
     exec (.pf m) s = .next { s.setCore s.curCore { s.cur.setGroup s.curStream (left (g.past (.pf m) false)) with
         xlat := s.cur.xlat ++ lines.zipIdx.map fun e =>
           ⟨s.ctr + e.2, none, e.1.1, e.1.2, 0, m.ch.toNat, s.cur.e1, (s.cluster (clusterOf s.curCore)).e2⟩ } with
       ctr := s.ctr + lines.length }) ∧
  (∀ (m : MForm) (s : State) (g : Group) (act : List Nat), At s g m.e.guard (fun _ _ => []) act →
    let on (i : Instr) (t : State) : State := t.setCurGroup (g.past i false)
    let held (i : Instr) : State := s.suspend g i
    let lines := s.farDirty (spacesOf s act)
    (act = [] → exec (.fenceAcq m) s = .next (on (.fenceAcq m) s) ∧ exec (.fenceRel m) s = .next (on (.fenceRel m) s) ∧
      exec (.fenceAr m) s = .next (on (.fenceAr m) s) ∧ exec (.fenceSys m) s = .next (on (.fenceSys m) s)) ∧
    (act ≠ [] →
      (if ∀ x ∈ act, s.cur.loadsDone x = true then exec (.fenceAcq m) s = .next (on (.fenceAcq m) (s.acquire s.curCore act))
        else exec (.fenceAcq m) s = .next (held (.fenceAcq m))) ∧
      (Released s g act → exec (.fenceRel m) s = .next (on (.fenceRel m) s) ∧
        exec (.fenceAr m) s = .next (on (.fenceAr m) (s.acquire s.curCore act)) ∧
        (g.covers = none → lines = [] → exec (.fenceSys m) s = .next (on (.fenceSys m) (s.acquire s.curCore act))) ∧
        (g.covers = none → lines ≠ [] → exec (.fenceSys m) s = .next
          ((lines.foldl State.writeBack s).suspend { g with covers := some lines } (.fenceSys m))) ∧
        ∀ l, g.covers = some l →
          if ∀ w ∈ s.farWrites, w.line ∉ l then exec (.fenceSys m) s = .next (on (.fenceSys m) (s.acquire s.curCore act))
          else exec (.fenceSys m) s = .next (held (.fenceSys m))) ∧
      (¬ Released s g act → exec (.fenceRel m) s = .next (held (.fenceRel m)) ∧ exec (.fenceAr m) s = .next (held (.fenceAr m)) ∧
        exec (.fenceSys m) s = .next (held (.fenceSys m))))) ∧
  (∀ (f : EForm) (s : State) (g : Group) (act : List Nat), At s g f.guard (fun _ _ => []) act →
    let i := Instr.icinv f
    (act = [] → exec i s = .next (s.setCurGroup (g.past i false))) ∧
    (act ≠ [] → Released s g act →
      (g.covers = none → (∀ n ∈ s.allGroups, n = g.id) →
        exec i s = .next ((s.icInvalidate (spacesOf s act)).setCurGroup (g.past i false))) ∧
      (g.covers = none → (∃ n ∈ s.allGroups, n ≠ g.id) → exec i s = .next
        ((s.icInvalidate (spacesOf s act)).suspend { g with covers := some (s.allGroups.filter fun n => n ≠ g.id) } i)) ∧
      ∀ l, g.covers = some l →
        if ∀ n ∈ l, n ∉ s.allGroups then exec i s = .next (s.setCurGroup (g.past i false)) else exec i s = .next (s.suspend g i)) ∧
    (act ≠ [] → ¬ Released s g act → exec i s = .next (s.suspend g i))) ∧
  ∀ (s : State) (asids : List Nat) (c line : Nat),
    ((s.icInvalidate asids).core c).icache.find line =
      if keyTag (line * lineBytes) = globalTag ∨ keyTag (line * lineBytes) ∈ asids then none else (s.core c).icache.find line

/-! ## The register pool (05, 06) -/

/-- R103, R142: claim adds registers to the cohort of the highest active lane, or waits in the pool's queue; cede returns the highest,
and waits for their pending results. A count that is not a multiple of 8 from 8 to 256, and one that takes the allotment above 256 or
below 8, park the cohort with the claim-limit fault (DETAIL 0: log 73). -/
def Obligations.PoolInstructionsComplete : Prop :=
  (∀ f : EForm, Skips (.claim f) f.guard (touched (entryOf (.claim f)) f) ∧ Skips (.cede f) f.guard (touched (entryOf (.cede f)) f)) ∧
  (∀ (f : EForm) (s : State) (g : Group) (act : List Nat) (n r : Nat), At s g f.guard (touched (entryOf (.claim f)) f) act → act ≠ [] →
    Count s f act n r → (s.cur.row r).allot + n ≤ 256 → s.cur.claimQ = [] → n ≤ s.cur.poolFree →
    ∃ (T : FMap Thread) (R : FMap Row), reallot s r (s.cur.row r).allot ((s.cur.row r).allot + n) T R ∧
      exec (.claim f) s = .next (issued s (g.past (.claim f) false) T R)) ∧
  (∀ (f : EForm) (s : State) (g : Group) (act : List Nat) (n r : Nat), At s g f.guard (touched (entryOf (.claim f)) f) act → act ≠ [] →
    Count s f act n r → (s.cur.row r).allot + n ≤ 256 → s.cur.claimQ ≠ [] ∨ s.cur.poolFree < n →
    ∃ T : FMap Thread, (∀ x, FMap.get {} T x = if x ∈ g.members
        then { s.cur.thread x with next := fallOf g (.claim f), header := g.header, resume := some { ring := g.ring, latches := [] }, reform := false,
                                   yielding := false, phase := .claimWait }
        else s.cur.thread x) ∧
      exec (.claim f) s = .next (s.setCore s.curCore
        { s.cur.setGroup s.curStream none with threads := T, claimQ := s.cur.claimQ ++ [⟨r, n⟩] })) ∧
  (∀ (f : EForm) (s : State) (g : Group) (act : List Nat) (n r : Nat), At s g f.guard (touched (entryOf (.cede f)) f) act → act ≠ [] →
    Count s f act n r → n + 8 ≤ (s.cur.row r).allot →
    (∀ x ∈ rowSlots r, ∀ j, .v j ∈ (s.cur.thread x).pend → j < (s.cur.row r).allot - n) →
    ∃ (T : FMap Thread) (R : FMap Row), reallot s r ((s.cur.row r).allot - n) ((s.cur.row r).allot - n) T R ∧
      exec (.cede f) s = .next (issued s (g.past (.cede f) false) T R)) ∧
  ∀ (f : EForm) (s : State) (g : Group) (act : List Nat) (n : Nat), act ≠ [] → n < 2 ^ 64 →
    Reads s f f.b false (topSlot act) (BitVec.ofNat 64 n) →
    let a := (s.cur.row (rowOf (topSlot act))).allot
    (At s g f.guard (touched (entryOf (.claim f)) f) act → ¬ (n % 8 = 0 ∧ 8 ≤ n ∧ n ≤ 256) ∨ 256 < a + n → AllPark (.claim f) s g 0x06) ∧
    (At s g f.guard (touched (entryOf (.cede f)) f) act → ¬ (n % 8 = 0 ∧ 8 ≤ n ∧ n ≤ 256) ∨ a < n + 8 → AllPark (.cede f) s g 0x06)

/-! ## Synchronisation (08) -/

/-- R193, R194: arrive. A member arrives, and with .leave leaves at the Advance; with .join another cohort becomes a member: at once
of an empty group, else at the Advance; a group that the cohort does not name is nothing. R193, R196: await, the wait half of
arwait, and await.elect, which tells the active lanes whether their cohort was elected. R451: at a poisoned group the threads park with
code 0x0C (DETAIL 0: log 73). That a wait is suspended while its threads lack the bytes of their loads is log 77, that the elect mark
and the arrived half are kept with the slot and the group log 16 (the model's inferences). -/
def Obligations.BarrierInstructionsComplete : Prop :=
  (∀ f : EForm, Skips (.arrive f) f.guard (touched (entryOf (.arrive f)) f) ∧
   ∀ (s : State) (g : Group) (act : List Nat),
     (AtBarrier s g (.arrive f) f act none → exec (.arrive f) s = .next (s.setCurGroup (g.past (.arrive f) false))) ∧
     ∀ v : BarView, AtBarrier s g (.arrive f) f act (some v) →
       (v.member = true → v.slot.target ≠ some (v.bar.gen + 1) → s.cur.cohortDrained v.row = true →
         exec (.arrive f) s = .next ((closes v { s.setCore s.curCore (slotSet s v fun x => { x with target := some (v.bar.gen + 1), elect := none }) with
           bars := s.bars.map (barArrived v.bar.id v.cohort (barMode f)) }).setCurGroup (g.past (.arrive f) false))) ∧
       (v.member = true → v.slot.target = some (v.bar.gen + 1) → exec (.arrive f) s = .next (s.suspend g (.arrive f))) ∧
       (v.member = false → s.cur.cohortDrained v.row = true → barMode f ≠ 2 →
         exec (.arrive f) s = .next (s.setCurGroup (g.past (.arrive f) false))) ∧
       (v.member = false → s.cur.cohortDrained v.row = true → barMode f = 2 → v.bar.mask = [] →
         exec (.arrive f) s = .next ((closes v { s.setCore s.curCore (slotSet s v fun x => { x with target := some (v.bar.gen + 1), elect := none }) with
           bars := s.bars.map fun (b : Barrier) => if b.id = v.bar.id then { b with mask := [v.cohort], arrived := [v.cohort] } else b }).setCurGroup
           (g.past (.arrive f) false))) ∧
       (v.member = false → s.cur.cohortDrained v.row = true → barMode f = 2 → v.bar.mask ≠ [] →
         exec (.arrive f) s = .next (({ s with
           bars := s.bars.map fun (b : Barrier) => if b.id = v.bar.id then { b with joins := insertNat v.cohort b.joins } else b }).setCurGroup
           (g.past (.arrive f) false)))) ∧
  ((∀ f : EForm, Skips (.await f) f.guard (touched (entryOf (.await f)) f) ∧ Skips (.arwait f) f.guard (touched (entryOf (.arwait f)) f) ∧
     Skips (.awaitElect f) f.guard (touched (entryOf (.awaitElect f)) f)) ∧
   (∀ f : EForm, WaitsFor (.await f) f (fun _ => True) fun _ _ s => s) ∧
   (∀ f : EForm, WaitsFor (.arwait f) f (fun g => g.arrived = true) fun _ _ s => s) ∧
   (∀ f : EForm, WaitsFor (.awaitElect f) f (fun _ => True) fun act v s =>
     s.setCore s.curCore (s.cur.mapThreads act fun _ t =>
       t.setPred f.d.code.toNat (match v with | some w => w.slot.elect = some w.cohort | none => false))) ∧
   ∀ (f : EForm) (s : State) (g : Group) (act : List Nat), g.arrived = false →
     (AtBarrier s g (.arwait f) f act none →
       (Loaded s g → exec (.arwait f) s = .next ((s.acquire s.curCore g.members).setCurGroup (g.past (.arwait f) false))) ∧
       (¬ Loaded s g → exec (.arwait f) s = .next (s.suspend g (.arwait f)))) ∧
     ∀ v : BarView, AtBarrier s g (.arwait f) f act (some v) → v.member = true → v.slot.target ≠ some (v.bar.gen + 1) →
       s.cur.cohortDrained v.row = true → v.row = g.row → s.barrier v.crew f.c.code.toNat = some v.bar →
       ∃ t : State, t = closes v { s.setCore s.curCore (slotSet s v fun x => { x with target := some (v.bar.gen + 1), elect := none }) with
           bars := s.bars.map (barArrived v.bar.id v.cohort (barMode f)) } ∧
         exec (.arwait f) s = .next (t.suspend { g with arrived := true } (.arwait f))) ∧
  ∀ (f : EForm) (s : State) (g : Group) (act : List Nat), act ≠ [] → s.poisoned? s.curCore g.row f.c.code.toNat = true →
    (At s g f.guard (touched (entryOf (.arrive f)) f) act → AllPark (.arrive f) s g 0x0C) ∧
    (At s g f.guard (touched (entryOf (.await f)) f) act → AllPark (.await f) s g 0x0C) ∧
    (At s g f.guard (touched (entryOf (.arwait f)) f) act → AllPark (.arwait f) s g 0x0C) ∧
    (At s g f.guard (touched (entryOf (.awaitElect f)) f) act → AllPark (.awaitElect f) s g 0x0C)

/-- R198, R204: sign declares the cohort's active threads; gdset and gdclr write the guard slot of every crew with an active lane, gdset
with the OR over the group's active lanes.
R200 to R202: evwait places one request for each active lane, in lane order; evpost of one lane appends its record to the queue
of a crew of the gang that has room, answers true, and false where there is no such crew. That gdset and gdclr write the slot of every
crew with an active lane is log 21, that evpost answers false to a crew that has completed log 46 (the model's inferences). -/
def Obligations.DeclarationsAndEventsComplete : Prop :=
  ((∀ f : EForm, Skips (.sign f) f.guard fun _ _ => []) ∧
   (∀ (f : EForm) (s : State) (g : Group) (act : List Nat) (x : Nat), At s g f.guard (fun _ _ => []) (x :: act) → Released s g (x :: act) →
     let w := s.cur.crewOf x
     let v := (s.cur.crew w).conv (convOf f)
     (signNew f = false ∨ v.pending = none) →
     exec (.sign f) s = .next ((s.setCore s.curCore { s.cur with
       crews := s.cur.crews.set w ((s.cur.crew w).setConv (convOf f)
         { v with declared := unionNat (x :: act) (if signNew f then [] else v.declared) }) }).setCurGroup (g.past (.sign f) false))) ∧
   (∀ (f : EForm) (s : State) (g : Group) (act : List Nat) (v : Bool), At s g f.guard (touched (entryOf (.gdset f)) f) act →
     (act ≠ [] → if f.a.kind = .spc then v = act.any fun x => (s.cur.thread x).pred f.a.code.toNat
       else ∃ a, Reads s f f.a false (topSlot act) a ∧ v = decide (a ≠ 0)) →
     ∃ C : FMap Crew, (∀ w, FMap.get {} C w = if w ∈ s.cur.crewsOf act
         then { s.cur.crew w with gd := (s.cur.crew w).gd.set (gslotOf f) v } else s.cur.crew w) ∧
       exec (.gdset f) s = .next ((s.setCore s.curCore { s.cur with crews := C }).setCurGroup (g.past (.gdset f) false))) ∧
   ∀ (f : EForm) (s : State) (g : Group) (act : List Nat), At s g f.guard (touched (entryOf (.gdclr f)) f) act →
     ∃ C : FMap Crew, (∀ w, FMap.get {} C w = if w ∈ s.cur.crewsOf act
         then { s.cur.crew w with gd := (s.cur.crew w).gd.erase (gslotOf f) } else s.cur.crew w) ∧
       exec (.gdclr f) s = .next ((s.setCore s.curCore { s.cur with crews := C }).setCurGroup (g.past (.gdclr f) false))) ∧
  ((∀ (f : EForm) (s : State) (g : Group) (ds : Nat → List Dst),
     let i := Instr.evwait f
     let p := (entryOf i).produces f
     let act := byLane (activeSlots s.cur g f.guard)
     let mine (x : Nat) : List Dst := ds x ++ if p then [.bp g.ring] else []
     Ready s g f.guard p (touched (entryOf i) f) → (∀ x ∈ act, Into s f true x (ds x)) →
     ∃ (T : FMap Thread) (R : FMap Row) (C : FMap Crew), Pends s g (activeSlots s.cur g f.guard) p mine T R ∧
       (∀ w, FMap.get {} C w = { s.cur.crew w with evReqs := (s.cur.crew w).evReqs ++
         (act.zipIdx.filter fun e => s.cur.crewOf e.1 = w).map fun e => ⟨e.1, s.ctr + e.2⟩ }) ∧
       exec i s = .next (acquiring true act { s.setCore s.curCore { s.cur.setGroup s.curStream (left (g.past i p)) with
           threads := T, rows := R, crews := C,
           results := s.cur.results ++ act.zipIdx.map fun e => ⟨s.ctr + e.2, e.1, mine e.1, none, none⟩ } with
         ctr := s.ctr + act.length })) ∧
   (∀ f : EForm, Skips (.evpost f) f.guard (touched (entryOf (.evpost f)) f)) ∧
   (∀ (f : EForm) (s : State) (g : Group) (x c w : Nat) (a b : Dword),
     At s g f.guard (touched (entryOf (.evpost f)) f) [x] → g.doneAt = [] → s.cur.released x = true →
     Reads s f f.a false x a → Reads s f f.b true x b → a.toNat ≤ 7 →
     s.crewPlace (s.cur.crewAt x).lid ((s.cur.crewAt x).gang * 8 + a.toNat) = some (c, w) →
     ((s.core c).crew w).evq.length < Config.evqSize →
     exec (.evpost f) s = .next (((s.updCore c fun k => k.updCrew w fun q => { q with evq := q.evq ++ [postedRecord b] }).updCur
       fun k => k.updThread x fun t => t.setPred f.d.code.toNat true).setCurGroup (g.past (.evpost f) false))) ∧
   ∀ (f : EForm) (s : State) (g : Group) (x : Nat) (a b : Dword),
     At s g f.guard (touched (entryOf (.evpost f)) f) [x] → g.doneAt = [] → s.cur.released x = true →
     Reads s f f.a false x a → Reads s f f.b true x b →
     (a.toNat ≤ 7 ∧ s.crewPlace (s.cur.crewAt x).lid ((s.cur.crewAt x).gang * 8 + a.toNat) = none) ∨ 9 ≤ a.toNat →
     exec (.evpost f) s = .next ((s.updCur fun k => k.updThread x fun t => t.setPred f.d.code.toNat false).setCurGroup
       (g.past (.evpost f) false)))

/-! ## The matrix engine's reservation, and engine commands (14 to 21) -/

/-- R281, R282, R303: mxacq grants a free MXE to the first crew with an active lane, clears the accumulators, seeds the columns and
finds the queue empty; whether its crew holds the MXE becomes a pending result of each active lane; mxrel gives it back once no command
of the holder is queued. R283, R311: omap writes the operand map that D names, of every crew with an active lane, from four registers
of the group's highest active lane; reserved bits stay 0. R293, R294, R323, R394, R415: the waits for an engine. That omap writes every
crew's map with the highest lane's value is logs 21 and 6, that a grant finds the queue empty log 80, that a fault parks a lane at one
wait only log 22, and that a wait needs the bytes of the lanes' loads log 77 (the model's inferences). -/
def Obligations.ReservationMapAndWaitsComplete : Prop :=
  ((∀ (f : GForm) (s : State) (g : Group) (act : List Nat), At s g f.guard (fun _ _ => [.p f.d.toNat]) act →
     (s.cur.holder = none → s.cur.mxe.queue = []) →
     let k : Core := match s.cur.holder, crewsByRow s.cur act with
       | none, w :: _ =>
         { s.cur with
           holder := some w, acc := [], badAcc := [], ledger := [],
           colLfsr := (List.range Config.accCols).map fun c => (c, lfsrStore ((s.cur.crew w).seed ^^^ BitVec.ofNat 32 (c + 1))) }
       | _, _ => s.cur
     ∃ (T : FMap Thread) (R : FMap Row), Pends s g act false (fun _ => [.p f.d.toNat]) T R ∧
       exec (.mxacq f) s = .next (({ s.setCore s.curCore { k with threads := T, rows := R, results := k.results ++ act.zipIdx.map fun (e : Nat × Nat) =>
           (⟨s.ctr + e.2, e.1, [], some 0, some (f.d.toNat, k.holder = some (s.cur.crewOf e.1))⟩ : Result) } with
         ctr := s.ctr + act.length }).setCurGroup (g.past (.mxacq f) false))) ∧
   (∀ (f : GForm) (s : State) (g : Group) (act : List Nat) (w : Nat) (l : List Nat), At s g f.guard (fun _ _ => [.p f.d.toNat]) act →
     s.cur.holder = none → crewsByRow s.cur act = w :: l →
     ∃ t, exec (.mxacq f) s = .next t ∧ (t.core s.curCore).holder = some w ∧ (t.core s.curCore).mxe.queue = [] ∧
       (t.core s.curCore).acc = [] ∧ (t.core s.curCore).badAcc = [] ∧ t.dram = s.dram ∧ t.lines = s.lines) ∧
   (∀ (f : GForm) (s : State) (g : Group) (act : List Nat), At s g f.guard (fun _ _ => []) act →
     (∀ x ∈ act, s.cur.holder ≠ some (s.cur.crewOf x)) → exec (.mxrel f) s = .next (s.setCurGroup (g.past (.mxrel f) false))) ∧
   (∀ (f : GForm) (s : State) (g : Group) (act : List Nat) (x : Nat), At s g f.guard (fun _ _ => []) act → x ∈ act →
     s.cur.holder = some (s.cur.crewOf x) → (∀ c ∈ s.cur.mxe.queue, c.crew ≠ s.cur.crewOf x) →
     exec (.mxrel f) s = .next ((s.setCore s.curCore { s.cur with holder := none }).setCurGroup (g.past (.mxrel f) false))) ∧
   ∀ (f : GForm) (s : State) (g : Group) (act : List Nat) (x : Nat), At s g f.guard (fun _ _ => []) act → x ∈ act →
     s.cur.holder = some (s.cur.crewOf x) → (∃ c ∈ s.cur.mxe.queue, c.crew = s.cur.crewOf x) →
     exec (.mxrel f) s = .next (s.suspend g (.mxrel f))) ∧
  (∀ (f : GForm) (s : State) (g : Group) (act : List Nat), At s g f.guard (fun _ _ => cmdRegs (.omap f) 0) act →
     ∃ C : FMap Crew, (∀ w, FMap.get {} C w = if w ∈ crewsByRow s.cur act
         then { s.cur.crew w with
           om := FMap.put 0 (s.cur.crew w).om f.d.toNat
             (quadOf (s.cur.thread (topSlot act)) f.a.toNat &&& mapMask) }
         else s.cur.crew w) ∧
       exec (.omap f) s = .next ((s.setCore s.curCore { s.cur with crews := C }).setCurGroup (g.past (.omap f) false))) ∧
  (∀ f : GForm, WaitsEngine (.mxwait f) f ∧ WaitsEngine (.tcwait f) f ∧ WaitsEngine (.swait f) f)

/-- R38, R199, R288, R310: the commands of the matrix engine, tiles among them, are signed and appended. R38, R380, R407: the commands of
the copy engine and of the Starter. R281: lanes of a crew that does not hold the MXE park with code 0x07, R288: lanes whose register has
another command pending with code 0x19 (DETAIL 0: log 73). -/
def Obligations.EngineCommandsComplete : Prop :=
  (∀ f : GForm, SignsCommand (.mxfence f) ∧ SignsCommand (.mmad f) ∧ SignsCommand (.mmas f) ∧ SignsCommand (.mmaq f) ∧
     SignsCommand (.mscal f) ∧ SignsCommand (.aczero f) ∧ SignsCommand (.acld f) ∧ SignsCommand (.acst f) ∧ SignsCommand (.acmov f) ∧
     SignsCommand (.spz f) ∧ SignsCommand (.tnew f) ∧ SignsCommand (.tfree f) ∧ SignsCommand (.tinfo f) ∧ SignsCommand (.tmov f) ∧
     SignsCommand (.tadd f) ∧ SignsCommand (.tmul f) ∧ SignsCommand (.trnd f) ∧ SignsCommand (.tdense f) ∧ SignsCommand (.tlu f) ∧
     SignsCommand (.tchol f) ∧ SignsCommand (.ttrsm f) ∧ SignsCommand (.tdelta f)) ∧
  (∀ f : GForm, SignsCommand (.tcopy f) ∧ SignsCommand (.gath f) ∧ SignsCommand (.scat f) ∧ SignsCommand (.rules f) ∧
     SignsCommand (.spred f) ∧ SignsCommand (.sfetch f) ∧ SignsCommand (.scheck f)) ∧
  ∀ (f : GForm), ∀ i ∈ engineCommands f, CommandStops i

/-! ## Steps of the load-store engines and the homes (02, 11) -/

/-- R32, R237, R240: an entry that may leave is sent to the home of its word; one of a scratchpad is written there, or sent to the
peer. One that may not changes nothing. That a release waits for its thread's older loads, and that a thread takes a word that it has
written, or whose atomic has answered, from no older copy, is the model's inference (log 77). R32, R239, R265: window writes, acknowledgements, the results of atomics, evictions, and
results that return. -/
def Obligations.StoreBufferAndAnswerStepsComplete : Prop :=
  ((∀ (s : State) (c n : Nat) (elders : List SobEntry) (x : SobEntry), sobSplit n (s.core c).sob = some (elders, x) →
     (canSend elders x = true → (s.core c).loadsAllow x = true → exec (.send c n) s = .next
       ((s.setCore c { s.core c with sob := (s.core c).sob.map fun e => if e.id = n then { e with sent := true } else e }).push
         (homeLane (.lse c) x.word) (entryMsg c x))) ∧
     (canSend elders x = false ∨ (s.core c).loadsAllow x = false → exec (.send c n) s = .next s) ∧
     (canWriteScratch c elders x = true → x.kind = .scratch → exec (.writeScratch c n) s = .next (s.setCore c
       { written (s.core c) (4 * x.word) x.mask x.data with sob := (s.core c).sob.filter fun e => e.id ≠ n })) ∧
     (∀ peer, canWriteScratch c elders x = true → x.kind = .window peer → exec (.writeScratch c n) s = .next
       ((s.setCore c { s.core c with sob := (s.core c).sob.map fun e => if e.id = n then { e with sent := true } else e }).push
         ⟨.lse c, .lse peer, windowHash (s.core peer) ((s.core c).crewAt (x.slots.headD 0)) (4 * x.word)⟩
         (.window c n none (4 * x.word) x.mask x.data))) ∧
     (canWriteScratch c elders x = false → exec (.writeScratch c n) s = .next s))) ∧
  ((∀ (s : State) (src : Endpoint) (h peer c n addr : Nat) (cmd : Option (EngineId × Nat)) (mask : BitVec 4) (data : Word),
     s.head ⟨src, .lse peer, h⟩ = some (.window c n cmd addr mask data) →
     exec (.windowWrite ⟨src, .lse peer, h⟩) s = .next (((s.pop ⟨src, .lse peer, h⟩).updCore peer fun k => written k addr mask data).push ⟨.lse peer, src, h⟩ (.ack c n cmd))) ∧
   (∀ (s : State) (src : Endpoint) (h c d n : Nat), s.head ⟨src, .lse c, h⟩ = some (.ack d n none) →
     ∃ T : FMap Thread, exec (.acknowledgement ⟨src, .lse c, h⟩) s = .next ((s.pop ⟨src, .lse c, h⟩).updCore c fun k =>
         { k with threads := T, sob := k.sob.filter fun e => e.id ≠ n }) ∧
       ∀ x, ∃ m, FMap.get {} T x = { (s.core c).thread x with fresh := m } ∧
         ∀ e, (s.core c).sob.find? (fun e => e.id = n) = some e → isGlobal e.kind = true → x ∈ e.slots → ∀ u ∈ e.words,
           ∃ stamp, m.find u = some ((s.core c).e1, stamp) ∧ e.stamp ≤ stamp) ∧
   (∀ (s : State) (lane : LaneId) (c n load w : Nat) (old : Dword) (b : Bool) (q : LqEntry),
     s.head lane = some (.result c n load old b w) → (s.core c).lq.find? (fun q => q.id = load) = some q →
     let stamped := (((s.core c).sob.find? fun e => e.id = n).map SobEntry.stamped).getD []
     let t := (s.pop lane).updCore c fun k => ({ k with
       sob := k.sob.filter (fun e => e.id ≠ n), lq := k.lq.filter (fun q => q.id ≠ load),
       v1 := k.v1.filter fun e => !q.parts.any fun p => p.word = e.1 }.refresh q.slot stamped).deliver s.cycle q.slot q.dsts old
         (q.pred.map fun p => (p, b))
     exec (.atomicResult lane) s = .next (if q.acquire then t.selfInvalidate c else t)) ∧
   (∀ (s : State) (c w : Nat), exec (.evict (.v1 c) w) s = .next (s.updCore c fun k => { k with v1 := k.v1.erase w })) ∧
   (∀ (s : State) (q w : Nat), exec (.evict (.v2 q) w) s = .next (s.updCluster q fun k => { k with v2 := k.v2.erase w })) ∧
   (∀ (s : State) (c n x j : Nat) (v : Dword), (s.core c).results.find? (fun r => r.id = n) = some ⟨n, x, [.v j], some v, none⟩ →
     ((s.core c).thread x).phase ≠ .pending → (∀ m, ((s.core c).thread x).void = some m → j < m) →
     ∃ t, exec (.pendingResultReturn c n) s = .next t ∧ ((t.core c).thread x).reg j = v.setWidth 32 ∧
       .v j ∉ ((t.core c).thread x).pend ∧ (∀ i, i ≠ j → ((t.core c).thread x).reg i = ((s.core c).thread x).reg i) ∧
       (∀ y, y ≠ x → (t.core c).thread y = (s.core c).thread y) ∧ (t.core c).results = (s.core c).results.filter fun r => r.id ≠ n))

/-- R33: a register message whose line is there sets the bytes of its word at home and makes its sender the owner; the previous owner's
copy is owned no more; the acknowledgement goes back. No other word at home changes. R274, R461: the write of a whole sector sets its
eight words in one step, whatever the sector held, and makes a new tag: no error remains. -/
def Obligations.RegistrationAtHome : Prop :=
  (∀ (s : State) (lane : LaneId) (owner : Option Nat) (c n w hint : Nat) (cmd : Option (EngineId × Nat)) (mask : BitVec 4) (data : Word)
    (l : Line),
    s.head lane = some (.register owner c n cmd hint w mask data) → s.lines.find (w / 16) = some l → s.badWord w = false →
    ∃ t, exec (.register lane) s = .next t ∧
      t.homeWord w = mergeBytes (s.homeWord w) data mask ∧ (∀ u, u ≠ w → t.homeWord u = s.homeWord u) ∧
      t.owners.find w = owner ∧ (∀ u, u ≠ w → t.owners.find u = s.owners.find u) ∧
      (∀ o, owner = some o → hint ≠ 2 ∨ ((s.core o).v1.find w).isSome = true →
        (t.core o).v1.find w = some ⟨mergeBytes (s.homeWord w) data mask, true, l.rp, l.wp, l.xp, .clean, hint = 1, s.stamp + 1⟩) ∧
      (∀ o, s.owners.find w = some o → owner ≠ some o →
        (t.core o).v1.find w = ((s.core o).v1.find w).map fun v => { v with owned := false }) ∧
      t.lanes = ((s.pop lane).push (LaneBack lane) (.ack c n cmd)).lanes ∧
      (∀ o, (t.core o).threads = (s.core o).threads ∧ (t.core o).rows = (s.core o).rows ∧ (t.core o).scratch = (s.core o).scratch) ∧
      (l.dt = true → t.dram = s.dram)) ∧
  ∀ (s : State) (lane : LaneId) (owner : Option Nat) (c w : Nat) (cmd : Option (EngineId × Nat)) (data : BitVec 256) (l : Line),
    s.head lane = some (.sector owner c cmd w data) → s.lines.find (w / 16) = some l → w % 8 = 0 →
    ∃ t, exec (.register lane) s = .next t ∧
      (∀ i < 8, t.homeWord (w + i) = (data >>> (32 * i)).setWidth 32 ∧ t.owners.find (w + i) = owner ∧ t.badWord (w + i) = false) ∧
      (∀ u, u / 8 ≠ w / 8 → t.homeWord u = s.homeWord u ∧ t.owners.find u = s.owners.find u) ∧
      t.lanes = ((s.pop lane).push (LaneBack lane) (.ack c 0 cmd)).lanes

/-- R239, R240, R272, R273: an atomic or a reduction whose line is there replaces the value of its width at home, of which nobody is then
the owner, and answers with the old value, or an acknowledgement. R274: where its sector has an error it changes nothing at home, and is
acknowledged. -/
def Obligations.AtomicsAtHome : Prop :=
  (∀ (s : State) (lane : LaneId) (c n load min sub hint w : Nat) (operand other : Dword) (l : Line),
    s.head lane = some (.atomic c n load min sub hint w operand other) → s.lines.find (w / 16) = some l → w % 2 = 0 ∨ min < 2 →
    (s.badWord w = false →
      let r := atomicOp min sub (s.homeOld min w) (operand.toNat % 2 ^ atomWidth min) (other.toNat % 2 ^ atomWidth min)
      ∃ t, exec (.atomicAtHome lane) s = .next t ∧
        t.homeOld min w = r.1 % 2 ^ atomWidth min ∧ (∀ u, u ∉ wordsOf min w → t.homeWord u = s.homeWord u) ∧
        (∀ u ∈ wordsOf min w, t.owners.find u = none) ∧
        t.lanes = ((s.pop lane).push (LaneBack lane) (.result c n load (BitVec.ofNat 64 (s.homeOld min w)) r.2 w)).lanes) ∧
    (s.badWord w = true → ∃ t, exec (.atomicAtHome lane) s = .next t ∧ (∀ u, t.homeWord u = s.homeWord u) ∧ t.owners = s.owners ∧
      t.lanes = ((s.pop lane).push (LaneBack lane) (.ack c n none)).lanes)) ∧
  ∀ (s : State) (lane : LaneId) (c n min sub hint w : Nat) (cmd : Option (EngineId × Nat)) (operand : Dword) (l : Line),
    s.head lane = some (.reduce c n cmd min sub hint w operand none) → s.lines.find (w / 16) = some l → w % 2 = 0 ∨ min < 2 →
    (s.badWord w = false → ∃ t, exec (.homeReduction lane) s = .next t ∧
      t.homeOld min w = reduceOp min sub (s.homeOld min w) (operand.toNat % 2 ^ atomWidth min) % 2 ^ atomWidth min ∧
      (∀ u, u ∉ wordsOf min w → t.homeWord u = s.homeWord u) ∧ (∀ u ∈ wordsOf min w, t.owners.find u = none) ∧
      t.lanes = ((s.pop lane).push (LaneBack lane) (.ack c n cmd)).lanes) ∧
    (s.badWord w = true → ∃ t, exec (.homeReduction lane) s = .next t ∧ (∀ u, t.homeWord u = s.homeWord u) ∧ t.owners = s.owners ∧
      t.lanes = ((s.pop lane).push (LaneBack lane) (.ack c n cmd)).lanes)

/-- R35, R36, R249: a read request is answered with the home's word and its permissions. The answer is installed as an unowned copy in the
core's view and the cluster's, in each where its epoch has not moved on since the load was issued, unless the hint is .ll (R220) or, in
the core's, an owned copy stands (the model's inference, log 14); it fills the load, which leaves the queue with its value once all its
words have come; an engine command keeps the word it asked for. R274: of a sector with an error nothing is delivered. -/
def Obligations.ReadsAtHome : Prop :=
  (∀ (s : State) (lane : LaneId) (c load hint w : Nat) (cmd : Option (EngineId × Nat)) (l : Line),
    s.head lane = some (.readReq c load cmd hint w) → s.lines.find (w / 16) = some l →
    exec (.readRequest lane) s = .next
      ((s.pop lane).push (LaneBack lane) (.readResp c load cmd w (s.homeWord w) l.rp l.wp l.xp (s.taint w) s.stamp))) ∧
  (∀ (s : State) (lane : LaneId) (c load id w stamp : Nat) (e : EngineId) (v : Word) (rp wp xp : Bool),
    s.head lane = some (.readResp c load (some (e, id)) w v rp wp xp .clean stamp) →
    exec (.readResponse lane) s = .next ((s.pop lane).setEngine e { s.engine e with queue := (s.engine e).queue.map fun d =>
      if d.id = id then { d with work := { d.work with got := d.work.got.set w v } } else d })) ∧
  (∀ (s : State) (lane : LaneId) (c load w stamp : Nat) (v : Word) (rp wp xp : Bool) (bad : Taint) (q : LqEntry),
    s.head lane = some (.readResp c load none w v rp wp xp bad stamp) → (s.core c).lq.find? (fun q => q.id = load) = some q →
    let copy : ViewWord := ⟨v, false, rp, wp, xp, bad, q.hint = 1, stamp⟩
    let filled := q.fillPart w fun p => { p.take v stamp with asked := false }
    let mine := (s.core c).v1.find w
    let cluster := (s.cluster (clusterOf c)).v2.find w
    ∃ t, exec (.readResponse lane) s = .next t ∧ t.lanes = (s.pop lane).lanes ∧ t.lines = s.lines ∧ t.dram = s.dram ∧
      (t.core c).v1.find w = (if q.hint ≠ 2 ∧ (s.core c).e1 = q.e1 ∧ ∀ u, mine = some u → u.owned = false then some copy else mine) ∧
      (t.cluster (clusterOf c)).v2.find w = (if q.hint ≠ 2 ∧ (s.cluster (clusterOf c)).e2 = q.e2 then some copy else cluster) ∧
      (bad = .clean → q.atomic = false → (∀ p ∈ filled.parts, p.known = 0xF) →
        (t.core c).lq = (s.core c).lq.filter (fun q => q.id ≠ load) ∧
        (t.core c).results = (s.core c).results ++ [⟨load, q.slot, q.dsts, some (loadValue filled), none⟩]) ∧
      (bad = .clean → (∃ p ∈ filled.parts, p.known ≠ 0xF) → (t.core c).results = (s.core c).results ∧
        (t.core c).lq = (s.core c).lq.map fun q => if q.id = load then q.fillPart w fun p => { p.take v stamp with asked := false } else q) ∧
      (bad ≠ .clean → (t.core c).results = (s.core c).results)) ∧
  (∀ (s : State) (lane : LaneId) (c load w stamp : Nat) (v : Word) (rp wp xp : Bool) (bad : Taint),
    s.head lane = some (.readResp c load none w v rp wp xp bad stamp) → (s.core c).lq.find? (fun q => q.id = load) = none →
    exec (.readResponse lane) s = .next (s.pop lane)) ∧
  ∀ (s : State) (c w hint : Nat) (e1 e2 : Word) (v : ViewWord),
    (hint = 2 → s.install c e1 e2 hint w v = s) ∧
    (hint ≠ 2 → ((s.install c e1 e2 hint w v).core c).v1.find w =
      (if (s.core c).e1 = e1 ∧ ∀ u, (s.core c).v1.find w = some u → u.owned = false then some v else (s.core c).v1.find w) ∧
      ((s.install c e1 e2 hint w v).cluster (clusterOf c)).v2.find w =
        if (s.cluster (clusterOf c)).e2 = e2 then some v else (s.cluster (clusterOf c)).v2.find w)

/-- R32: a self-invalidation drops every unowned entry of the core's view and every entry of its cluster's, and both epochs advance. -/
def Obligations.SelfInvalidation : Prop :=
  ∀ (s : State) (c : Nat),
    (∀ w, ((s.selfInvalidate c).core c).v1.find w = FMap.find ((s.core c).v1.filter fun e => e.2.owned) w) ∧
    ((s.selfInvalidate c).core c).e1 = (s.core c).e1 + 1 ∧
    ((s.selfInvalidate c).cluster (clusterOf c)).v2 = [] ∧
    ((s.selfInvalidate c).cluster (clusterOf c)).e2 = (s.cluster (clusterOf c)).e2 + 1 ∧
    (∀ d, d ≠ c → (s.selfInvalidate c).core d = s.core d) ∧ (s.selfInvalidate c).lines = s.lines ∧ (s.selfInvalidate c).dram = s.dram

/-- R35, R242: each word of a load takes its bytes from its thread's own older stores first, then from its core's view, then from its
cluster's; a word that none of them has is asked of its home. Words of a scratchpad come from the own stores and the array; bytes of a
destination that an engine command has not written yet are free values (R250, R295: log 28). An unowned copy that is older than what the
thread has written or read does not serve it (the model's inference, log 77). The load leaves the queue with its value once all its words
are known. -/
def Obligations.LoadsAreSatisfied : Prop :=
  ∀ (s : State) (c load : Nat) (q : LqEntry), (s.core c).lq.find? (fun q => q.id = load) = some q → q.atomic = false →
    heldBack (s.core c) q = false → (∃ p ∈ q.parts, p.known ≠ 0xF ∧ p.asked = false) → s.badParts c q = [] →
    let least (w : Nat) : Nat := ((s.core c).thread q.slot).floor (s.core c).e1 w
    let far (w : Nat) : Option ViewWord := match (s.cluster (clusterOf c)).v2.find w with
      | some v => if least w ≤ v.stamp then some v else none
      | none => none
    let seen (w : Nat) : Option ViewWord := match (s.core c).v1.find w with
      | some v => if v.owned = true ∨ least w ≤ v.stamp then some v else far w
      | none => far w
    let array (a n : Nat) (p : LqPart) : LqPart :=
      (p.fill (rangeMask a p.word (s.openDests c q.slot)) (Config.freeWord n)).fill 0xF (scratchWord (s.core a) p.word)
    let now (p : LqPart) (n : Nat) : LqPart :=
      if p.known = 0xF ∨ p.asked = true then p
      else
        let own := ownBytes c (s.core c) q (ownDet (s.core c) q p)
        match q.space.array c with
        | some a => array a n own
        | none => match seen p.word with
          | some v => own.take v.value v.stamp
          | none => own
    let parts := q.parts.zipIdx.map fun e => now e.1 (s.freeCtr + e.2)
    let ask := parts.filter fun p => decide (p.known ≠ 0xF) && !p.asked
    ∃ t, exec (.satisfy c load) s = .next t ∧ t.lines = s.lines ∧ t.dram = s.dram ∧ (t.core c).scratch = (s.core c).scratch ∧
      t.lanes = (ask.foldl (fun t p => t.push (homeLane (.lse c) p.word) (.readReq c load none q.hint p.word)) s).lanes ∧
      ((∀ p ∈ parts, p.known = 0xF) → (t.core c).lq = (s.core c).lq.filter (fun q => q.id ≠ load) ∧
        (t.core c).results = (s.core c).results ++ [⟨load, q.slot, q.dsts, some (loadValue { q with parts := parts }), none⟩]) ∧
      ((∃ p ∈ parts, p.known ≠ 0xF) → (t.core c).results = (s.core c).results ∧
        (t.core c).lq = (s.core c).lq.map fun x => if x.id = load
          then { x with parts := parts.map fun p => if p.known = 0xF then p else { p with asked := true } } else x)

/-! ## Translation, far memory, heat, migration (10) -/

/-- R227, R218: the verdict of an access. A line that is there gives it by its permissions; else the walk: its fault, Absent, a refusal, or
the fill of a local line with a heat update. A verdict reaches the group that waits for it; the line of a pf whose verdict is good
enters the views, by the epochs of its issue (the model's inference, log 30). R144: a probe's answer tells whether the access would be
permitted with local residence. -/
def Obligations.TranslationVerdictsComplete : Prop :=
  ∀ (s : State) (c n : Nat) (q : XlatReq), (s.core c).xlat.find? (fun q => q.id = n) = some q →
    let told (t : State) (gid code : Nat) : State := t.setCore c
      (({ t.core c with xlat := (t.core c).xlat.filter fun x => x.id ≠ q.id } : Core).updGroups fun g => g.learn gid q.slot (q.key / 4) code)
    (∀ gid, 8 ≤ q.kind → q.group = some gid →
      exec (.translationVerdict c n) s = .next (told s gid (if s.probe q.key (q.kind - 8) then 0 else 0x0A)) ∧
      (s.probe q.key (q.kind - 8) = true ↔
        ∃ l t, s.translate q.key = (.ok l, t) ∧ leafRes l.word = 0 ∧ leafGrants l.word (q.kind - 8) = true)) ∧
    (∀ l gid, q.kind < 8 → s.lines.find (q.key / lineBytes) = some l → q.group = some gid →
      exec (.translationVerdict c n) s = .next (told s gid (if l.grants q.kind then 0 else 0x0A))) ∧
    (∀ l, q.kind < 8 → s.lines.find (q.key / lineBytes) = some l → q.group = none →
      let t := s.setCore c { s.core c with xlat := (s.core c).xlat.filter fun x => x.id ≠ q.id }
      (l.grants q.kind = false ∨ q.hint = 2 → exec (.translationVerdict c n) s = .next t) ∧
      (l.grants q.kind = true → exec (.translationVerdict c n) s = .next (t.prefetched c q))) ∧
    (q.kind < 8 → s.lines.find (q.key / lineBytes) = none → s.isBlocked q.key = false → ∀ gid, q.group = some gid →
      (∀ e t, s.translate q.key = (.error e, t) → exec (.translationVerdict c n) s = .next (told t gid e)) ∧
      (∀ l t, s.translate q.key = (.ok l, t) → leafRes l.word = 2 → exec (.translationVerdict c n) s = .next (told t gid 0x08)) ∧
      (∀ l t, s.translate q.key = (.ok l, t) → leafRes l.word ≠ 2 → leafGrants l.word q.kind = false →
        exec (.translationVerdict c n) s = .next (told t gid 0x0A)) ∧
      ∀ l t, s.translate q.key = (.ok l, t) → leafRes l.word = 0 → leafGrants l.word q.kind = true →
        (t.setLines (q.key / lineBytes)).length < Config.cacheWays →
        exec (.translationVerdict c n) s = .next (told ((t.fillLocal q.key l q.hint).sendHeat q.key q.kind l) gid 0))

/-- R229, R230, R235, R238, R482: a far line that arrives wakes the device and fills its slice, in whose set there is room, and the accesses that waited for it are
counted for heat; one whose range is blocked, or was since, is dropped; a slice gives up a clean line, writes back a dirty local one,
and keeps a dirty far one until its write-back, to the destination recorded at its fill, is acknowledged. R230 to R232: the heat update at the
head of the queue raises the read or the write heat of its leaf, at most to 3; a leaf of remote residence whose read heat is 3
and that has no record posts one if a credit is free, and is counted as dropped if none is. The sweeper lowers every valid
leaf's heat, in C0 only. R227, R233, R234: maintenance blocks, drops and unblocks a range, and a read of it that is under way fills
nothing; the migrator takes the oldest record and marks its leaf as moving, copies the page in order, and makes, once the whole page is
there, the leaf local at the new frame; with the end of the command for that leaf it has ended. R465: a table word is read and written
through its sector. The kinds of migration step, the page's bytes as arguments of the copy, and that a read overtaken by a command fills
nothing are the model's (log 61), the acknowledgement of a write-back log 62, what a sector that cannot be corrected reads as log 18. -/
def Obligations.LineHeatAndMaintenanceStepsComplete : Prop :=
  ((∀ (s : State) (line : Nat) (data : BitVec 512) (r : FarRead), s.farReads.find? (fun r => r.line = line) = some r →
     (r.stale = true ∨ s.isBlocked (line * lineBytes) = true →
       exec (.farLineFill line data) s = .next { s with power := .c0, farReads := s.farReads.erase r }) ∧
     (r.stale = false → s.isBlocked (line * lineBytes) = false → (s.setLines line).length < Config.cacheWays →
       let leaf : Leaf := ⟨r.leafAddr, r.leaf.toNat, r.level⟩
       exec (.farLineFill line data) s = .next (r.heat.foldl (fun t h => t.sendHeat h.1 h.2 leaf) { s with
         power := .c0
         farReads := s.farReads.erase r
         lines := s.lines.set line (lineFrom leaf data (lineTags data) 0 (.far r.index r.addr r.dest) r.first.toNat) }))) ∧
   (∀ (s : State) (line : Nat) (l : Line), s.lines.find line = some l → (∀ w ∈ s.farWrites, w.line ≠ line) →
     (l.dirty = false → exec (.llcWriteBack line) s = .next { s with lines := s.lines.erase line }) ∧
     (∀ pa, l.dirty = true → l.fill = .local pa → ∃ t, exec (.llcWriteBack line) s = .next t ∧ t.lines.find line = none ∧
       (∀ n, n ≠ line → t.lines.find n = s.lines.find n) ∧ t.dram = s.dram.writeNat pa lineBytes l.data.toNat) ∧
     (∀ i a d, l.dirty = true → l.fill = .far i a d → ∃ e, exec (.llcWriteBack line) s = .next { s with
         ecc := e
         lines := s.lines.set line { l with dirty := false }
         farWrites := s.farWrites ++ [⟨line, d, i, a, l.data, l.tags, l.poison, s.cycle⟩]
         out := s.out ++ [.farWrite i a l.data l.tags l.poison] } ∧
       ((∀ n < 2, l.tag n = l.trueTag n) → e = s.ecc))) ∧
   ∀ (s : State) (line : Nat), exec (.farWriteBackAck line) s = .next { s with power := .c0, farWrites := s.farWrites.eraseP fun w => w.line = line }) ∧
  ((∀ (s : State) (a v : Nat), let t := s.writeTable a v
     t = { s with dram := s.dram.writeNat a 8 v, tags := s.tags.erase (a / 32), flips := s.flips.erase (a / 32), poisoned := t.poisoned,
                  ecc := t.ecc } ∧
     (s.sectorPoisoned (a / 32) = false → t.poisoned = s.poisoned ∧ s.tableWord a = s.dram.readNat a 8 ∧ (s.flips = [] → t.ecc = s.ecc))) ∧
   (∀ (s : State) (h : HeatReq) (r : List HeatReq), s.heat = h :: r →
     let e := heated (s.tableWord h.leafAddr) h.write
     let u : State := { s with heat := r }
     (bitsOf e 8 7 ≠ 3 ∨ leafRes e ≠ 1 ∨ e.testBit 11 = true → exec .heatUpdate s = .next (u.writeTable h.leafAddr e)) ∧
     (bitsOf e 8 7 = 3 → leafRes e = 1 → e.testBit 11 = false → s.migQ.length < Config.migCredits →
       exec .heatUpdate s = .next { u.writeTable h.leafAddr (e + 2 ^ 11) with
         migQ := s.migQ ++ [{ asid := h.tag, glb := h.glb, size := h.size, part := h.part, hw := bitsOf e 10 9, va := h.va,
                              leafAddr := h.leafAddr }] }) ∧
     (bitsOf e 8 7 = 3 → leafRes e = 1 → e.testBit 11 = false → Config.migCredits ≤ s.migQ.length →
       exec .heatUpdate s = .next { u.writeTable h.leafAddr e with
         migdrop := FMap.put 0 s.migdrop h.part (FMap.get 0 s.migdrop h.part + 1) })) ∧
   (∀ (e i : Nat) (w : Bool), bitsOf (heated e w) 8 7 = (if w then bitsOf e 8 7 else min 3 (bitsOf e 8 7 + 1)) ∧
     bitsOf (heated e w) 10 9 = (if w then min 3 (bitsOf e 10 9 + 1) else bitsOf e 10 9) ∧
     bitsOf (cooled e) 8 7 = bitsOf e 8 7 - 1 ∧ bitsOf (cooled e) 10 9 = bitsOf e 10 9 - 1 ∧
     (i < 7 ∨ 11 ≤ i → (heated e w).testBit i = e.testBit i ∧ (cooled e).testBit i = e.testBit i)) ∧
   (∀ s : State, s.power ≠ .c0 → exec .sweep s = .next s) ∧
   (∀ s : State, s.power = .c0 → exec .sweep s = .next (s.liveLeaves.foldl (fun t a => t.putTable a (cooled (t.tableWord a)))
     (s.countReads ((s.liveWords.map (· / 32)).foldr insertNat [])))) ∧
   ∀ s : State, s.power = .c0 → s.flips = [] → (∀ a ∈ s.liveLeaves, s.sectorPoisoned (a / 32) = false) →
     ∃ t, exec .sweep s = .next t ∧
       t.dram = s.liveLeaves.foldl (fun m a => m.writeNat a 8 (cooled (m.readNat a 8))) s.dram) ∧
  ((∀ (s : State) (r : PageRange), exec (.maintenanceCommand r .block) s = .next { s with blocked := s.blocked ++ [r] }) ∧
   (∀ (s : State) (r : PageRange), r ∈ s.blocked → exec (.maintenanceCommand r .unblock) s = .next
     { s with blocked := s.blocked.erase r, migrating := s.migrating.bind (·.onUnblock r) }) ∧
   (∀ (s : State) (r : PageRange), r ∉ s.blocked →
     exec (.maintenanceCommand r .unblock) s = .next s ∧ exec (.maintenanceCommand r .drop) s = .next s) ∧
   (∀ (s : State) (r : PageRange), r ∈ s.blocked → ∃ t, exec (.maintenanceCommand r .drop) s = .next t ∧
     (∀ line, rangeHas r (line * lineBytes) = true → t.lines.find line = none) ∧
     (∀ w, rangeHas r (4 * w) = true → t.owners.find w = none ∧ (∀ c, (t.core c).v1.find w = none) ∧ ∀ q, (t.cluster q).v2.find w = none) ∧
     (∀ line, rangeHas r (line * lineBytes) = false → t.lines.find line = s.lines.find line) ∧
     (∀ f ∈ t.farReads, rangeHas r (f.line * lineBytes) = true → f.stale = true) ∧
     t.migrating = s.migrating.map (·.onDrop r)) ∧
   (∀ (m : Migrating) (r : PageRange),
     (m.onDrop r).dropped = (m.dropped || decide (migRange m.record = r)) ∧
     (m.onUnblock r = none ↔ migRange m.record = r ∧ m.final = true ∧ m.dropped = true)) ∧
   (∀ (s : State) (r : MigRec) (rest : List MigRec), s.migrating = none → s.migQ = r :: rest →
     exec (.migration .take) s = .next (({ s with
       migrating := some { record := r, target := 0, copied := 0 }, migQ := rest } : State).writeTable r.leafAddr
       (withBits (s.tableWord r.leafAddr) 13 12 2))) ∧
   (∀ (s : State) (m : Migrating) (pa : Nat) (bytes : List Byte), s.migrating = some m →
     (s.mayCopy m pa bytes.length = true → exec (.migration (.copy pa bytes)) s = .next
       (({ s with migrating := some { m with target := if m.copied = 0 then pa else m.target, copied := m.copied + bytes.length } } :
         State).storeCopied pa (lineNumbers bytes))) ∧
     (s.mayCopy m pa bytes.length = false → exec (.migration (.copy pa bytes)) s = .next s)) ∧
   ∀ (s : State) (m : Migrating), s.migrating = some m → m.copied = m.record.bytes → m.final = false →
     let r := m.record
     exec (.migration (.finish m.target)) s = .next (({ s with
       migrating := some { m with final := true, dropped := false } } : State).writeTable r.leafAddr
         (withBits (withBits (withBits (s.tableWord r.leafAddr) 13 12 0) 51 16 (m.target / 2 ^ 16)) 11 11 0)))

/-! ## The selector and the streams (05) -/

/-- R109 to R113, R134: a stream without selection and group takes the entry that the policy chooses, with the threads that count; a
hold ends; a spilled thread takes a free entry. R116, R103, R105, R133: a suspended group whose wait is over takes an open
stream; the claim at the head of the pool's queue is granted; a drained thread at its exit retires; the signature of one thread. That an
entry keeps threads of incomplete cohorts, with its age, is log 39; that a suspended group comes back on its own pipe, where its columns
are free and the other stream runs another block, log 15 (the model's inferences). -/
def Obligations.SelectorAndStreamStepsComplete : Prop :=
  ((∀ (s : State) (c : Nat) (st : Bool) (b : Bin) (take : List Nat), ((s.core c).stream st).sel = none → ((s.core c).stream st).group = none →
     s.choose c st = some (b, take) →
     ∃ T : FMap Thread, (∀ x, FMap.get {} T x = if x ∈ take then { (s.core c).thread x with phase := .streaming } else (s.core c).thread x) ∧
       exec (.binSelection c st) s = .next (s.setCore c (({ s.core c with
         threads := T
         bins := ((s.core c).bins.map fun e => if e.key = b.key
           then { e with members := e.members.filter fun m => !take.contains m, held := [], yielded := false } else e).filter
             fun e => !e.members.isEmpty } : Core).setStream st { sel := some ⟨b.key, b.header, take⟩, group := none }))) ∧
   (∀ (s : State) (c n : Nat), ∃ B, exec (.reformHoldEnd c n) s = .next (s.setCore c { s.core c with bins := B }) ∧
     B.length = (s.core c).bins.length ∧
     ∀ i b, (s.core c).bins[i]? = some b → B[i]? = some (if i = n ∧ (s.core c).holdOver s.cycle b = true then { b with held := [] } else b)) ∧
   ∀ (s : State) (c x : Nat), (s.core c).spilled = [x] → (s.core c).bins.length < Config.bins →
     ∃ (T : FMap Thread) (B : List Bin), exec (.spillRefile c) s = .next (s.setCore c { s.core c with threads := T, bins := B }) ∧
       (FMap.get {} T x).phase = .waiting ∧ (∀ y, y ≠ x → FMap.get {} T y = (s.core c).thread y) ∧
       ∃ b ∈ B, x ∈ b.members ∧ b.key.addr = ((s.core c).thread x).next) ∧
  ((∀ (s : State) (c n : Nat) (g : Group), (s.core c).suspended.find? (fun g => g.id = n) = some g →
     let k := s.core c
     let open_ : Prop := (k.stream g.pipe).group = none ∧ (k.stream !g.pipe).block ≠ some (g.key.asid, g.header) ∧
       ∀ o, (k.stream !g.pipe).group = some o → g.key.chk = false ∧ o.key.chk = false ∧ ∀ x ∈ g.cols, x ∉ o.cols
     (s.groupReady c g = true → open_ → exec (.groupResume c n) s = .next (s.setCore c
       (({ k with suspended := k.suspended.filter fun g => g.id ≠ n } : Core).setGroup g.pipe (some { g with blocked := false })))) ∧
     (s.groupReady c g = false ∨ ¬ open_ → exec (.groupResume c n) s = .next s)) ∧
   (∀ (s : State) (c : Nat) (q : ClaimReq) (rest : List ClaimReq), (s.core c).claimQ = q :: rest → q.n ≤ (s.core c).poolFree →
     let now (x : Nat) : Thread := if x ∈ rowSlots q.row ∧ ((s.core c).thread x).phase ≠ .free
       then { (s.core c).thread x with v := ((s.core c).thread x).v.filter fun e => e.1 < ((s.core c).row q.row).allot } else (s.core c).thread x
     ∃ (T : FMap Thread) (B : List Bin),
       (∀ x, ((s.core c).thread x).phase ≠ .claimWait ∨ x ∉ rowSlots q.row → FMap.get {} T x = now x) ∧
       (∀ x ∈ rowSlots q.row, ((s.core c).thread x).phase = .claimWait →
         ∃ ph, ph ≠ .claimWait ∧ FMap.get {} T x = { now x with phase := ph, reform := (FMap.get {} T x).reform, void := none,
                                                                 yielding := (FMap.get {} T x).yielding }) ∧
       exec (.claimGrant c) s = .next (s.setCore c { s.core c with
         claimQ := rest, threads := T, bins := B,
         rows := (s.core c).rows.set q.row { (s.core c).row q.row with allot := ((s.core c).row q.row).allot + q.n } })) ∧
   (∀ (s : State) (c x : Nat) (g : Group) (t : State), ((s.core c).stream0).group = some g → g.blocked = true → x ∈ g.members →
     fetched g = some .exitB → s.retire c x = some t →
     exec (.threadExit c x) s = .next (t.updCore c fun k => k.setGroup false (left (g.without [x])))) ∧
   ∀ (s : State) (c x : Nat) (g : Group) (i : Instr) (f : GForm) (e : GEntry) (t : State), ((s.core c).stream0).group = some g → fetched g = some i →
     gEntry i = some (f, e) → e.queued = true → cmdStall (s.core c) g i f.guard = false →
     let act := activeSlots (s.core c) g f.guard
     x ∈ act → x ∉ g.doneAt → (s.core c).released x = true → cmdFaults (s.core c) g i act = [] → (∀ y ∈ act, rowOf x ≤ rowOf y) →
     s.signCohort c i (act.filter fun y => rowOf y = rowOf x) [x] = some t →
     exec (.signature c x) s = .next (t.updCore c fun k => k.setGroup false (some { g with doneAt := insertNat x g.doneAt })))

/-- R113: the selector weighs the entries with the threads that count, and one is chosen whenever one may be taken: by age, else by
policy, ties by address, ASID and CHK. A yielded entry waits for the others (R203). A free stream takes the chosen entry. A gang that
is asked to stop for a pre-emption, or whose kill has begun, forms no group (R442, R448; log 5, the model's inference). That CF is weighed
from the code as it stands is log 39 (the model's inference). -/
def Obligations.SelectionFollowsPolicy : Prop :=
  ∀ (s : State) (c : Nat) (st : Bool),
    let k := s.core c
    let all := s.takeable c st
    let isOld (e : Bin × List Nat) : Prop := k.selAge.toNat < e.1.age s.cycle
    (∀ e ∈ all, e.1 ∈ k.bins ∧ e.2 ≠ [] ∧ ∀ x, x ∈ e.2 ↔ x ∈ e.1.members ∧
      s.halting c x = false ∧ (s.peekCf c e.1.key.asid e.1.header.toNat = true → k.cohortComplete e.1.members x = true)) ∧
    (all ≠ [] → s.choose c st ≠ none) ∧
    (∀ (b : Bin) (take : List Nat), (k.stream st).sel = none → (k.stream st).group = none → s.choose c st = some (b, take) →
      ∃ t, exec (.binSelection c st) s = .next t ∧ ((t.core c).stream st).sel = some ⟨b.key, b.header, take⟩) ∧
    ∀ e, s.choose c st = some e → e ∈ all ∧
      (k.policy ≠ 3 → (∃ d ∈ all, isOld d) → isOld e ∧ ∀ d ∈ all, isOld d → olderOr s.cycle e d) ∧
      (k.policy = 3 ∨ (∀ d ∈ all, ¬ isOld d) →
        let pool (d : Bin × List Nat) : Prop := d ∈ all ∧ (d.1.yielded = true → ∀ b ∈ all, b.1.yielded = true)
        pool e ∧
        (k.policy = 0 → (∃ d, pool d ∧ k.isFull d = true) → k.isFull e = true ∧ ∀ d, pool d → k.isFull d = true → olderOr s.cycle e d) ∧
        (k.policy = 0 → (∀ d, pool d → k.isFull d = false) → ∀ d, pool d → olderOr s.cycle e d) ∧
        (k.policy = 1 → ∀ d, pool d → keyFirst e.1.key d.1.key) ∧
        (k.policy = 2 → ∀ d, pool d → olderOr s.cycle e d) ∧
        (k.policy = 3 → (∀ d, pool d → ∀ y ∈ d.2, k.tid y < 2 ^ 32) → ∃ x ∈ e.2, ∀ d, pool d → ∀ y ∈ d.2, k.tid x ≤ k.tid y))

/-- R114 to R118: a stream forms a group of the selected threads, with the block's code and their saved latches; the others stay
selected. That columns of suspended groups are free for it is the model's reading of R116 (log 15). R107: where the header address is no
multiple of 4 or holds no block header the selected threads park, in one set, at the address they would enter, with the block-target
code 0x02; where the fetch fails before the header is read, with the instruction-fetch code 0x03 and the execute kind (log 66). The
address of a thread that resumes inside the block is log 72. -/
def Obligations.GroupStartCompletes : Prop :=
  (∀ (s t : State) (c : Nat) (st : Bool) (q : Selection), ((s.core c).stream st).group = none → ((s.core c).stream st).sel = some q →
    ((s.core c).stream !st).group = none → q.rest ≠ [] →
    let stops (code detail : Nat) (absent : Option Dword) : Prop :=
      ∃ (u : State) (T : FMap Thread),
        u = t.setCore c (({ t.core c with threads := T } : Core).setStream st { (t.core c).stream st with sel := none }) ∧
        (∀ x, FMap.get {} T x = if x ∈ q.rest then ((t.core c).thread x).enter else (t.core c).thread x) ∧
        ∃ ring v, Parked u v c { slots := q.rest, code := code, detail := detail, addr := 0, resume := q.key.addr, header := q.header,
                                 ring := ring, latches := [0, 1, 2, 3], coh := false, wait := false, absent := absent } ∧
          exec (.issueGroupStart c st) s = .next v
    (s.fetchBlock c st q.key.asid q.header.toNat = (.noHeader, t) → stops 0x02 0 none) ∧
    (∀ code a, s.fetchBlock c st q.key.asid q.header.toNat = (.fault code a false, t) →
      stops 0x03 2 (if code = 0x08 then some (BitVec.ofNat 64 a) else none)) ∧
    (q.header.toNat % 4 ≠ 0 → s.fetchBlock c st q.key.asid q.header.toNat = (.noHeader, s))) ∧
  ∀ (s : State) (c : Nat) (st : Bool) (q : Selection) (head : Nat) (code : List Nat),
    let k := s.core c
    ((k.stream st).group = none) → (k.stream st).sel = some q → (k.stream !st).group = none →
    s.fetchBlock c st q.key.asid q.header.toNat = (.block head code, s) →
    (∀ x ∈ q.rest, s.halting c x = false) → (headCf head = true → ∀ x ∈ q.rest, k.cohortComplete q.rest x = true) →
    let m := k.pick (headCf head) [] q.rest
    m ≠ [] →
    ∃ t, exec (.issueGroupStart c st) s = .next t ∧ ((t.core c).stream st).group = some (k.newGroup s.ctr s.cycle st q m head code) ∧
      ((t.core c).stream st).sel = (if q.rest.filter (fun x => !m.contains x) = [] then none
        else some { q with rest := q.rest.filter fun x => !m.contains x }) ∧
      (∀ x, (t.core c).thread x = if x ∈ m then (k.thread x).enter else k.thread x) ∧ t.ctr = s.ctr + 1 ∧ t.dram = s.dram ∧ t.lines = s.lines

/-- R111, R112, R140, R143: management writes of the selector's registers, of a thread's rounding state and of the sticky flag.
R221, R232, R461, R465, R480: the partition registers keep their base fields, their counters are cleared by ones, and the patrol
rewrites, in C0 only, the sectors of its partition that it corrects, with the data that they stand for. R10: a number beyond the 32 partitions
names no register. -/
def Obligations.ManagementRegisterWritesComplete : Prop :=
  ((∀ (s : State) (c lid : Nat) (v : Word), exec (.selPolicyWrite c lid v) s = .next (s.setCore c
     (if (s.core c).ownsSelector lid = true ∧ (s.core c).detBound = false then { s.core c with selPol := v.setWidth 2 } else s.core c))) ∧
   (∀ (s : State) (c lid : Nat) (v : Word), exec (.selAgeWrite c lid v) s = .next (s.setCore c
     (if (s.core c).ownsSelector lid = true
       then { s.core c with selAge := if (v.setWidth 16 : BitVec 16).toNat < 64 then 64 else v.setWidth 16 } else s.core c))) ∧
   (∀ (s : State) (c x : Nat) (v : Word), ((s.core c).thread x).phase ≠ .free →
     exec (.lfsrWrite c x v) s = .next (s.setCore c { s.core c with
       threads := (s.core c).threads.set x { (s.core c).thread x with lfsr := if v = 0 then 1 else v } })) ∧
   ∀ (s : State) (c w : Nat) (v : Word) (q : Crew), (s.core c).crews.find w = some q →
     exec (.accStatWrite c w v) s = .next (s.setCore c
       (if v.getLsbD 0 then { s.core c with crews := (s.core c).crews.set w { (s.core c).crew w with satf := false } } else s.core c))) ∧
  ((∀ (s : State) (v : Dword), exec (.partitionRegisterWrite .asidt v) s = .next { s with asidt := v &&& BitVec.ofNat 64 (2 ^ 52 - 2 ^ 13) }) ∧
   (∀ (s : State) (v : Dword), exec (.partitionRegisterWrite .groot v) s =
     .next { s with groot := v &&& (BitVec.ofNat 64 (2 ^ 52 - 2 ^ 13) ||| 1) }) ∧
   (∀ (s : State) (v : Dword), exec (.partitionRegisterWrite .farmap v) s = .next { s with farmap := v &&& BitVec.ofNat 64 (2 ^ 52 - 2 ^ 12) }) ∧
   (∀ (s : State) (p : Nat), s.power ≠ .c0 → exec (.patrol p) s = .next s) ∧
   (∀ (s : State) (p : Nat), s.power = .c0 → ∃ t, exec (.patrol p) s = .next t ∧ t.dram = s.dram ∧ t.tags = s.tags ∧
     t.poisoned = s.poisoned ∧ t.lines = s.lines ∧
     ∀ n, t.flips.find n = if sectorPart n = p ∧ (if n < 2 ^ 38 then s.readSector n else s.readStored n) = .corrected then none
       else s.flips.find n) ∧
   (∀ (s : State) (p : Nat), 32 ≤ p → ∀ (v : Word) (w : Dword), exec (.partMigdropClear p v) s = .next s ∧
     exec (.partOrphanClear p v) s = .next s ∧ exec (.partEccClear p w) s = .next s) ∧
   (∀ (s : State) (p : Nat) (v : Word), p < 32 → ∃ t, exec (.partMigdropClear p v) s = .next t ∧
     FMap.get 0 t.migdrop p = FMap.get 0 s.migdrop p &&& ~~~v ∧ ∀ n, n ≠ p → FMap.get 0 t.migdrop n = FMap.get 0 s.migdrop n) ∧
   (∀ (s : State) (p : Nat) (v : Word), p < 32 → ∃ t, exec (.partOrphanClear p v) s = .next t ∧
     FMap.get 0 t.orphan p = FMap.get 0 s.orphan p &&& ~~~v ∧ ∀ n, n ≠ p → FMap.get 0 t.orphan n = FMap.get 0 s.orphan n) ∧
   ∀ (s : State) (p : Nat) (v : Dword), p < 32 → ∃ t, exec (.partEccClear p v) s = .next t ∧
     FMap.get 0 t.ecc p = FMap.get 0 s.ecc p &&& ~~~v ∧ ∀ n, n ≠ p → FMap.get 0 t.ecc n = FMap.get 0 s.ecc n)

/-! ## Steps of synchronisation (02, 08) -/

/-- R41, R193 to R196, R201, R202, R252 to R254: the Arrive of a cohort, Merge, Drain, Advance, Post and Take. A merge and a drain
append as far as the store buffer has room, and are over when nothing of the generation is left (log 19, the model's inference); what a
scat has put into the atomic buffer drains with the generation (R390). A poisoned barrier does not merge, drain or advance (R451). -/
def Obligations.SynchronisationStepsComplete : Prop :=
  (∀ (s : State) (c : Nat) (g : Group) (f : EForm) (v : BarView), (s.core c).stream0.group = some g → fetched g = some (.arrive f) →
    g.arrived = false → mustStall (s.core c) g f.guard (fun _ _ => []) = false → activeSlots (s.core c) g f.guard ≠ [] →
    s.poisoned? c g.row f.c.code.toNat = false → s.barView c g.row f.c.code.toNat = some v → arriveNow (s.core c) v = .step →
    exec (.barrierArrive c g.row) s = .next ((s.arrive c v (barMode f)).updCore c fun k => k.setGroup false (some (g.past (.arrive f) false)))) ∧
  (∀ (s : State) (c w : Nat) (b : Barrier), ((s.core c).crew w).det = true →
    s.bars.find? (fun b => barServes b.id ((s.core c).crew w).lid ((s.core c).crew w).gang && s.mergeDue (crewNo ((s.core c).crew w)) b) = some b →
    let due (e : DsbEntry) : Bool := b.due (e.tid / 32) e.seq
    let t := s.merge c w due
    exec (.merge c w) s = .next (if (t.core c).dsbDue w due = [] then
      t.updBarrier b.id fun b => { b with merged := insertNat (crewNo ((s.core c).crew w)) b.merged } else t)) ∧
  (∀ (s : State) (c w : Nat) (b : Barrier), ((s.core c).crew w).det = true →
    s.bars.find? (fun b => barServes b.id ((s.core c).crew w).lid ((s.core c).crew w).gang && !b.poisoned && b.merged.contains (crewNo ((s.core c).crew w)) &&
      !b.drained.contains (crewNo ((s.core c).crew w))) = some b →
    let due (d : DabEntry) : Bool := d.ofEngine || b.due (d.tid / 32) d.seq
    let t := s.drain c w due
    exec (.drain c w) s = .next (if (t.core c).dabDue w due = [] then
      t.updBarrier b.id fun b => { b with drained := insertNat (crewNo ((s.core c).crew w)) b.drained,
                                          upto := b.upto.set (crewNo ((s.core c).crew w)) t.ctr } else t)) ∧
  (∀ (s : State) (id : BarId) (b : Barrier), s.bars.find? (fun b => b.id = id) = some b →
    (b.poisoned = true → s.canAdvance b = false ∧ ∀ no, s.mergeDue no b = false) ∧ (s.canAdvance b = false → exec (.advance id) s = .next s)) ∧
  (∀ (s : State) (id : BarId) (b : Barrier), s.bars.find? (fun b => b.id = id) = some b → s.canAdvance b = true →
    ∃ t, exec (.advance id) s = .next t ∧ t.dram = s.dram ∧ t.lines = s.lines ∧
      t.bars = s.bars.map fun d => if d.id = id then { d with
        gen := d.gen + 1, mask := unionNat (b.mask.filter fun n => !b.leaves.contains n) b.joins, arrived := [], leaves := [], joins := [],
        merged := [], drained := [], arrivedAt := [], upto := [], exited := [],
        level := s.levelOf b.id.lid (unionNat (b.mask.filter fun n => !b.leaves.contains n) b.joins) } else d) ∧
  (∀ (s : State) (c w : Nat) (v : Dword) (r : List Dword), ((s.core c).crew w).held = v :: r → ((s.core c).crew w).evq.length < Config.evqSize →
    exec (.post c w) s = .next (s.setCore c { s.core c with
      crews := (s.core c).crews.set w { (s.core c).crew w with evq := ((s.core c).crew w).evq ++ [v], held := r } })) ∧
  ∀ (s : State) (c w : Nat) (q : EvReq) (reqs : List EvReq) (v : Dword) (evq : List Dword),
    ((s.core c).crew w).evReqs = q :: reqs → ((s.core c).crew w).evq = v :: evq →
    exec (.take c w) s = .next ((s.setCore c { s.core c with
      crews := (s.core c).crews.set w { (s.core c).crew w with evReqs := reqs, evq := evq },
      results := (s.core c).results.map fun r => if r.id = q.result then { r with value := some v } else r }).selfInvalidate c)

/-! ## Steps of the engines (02, 14 to 21) -/

/-- R39, R289 to R293, R305, R306, R321, R343, R414: a queued command whose guard lets it run starts, or waits, started, for memory that
is not there; one whose guard is against it, that faults, or whose crew does not hold the MXE, is discarded; a started one commits,
writes what is left of its commit, and completes; a residue verdict passes it or contains its gang. R298 to R301, R304, R317, R319,
R320: what the Commit of a matrix command writes in the accumulator store, and of acst in the scratchpad and memory. That a verdict
comes between Commit and Complete, and commits in queue order, is log 23; a started command that waits for absent pages is log 36;
one whose crew does not hold the MXE is log 80; the product at a pruned position of mmas is log 31. -/
def Obligations.EngineStepsComplete : Prop :=
  (∀ (s : State) (e : EngineId) (n : Nat) (elders : List Cmd) (c : Cmd), Queued s e n elders c → s.mayStart e elders c = true →
    (s.unheld e c = true → exec (.engineStart e n) s = .next s ∧ exec (.discard e n) s = .next (s.drop e c 1 0 none)) ∧
    (s.unheld e c = false →
      (s.guardOf c = .run → isFence c.instr = true → exec (.engineStart e n) s = .next (s.endCmd e c 0 false none)) ∧
      (∀ w t p, s.guardOf c = .run → isFence c.instr = false → s.tryStart e c = (.run w, t, p) →
        exec (.engineStart e n) s = .next (t.putCmd e { c with phase := .started, work := { w with ready := true }, prog := p,
                                                               residue := hasResidue e c.instr, dest := t.startDest e c w })) ∧
      (∀ w t p, s.guardOf c = .run → isFence c.instr = false → s.tryStart e c = (.wait w, t, p) →
        exec (.engineStart e n) s = .next (t.putCmd e { c with phase := .started, work := w })) ∧
      (∀ f t p, s.guardOf c = .run → isFence c.instr = false → s.tryStart e c = (.fault f, t, p) →
        exec (.engineStart e n) s = .next (t.putCmd e { c with fault := some f, work := { c.work with desc := t.badDesc e c } })) ∧
      (s.guardOf c = .against → exec (.engineStart e n) s = .next s ∧ exec (.discard e n) s = .next (s.drop e c 1 0 none)) ∧
      (s.guardOf c = .unresolved → exec (.engineStart e n) s = .next s ∧ exec (.discard e n) s = .next s))) ∧
  (∀ (s : State) (e : EngineId) (n : Nat) (elders : List Cmd) (c : Cmd) (f : Nat × Dword × Nat), s.findCmd e n = some (elders, c) →
    c.fault = some f → c.phase = .queued ∨ c.work.ready = false → exec (.discard e n) s = .next (s.drop e c 2 f.1 (some f))) ∧
  (∀ (s : State) (core n : Nat) (elders : List Cmd) (c : Cmd), Queued s (.mxe core) n elders c →
    (c.phase = .started ∧ c.work.ready = true) ∨ (c.phase = .committed ∧ (c.work.jobs ≠ [] ∨ c.work.todo ≠ [])) →
    (∀ d ∈ elders, d.phase = .committed) → residueHolds (s.core c.core) c = false → (isTile c.instr = true → c.residue = false) →
    (c.work.todo = [] → exec (.commit (.mxe core) n) s = .next (if isTile c.instr then tileCommit s c else matrixCommit s c)) ∧
    (c.work.todo ≠ [] → exec (.commit (.mxe core) n) s = .next
      ((s.storeKeys c.work.todo).putCmd (.mxe core) { c with work := { c.work with todo := [] } }))) ∧
  (∀ (s : State) (core n : Nat) (elders : List Cmd) (c : Cmd), Queued s (.mxe core) n elders c → c.phase = .committed → c.work.jobs = [] →
    c.work.todo = [] → c.outstanding = 0 → c.residue = false →
    exec (.complete (.mxe core) n) s = .next ((s.completeRegs c).endCmd (.mxe core) c c.status false none) ∧
    (isTile c.instr = false → s.completeRegs c = s) ∧
    ((∀ f, c.instr ≠ .tinfo f) → isTile c.instr = true → s.completeRegs c = s.releaseRegs c fun _ => statusWrites c)) ∧
  (∀ (s : State) (e : EngineId) (n : Nat) (elders : List Cmd) (c : Cmd), Queued s e n elders c → c.phase ≠ .queued → c.residue = true →
    exec (.residueVerdict e n true) s = .next ((s.putCmd e { c with residue := false }).updCore c.core fun k => k.settleLedger c.id) ∧
    exec (.residueVerdict e n false) s = .next { s with
      contain := s.contain ++ [⟨((s.core c.core).crew c.crew).lid, ((s.core c.core).crew c.crew).gang, ⟨3, 0, c.core, 0⟩, s.cycle⟩]
      trips := FMap.put 0 s.trips c.core (FMap.get 0 s.trips c.core + 1) }) ∧
  CommitValues

/-- R384, R386, R391, R393, R394, R411, R412, R415, R385: a piece of the copy engine and of the Starter, whose ranges are there,
completes. A window of gath gives each of its 32 rows the row of SRC that its index names, or zeros; a piece of tcopy gives each of its
4096 tuples its element, converted where the formats differ; a piece of sfetch stages 16 rows; each moves the command's progress on by
one. What it writes to a scratchpad is written by the bank slots that come, at the latest before the next piece; what it writes to
memory goes to the homes. Then the completion with its record, and the acknowledgement of a remote write. -/
def Obligations.PieceStepsComplete : Prop :=
  (∀ (s t : State) (core n : Nat) (elders : List Cmd) (c : Cmd) (f : GForm), Queued s (.copy core) n elders c → Piece c →
    c.unreachable = false → c.progress < copyPieces c.instr c.work.desc → c.instr = .gath f →
    let d := copyDesc c.work.desc
    let rows : List (Nat × Option Nat) := (List.range (min 32 (d.nrow - c.progress * 32))).map fun j =>
      (c.progress * 32 + j, c.work.index.getD (c.progress * 32 + j) none)
    let src (i : Nat) : Nat := (d.src + i * d.sstr) % 2 ^ 64
    let dst (j : Nat) : Nat := (d.dst + j * d.dstr) % 2 ^ 64
    s.gather c (rows.flatMap fun r => copySpan d.dsp (dst r.1) d.rowb 1 :: (match r.2 with
      | some i => [copySpan d.ssp (src i) d.rowb 0]
      | none => [])) = (.ok, t) →
    exec (.copyPiece core n) s = .next (pieceWrites t (.copy core) c (d.dsp = 1) (rows.map fun r => (dst r.1, match r.2 with
      | some i => t.readSpan c (d.ssp = 1) (src i) d.rowb
      | none => List.replicate d.rowb 0)))) ∧
  (∀ (s t : State) (core n : Nat) (elders : List Cmd) (c : Cmd) (f : GForm), Queued s (.copy core) n elders c → Piece c →
    c.unreachable = false → c.progress < copyPieces c.instr c.work.desc → c.instr = .tcopy f →
    let d := copyDesc c.work.desc
    let tuples := (pieceRange c.progress 4096 (copyTuples d)).map (tupleAddrs d)
    let val (a : Nat × Nat) : Nat :=
      let x := t.readNum c (d.ssp = 1) a.1 (copyElem d.sfmt)
      if d.sfmt = d.dfmt then x else convert d.dfmt d.sfmt d.rm d.sat 0 x
    d.dsp ≠ 2 →
    s.gather c (tuples.flatMap fun a => [copySpan d.ssp a.1 (copyElem d.sfmt) 0, copySpan d.dsp a.2 (copyElem d.dfmt) 1]) = (.ok, t) →
    exec (.copyPiece core n) s = .next (pieceWrites t (.copy core) c (d.dsp = 1) (tuples.map fun a => (a.2, leBytes (val a) (copyElem d.dfmt))))) ∧
  (∀ (s t : State) (q n : Nat) (elders : List Cmd) (c : Cmd) (f : GForm), Queued s (.starter q) n elders c → Piece c →
    c.progress < starterPieces c → c.instr = .sfetch f →
    let d := starterDesc c.work.desc
    let rows := (List.range 16).map (16 * c.progress + ·)
    let src (j : Nat) : Option Nat := (c.work.index.getD j none).map fun i => (d.wbase + i * d.wstr) % 2 ^ 64
    s.gather c (rows.filterMap fun j => (src j).map fun a => ⟨true, a, d.rowb, 0, 1, 0x0B⟩) = (.ok, t) →
    exec (.starterPiece q n) s = .next (pieceWrites t (.starter q) c false (rows.map fun j => (d.dst + j * d.dstr, match src j with
      | some a => t.readSpan c true a d.rowb
      | none => List.replicate d.rowb 0)))) ∧
  (∀ (s : State) (core n : Nat) (elders : List Cmd) (c : Cmd), Queued s (.copy core) n elders c →
    exec (.commit (.copy core) n) s = exec (.copyPiece core n) s ∧
    (c.phase = .queued ∨ c.work.ready = false ∨ c.unreachable = true → exec (.copyPiece core n) s = .next s) ∧
    (c.phase ≠ .queued → c.work.ready = true → c.unreachable = false → c.work.todo ≠ [] → exec (.copyPiece core n) s = .next
      ((s.storeKeys c.work.todo).putCmd (.copy core) { c with work := { c.work with todo := [] } })) ∧
    (copyEnded c = true → exec (.complete (.copy core) n) s = .next
      ((s.holdRecord (.copy core) c (copyStatus c).1 (copyStatus c).2).endCmd (.copy core) c (copyStatus c).1 false none)) ∧
    (c.outstanding ≠ 0 → isTcopy c.instr = true → (copyDesc c.work.desc).dsp = 2 →
      exec (.remoteWriteAck core n) s = .next (s.putCmd (.copy core) { c with outstanding := c.outstanding - 1, acked := c.acked + 1, sentAt := s.cycle }))) ∧
  ∀ (s : State) (q n : Nat) (elders : List Cmd) (c : Cmd), Queued s (.starter q) n elders c →
    exec (.commit (.starter q) n) s = exec (.starterPiece q n) s ∧
    (c.phase = .queued ∨ c.work.ready = false → exec (.starterPiece q n) s = .next s) ∧
    (c.phase ≠ .queued → c.work.ready = true → c.work.todo ≠ [] → exec (.starterPiece q n) s = .next
      ((s.storeKeys c.work.todo).putCmd (.starter q) { c with work := { c.work with todo := [] } })) ∧
    (starterEnded c = true → exec (.complete (.starter q) n) s = .next
      ((s.holdRecord (.starter q) c (starterStatus c).1 (starterStatus c).2).endCmd (.starter q) c (starterStatus c).1 false none))

/-- R306, R448: while a gang awaits its kill no command of it starts, commits, or moves a piece (log 36: the model's reading). R307: a
matrix command past its Commit still writes the bytes that it has left. -/
def Obligations.ContainedCommandsRest : Prop :=
  ∀ (s : State) (e : EngineId) (n core q : Nat) (elders : List Cmd) (c : Cmd), s.findCmd e n = some (elders, c) → s.cmdHeld c = true →
    exec (.engineStart e n) s = .next s ∧ ((e = .mxe core → c.standing = false) → exec (.commit e n) s = .next s) ∧
    (e = .copy core → exec (.copyPiece core n) s = .next s) ∧ (e = .starter q → exec (.starterPiece q n) s = .next s) ∧
    (e = .mxe core → c.standing = true → c.work.todo ≠ [] → c.fault = none → (∀ d ∈ elders, d.phase = .committed) →
      residueHolds (s.core c.core) c = false → exec (.commit e n) s = .next
        ((s.storeKeys c.work.todo).putCmd e { c with work := { c.work with todo := [] } }))

/-! ## Launches and gangs (24, 25) -/

/-- R431, R434 to R437: a place for the launch that comes first is reserved; reserved gangs commit in ascending index, once the snapshots
of the launch are taken; reservations are abandoned for a launch of strictly higher priority. R424: a piece of a snapshot is copied by a
step of its own. R438, R255: the threads of a committed gang are filed at the entry address; a crew whose threads have exited and whose
engines are empty, under DET with its buffers merged and drained after every lower crew, is freed and counted, and the steps on the
completion block are to come, in order. Those steps, apart from the crew's, are log 43; a snapshot that cannot be accessed is left out,
and so is a copy of its errors, log 45; the loads that a crew drops at its end are log 47, the order of its steps under DET log 60. -/
def Obligations.PlacementAndCrewStepsComplete : Prop :=
  ((∀ (s t : State) (lid gang : Nat) (l : Launch) (place : List PlaceReq) (q : GangReads), s.launches.find lid = some l →
     l.failed = false → l.done = false → l.phase gang = .unplaced → s.isChoice lid l = true → s.soleReserver lid = true →
     s.placeOk lid l place = true → (∀ g ∈ l.gangs, g.1 < gang → g.2.phase ≠ .unplaced) →
     l.crossed = true ∨ (∀ g ∈ l.gangs, g.2.phase ≠ .reserved) → s.readForGang l.record = (.ok, q, t) →
     let kept (e : PlaceReq × CrewSpec) : Bind := ⟨.reserved, e.1.crew, gang, lid, e.1.rows, e.1.sbase, e.1.gcr, e.2.coh * e.2.regs⟩
     exec (.placement lid gang place false) s = .next (((place.zip l.record.crews).foldl (fun t e =>
       t.updCore e.1.core fun k => { k with binds := k.binds.set e.1.bind (kept e) }) t).updGang lid gang
         fun g => { g with phase := .reserved, place := place })) ∧
   (∀ (s t : State) (lid gang : Nat) (l : Launch) (g : Gang) (place : List PlaceReq) (q : GangReads), Stands s lid gang l g .reserved →
     l.failed = false → l.done = false → (∀ h ∈ l.gangs, h.1 < gang → h.2.phase ≠ .unplaced ∧ h.2.phase ≠ .reserved) →
     l.crossed = false ∨ (∀ h ∈ l.gangs, h.2.phase ≠ .unplaced) →
     (l.snapped = true → s.readForGang l.record = (.ok, q, t) →
       exec (.placement lid gang place true) s = .next ((t.commitGang lid gang l q g.place).leaveQueue lid)) ∧
     (l.snapped = true → s.readForGang l.record = (.fault, q, t) → exec (.placement lid gang place true) s = .next (t.failLaunch lid)) ∧
     (l.snapped = false → exec (.placement lid gang place true) s = .next (s.snapStep lid))) ∧
   (∀ (s t : State) (lid n : Nat) (l : Launch), s.launches.find lid = some l → l.snapped = false → l.eligible = true →
     s.copyPiece l.record.asid false l.record.snaps l.snapAt = (some n, t) → snapPiece l.record.snaps 0 n ≠ none →
     s.snapStep lid = t.updLaunch lid fun l => { l with snapAt := n, snapped := false }) ∧
   ∀ (s : State) (lid : Nat) (l : Launch), s.launches.find lid = some l → l.abandonable = true →
     (∃ e ∈ s.eligibleHeads, l.record.prio < e.2.record.prio) →
     ∃ t, exec (.abandon lid) s = .next t ∧ t.dram = s.dram ∧ t.lines = s.lines ∧
       ∃ m, t.launches.find lid = some m ∧ m.record = l.record ∧
         ∀ g x, l.gangs.find g = some x → m.gangs.find g = some (if x.phase = .reserved then { x with phase := .unplaced, place := [] } else x)) ∧
  ((∀ (s : State) (lid gang : Nat) (l : Launch) (g : Gang), Stands s lid gang l g .committed →
     (s.containing lid gang = true → exec (.crewStart lid gang) s = .next s) ∧
     (s.containing lid gang = false →
       let t := (g.place.map (·.core)).foldl State.selfInvalidate s
       let entry : Dword := BitVec.ofNat 64 l.record.entry
       exec (.crewStart lid gang) s = .next (((g.place.map (·.core)).foldl (fun t c => t.updCore c fun k =>
         (k.gangSlots lid gang).foldl (fun k x => (k.aim x entry entry none false false).fileThread t.cycle x) k) t).updGang lid gang
           fun g => { g with phase := .running, started := s.cycle, lastActive := s.cycle }))) ∧
   (∀ (s : State) (core w : Nat) (c : Crew) (l : Launch), (s.core core).crews.find w = some c → s.launches.find c.lid = some l →
     l.phase c.gang = .running → s.containing c.lid c.gang = false → (∀ x ∈ (s.core core).crewSlots w, ((s.core core).thread x).phase = .exited) →
     s.enginesEmpty core w = true → (c.det = true → l.lowerDone c.gang c.index = true) →
     (c.dsb ≠ [] → exec (.crewDone core w) s = .next (s.merge core w fun _ => true)) ∧
     (c.dsb = [] → (s.core core).crewSob w = true → exec (.crewDone core w) s = .next s) ∧
     (c.dsb = [] → (s.core core).crewSob w = false → (∃ d ∈ (s.core core).dab, d.crew = w) →
       exec (.crewDone core w) s = .next (s.drain core w fun _ => true)) ∧
     (c.dsb = [] → (s.core core).crewSob w = false → (∀ d ∈ (s.core core).dab, d.crew ≠ w) →
       exec (.crewDone core w) s = .next (((s.unbind core w).updCore core fun k => { k with binds := k.binds.erase w }).countCrew c.lid l
         c.gang c.index))) ∧
   (∀ (s : State) (lid gang crew : Nat) (l : Launch), s.launches.find lid = some l → l.counted.contains (gang, crew) = false → l.failed = false →
     (s.countCrew lid l gang crew).blockQ = s.blockQ ++ ([.crew gang crew, .count] ++
       (if l.count + 1 = l.record.gangs * l.record.crews.length then [.done] else []) : List BlockOp).map fun o => (lid, o)) ∧
   ∀ (s t : State) (lid : Nat) (l : Launch) (o : BlockOp) (rest : List (Nat × BlockOp)) (q : Front), s.blockQ = (lid, o) :: rest →
     s.launches.find lid = some l → s.cwAtomic l.record o.word o.apply = (q, t) →
     (q = .wait → s.blockStep = t) ∧
     (q ≠ .wait → (o = .count ∨ ∃ g c, o = .crew g c) → s.blockStep = ({ t with blockQ := rest, idleSince := t.cycle } : State).poll))

/-- R439, R446, R262: the watchdog raises TRIG 4 once its bound has passed; the stall notice after a second without activity. R430:
the dependence poll makes the head of a queue eligible when its dependences are met. R441, R442: a suspended launch's gang is
first asked to stop, together with the others of a launch with a CROSS group; once it is quiet its contexts leave the cores. R443:
the saved gangs whose turn it is and for which there is room are restored and run, those of a launch with a CROSS group together; what
the host released meanwhile is applied. That pre-emption is a request, with a save later that keeps every latch, is log 5; what a
save holds, and how its threads are filed again, is log 59. -/
def Obligations.TimerAndPreemptionStepsComplete : Prop :=
  ((∀ (s : State) (lid gang : Nat) (l : Launch) (g : Gang), Stands s lid gang l g .running → s.containing lid gang = false →
     (l.record.bound ≠ 0 → l.record.bound ≤ g.elapsed s.cycle → exec (.watchdogExpiry lid gang) s = .next { s with
       contain := s.contain ++ [⟨lid, gang, ⟨4, 0, g.firstCore, 0⟩, s.cycle⟩] }) ∧
     (l.record.bound = 0 ∨ g.elapsed s.cycle < l.record.bound → exec (.watchdogExpiry lid gang) s = .next s)) ∧
   (∀ (s : State) (lid gang : Nat) (l : Launch) (g : Gang), Stands s lid gang l g .running → l.record.bound = 0 →
     (g.lastActive + 940000000 ≤ s.cycle → s.gangWorks lid gang g = false → ∃ t n, exec (.stallNotice lid gang) s = .next t ∧
       t.out = s.out ++ [.machineCheck none n .stall lid gang] ∧ t.cores = s.cores ∧ t.dram = s.dram) ∧
     (s.cycle < g.lastActive + 940000000 → exec (.stallNotice lid gang) s = .next s)) ∧
   (∀ s : State, (∀ q, s.queue q = []) → exec .dependencePoll s = .next s) ∧
   ∀ (s t : State) (q lid : Nat) (l : Launch) (met : Bool), q < 8 → (∀ r, s.queue r = if r = q then [lid] else []) →
     s.launches.find lid = some l → l.record.gangs ≠ 0 → l.eligible = false → s.depsMet l.record.asid l.record.deps = (met, t) →
     t.launches = s.launches → t.queues = s.queues →
     exec .dependencePoll s = .next (if met then t.updLaunch lid fun l => { l with eligible := true } else t)) ∧
  ((∀ (s : State) (lid gang : Nat) (l : Launch) (g : Gang), s.launches.find lid = some l → l.gangs.find gang = some g →
     s.containing lid gang = false → g.halting = false → g.phase = .running ∨ g.phase = .committed → l.suspended = true →
     exec (.preemption lid gang) s = .next ((if l.crossed then l.gangs.keys else [gang]).foldl (fun t n => t.updGang lid n fun h =>
       { h with halting := h.halting || ((h.phase = .running || h.phase = .committed) && !h.halting) }) s)) ∧
   (∀ (s : State) (lid gang : Nat) (l : Launch) (g : Gang), Stands s lid gang l g .running → s.containing lid gang = false →
     g.halting = true → s.quietGang lid gang g = true →
     let crews := s.gangCrews lid gang g
     let t := crews.foldl (fun t e => t.saveAway e.1 e.2) s
     let away (h : Gang) : Gang :=
       { h with phase := .saved, halting := false, saved := crews.map fun e => s.saveCrew e.1 e.2, counted := h.elapsed t.cycle }
     exec (.preemption lid gang) s = .next { t.updGang lid gang away with idleSince := t.cycle }) ∧
   (∀ (s : State) (lid gang : Nat) (l : Launch) (g : Gang), Stands s lid gang l g .running → g.halting = true →
     s.quietGang lid gang g = false → exec (.preemption lid gang) s = .next s) ∧
   (∀ (s t : State) (lid gang : Nat) (l : Launch) (g : Gang), Stands s lid gang l g .saved → l.suspended = false →
     s.allSaved lid l gang = true → s.resumeTurn lid l = true →
     (s.resumeGangs lid l (if l.crossed then l.gangs.keys else [gang]) = some t → exec (.gangResume lid gang) s = .next { t with power := .c0 }) ∧
     (s.resumeGangs lid l (if l.crossed then l.gangs.keys else [gang]) = none → exec (.gangResume lid gang) s = .next s)) ∧
   (∀ (s : State) (lid gang : Nat) (l : Launch) (g : Gang) (rest : List Nat), l.gangs.find gang = some g → g.phase = .saved →
     s.resumeGangs lid l (gang :: rest) = (s.restoreCrews lid l g.saved).bind fun t =>
       ((t.updGang lid gang fun h => { h with
         phase := .running, saved := [], deferred := [], started := t.cycle, lastActive := t.cycle }).applyDeferred lid gang
           g.deferred).resumeGangs lid l rest) ∧
   (∀ (s : State) (lid : Nat) (l : Launch) (x : SavedCrew) (rest : List SavedCrew), s.restoreCrews lid l (x :: rest) =
     if s.roomFor lid l x then (s.restoreCrew x).restoreCrews lid l rest else none) ∧
   (∀ (s t : State) (lid gang : Nat) (r : ReleaseReq), s.applyRelease r = some t →
     s.applyDeferred lid gang [r] = t.updGang lid gang fun h => { h with deferred := [] }) ∧
   ∀ (s : State) (lid gang : Nat) (l : Launch) (g : Gang), Stands s lid gang l g .running → g.deferred ≠ [] →
     exec (.gangResume lid gang) s = .next (s.applyDeferred lid gang g.deferred))

/-- R448, R449, R451: the kill of a contained gang poisons its CROSS groups and stops it, discards what it has not written, waits until
its messages are acknowledged, frees what it holds, and posts the record; a killed gang has its reset words and snapshots restored,
step by step, and then commits again where its place, or another, is free. That the kill has these steps, and keeps the bind records
for the relaunch, is log 48; which place a relaunch takes is log 51. R147, R148, R225, R470: Tsunath makes the page of a park set
present and releases the set; the page of a byte that a far leaf names, of no park set, is made local. What Tsunath writes in a leaf,
and the bytes that it numbers from 2^16 on, are log 49, the model's choice. A destination that has not answered for 1 s takes what
waits for it away: a lost write-back loses its line and is told, a load that waits has its verdict (log 63). -/
def Obligations.KillAndServiceStepsComplete : Prop :=
  ((∀ (s : State) (lid gang : Nat) (l : Launch) (g : Gang) (q : TriggerReq) (c : Containment), s.launches.find lid = some l →
     l.gangs.find gang = some g → s.contain.find? (fun c => c.lid = lid && c.gang = gang && c.trigger = q) = some c →
     (g.running = true → ∃ t, exec (.gangKill lid gang q) s = .next t ∧ t.dram = s.dram ∧ t.lines = s.lines ∧ t.cores = s.cores ∧
       (t.launches.find lid).map (·.phase gang) = some .stopping ∧
       ∀ b ∈ s.bars, b.id.lid = lid → b.id.gang = none → (∃ n ∈ b.commitMask, n / 256 = gang) → { b with poisoned := true } ∈ t.bars) ∧
     (g.phase = .stopping → ∃ t, exec (.gangKill lid gang q) s = .next t ∧ t.dram = s.dram ∧ t.lines = s.lines ∧
       (t.launches.find lid).map (·.phase gang) = some .killing ∧
       ∀ e ∈ s.gangCrews lid gang g, ((t.core e.1).crew e.2).dsb = [] ∧ ∀ d ∈ (t.core e.1).mxe.queue, ¬ (d.core = e.1 ∧ d.crew = e.2)) ∧
     (g.phase = .killing → s.killQuiet lid gang g = true → exec (.gangKill lid gang q) s = .next (s.killFree lid gang l g)) ∧
     (g.phase = .killing → s.killQuiet lid gang g = false → exec (.gangKill lid gang q) s = .next s) ∧
     (g.phase = .freed → exec (.gangKill lid gang q) s = .next (s.killEnd lid gang l g c)) ∧
     (g.phase = .freed → l.again g = true → ∃ n, (s.killEnd lid gang l g c).out =
       s.out ++ [.containment n (containRecord true g.attempt l.record.asid c)])) ∧
   ∀ (s t u : State) (lid gang : Nat) (l : Launch) (g : Gang) (place : List PlaceReq) (q : GangReads), Stands s lid gang l g .killed →
     l.failed = false →
     (g.restored = false → exec (.relaunch lid gang place) s = .next (s.restoreStep lid gang)) ∧
     (∀ e, g.restored = false → l.record.resets[g.restoreAt]? = some e → s.resetWord l.record.asid e = (true, t) →
       s.restoreStep lid gang = t.restoredTo lid gang l.record (g.restoreAt + 1)) ∧
     (g.restored = true → s.relaunchPlace lid gang l g place = none → exec (.relaunch lid gang place) s = .next s) ∧
     (g.restored = true → (s.relaunchPlace lid gang l g place).isSome = true → s.readForGang l.record = (.ok, q, t) →
       t.relaunchPlace lid gang l g place = some u → exec (.relaunch lid gang place) s = .next (u.commitGang lid gang l q place))) ∧
  ((∀ (s t u : State) (c n pa : Nat) (p : ParkSet) (a : Dword), n < 2 ^ 16 → (s.core c).psets.find? (fun p => p.pset = n) = some p →
     p.service = some a → s.makePresent (byteKey p.record.asid a.toNat) pa = some t → t.applyRelease ⟨c, n, 0, 0, []⟩ = some u →
     exec (.faultService c n pa) s = .next u) ∧
   (∀ (s : State) (c n pa : Nat) (p : ParkSet), n < 2 ^ 16 → (s.core c).psets.find? (fun p => p.pset = n) = some p →
     p.service = none → exec (.faultService c n pa) s = .next s) ∧
   (∀ (s : State) (c n pa key : Nat) (l : Leaf), s.absent[n]? = some key → (∀ m ∈ s.migrating, rangeHas (migRange m.record) key = false) →
     (({ s with tlb := [], walks := [] } : State).walkAll (homeOf (keyVa key)) (keyTag key) (keyVa key)).1 = .ok l →
     leafRes l.word = 2 →
     let t := s.countReads (({ s with tlb := [], walks := [] } : State).walkSectors (homeOf (keyVa key)) (keyTag key) (keyVa key))
     t.frameOk l.level pa = true →
     let leaf := withBits (withBits (withBits l.word 13 12 0) 51 16 (pa / 2 ^ 16)) 11 11 0
     exec (.faultService c (n + 2 ^ 16) pa) s = .next { t.writeTable l.addr leaf with absent := (t.writeTable l.addr leaf).absent.filter (· ≠ key) }) ∧
   (∀ (s : State) (d : Dest) (w : FarWrite), s.farReads = [] → s.farWrites = [w] → w.dest = d → w.since + 940000000 ≤ s.cycle →
     ∃ t n, exec (.destinationUnreachable d) s = .next t ∧ t.dram = s.dram ∧ t.farWrites = [] ∧
       t.out = s.out ++ [.machineCheck none n .orphan 0 0] ∧
       FMap.get 0 t.orphan (homeOf (keyVa (w.line * lineBytes))) = FMap.get 0 s.orphan (homeOf (keyVa (w.line * lineBytes))) + 1 ∧
       ∀ l, s.lines.find w.line = some l → t.lines = if l.fill = .far w.index w.addr w.dest then s.lines.erase w.line else s.lines) ∧
   (∀ (s : State) (d : Dest) (r : FarRead) (c : Nat) (q : XlatReq), s.farReads = [r] → s.farWrites = [] → r.dest = d →
     r.since + 940000000 ≤ s.cycle → r.waiters = [(c, q.id)] → r.fetches = [] → r.cmds = [] → r.front = false →
     (s.core c).xlat.find? (fun x => x.id = q.id) = some q →
     ∃ t, exec (.destinationUnreachable d) s = .next t ∧ t.dram = s.dram ∧ t.lines = s.lines ∧ t.farReads = [] ∧
       ∀ x ∈ (t.core c).xlat, x.id ≠ q.id) ∧
   (∀ (s : State) (d : Dest), s.unanswered d = true → (∀ r ∈ s.farReads, r.dest ≠ d) → (∀ w ∈ s.farWrites, w.dest ≠ d) →
     ∃ t, exec (.destinationUnreachable d) s = .next t ∧ t.lines = s.lines ∧ t.dram = s.dram ∧ t.orphan = s.orphan ∧
       t.farReads = s.farReads ∧ t.farWrites = s.farWrites ∧
       ∀ c, (t.core c).copy.queue = (s.core c).copy.queue.map (unreachableCopy d)) ∧
   ∀ (s : State) (d : Dest), s.unanswered d = false → exec (.destinationUnreachable d) s = .next s)

/-! ## Messages and management (25, 26) -/

/-- R471 to R474: in service the messages of a session come in the order of SEQ, each after the last effect of the one before. A malformed
message is answered 2, one that its session, its endpoint or the session's grant does not allow is answered 3, and neither has another
effect than to wake the device. A port that is not there, or failed at link-up, takes none; before OHP runs no message has an effect, and
in recovery one on port 0 is turned away. What is malformed, that malformed comes before session and endpoint, and that a message of an
unknown session needs no SEQ, are log 52; recovery is log 58. -/
def Obligations.MessagesAreAdmitted : Prop :=
  ∀ (m : OhpHdr) (s : State),
    (s.boot.phase = .running → s.takes m.port = true →
      (s.known m = false → m.type = 0x03 → exec (.memoryWrite m m.payload) s = .next
        { s with power := .c0, out := s.out ++ [.reply 0x03 (if malformedHdr m then 2 else 3) m.session m.seq] }) ∧
      (s.known m = false → malformedHdr m = true → exec (.malformedMessage m) s = .next
        { s with power := .c0, out := s.out ++ [.reply m.type 2 m.session m.seq] }) ∧
      (s.known m = true → m.seq ≠ (s.flow m.session).next → exec (.memoryWrite m m.payload) s = .next s ∧
        exec (.malformedMessage m) s = .next s) ∧
      (s.known m = true → m.seq = (s.flow m.session).next → (s.flow m.session).held = [] →
        (malformedHdr m = true → exec (.malformedMessage m) s = .next (goes m ((arrives s m (.none_ m)).answer m 2)) ∧
          exec (.memoryWrite m m.payload) s = .next (goes m ((arrives s m (.write m)).answer m 2))) ∧
        (malformedHdr m = false → m.type = 0x03 → s.mayUse m = false ∨ s.granted m = false →
          exec (.memoryWrite m m.payload) s = .next (goes m ((arrives s m (.write m)).answer m 3)))) ∧
      (s.known m = true → m.seq = (s.flow m.session).next → (s.flow m.session).held ≠ [] → m.type = 0x03 →
        exec (.memoryWrite m m.payload) s = .next (({ s with power := .c0 } : State).updFlow m.session fun f =>
          { f with next := f.next + 1, held := f.held ++ [{ item := .write m }] }))) ∧
    (s.boot.phase = .running → s.takes m.port = false → exec (.memoryWrite m m.payload) s = .next s ∧ exec (.launchSubmission m) s = .next s) ∧
    (s.boot.phase = .recovery → m.port = 0 → s.boot.mute = false → exec (.memoryWrite m m.payload) s = .next
      { s with out := s.out ++ [.reply m.type (if malformedHdr m then 2 else 3) m.session m.seq] }) ∧
    (s.boot.phase ≠ .running → s.boot.phase ≠ .recovery →
      exec (.memoryWrite m m.payload) s = .next s ∧ exec (.launchSubmission m) s = .next s)

/-- R148, R441, R443, R446, R466, R474, R477, R479, R229: the other messages of the host. A release of a parked set files its threads
again, at the header of its choice if it says so, retires them, or contains their gangs; one of a set that is not there is ignored; a
released thread's FAULT.INFO holds CODE and DETAIL of its record. A gang that is not running is contained with the answer 0, and one
answer fills every read that waits for its line, log 55; a length of 0 stops the recorder, log 54; the answer to the closing of a
session that is not open is log 44: all of these are the model's choice. -/
def Obligations.HostControlMessagesComplete : Prop :=
  ((∀ (m : OhpHdr) (r : ReleaseReq) (p : ParkSet) (s : State), Admitted s m 0x08 → s.savedIn r.core r.pset = [] →
     (s.core r.core).psets.find? (fun p => p.pset = r.pset) = some p →
     let t := (arrives s m (.release m r)).updCore r.core fun k => k.serviceWrites p.record.mask r.regs
     let u := t.updCore r.core fun k => { k with psets := k.psets.filter fun e => e.pset ≠ p.pset }
     (r.action < 2 → exec (.release m r) s = .next (goes m (((t.updCore r.core fun k =>
       k.releaseSet s.cycle p (if r.action = 1 then some r.header else none)).recordDone r.core r.pset).answer m 0))) ∧
     (∀ v, r.action = 2 → u.retireSlots r.core p.record.mask = some v →
       exec (.release m r) s = .next (goes m (((v.recordDone r.core r.pset).deferRelease r).answer m 0))) ∧
     (r.action = 2 → u.retireSlots r.core p.record.mask = none →
       exec (.release m r) s = .next (keeps m { item := .release m r } (arrives s m (.release m r)))) ∧
     (r.action = 3 → exec (.release m r) s = .next (goes m (((((s.core r.core).gangsOf p.record.mask).foldl
       (fun s g => s.trigger g.1 g.2 ⟨5, 0, r.core, 0⟩) (arrives s m (.release m r))).deferRelease r).answer m 0)))) ∧
   (∀ (m : OhpHdr) (r : ReleaseReq) (s : State), Admitted s m 0x08 → s.savedIn r.core r.pset = [] →
     (∀ p ∈ (s.core r.core).psets, p.pset ≠ r.pset) →
     exec (.release m r) s = .next (goes m ((arrives s m (.release m r)).answer m 0))) ∧
   (∀ (k : Core) (now : Nat) (p : ParkSet) (redirect : Option Dword) (x : Nat), x ∈ p.record.mask →
     ((k.releaseSet now p redirect).thread x).faultInfo = BitVec.ofNat 16 (p.record.code + 256 * p.record.detail)) ∧
   ∀ (core cycle : Nat) (k : Core) (x : Nat), sysValue core cycle k x 0x19 = some ((k.thread x).faultInfo.setWidth 64)) ∧
  (∀ lid gang, Serves (fun m => .ohpContain m lid gang) (fun m => .contain m lid gang) 0x09 (fun _ => True) fun m s =>
    (s.trigger lid gang ⟨5, 0, 0, 0⟩).answer m 0) ∧
  (∀ lid gang, Serves (fun m => .ohpSuspend m lid gang) (fun m => .suspend m lid) 0x09 (fun _ => True) fun m s =>
    (s.updLaunch lid fun l => { l with
      suspended := true, gangs := l.gangs.mapVals fun _ g => { g with halting := g.halting || g.takeable } }).answer m 0) ∧
  (∀ lid gang, Serves (fun m => .ohpResume m lid gang) (fun m => .resume m lid) 0x09 (fun _ => True) fun m s =>
    (s.updLaunch lid fun l => { l with suspended := false }).answer m 0) ∧
  (∀ (m : OhpHdr) (i a : Nat) (data : BitVec 512) (s : State), Admitted s m 0x0B →
    let mine (r : FarRead) : Bool := r.dest = .host && r.index = i && r.addr = a
    let t := (s.farReads.filter mine).foldl (fun s r => s.fillFar r.line data) (arrives s m (.hostLine m i a data))
    (t.farReads.any mine = false → exec (.farPageService m i a data) s = .next (goes m t)) ∧
    (t.farReads.any mine = true → exec (.farPageService m i a data) s = .next (keeps m { item := .hostLine m i a data } t))) ∧
  (∀ nonce, Serves (fun m => .attestationRequest m nonce) (fun m => .attest m nonce) 0x0C (fun m => leNat m.payload = nonce.toNat) fun m s => { s with
    out := s.out ++ [.attestation m.session m.seq (s.attestBody nonce) (Config.attestSign (s.attestBody nonce)) Config.certificate] ++
      (if (s.boot.links ≠ [] ∨ s.boot.ports ≠ []) ∧ s.boot.told = false then [.failedParts s.boot.links s.boot.ports] else [])
    boot := { s.boot with told := true } }) ∧
  (∀ base len, Serves (fun m => .recorderControl m base len) (fun m => .recorder m base len) 0x0E
    (fun m => m.addr = base ∧ leNat m.payload = len) fun m s =>
    if len = 0 then ({ s with recorder := { s.recorder with on := false } } : State).answer m 0
    else ({ s with recorder :=
      { s.recorder with on := true, asid := m.asid, base := base, len := len, pos := 0, session := m.session } } : State).answer m 0) ∧
  (∀ n e glb asids, Serves (fun m => .sessionOpen m n e glb asids) (fun m => .openSession m n e glb asids) 0x11 (fun _ => True) fun m s =>
    if n = 0 ∨ 63 < n ∨ 256 < asids.length then s.answer m 2
    else if (s.sessions.find n).isSome then s.answer m 1
    else ({ s with sessions := s.sessions.set n ⟨e, glb, asids⟩, flows := s.flows.erase n } : State).answer m 0) ∧
  ∀ (m : OhpHdr) (n : Nat) (s : State), Admitted s m 0x12 →
    let t := arrives s m (.closeSession m n)
    (s.sessions.find n = none → exec (.sessionClose m n) s = .next (goes m (t.answer m (Config.openStatus 0x12).toNat))) ∧
    (s.sessions.find n ≠ none → (t.flow n).held = [] → exec (.sessionClose m n) s = .next (goes m (({ t with
      sessions := t.sessions.erase n, flows := t.flows.erase n
      launches := t.launches.mapVals fun _ (l : Launch) => { l with submitter := l.submitter.closed n m.endpoint } } : State).answer m 0))) ∧
    (s.sessions.find n ≠ none → (t.flow n).held ≠ [] → exec (.sessionClose m n) s = .next (keeps m { item := .closeSession m n } t))

/-- R229, R251, R463, R469, R480, R482: what peers and the links do: a write of a peer is registered chunk by chunk, at the homes of the
global window, and then acknowledged; a line is read and sent; an item of another window wakes the device (log 56). R426, R428, R463,
R481, R472: submissions, memory writes and reads, chunk by chunk and word by word, and the latency tolerance. A submission is accepted
with its identifier, or answered busy, refused, or that its ASID is not permitted, busy first (log 42). The steps on its completion block
are log 43; replies whose STATUS the spec does not give hold Config.openStatus, log 44, the model's choice. -/
def Obligations.LinkAndMemoryMessagesComplete : Prop :=
  ((∀ (s : State) (p : Nat), s.takes p = true → exec (.linkActivity p) s = .next (if s.power = .c4 then { s with power := .c0 } else s)) ∧
   (∀ (s : State) (p va : Nat) (b : List Byte), s.takes p = true → exec (.inboundWrite p false va b) s = .next
     { s with portErrors := FMap.put 0 s.portErrors p (FMap.get 0 s.portErrors p + 1) }) ∧
   (∀ (s : State) (p va : Nat) (b : List Byte), s.takes p = true → s.boot.phase = .running → va / 2 ^ 56 ≠ 1 →
     exec (.inboundWrite p true va b) s = .next { s with power := .c0 } ∧ exec (.farLineRequest p va) s = .next { s with power := .c0 }) ∧
   (∀ (s u : State) (p va : Nat) (b : List Byte) (c : Chunk) (lost : Bool), s.takes p = true → s.boot.phase = .running → va / 2 ^ 56 = 1 →
     s.recorder.on = false → inSpace va b.length = true → firstChunk 0 va b = some c →
     (peerArrives s (.peerWrite p va b)).storeChunk c = (.ok, lost, u) →
     exec (.inboundWrite p true va b) s = .next (if c.bytes < b.length
       then peerKeeps s.peers.length (some { item := .peerWrite p va b, begun := true, wrote := c.bytes, bad := lost }) u
       else peerKeeps s.peers.length none { u with out := u.out ++ [.writeAck p va] })) ∧
   (∀ (s u : State) (i p va : Nat) (b : List Byte) (x : Ingress) (c : Chunk) (lost : Bool), s.peers[i]? = some x →
     x.item = .peerWrite p va b → x.begun = true → x.record = [] → inSpace va b.length = true →
     firstChunk 0 (va + x.wrote) (b.drop x.wrote) = some c → s.storeChunk c = (.ok, lost, u) →
     s.servePeer i = if x.wrote + c.bytes < b.length
       then peerKeeps i (some { x with wrote := x.wrote + c.bytes, bad := x.bad || lost }) u
       else peerKeeps i none { u with out := u.out ++ [.writeAck p va] }) ∧
   (∀ (s u : State) (p va : Nat) (q : Front), s.takes p = true → s.boot.phase = .running → va / 2 ^ 56 = 1 → s.recorder.on = false →
     let a := va / lineBytes * lineBytes
     (peerArrives s (.peerRead p va)).frontAt (byteKey 0 a) 0 = (q, u) →
     (q = .ok → u.badWord (byteKey 0 a / 4) = false → u.badWord (byteKey 0 a / 4 + 8) = false →
       exec (.farLineRequest p va) s = .next (peerKeeps s.peers.length none
         { u with out := u.out ++ [.farData p a (u.homeBytes 0 a lineBytes)] })) ∧
     (q = .wait → exec (.farLineRequest p va) s = .next (peerKeeps s.peers.length (some { item := .peerRead p va }) u))) ∧
   ∀ (s : State) (p va : Nat) (b : List Byte) (supported : Bool), s.takes p = false →
     exec (.linkActivity p) s = .next s ∧ exec (.inboundWrite p supported va b) s = .next s ∧ exec (.farLineRequest p va) s = .next s) ∧
  ((∀ (m : OhpHdr) (s t : State) (q : Submitted), Admitted s m 0x01 →
     (arrives s m (.submit m)).submit (.host m.session m.endpoint) m.asid m.addr (s.permits m.session) = (q, t) →
     (q = .wait → exec (.launchSubmission m) s = .next (keeps m { item := .submit m } t)) ∧
     (q ≠ .wait → exec (.launchSubmission m) s = .next (goes m { t with out := t.out ++ [match q with
       | .accepted lid => .accepted m.session m.seq (BitVec.ofNat 64 (lid + 2 ^ 32))
       | .refused asid => .reply m.type (if asid then 3 else (Config.openStatus 0x01).toNat) m.session m.seq
       | _ => .reply m.type 1 m.session m.seq] }))) ∧
   (∀ (m : OhpHdr) (s u : State) (q : Front) (c : Chunk) (lost : Bool), Admitted s m 0x03 → inSpace m.addr m.payload.length = true →
     firstChunk m.asid m.addr m.payload = some c → (arrives s m (.write m)).storeChunk c = (q, lost, u) →
     (q = .ok → exec (.memoryWrite m m.payload) s = .next (if c.bytes < m.payload.length
       then keeps m { item := .write m, begun := true, wrote := c.bytes, bad := lost } u
       else goes m (u.answer m (if lost then 4 else 0)))) ∧
     (q = .fault → exec (.memoryWrite m m.payload) s = .next (goes m (u.answer m (Config.openStatus 0x03).toNat))) ∧
     (q = .wait → exec (.memoryWrite m m.payload) s = .next (keeps m { item := .write m } u))) ∧
   (∀ (m : OhpHdr) (s u : State) (n : Nat) (x : Ingress) (rest : List Ingress) (c : Chunk) (lost : Bool), (s.flow n).held = x :: rest →
     x.item = .write m → x.begun = true → x.record = [] → inSpace m.addr m.payload.length = true →
     firstChunk m.asid (m.addr + x.wrote) (m.payload.drop x.wrote) = some c → s.storeChunk c = (.ok, lost, u) →
     s.serveSession n = if x.wrote + c.bytes < m.payload.length
       then u.updFlow n fun f => { f with held := { x with wrote := x.wrote + c.bytes, bad := x.bad || lost } :: rest }
       else (u.answer m (if x.bad || lost then 4 else 0)).updFlow n fun f => { f with held := rest }) ∧
   (∀ (s u : State) (c : Chunk) (q : Front), s.frontAt (4 * c.first) 1 = (q, u) →
     (q ≠ .ok → s.storeChunk c = (q, false, u)) ∧
     (∀ w d, q = .ok → c = .sector w d → s.storeChunk c = (.ok, false, u.registerSector none w d)) ∧
     (∀ w e d, q = .ok → c = .word w e d → s.storeChunk c = if u.badWord w then (.ok, true, u.countTaint w (u.taint w))
       else (.ok, false, u.register none w e d))) ∧
   (∀ (m : OhpHdr) (s u : State) (q : Front), Admitted s m 0x04 → inSpace m.addr m.len = true → m.len ≠ 0 →
     (arrives s m (.read m)).frontAt (byteKey m.asid m.addr) 0 = (q, u) →
     let w := byteKey m.asid m.addr / 4
     let got := u.homeBytes m.asid m.addr (min (4 - m.addr % 4) m.len)
     let sends (t : State) (status : Nat) (data : List Byte) : State := { t with out := t.out ++ [.readResponse m.session m.seq status data] }
     (q = .ok → u.badWord w = true → exec (.memoryRead m) s = .next (goes m (sends (u.countTaint w (u.taint w)) 4 []))) ∧
     (q = .ok → u.badWord w = false → exec (.memoryRead m) s = .next (if got.length < m.len
       then keeps m { item := .read m, begun := true, got := got } u else goes m (sends u 0 got))) ∧
     (q = .fault → exec (.memoryRead m) s = .next (goes m (sends u (Config.openStatus 0x04).toNat []))) ∧
     (q = .wait → exec (.memoryRead m) s = .next (keeps m { item := .read m } u))) ∧
   Serves .latencyTolerance .tolerance 0x06 (fun _ => True) fun m s =>
     ({ s with tolerance := m.addr, power := s.power.rise (deepest m.addr) } : State).answer m 0)

/-- R475, R476, R479: bring-up. The ROMs accept an image that both dies agree on, or verify once more and then go to recovery;
firmware raises the fuses and names the operators, at most 16; memory is cleared; then OHP accepts sessions. A step whose hardware
fails leaves the device in recovery, or without the memory link or port. An image load in recovery resets the device. R12, R454 to
R456, R480: heartbeats, takeover, the loss of the standby, the hardware watchdog, and the entry of a power state after 100
microseconds of idleness. The retry by the same procedure, steps that fail, the standby's 5 ms, and what a device reset keeps are log
58; what idleness is is log 53. -/
def Obligations.BringUpAndManagementComplete : Prop :=
  ((∀ (s : State) (x : Bool × Nat), s.boot.phase = .powered → s.boot.agreed = some x → exec (.bringUp true) s = .next
     { s with boot := { s.boot with phase := .verified, bootSlot := x.1, image := x.2 } }) ∧
   (∀ s : State, s.boot.phase = .powered → s.boot.agreed = none → exec (.bringUp true) s = .next
     { s with boot := if s.boot.retried then { s.boot with phase := .recovery } else { s.boot with retried := true, since := s.cycle } }) ∧
   (∀ s : State, s.boot.phase = .powered → exec (.bringUp false) s = .next
     { s with boot := { s.boot with phase := .recovery, mute := Config.romDead s.freeCtr }, freeCtr := s.freeCtr + 1 }) ∧
   (∀ s : State, s.boot.phase = .verified → exec (.bringUp true) s = .next { s with
     boot := { s.boot with phase := .firmware, fuse0 := max s.boot.fuse0 (Config.imageVersion s.boot.image),
                           fuse1 := max s.boot.fuse1 (Config.imageVersion s.boot.image) }
     operators := (Config.imageOperators s.boot.image).take 16
     mgmt := { s.mgmt with beat0 := s.cycle, beat1 := s.cycle } }) ∧
   (∀ s : State, s.boot.phase = .verified → ∃ t, exec (.bringUp false) s = .next t ∧ t.boot.phase = .recovery ∧
     t.boot.fuse0 ∈ [s.boot.fuse0, max s.boot.fuse0 (Config.imageVersion s.boot.image)] ∧
     t.boot.fuse1 ∈ [s.boot.fuse1, max s.boot.fuse1 (Config.imageVersion s.boot.image)]) ∧
   (∀ s : State, s.boot.phase = .firmware →
     exec (.bringUp true) s = .next { s with boot := { s.boot with phase := .memory }, dram := [], poisoned := [], tags := [], flips := [] }) ∧
   (∀ s : State, s.boot.phase = .firmware → ∃ t, exec (.bringUp false) s = .next t ∧ t.boot.phase = .memory ∧ t.dram = [] ∧
     ∀ n ∈ t.boot.links, n < 32) ∧
   (∀ (s : State) (b : Bool), s.boot.phase = .memory → ∃ t, exec (.bringUp b) s = .next t ∧ t.boot.phase = .links ∧ t.dram = s.dram ∧
     (b = true → t = { s with boot := { s.boot with phase := .links } })) ∧
   (∀ s : State, s.boot.phase = .links → exec (.bringUp true) s = .next
     { s with boot := { s.boot with phase := .running }, idleSince := s.cycle } ∧
     exec (.bringUp false) s = .next { s with boot := { s.boot with phase := .recovery } }) ∧
   (∀ s : State, s.boot.phase = .powered → s.boot.since + 2 * 940000000 ≤ s.cycle →
     (s.boot.retried = false → exec .romReportTimeout s = .next { s with boot := { s.boot with retried := true, since := s.cycle } }) ∧
     (s.boot.retried = true → exec .romReportTimeout s = .next
       { s with boot := { s.boot with phase := .recovery, mute := Config.romDead s.freeCtr }, freeCtr := s.freeCtr + 1 })) ∧
   ∀ (m : OhpHdr) (slot : Bool) (image : Nat) (s : State), s.boot.phase = .recovery → s.boot.mute = false → m.port = 0 → m.session = 0 →
     malformedHdr m = false → m.type = 0x10 → ∃ t, exec (.imageLoad m slot image) s = .next t ∧ t.boot.phase = .powered ∧
       t.dram = State.reset.dram ∧ t.cores = State.reset.cores ∧ t.boot.slot0 = (if slot then s.boot.slot0 else some image) ∧
       t.boot.slot1 = (if slot then some image else s.boot.slot1) ∧ t.boot.fuse0 = s.boot.fuse0 ∧ t.boot.fuse1 = s.boot.fuse1) ∧
  ((∀ s : State, s.managed = true → s.mgmt.primaryHeld = false → s.mgmt.hung0 = false →
     exec (.heartbeat false) s = .next { s with mgmt := { s.mgmt with beat0 := s.cycle } }) ∧
   (∀ s : State, s.managed = true → s.mgmt.standbyHeld = false → s.mgmt.hung1 = false →
     exec (.heartbeat true) s = .next { s with mgmt := { s.mgmt with beat1 := s.cycle } }) ∧
   (∀ s : State, s.managed = true → s.mgmt.standby = false → s.mgmt.standbyHeld = false → s.mgmt.beat0 + 4700000 ≤ s.cycle →
     ∃ t, exec .takeover s = .next t ∧ t.mgmt = { s.mgmt with primaryHeld := true, standby := true } ∧ t.dram = s.dram ∧ t.lines = s.lines) ∧
   (∀ s : State, s.managed = true → s.mgmt.standby = false → s.mgmt.standbyHeld = false → s.mgmt.beat1 + 4700000 ≤ s.cycle →
     ∃ t n, exec .standbyHeartbeatLoss s = .next t ∧ t.mgmt = { s.mgmt with standbyHeld := true } ∧
       t.out = s.out ++ [.machineCheck none n .standbyLost 0 0] ∧ t.dram = s.dram ∧ t.lines = s.lines ∧ t.cores = s.cores) ∧
   (∀ s : State, s.managed = true → s.mgmt.standby = true ∨ s.mgmt.standbyHeld = true →
     (if s.mgmt.standby then s.mgmt.beat1 else s.mgmt.beat0) + 4700000 ≤ s.cycle →
     ∃ t, exec .deviceReset s = .next t ∧ t.boot.phase = .powered ∧ t.cores = State.reset.cores ∧ t.dram = State.reset.dram ∧
       t.boot.slot0 = s.boot.slot0 ∧ t.boot.slot1 = s.boot.slot1 ∧ t.boot.fuse0 = s.boot.fuse0 ∧ t.boot.fuse1 = s.boot.fuse1) ∧
   ∀ s : State, s.boot.phase = .running → s.idle = true → s.quietPorts = true → s.idleSince + 94000 ≤ s.cycle →
     exec .powerStateEntry s = .next { s with power := deepest s.tolerance })

/-! ## Values and registers -/

/-- R155: sums, differences and products are kept modulo 2^w, or clamped with .sat; mulh is the high half; min, max and abs; every result
of a narrow type is extended to its register. -/
def Obligations.IntegerResults : Prop :=
  ∀ (sub : BitVec 4) (a b c : Dword), sub.toNat < 10 →
    let w := intWidth sub
    let x := typeInt sub a
    let y := typeInt sub b
    typeNat sub (opAdd sub false a b) = (a.toNat + b.toNat) % 2 ^ w ∧
    typeNat sub (opSub sub false a b) = (a.toNat + (2 ^ 64 - b.toNat)) % 2 ^ w ∧
    typeNat sub (opMul sub false a b) = a.toNat * b.toNat % 2 ^ w ∧
    typeNat sub (opMad sub false a b c) = (a.toNat * b.toNat + c.toNat) % 2 ^ w ∧
    typeInt sub (opAdd sub true a b) = max (typeMin sub) (min (typeMax sub) (x + y)) ∧
    typeInt sub (opSub sub true a b) = max (typeMin sub) (min (typeMax sub) (x - y)) ∧
    typeInt sub (opMul sub true a b) = max (typeMin sub) (min (typeMax sub) (x * y)) ∧
    typeInt sub (opMulh sub a b) = x * y / 2 ^ w ∧
    typeInt sub (opMin sub a b) = min x y ∧ typeInt sub (opMax sub a b) = max x y ∧
    typeInt sub (opAbs sub false a) = (if x = typeMin sub then x else (x.natAbs : Int)) ∧
    typeInt sub (opMad sub true a b c) = max (typeMin sub) (min (typeMax sub) (x * y + typeInt sub c)) ∧
    typeInt sub (opAbs sub true a) = min (typeMax sub) x.natAbs ∧
    ∀ v ∈ [opAdd sub false a b, opAdd sub true a b, opSub sub false a b, opSub sub true a b, opMul sub false a b, opMul sub true a b,
        opMad sub false a b c, opMad sub true a b c, opMulh sub a b, opMin sub a b, opMax sub a b, opAbs sub false a, opAbs sub true a],
      (w < 64 → v.toNat < 2 ^ 32) ∧ (w < 64 → intSigned sub = true → (v.setWidth 32 : Word).toInt = typeInt sub v) ∧
      (intSigned sub = false → v.toNat = typeNat sub v)

/-- R156: shifts, rotates, counts and bit fields, bit by bit. -/
def Obligations.ShiftAndFieldResults : Prop :=
  ∀ (sub : BitVec 4) (a b c : Dword), sub.toNat < 10 →
    let w := intWidth sub
    let n := b.toNat % 2 ^ 32
    let pos (v : Dword) : Nat := v.toNat % 256
    let len (v : Dword) : Nat := v.toNat / 256 % 256
    BitsAre sub (opShl sub a b) (fun i => decide (n ≤ i) && a.getLsbD (i - n)) ∧
    BitsAre sub (opShr sub a b) (fun i => decide (i + n < w) && a.getLsbD (i + n)) ∧
    BitsAre sub (opSar sub a b) (fun i => a.getLsbD (min (i + n) (w - 1))) ∧
    BitsAre sub (opRol sub a b) (fun i => a.getLsbD ((i + (w - n % w)) % w)) ∧
    BitsAre sub (opBrev sub a) (fun i => a.getLsbD (w - 1 - i)) ∧
    BitsAre sub (opBfi sub a b c) (fun i => if pos c ≤ i ∧ i < pos c + len c then a.getLsbD (i - pos c) else b.getLsbD i) ∧
    BitsAre sub (opBfe sub a b) (fun i =>
      if len b = 0 ∨ w ≤ pos b then false
      else if i < min (pos b + len b) w - pos b then a.getLsbD (pos b + i)
      else intSigned sub && a.getLsbD (min (pos b + len b) w - 1)) ∧
    (opClz sub a).toNat ≤ w ∧ (∀ i, w - (opClz sub a).toNat ≤ i → i < w → a.getLsbD i = false) ∧
    ((opClz sub a).toNat < w → a.getLsbD (w - 1 - (opClz sub a).toNat) = true) ∧
    (opPopc sub a).toNat = ((List.range w).filter fun i => a.getLsbD i).length

/-- R166: fcmp holds its condition in C; a NaN makes every ordered condition false and .ne and .un true; infinities lie outside the finite
values, which compare as the numbers they stand for, -0 equal to +0. -/
def Obligations.FloatComparisons : Prop :=
  (∀ f : EForm, WellFormed (.fcmp f) → f.c.kind = .vec ∧ f.c.code.toNat < 8) ∧
  (∀ f : EForm, Two (.fcmp f) f (entryOf (.fcmp f)) (wideFloat f) (wideFloat f) false fun a b =>
    boolDword (FVal.cond f.c.code.toNat (valA f a) (valB f b))) ∧
  (∀ a b : FVal, a = .nan ∨ b = .nan → ∀ c < 8, FVal.cond c a b = decide (c = 1 ∨ c = 6)) ∧
  (∀ a b : FVal, a ≠ .nan → b ≠ .nan →
    FVal.cond 6 a b = false ∧ FVal.cond 7 a b = true ∧ FVal.cond 1 a b = !FVal.cond 0 a b ∧
    FVal.cond 4 a b = FVal.cond 2 b a ∧ FVal.cond 5 a b = !FVal.cond 2 a b ∧ FVal.cond 3 a b = !FVal.cond 2 b a) ∧
  (∀ (n m : Bool) (x y : Nat) (e d : Int),
    FVal.cond 2 (.fin n x e) (.fin m y d) = decide (ratOf n x e < ratOf m y d) ∧
    FVal.cond 0 (.fin n x e) (.fin m y d) = decide (ratOf n x e = ratOf m y d) ∧
    FVal.cond 2 (.inf n) (.fin m y d) = n ∧ FVal.cond 2 (.fin n x e) (.inf m) = !m ∧ FVal.cond 0 (.inf n) (.fin m y d) = false) ∧
  ∀ n m : Bool, FVal.cond 0 (.inf n) (.inf m) = decide (n = m) ∧ FVal.cond 2 (.inf n) (.inf m) = (n && !m)

/-- R167: fclass sets exactly one bit, the class of the encoding by its sign, exponent and fraction. -/
def Obligations.FloatClasses : Prop :=
  (∀ f : EForm, One (.fclass f) f (entryOf (.fclass f)) (wideFloat f) false fun a =>
    BitVec.ofNat 64 (2 ^ (floatFmt f.sub.toNat).classBit (valA f a))) ∧
  ∀ m ∈ [f16, bf16, f32, f64, e4m3, e5m2, e2m1], ∀ bits : Nat,
    let neg := bits / 2 ^ (m.eb + m.mb) % 2 = 1
    let e := bits / 2 ^ m.mb % 2 ^ m.eb
    let q := bits % 2 ^ m.mb
    let top := e = 2 ^ m.eb - 1
    let isNan := (m.hasInf = true ∧ top ∧ q ≠ 0) ∨ (m = e4m3 ∧ top ∧ q = 7)
    let isInf := m.hasInf = true ∧ top ∧ q = 0
    let k := m.classBit (m.decode bits)
    (k = 0 ↔ isInf ∧ neg) ∧ (k = 7 ↔ isInf ∧ ¬ neg) ∧ (k = 8 ↔ isNan) ∧
    (k = 3 ↔ e = 0 ∧ q = 0 ∧ neg) ∧ (k = 4 ↔ e = 0 ∧ q = 0 ∧ ¬ neg) ∧
    (k = 2 ↔ e = 0 ∧ q ≠ 0 ∧ neg) ∧ (k = 5 ↔ e = 0 ∧ q ≠ 0 ∧ ¬ neg) ∧
    (k = 1 ↔ e ≠ 0 ∧ ¬ isInf ∧ ¬ isNan ∧ neg) ∧ (k = 6 ↔ e ≠ 0 ∧ ¬ isInf ∧ ¬ isNan ∧ ¬ neg) ∧ k ≤ 8 ∧
    (m = e4m3 ∨ m = e2m1 → k ≠ 0 ∧ k ≠ 7) ∧ (m = e2m1 → k ≠ 8)

/-- R186: redux combines the lanes' values in the fixed tree and gives every active lane the root. -/
def Obligations.ReductionTree : Prop :=
  ∀ f : EForm, Cross (.redux f) f (reduxWidth f.sub = 64) (reduxWidth f.sub = 64) fun act a _ =>
    BitVec.ofNat 64 (treeLevel (reduxOp f.sub.toNat)
      (fun l => match slotInLane act l with
        | some y => (a y).toNat
        | none => reduxIdentity f.sub.toNat) 5 0)

/-- R272, R273: the operations that a home performs, at each width and signedness of MIN. -/
def Obligations.AtomicResults : Prop :=
  ∀ (min old operand other : Nat), min < 4 →
    let w := if min < 2 then 32 else 64
    let i (x : Nat) : Int := if min = 0 ∨ min = 2 then (if 2 ^ (w - 1) ≤ x then (x : Int) - 2 ^ w else x) else x
    let op (n : Nat) : Nat × Bool := atomicOp min n old operand other
    old < 2 ^ w → operand < 2 ^ w →
      op 0 = ((old + operand) % 2 ^ w, false) ∧
      (i (op 1).1 = Min.min (i old) (i operand) ∧ i (op 2).1 = Max.max (i old) (i operand)) ∧
      op 3 = (old &&& operand, false) ∧ op 4 = (old ||| operand, false) ∧ op 5 = (old ^^^ operand, false) ∧ op 6 = (operand, false) ∧
      op 7 = (if old = operand then other else old, decide (old = operand)) ∧
      ((op 8).2 = decide (i old < i operand) ∧ i (op 8).1 = if i old < i operand then i old + 1 else i old) ∧
      ((op 9).2 = decide (i operand < i old) ∧ i (op 9).1 = if i operand < i old then i old - 1 else i old) ∧
      (∀ n, n ≠ 1 → n < 7 → reduceOp min n old operand = (op (n - 1)).1) ∧
      reduceOp min 1 old operand = if w = 32 then addF f32 old operand else addF f64 old operand

/-- R48, R98, R154, R99, R140, R143: s0 reads 0 and takes no write, in every instruction; p7 is true, and no well-formed word names it as
the predicate that it writes, in D, in C of addc and subb, or as the result of atom (R68); an index register keeps 24 bits; the rounding
state is never written as 0. -/
def Obligations.HardwiredRegisters : Prop :=
  (∀ (t : Thread) (r : Row) (f : EForm) (o : Opnd), o.kind = .scl → o.code = 0 →
    readOpnd t r f o false = .ok 0 ∧ ∀ v, readOpnd t r f o true = .ok v → v.setWidth 32 = (0 : Word)) ∧
  (∀ (r : Row) (l : List (Dst × Word)), (r.writeAll l).scalar 0 = 0 ∧
    ((∀ e ∈ l, e.1 = .s 0) → r.writeAll l = r)) ∧
  (∀ (t : Thread) (l : List (Dst × Word)), (t.writeAll l).pred 7 = true) ∧
  (∀ f : EForm, (WellFormed (.cmp f) ∨ WellFormed (.fcmp f) ∨ WellFormed (.pand f) ∨ WellFormed (.por f) ∨ WellFormed (.pxor f) ∨
    WellFormed (.pnot f) ∨ WellFormed (.voteAny f) ∨ WellFormed (.voteAll f) ∨ WellFormed (.probe f) ∨ WellFormed (.evpost f) ∨
    WellFormed (.awaitElect f)) → f.d.kind = .spc ∧ f.d.code.toNat < 7) ∧
  (∀ f : EForm, WellFormed (.addc f) ∨ WellFormed (.subb f) → f.c.kind = .spc ∧ f.c.code.toNat < 7) ∧
  (∀ (n : BitVec 2) (m : MForm) (p : Nat), WellFormed (.atom n m) → atomPred m.e = some p → p < 7) ∧
  (∀ (t : Thread) (n : Nat) (w : Word), n < 4 → ((t.write (.x n) w).idx n) = w &&& 0x00FFFFFF#32) ∧
  ∀ w : Word, lfsrStore w ≠ 0 ∧ (w ≠ 0 → lfsrStore w = w)

/-- R129, R130, R132, R119, R108: CODE.BASE is the launch's entry with bits [33:0] cleared; a code pointer names a word of the 16 GiB from there on; indirect
targets and link values are code pointers. Threads with less than 256 registers park at a call or a return; that DETAIL is then 0 is
log 73, the model's choice. -/
def Obligations.CodePointers : Prop :=
  (∀ entry : Nat, codeBaseOf entry ≤ entry ∧ entry < codeBaseOf entry + 2 ^ 34 ∧ codeBaseOf entry % 2 ^ 34 = 0) ∧
  (∀ (s : State) (lid gang : Nat) (r : LaunchRec) (groups : List GroupSpec) (p : PlaceReq) (c : CrewSpec) (records : List Byte),
    ((((s.bindCrew lid gang r groups p c records).core p.core).crew p.bind).codeBase) = BitVec.ofNat 64 (codeBaseOf r.entry)) ∧
  (∀ (c : Crew) (p : Word), codePtr c p = c.codeBase + 4 * p.setWidth 64 ∧
    (c.codeBase.toNat + 2 ^ 34 ≤ 2 ^ 64 → c.codeBase.toNat ≤ (codePtr c p).toNat ∧ (codePtr c p).toNat < c.codeBase.toNat + 2 ^ 34) ∧
    linkValue c (codePtr c p) = p) ∧
  (∀ (c : Crew) (a : Dword), a.toNat % 4 = 0 → c.codeBase.toNat % 4 = 0 → c.codeBase.toNat ≤ a.toNat → a.toNat < c.codeBase.toNat + 2 ^ 34 →
    codePtr c (linkValue c a) = a) ∧
  (∀ a, Jumps (.jmpiB a) alwaysGuard (ptrRegs (shortSrc a))
    (fun s _ x => codePtr (s.cur.crewAt x) (ptrSource (s.cur.thread x) (shortSrc a))) false) ∧
  (∀ f : JForm, Jumps (.jmpiE f) f.guard (ptrRegs (jOpnd f))
    (fun s _ x => codePtr (s.cur.crewAt x) (ptrSource (s.cur.thread x) (jOpnd f))) false) ∧
  (∀ a, Calls (.calliB a) alwaysGuard (ptrRegs (shortSrc a) ++ [.v 255])
    (fun s _ x => codePtr (s.cur.crewAt x) (ptrSource (s.cur.thread x) (shortSrc a))) true) ∧
  (∀ f : JForm, Calls (.calliE f) f.guard (ptrRegs (jOpnd f) ++ [.v 255])
    (fun s _ x => codePtr (s.cur.crewAt x) (ptrSource (s.cur.thread x) (jOpnd f))) true) ∧
  Calls .retB alwaysGuard [.v 255] (fun s _ x => codePtr (s.cur.crewAt x) ((s.cur.thread x).reg 255)) false ∧
  ∀ f : XForm, Calls (.retE f) f.guard [.v 255] (fun s _ x => codePtr (s.cur.crewAt x) ((s.cur.thread x).reg 255)) false

/-! ## Faults -/

/-- R119, R121, R236: in a cohort block the faults of an instruction park the whole cohort, in one set, with the lowest code and the lowest
lane's detail and address; in another block each code parks its own threads, in one set, the lowest code first. The record names the
instruction's own address. That detail and address are the lowest lane's also where the fault is no memory verdict (R236), outside a
cohort block, is log 66, the model's reading. -/
def Obligations.FaultsFormParkSets : Prop :=
  ∀ (s : State) (c : Nat) (g : Group) (i : Instr) (fs : List LaneFault) (f : LaneFault), f ∈ fs →
    (∀ h ∈ fs, f.code ≤ h.code) → (∀ h ∈ fs, h.code = f.code → laneOf f.slot < laneOf h.slot ∨ h = f) →
    let q (slots : List Nat) : ParkReq :=
      { slots := slots, code := f.code, detail := f.detail, addr := f.addr, resume := g.here, header := g.header, ring := g.ring,
        latches := latchesRead i, coh := g.cf, wait := isWait i }
    (g.cf = true → Parked s (s.parkFaults c g i fs).1 c (q g.members) ∧ (s.parkFaults c g i fs).2 = g.without g.members) ∧
    (g.cf = false → (s.parkFaults c g i fs).2 = g.without (fs.map (·.slot)) ∧
      ∃ t, Parked s t c (q ((fs.filter fun h => h.code = f.code).map (·.slot))) ∧
        (s.parkFaults c g i fs).1 = (t.parkFaults c g i (fs.filter fun h => h.code ≠ f.code)).1)

/-- R146, R263: a load or store of one lane parks it where its address is out of range, misaligned or not permitted; the detail is the
kind of access. R53, R102, R153: an integer instruction parks the lanes whose operand A, indirected, is out of the bounds of its index
register or of the allotment; which registers those are. -/
def Obligations.AccessFaultsPark : Prop :=
  ∀ m : MForm,
    AccessParks (.ld m) m 0 ((entryOf (.ld m)).produces m.e) (fun s x => ∃ ds, Into s m.e (accessBytes m.e.sub = 8) x ds) (BadVirtual m 0) ∧
    AccessParks (.lds m) m 0 ((entryOf (.lds m)).produces m.e) (fun s x => ∃ ds, Into s m.e (accessBytes m.e.sub = 8) x ds) (BadScratch m) ∧
    AccessParks (.st m) m 1 false (fun s x => ∃ v, Reads s m.e m.e.c (accessBytes m.e.sub = 8) x v) (BadVirtual m 1) ∧
    AccessParks (.sts m) m 1 false (fun s x => ∃ v, Reads s m.e m.e.c (accessBytes m.e.sub = 8) x v) (BadScratch m) ∧
    (∀ i ∈ ([.addE, .subE, .addc, .subb, .mulE, .mulhE, .mad, .minE, .maxE, .absE, .andE, .orE, .xorE, .andnE, .notE, .shlE, .shrE, .sarE,
      .rolE, .clz, .popc, .brev, .bfe, .bfi, .sel, .cmp, .movE] : List (EForm → Instr)), OutsideParks i) ∧
    ∀ (t : Thread) (r : Row) (f : EForm) (o : Opnd) (wide : Bool), o.kind = .vec → o.latch = false → o.ind = true →
      let x := (t.idx f.xs.toNat).toNat
      let j := x % 256 + o.code.toNat
      let last := if wide then j + 1 else j
      (readOpnd t r f o wide = .error 0x05 ↔ (wide = true ∧ j % 2 = 1) ∨ j < x / 256 % 256 ∨ x / 65536 % 256 < last ∨ 255 < last ∨ r.allot ≤ last) ∧
      (readOpnd t r f o wide ≠ .error 0x05 → readOpnd t r f o wide = .ok (t.regs j wide))

/-! ## Decoding, steps, invariants -/

/-- Words written out from the encodings of R44 to R47, R57 to R62 decode to what they stand for: nop; a header of a cohort block
with HWM 4 groups and 16 words; add.i32 v5, v6 and the latch of the instruction before; bra two words back; add.i64.sat of
an extended word with a guard; and ld with a displacement.
A word of an empty opcode encodes nothing (R68). -/
def Obligations.DecodesSpecWords : Prop :=
  decode [0x00000000] = .ok (.nop, 1) ∧
  decode [0x1FE04010] = .ok (.blockHeader true 4 16, 1) ∧
  decode [0x0001437E] = .ok (.addB ⟨false, 5, 6, 126⟩, 1) ∧
  decode [0x1A1FFFFE] = .ok (.braB (-2), 1) ∧
  decode [0x40008200, 0x53100000, 0x806000FD] = .ok (.addE
    { lit := none, w := false, guard := ⟨2, true⟩, sub := 3, rm := 0, sat := true, d := ⟨.vec, 130, false, false⟩, a := ⟨.scl, 4, false, false⟩,
      b := ⟨.imm, 0, false, false⟩, c := ⟨.vec, 0, false, false⟩, xs := 0, sa := 0, sb := 0, imm8 := 253 }, 3) ∧
  decode [0x6A010106, 0xE5000001, 0x0040CFFF] = .ok (.ld
    ⟨{ lit := none, w := false, guard := ⟨7, false⟩, sub := 5, rm := 0, sat := false, d := ⟨.vec, 4, false, false⟩, a := ⟨.scl, 2, false, false⟩,
       b := ⟨.vec, 6, false, false⟩, c := ⟨.vec, 0, false, false⟩, xs := 0, sa := 0, sb := 1, imm8 := 255 }, 0, 3, 0, 15⟩, 3) ∧
  (decode [0x3FC00000]).isOk = false

/-- R43 to R66: the words of a well-formed instruction decode to it, whatever follows them. add v0, v0, v0 has no B-shape word of its own
(R67). -/
def Obligations.DecodeAfterEncode : Prop :=
  ∀ (i : Instr) (rest : List Nat), i.isCode = true → WellFormed i → i ≠ .addB ⟨false, 0, 0, 0⟩ →
    decode (encode i ++ rest) = .ok (i, (encode i).length)

/-- R43 to R66, R68: words that decode are the words of the instruction they decode to, and that instruction is well-formed: no bit of a
word is ignored. -/
def Obligations.EncodeAfterDecode : Prop :=
  ∀ (ws : List Nat) (i : Instr) (n : Nat), (∀ w ∈ ws, w < 2 ^ 32) → decode ws = .ok (i, n) →
    encode i = ws.take n ∧ n ≤ ws.length ∧ WellFormed i ∧ i.isCode = true

/-- R106, R107, R128, R68: a stream's issue runs the instruction that its group's words encode at its place, at block entry the header; words
that encode none, or none that the block allows, are the illegal instruction. R254: one that reads a result which DET holds back suspends its
group instead; R464: one that reads a register with an error is not performed (log 18: the model's reading), and the error is consumed;
R124: one whose executions have differed twice is not performed. A step of the machine runs that step. With an empty agenda the
same is done for the move that the default schedule names, a cycle later (the model's choice: log 2). -/
def Obligations.StepRunsDecodedInstruction : Prop :=
  (∀ (s : State) (c : Nat) (st : Bool) (rest : List Move) (g : Group), s.agenda = .issue c st :: rest → c < Config.cores →
    ((s.core c).stream st).group = some g →
    let t : State := { s with agenda := rest, curCore := c, curStream := st }
    (t.disproved g = true → (fetched g).isSome = true → step s = .next t) ∧ (t.disproved g = false →
    (∀ i n, g.entering = false → decode (g.code.drop g.pc) = .ok (i, n) → blockLegal g i = true →
      (s.core c).readsHeld g i = false → badLanes (s.core c) g i = [] → step s = exec i t) ∧
    (∀ i n, g.entering = false → decode (g.code.drop g.pc) = .ok (i, n) → blockLegal g i = true →
      (s.core c).readsHeld g i = true → step s = .next (t.suspend g i)) ∧
    (∀ i n, g.entering = false → decode (g.code.drop g.pc) = .ok (i, n) → blockLegal g i = true →
      (s.core c).readsHeld g i = false → badLanes (s.core c) g i ≠ [] →
      step s = .next (t.consumeRegs c (badLanes (s.core c) g i))) ∧
    (∀ i n, g.entering = false → decode (g.code.drop g.pc) = .ok (i, n) → blockLegal g i = false → step s = exec .illegalInstruction t) ∧
    (∀ e, g.entering = false → decode (g.code.drop g.pc) = .error e → step s = exec .illegalInstruction t) ∧
    (∀ cf hwm len n, g.entering = true → decode [g.headWord] = .ok (.blockHeader cf hwm len, n) → step s = exec (.blockHeader cf hwm len) t))) ∧
  (∀ (s : State) (i : Instr) (rest : List Move), s.agenda = .op i :: rest → i.isCode = false → step s = exec i { s with agenda := rest }) ∧
  ∀ s : State, s.agenda = [] → step s = runMove (autoMove s) { s with cycle := s.cycle + 1 }

/-- Every step keeps the canonical form of memory: addresses strictly rise and no entry holds what an unlisted address reads as. -/
def Obligations.MemoryStaysCanonical : Prop :=
  ∀ s t : State, s.dram.wf = true → step s = .next t → t.dram.wf = true

/-- R140, R460, R481: at reset memory is in canonical form and reads 0 (the value before bring-up is the model's choice: log 10), CYCLE
and the tolerance are 0, the device is in C0, nothing is bound, queued or cached, and bring-up has not begun. -/
def Obligations.ResetState : Prop :=
  State.reset.dram.wf = true ∧ (∀ a, State.reset.dram.read a = 0) ∧ State.reset.cycle = 0 ∧ State.reset.tolerance = 0 ∧
  State.reset.power = .c0 ∧ State.reset.boot.phase = .powered ∧ State.reset.launches = [] ∧ State.reset.lines = [] ∧
  (∀ c x, ((State.reset.core c).thread x).phase = .free ∧ ((State.reset.core c).stream false).group = none) ∧
  ∀ c, (State.reset.core c).selPol = 0 ∧ (State.reset.core c).selAge = 4096
end

