-- ==== Sys2Proof/Laws/FMap.lean ====
section
/-!
SUPPORT. Laws of sparse data: what is read after a write, and that every operation keeps the canonical form.
-/
namespace Sys2Proof

variable {α : Type}

/-! ## Reading after writing -/

theorem FMap.find_set_same (m : FMap α) (k : Nat) (v : α) : (FMap.set m k v).find k = some v := by
  induction m with
  | nil => simp [FMap.set, FMap.find]
  | cons e r ih =>
    obtain ⟨j, u⟩ := e
    unfold FMap.set
    split
    · simp [FMap.find]
    · split
      · simp [FMap.find]
      · rename_i h1 h2
        simp [FMap.find, h2, ih]

theorem FMap.find_set_other (m : FMap α) {k j : Nat} (v : α) (h : j ≠ k) : (FMap.set m k v).find j = m.find j := by
  induction m with
  | nil => simp [FMap.set, FMap.find, h.symm]
  | cons e r ih =>
    obtain ⟨i, u⟩ := e
    unfold FMap.set
    split
    · simp [FMap.find, h.symm]
    · split
      · rename_i h2; subst h2; simp [FMap.find, h.symm]
      · simp [FMap.find, ih]

theorem FMap.find_set (m : FMap α) (k j : Nat) (v : α) : (FMap.set m k v).find j = if j = k then some v else m.find j := by
  split
  · rename_i h; subst h; exact find_set_same m j v
  · rename_i h; exact find_set_other m v h

theorem FMap.get_eq_find (d : α) (m : FMap α) (k : Nat) : FMap.get d m k = (m.find k).getD d := by
  induction m with
  | nil => rfl
  | cons e r ih =>
    obtain ⟨j, u⟩ := e
    simp only [FMap.get, FMap.find]
    split <;> simp [ih]

@[simp] theorem FMap.get_set_same (d : α) (m : FMap α) (k : Nat) (v : α) : FMap.get d (m.set k v) k = v := by
  simp [get_eq_find, find_set_same]

theorem FMap.get_set_other (d : α) (m : FMap α) {k j : Nat} (v : α) (h : j ≠ k) : FMap.get d (m.set k v) j = FMap.get d m j := by
  simp [get_eq_find, find_set_other m v h]

theorem FMap.get_set (d : α) (m : FMap α) (k j : Nat) (v : α) : FMap.get d (m.set k v) j = if j = k then v else FMap.get d m j := by
  split
  · rename_i h; subst h; simp
  · rename_i h; exact get_set_other d m v h

/-- The second of two writes at one key stands. -/
@[simp] theorem FMap.set_set (m : FMap α) (k : Nat) (v w : α) : (m.set k v).set k w = m.set k w := by
  induction m with
  | nil => simp [FMap.set]
  | cons e r ih =>
    obtain ⟨j, u⟩ := e
    simp only [FMap.set]
    split
    · simp [FMap.set]
    · split
      · simp [FMap.set]
      · rename_i h1 h2
        simp [FMap.set, h1, h2, ih]

theorem FMap.erase_erase (m : FMap α) (k : Nat) : (m.erase k).erase k = m.erase k := by
  induction m with
  | nil => rfl
  | cons e r ih =>
    obtain ⟨j, u⟩ := e
    simp only [FMap.erase]
    split
    · exact ih
    · rename_i h
      simp only [FMap.erase, if_neg h, ih]

theorem FMap.put_put [DecidableEq α] (d : α) (m : FMap α) (k : Nat) (v : α) : FMap.put d (FMap.put d m k v) k v = FMap.put d m k v := by
  unfold FMap.put
  split
  · exact FMap.erase_erase m k
  · exact FMap.set_set m k v v

theorem FMap.find_erase (m : FMap α) (k j : Nat) : (m.erase k).find j = if j = k then none else m.find j := by
  induction m with
  | nil => simp [FMap.erase, FMap.find]
  | cons e r ih =>
    obtain ⟨i, u⟩ := e
    by_cases hik : i = k
    · subst hik
      simp only [FMap.erase, if_true, ih, FMap.find]
      split
      · rfl
      · rename_i h; simp [Ne.symm h]
    · simp only [FMap.erase, hik, if_false, FMap.find, ih]
      by_cases hij : i = j
      · subst hij; simp [hik]
      · simp [hij]

theorem FMap.get_erase (d : α) (m : FMap α) (k j : Nat) : FMap.get d (m.erase k) j = if j = k then d else FMap.get d m j := by
  simp only [get_eq_find, find_erase]
  split <;> rfl

theorem FMap.get_put [DecidableEq α] (d : α) (m : FMap α) (k j : Nat) (v : α) :
    FMap.get d (FMap.put d m k v) j = if j = k then v else FMap.get d m j := by
  unfold FMap.put
  split
  · rename_i h; subst h; exact get_erase v m k j
  · exact get_set d m k j v

@[simp] theorem FMap.get_put_same [DecidableEq α] (d : α) (m : FMap α) (k : Nat) (v : α) :
    FMap.get d (FMap.put d m k v) k = v := by simp [get_put]

theorem FMap.get_put_other [DecidableEq α] (d : α) (m : FMap α) {k j : Nat} (v : α) (h : j ≠ k) :
    FMap.get d (FMap.put d m k v) j = FMap.get d m j := by simp [get_put, h]

/-! ## The canonical form -/

theorem FMap.sortedFrom_mono {lo lo' : Nat} (h : lo' ≤ lo) : ∀ {m : FMap α}, FMap.sortedFrom lo m = true → FMap.sortedFrom lo' m = true
  | [], _ => rfl
  | (k, _) :: r, hs => by
    simp only [FMap.sortedFrom, Bool.and_eq_true, decide_eq_true_eq] at hs ⊢
    exact ⟨Nat.le_trans h hs.1, hs.2⟩

theorem FMap.sortedFrom_set (k : Nat) (v : α) : ∀ {lo : Nat} {m : FMap α}, lo ≤ k → FMap.sortedFrom lo m = true →
    FMap.sortedFrom lo (FMap.set m k v) = true
  | lo, [], h, _ => by simp [FMap.set, FMap.sortedFrom, h]
  | lo, (j, u) :: r, h, hs => by
    simp only [FMap.sortedFrom, Bool.and_eq_true, decide_eq_true_eq] at hs
    unfold FMap.set
    split
    · rename_i hkj
      simp only [FMap.sortedFrom, Bool.and_eq_true, decide_eq_true_eq]
      exact ⟨h, hkj, hs.2⟩
    · split
      · rename_i hjk
        subst hjk
        simp only [FMap.sortedFrom, Bool.and_eq_true, decide_eq_true_eq]
        exact hs
      · rename_i h1 h2
        simp only [FMap.sortedFrom, Bool.and_eq_true, decide_eq_true_eq]
        exact ⟨hs.1, sortedFrom_set k v (by omega) hs.2⟩

theorem FMap.sortedFrom_filter (p : Nat × α → Bool) : ∀ {lo : Nat} {m : FMap α}, FMap.sortedFrom lo m = true →
    FMap.sortedFrom lo (m.filter p) = true
  | _, [], _ => rfl
  | lo, (k, v) :: r, hs => by
    simp only [FMap.sortedFrom, Bool.and_eq_true, decide_eq_true_eq] at hs
    rw [List.filter_cons]
    split
    · simp only [FMap.sortedFrom, Bool.and_eq_true, decide_eq_true_eq]
      exact ⟨hs.1, sortedFrom_filter p hs.2⟩
    · exact sortedFrom_mono (by omega) (sortedFrom_filter p hs.2)

theorem FMap.erase_eq_filter (m : FMap α) (k : Nat) : m.erase k = m.filter fun e => e.1 ≠ k := by
  induction m with
  | nil => rfl
  | cons e r ih =>
    obtain ⟨j, u⟩ := e
    by_cases h : j = k <;> simp [FMap.erase, h, ih]

theorem FMap.sorted_set {m : FMap α} (k : Nat) (v : α) (h : m.sorted = true) : (m.set k v).sorted = true :=
  sortedFrom_set k v (Nat.zero_le _) h

theorem FMap.mem_set {m : FMap α} {k : Nat} {v : α} {e : Nat × α} (h : e ∈ FMap.set m k v) : e = (k, v) ∨ e ∈ m := by
  induction m with
  | nil => simp [FMap.set] at h; exact .inl h
  | cons a r ih =>
    obtain ⟨j, u⟩ := a
    unfold FMap.set at h
    split at h
    · rcases List.mem_cons.mp h with h | h
      · exact .inl h
      · exact .inr h
    · split at h
      · rcases List.mem_cons.mp h with h | h
        · exact .inl h
        · exact .inr (List.mem_cons_of_mem _ h)
      · rcases List.mem_cons.mp h with h | h
        · exact .inr (h ▸ List.mem_cons_self)
        · rcases ih h with h | h
          · exact .inl h
          · exact .inr (List.mem_cons_of_mem _ h)

/-- Two maps in canonical form that read alike are equal. -/
theorem FMap.ext_of_sorted {lo : Nat} : ∀ {m n : FMap α}, FMap.sortedFrom lo m = true → FMap.sortedFrom lo n = true →
    (∀ k, m.find k = n.find k) → m = n := by
  have none_below : ∀ {lo k : Nat} {m : FMap α}, FMap.sortedFrom lo m = true → k < lo → m.find k = none := by
    intro lo k m
    induction m generalizing lo with
    | nil => intro _ _; rfl
    | cons e r ih =>
      obtain ⟨j, u⟩ := e
      intro hs hk
      simp only [FMap.sortedFrom, Bool.and_eq_true, decide_eq_true_eq] at hs
      simp only [FMap.find]
      rw [if_neg (by omega)]
      exact ih hs.2 (by omega)
  intro m
  induction m generalizing lo with
  | nil =>
    intro n _ hn he
    cases n with
    | nil => rfl
    | cons e r => have := he e.1; simp [FMap.find] at this
  | cons e r ih =>
    obtain ⟨j, u⟩ := e
    intro n hm hn he
    cases n with
    | nil => have := he j; simp [FMap.find] at this
    | cons f t =>
      obtain ⟨i, w⟩ := f
      simp only [FMap.sortedFrom, Bool.and_eq_true, decide_eq_true_eq] at hm hn
      have hji : j = i := by
        rcases Nat.lt_trichotomy j i with h | h | h
        · have h1 := he j
          simp only [FMap.find, if_true] at h1
          rw [if_neg (by omega), none_below hn.2 (by omega)] at h1
          cases h1
        · exact h
        · have h1 := he i
          simp only [FMap.find, if_true] at h1
          rw [if_neg (by omega), none_below hm.2 (by omega)] at h1
          cases h1
      subst hji
      have hu : u = w := by have h1 := he j; simpa [FMap.find] using h1
      subst hu
      congr 1
      refine ih hm.2 hn.2 fun k => ?_
      by_cases hk : j = k
      · subst hk; rw [none_below hm.2 (by omega), none_below hn.2 (by omega)]
      · have h1 := he k; simpa [FMap.find, hk] using h1

variable [DecidableEq α] {d : α} {m : FMap α}

theorem FMap.wf_iff : FMap.wf d m = true ↔ m.sorted = true ∧ ∀ e ∈ m, e.2 ≠ d := by
  simp [FMap.wf]

theorem FMap.wf_filter (p : Nat × α → Bool) (h : FMap.wf d m = true) : FMap.wf d (m.filter p) = true := by
  rw [wf_iff] at h ⊢
  exact ⟨sortedFrom_filter p h.1, fun e he => h.2 e (List.mem_filter.mp he).1⟩

theorem FMap.wf_erase (k : Nat) (h : FMap.wf d m = true) : FMap.wf d (m.erase k) = true := by
  rw [erase_eq_filter]; exact wf_filter _ h

theorem FMap.wf_put (k : Nat) (v : α) (h : FMap.wf d m = true) : FMap.wf d (FMap.put d m k v) = true := by
  unfold FMap.put
  split
  · exact wf_erase k h
  · rename_i hv
    rw [wf_iff] at h ⊢
    refine ⟨sorted_set k v h.1, fun e he => ?_⟩
    rcases mem_set he with he | he
    · exact he ▸ hv
    · exact h.2 e he

theorem FMap.wf_putAll : ∀ (l : List (Nat × α)) {m : FMap α}, FMap.wf d m = true → FMap.wf d (FMap.putAll d m l) = true
  | [], _, h => h
  | (k, v) :: r, _, h => wf_putAll r (wf_put k v h)

/-! ## Memory -/

theorem Memory.read_write (m : Memory) (a b : Nat) (v : Byte) : (m.write a v).read b = if b = a then v else m.read b :=
  FMap.get_put 0 m a b v

theorem Memory.wf_write {m : Memory} (a : Nat) (v : Byte) (h : m.wf = true) : (m.write a v).wf = true := FMap.wf_put a v h

theorem Memory.wf_writeBytes : ∀ (l : List Byte) {m : Memory} (a : Nat), m.wf = true → (m.writeBytes a l).wf = true
  | [], _, _, h => h
  | b :: r, _, a, h => wf_writeBytes r (a + 1) (wf_write a b h)

theorem Memory.wf_writeNat {m : Memory} (a n v : Nat) (h : m.wf = true) : (m.writeNat a n v).wf = true := wf_writeBytes _ a h

theorem Memory.wf_clear {m : Memory} (a n : Nat) (h : m.wf = true) : (m.clear a n).wf = true := FMap.wf_filter _ h

theorem Memory.wf_slice {m : Memory} (a n : Nat) (h : m.wf = true) : (m.slice a n).wf = true := FMap.wf_filter _ h

theorem Memory.wf_nil : Memory.wf [] = true := rfl

/-- A byte after a run of bytes is written: the run's, or what was there. -/
theorem Memory.read_writeBytes (l : List Byte) : ∀ (m : Memory) (a b : Nat),
    (m.writeBytes a l).read b = if a ≤ b ∧ b < a + l.length then l.getD (b - a) 0 else m.read b := by
  induction l with
  | nil => intro m a b; simp [Memory.writeBytes] <;> omega
  | cons x r ih =>
    intro m a b
    simp only [Memory.writeBytes, ih, Memory.read_write, List.length_cons]
    by_cases h : b = a
    · subst h; simp <;> omega
    · by_cases h2 : a + 1 ≤ b ∧ b < a + 1 + r.length
      · rw [if_pos h2, if_pos (by omega)]
        obtain ⟨n, hn⟩ : ∃ n, b - a = n + 1 := ⟨b - a - 1, by omega⟩
        rw [hn, show b - (a + 1) = n by omega]; simp
      · rw [if_neg h2, if_neg h, if_neg (by omega)]

theorem leBytes_length (v n : Nat) : (leBytes v n).length = n := by
  induction n generalizing v with
  | zero => rfl
  | succ n ih => simp [leBytes, ih]

/-- The number in the bytes of a number. -/
theorem leNat_leBytes (n : Nat) : ∀ v : Nat, leNat (leBytes v n) = v % 2 ^ (8 * n) := by
  induction n with
  | zero => intro v; simp [leBytes, leNat, Nat.mod_one]
  | succ n ih =>
    intro v
    simp only [leBytes, leNat, ih, BitVec.toNat_ofNat]
    rw [show 8 * (n + 1) = 8 + 8 * n by omega, Nat.pow_add, Nat.mod_mul]

theorem Memory.readBytes_getD (m : Memory) (a n i : Nat) (h : i < n) : (m.readBytes a n).getD i 0 = m.read (a + i) := by
  induction n generalizing a i with
  | zero => omega
  | succ n ih =>
    cases i with
    | zero => simp [Memory.readBytes]
    | succ i =>
      simp only [Memory.readBytes, List.getD_cons_succ]
      rw [ih (a + 1) i (by omega)]; congr 1; omega

end Sys2Proof
end

