-- ==== Sys2Proof/Laws/State.lean ====
section
/-!
SUPPORT. The state after each update, one lemma for each field, and what the accessors read after an update.
-/
namespace Sys2Proof.Machine

/-! ## State -/

@[simp] theorem State.setCore_agenda (s : State) (c : Nat) (k : Core) : (s.setCore c k).agenda = s.agenda := rfl
@[simp] theorem State.setCore_curCore (s : State) (c : Nat) (k : Core) : (s.setCore c k).curCore = s.curCore := rfl
@[simp] theorem State.setCore_curStream (s : State) (c : Nat) (k : Core) : (s.setCore c k).curStream = s.curStream := rfl
@[simp] theorem State.setCore_ctr (s : State) (c : Nat) (k : Core) : (s.setCore c k).ctr = s.ctr := rfl
@[simp] theorem State.setCore_freeCtr (s : State) (c : Nat) (k : Core) : (s.setCore c k).freeCtr = s.freeCtr := rfl
@[simp] theorem State.setCore_stamp (s : State) (c : Nat) (k : Core) : (s.setCore c k).stamp = s.stamp := rfl
@[simp] theorem State.setCore_cycle (s : State) (c : Nat) (k : Core) : (s.setCore c k).cycle = s.cycle := rfl
@[simp] theorem State.setCore_clusters (s : State) (c : Nat) (k : Core) : (s.setCore c k).clusters = s.clusters := rfl
@[simp] theorem State.setCore_lanes (s : State) (c : Nat) (k : Core) : (s.setCore c k).lanes = s.lanes := rfl
@[simp] theorem State.setCore_lines (s : State) (c : Nat) (k : Core) : (s.setCore c k).lines = s.lines := rfl
@[simp] theorem State.setCore_owners (s : State) (c : Nat) (k : Core) : (s.setCore c k).owners = s.owners := rfl
@[simp] theorem State.setCore_dram (s : State) (c : Nat) (k : Core) : (s.setCore c k).dram = s.dram := rfl
@[simp] theorem State.setCore_poisoned (s : State) (c : Nat) (k : Core) : (s.setCore c k).poisoned = s.poisoned := rfl
@[simp] theorem State.setCore_tags (s : State) (c : Nat) (k : Core) : (s.setCore c k).tags = s.tags := rfl
@[simp] theorem State.setCore_flips (s : State) (c : Nat) (k : Core) : (s.setCore c k).flips = s.flips := rfl
@[simp] theorem State.setCore_asidt (s : State) (c : Nat) (k : Core) : (s.setCore c k).asidt = s.asidt := rfl
@[simp] theorem State.setCore_groot (s : State) (c : Nat) (k : Core) : (s.setCore c k).groot = s.groot := rfl
@[simp] theorem State.setCore_farmap (s : State) (c : Nat) (k : Core) : (s.setCore c k).farmap = s.farmap := rfl
@[simp] theorem State.setCore_migdrop (s : State) (c : Nat) (k : Core) : (s.setCore c k).migdrop = s.migdrop := rfl
@[simp] theorem State.setCore_orphan (s : State) (c : Nat) (k : Core) : (s.setCore c k).orphan = s.orphan := rfl
@[simp] theorem State.setCore_ecc (s : State) (c : Nat) (k : Core) : (s.setCore c k).ecc = s.ecc := rfl
@[simp] theorem State.setCore_tlb (s : State) (c : Nat) (k : Core) : (s.setCore c k).tlb = s.tlb := rfl
@[simp] theorem State.setCore_walks (s : State) (c : Nat) (k : Core) : (s.setCore c k).walks = s.walks := rfl
@[simp] theorem State.setCore_blocked (s : State) (c : Nat) (k : Core) : (s.setCore c k).blocked = s.blocked := rfl
@[simp] theorem State.setCore_absent (s : State) (c : Nat) (k : Core) : (s.setCore c k).absent = s.absent := rfl
@[simp] theorem State.setCore_heat (s : State) (c : Nat) (k : Core) : (s.setCore c k).heat = s.heat := rfl
@[simp] theorem State.setCore_migQ (s : State) (c : Nat) (k : Core) : (s.setCore c k).migQ = s.migQ := rfl
@[simp] theorem State.setCore_migrating (s : State) (c : Nat) (k : Core) : (s.setCore c k).migrating = s.migrating := rfl
@[simp] theorem State.setCore_farReads (s : State) (c : Nat) (k : Core) : (s.setCore c k).farReads = s.farReads := rfl
@[simp] theorem State.setCore_farWrites (s : State) (c : Nat) (k : Core) : (s.setCore c k).farWrites = s.farWrites := rfl
@[simp] theorem State.setCore_lost (s : State) (c : Nat) (k : Core) : (s.setCore c k).lost = s.lost := rfl
@[simp] theorem State.setCore_launches (s : State) (c : Nat) (k : Core) : (s.setCore c k).launches = s.launches := rfl
@[simp] theorem State.setCore_blockQ (s : State) (c : Nat) (k : Core) : (s.setCore c k).blockQ = s.blockQ := rfl
@[simp] theorem State.setCore_nextLid (s : State) (c : Nat) (k : Core) : (s.setCore c k).nextLid = s.nextLid := rfl
@[simp] theorem State.setCore_queues (s : State) (c : Nat) (k : Core) : (s.setCore c k).queues = s.queues := rfl
@[simp] theorem State.setCore_gcrs (s : State) (c : Nat) (k : Core) : (s.setCore c k).gcrs = s.gcrs := rfl
@[simp] theorem State.setCore_bars (s : State) (c : Nat) (k : Core) : (s.setCore c k).bars = s.bars := rfl
@[simp] theorem State.setCore_faultQ (s : State) (c : Nat) (k : Core) : (s.setCore c k).faultQ = s.faultQ := rfl
@[simp] theorem State.setCore_contain (s : State) (c : Nat) (k : Core) : (s.setCore c k).contain = s.contain := rfl
@[simp] theorem State.setCore_trips (s : State) (c : Nat) (k : Core) : (s.setCore c k).trips = s.trips := rfl
@[simp] theorem State.setCore_out (s : State) (c : Nat) (k : Core) : (s.setCore c k).out = s.out := rfl
@[simp] theorem State.setCore_sessions (s : State) (c : Nat) (k : Core) : (s.setCore c k).sessions = s.sessions := rfl
@[simp] theorem State.setCore_flows (s : State) (c : Nat) (k : Core) : (s.setCore c k).flows = s.flows := rfl
@[simp] theorem State.setCore_peers (s : State) (c : Nat) (k : Core) : (s.setCore c k).peers = s.peers := rfl
@[simp] theorem State.setCore_operators (s : State) (c : Nat) (k : Core) : (s.setCore c k).operators = s.operators := rfl
@[simp] theorem State.setCore_recorder (s : State) (c : Nat) (k : Core) : (s.setCore c k).recorder = s.recorder := rfl
@[simp] theorem State.setCore_power (s : State) (c : Nat) (k : Core) : (s.setCore c k).power = s.power := rfl
@[simp] theorem State.setCore_tolerance (s : State) (c : Nat) (k : Core) : (s.setCore c k).tolerance = s.tolerance := rfl
@[simp] theorem State.setCore_idleSince (s : State) (c : Nat) (k : Core) : (s.setCore c k).idleSince = s.idleSince := rfl
@[simp] theorem State.setCore_portErrors (s : State) (c : Nat) (k : Core) : (s.setCore c k).portErrors = s.portErrors := rfl
@[simp] theorem State.setCore_boot (s : State) (c : Nat) (k : Core) : (s.setCore c k).boot = s.boot := rfl
@[simp] theorem State.setCore_mgmt (s : State) (c : Nat) (k : Core) : (s.setCore c k).mgmt = s.mgmt := rfl

@[simp] theorem State.updCore_agenda (s : State) (c : Nat) (f : Core → Core) : (s.updCore c f).agenda = s.agenda := rfl
@[simp] theorem State.updCore_curCore (s : State) (c : Nat) (f : Core → Core) : (s.updCore c f).curCore = s.curCore := rfl
@[simp] theorem State.updCore_curStream (s : State) (c : Nat) (f : Core → Core) : (s.updCore c f).curStream = s.curStream := rfl
@[simp] theorem State.updCore_ctr (s : State) (c : Nat) (f : Core → Core) : (s.updCore c f).ctr = s.ctr := rfl
@[simp] theorem State.updCore_freeCtr (s : State) (c : Nat) (f : Core → Core) : (s.updCore c f).freeCtr = s.freeCtr := rfl
@[simp] theorem State.updCore_stamp (s : State) (c : Nat) (f : Core → Core) : (s.updCore c f).stamp = s.stamp := rfl
@[simp] theorem State.updCore_cycle (s : State) (c : Nat) (f : Core → Core) : (s.updCore c f).cycle = s.cycle := rfl
@[simp] theorem State.updCore_clusters (s : State) (c : Nat) (f : Core → Core) : (s.updCore c f).clusters = s.clusters := rfl
@[simp] theorem State.updCore_lanes (s : State) (c : Nat) (f : Core → Core) : (s.updCore c f).lanes = s.lanes := rfl
@[simp] theorem State.updCore_lines (s : State) (c : Nat) (f : Core → Core) : (s.updCore c f).lines = s.lines := rfl
@[simp] theorem State.updCore_owners (s : State) (c : Nat) (f : Core → Core) : (s.updCore c f).owners = s.owners := rfl
@[simp] theorem State.updCore_dram (s : State) (c : Nat) (f : Core → Core) : (s.updCore c f).dram = s.dram := rfl
@[simp] theorem State.updCore_poisoned (s : State) (c : Nat) (f : Core → Core) : (s.updCore c f).poisoned = s.poisoned := rfl
@[simp] theorem State.updCore_tags (s : State) (c : Nat) (f : Core → Core) : (s.updCore c f).tags = s.tags := rfl
@[simp] theorem State.updCore_flips (s : State) (c : Nat) (f : Core → Core) : (s.updCore c f).flips = s.flips := rfl
@[simp] theorem State.updCore_asidt (s : State) (c : Nat) (f : Core → Core) : (s.updCore c f).asidt = s.asidt := rfl
@[simp] theorem State.updCore_groot (s : State) (c : Nat) (f : Core → Core) : (s.updCore c f).groot = s.groot := rfl
@[simp] theorem State.updCore_farmap (s : State) (c : Nat) (f : Core → Core) : (s.updCore c f).farmap = s.farmap := rfl
@[simp] theorem State.updCore_migdrop (s : State) (c : Nat) (f : Core → Core) : (s.updCore c f).migdrop = s.migdrop := rfl
@[simp] theorem State.updCore_orphan (s : State) (c : Nat) (f : Core → Core) : (s.updCore c f).orphan = s.orphan := rfl
@[simp] theorem State.updCore_ecc (s : State) (c : Nat) (f : Core → Core) : (s.updCore c f).ecc = s.ecc := rfl
@[simp] theorem State.updCore_tlb (s : State) (c : Nat) (f : Core → Core) : (s.updCore c f).tlb = s.tlb := rfl
@[simp] theorem State.updCore_walks (s : State) (c : Nat) (f : Core → Core) : (s.updCore c f).walks = s.walks := rfl
@[simp] theorem State.updCore_blocked (s : State) (c : Nat) (f : Core → Core) : (s.updCore c f).blocked = s.blocked := rfl
@[simp] theorem State.updCore_absent (s : State) (c : Nat) (f : Core → Core) : (s.updCore c f).absent = s.absent := rfl
@[simp] theorem State.updCore_heat (s : State) (c : Nat) (f : Core → Core) : (s.updCore c f).heat = s.heat := rfl
@[simp] theorem State.updCore_migQ (s : State) (c : Nat) (f : Core → Core) : (s.updCore c f).migQ = s.migQ := rfl
@[simp] theorem State.updCore_migrating (s : State) (c : Nat) (f : Core → Core) : (s.updCore c f).migrating = s.migrating := rfl
@[simp] theorem State.updCore_farReads (s : State) (c : Nat) (f : Core → Core) : (s.updCore c f).farReads = s.farReads := rfl
@[simp] theorem State.updCore_farWrites (s : State) (c : Nat) (f : Core → Core) : (s.updCore c f).farWrites = s.farWrites := rfl
@[simp] theorem State.updCore_lost (s : State) (c : Nat) (f : Core → Core) : (s.updCore c f).lost = s.lost := rfl
@[simp] theorem State.updCore_launches (s : State) (c : Nat) (f : Core → Core) : (s.updCore c f).launches = s.launches := rfl
@[simp] theorem State.updCore_blockQ (s : State) (c : Nat) (f : Core → Core) : (s.updCore c f).blockQ = s.blockQ := rfl
@[simp] theorem State.updCore_nextLid (s : State) (c : Nat) (f : Core → Core) : (s.updCore c f).nextLid = s.nextLid := rfl
@[simp] theorem State.updCore_queues (s : State) (c : Nat) (f : Core → Core) : (s.updCore c f).queues = s.queues := rfl
@[simp] theorem State.updCore_gcrs (s : State) (c : Nat) (f : Core → Core) : (s.updCore c f).gcrs = s.gcrs := rfl
@[simp] theorem State.updCore_bars (s : State) (c : Nat) (f : Core → Core) : (s.updCore c f).bars = s.bars := rfl
@[simp] theorem State.updCore_faultQ (s : State) (c : Nat) (f : Core → Core) : (s.updCore c f).faultQ = s.faultQ := rfl
@[simp] theorem State.updCore_contain (s : State) (c : Nat) (f : Core → Core) : (s.updCore c f).contain = s.contain := rfl
@[simp] theorem State.updCore_trips (s : State) (c : Nat) (f : Core → Core) : (s.updCore c f).trips = s.trips := rfl
@[simp] theorem State.updCore_out (s : State) (c : Nat) (f : Core → Core) : (s.updCore c f).out = s.out := rfl
@[simp] theorem State.updCore_sessions (s : State) (c : Nat) (f : Core → Core) : (s.updCore c f).sessions = s.sessions := rfl
@[simp] theorem State.updCore_flows (s : State) (c : Nat) (f : Core → Core) : (s.updCore c f).flows = s.flows := rfl
@[simp] theorem State.updCore_peers (s : State) (c : Nat) (f : Core → Core) : (s.updCore c f).peers = s.peers := rfl
@[simp] theorem State.updCore_operators (s : State) (c : Nat) (f : Core → Core) : (s.updCore c f).operators = s.operators := rfl
@[simp] theorem State.updCore_recorder (s : State) (c : Nat) (f : Core → Core) : (s.updCore c f).recorder = s.recorder := rfl
@[simp] theorem State.updCore_power (s : State) (c : Nat) (f : Core → Core) : (s.updCore c f).power = s.power := rfl
@[simp] theorem State.updCore_tolerance (s : State) (c : Nat) (f : Core → Core) : (s.updCore c f).tolerance = s.tolerance := rfl
@[simp] theorem State.updCore_idleSince (s : State) (c : Nat) (f : Core → Core) : (s.updCore c f).idleSince = s.idleSince := rfl
@[simp] theorem State.updCore_portErrors (s : State) (c : Nat) (f : Core → Core) : (s.updCore c f).portErrors = s.portErrors := rfl
@[simp] theorem State.updCore_boot (s : State) (c : Nat) (f : Core → Core) : (s.updCore c f).boot = s.boot := rfl
@[simp] theorem State.updCore_mgmt (s : State) (c : Nat) (f : Core → Core) : (s.updCore c f).mgmt = s.mgmt := rfl

@[simp] theorem State.updCluster_agenda (s : State) (q : Nat) (f : Cluster → Cluster) : (s.updCluster q f).agenda = s.agenda := rfl
@[simp] theorem State.updCluster_curCore (s : State) (q : Nat) (f : Cluster → Cluster) : (s.updCluster q f).curCore = s.curCore := rfl
@[simp] theorem State.updCluster_curStream (s : State) (q : Nat) (f : Cluster → Cluster) : (s.updCluster q f).curStream = s.curStream := rfl
@[simp] theorem State.updCluster_ctr (s : State) (q : Nat) (f : Cluster → Cluster) : (s.updCluster q f).ctr = s.ctr := rfl
@[simp] theorem State.updCluster_freeCtr (s : State) (q : Nat) (f : Cluster → Cluster) : (s.updCluster q f).freeCtr = s.freeCtr := rfl
@[simp] theorem State.updCluster_stamp (s : State) (q : Nat) (f : Cluster → Cluster) : (s.updCluster q f).stamp = s.stamp := rfl
@[simp] theorem State.updCluster_cycle (s : State) (q : Nat) (f : Cluster → Cluster) : (s.updCluster q f).cycle = s.cycle := rfl
@[simp] theorem State.updCluster_cores (s : State) (q : Nat) (f : Cluster → Cluster) : (s.updCluster q f).cores = s.cores := rfl
@[simp] theorem State.updCluster_lanes (s : State) (q : Nat) (f : Cluster → Cluster) : (s.updCluster q f).lanes = s.lanes := rfl
@[simp] theorem State.updCluster_lines (s : State) (q : Nat) (f : Cluster → Cluster) : (s.updCluster q f).lines = s.lines := rfl
@[simp] theorem State.updCluster_owners (s : State) (q : Nat) (f : Cluster → Cluster) : (s.updCluster q f).owners = s.owners := rfl
@[simp] theorem State.updCluster_dram (s : State) (q : Nat) (f : Cluster → Cluster) : (s.updCluster q f).dram = s.dram := rfl
@[simp] theorem State.updCluster_poisoned (s : State) (q : Nat) (f : Cluster → Cluster) : (s.updCluster q f).poisoned = s.poisoned := rfl
@[simp] theorem State.updCluster_tags (s : State) (q : Nat) (f : Cluster → Cluster) : (s.updCluster q f).tags = s.tags := rfl
@[simp] theorem State.updCluster_flips (s : State) (q : Nat) (f : Cluster → Cluster) : (s.updCluster q f).flips = s.flips := rfl
@[simp] theorem State.updCluster_asidt (s : State) (q : Nat) (f : Cluster → Cluster) : (s.updCluster q f).asidt = s.asidt := rfl
@[simp] theorem State.updCluster_groot (s : State) (q : Nat) (f : Cluster → Cluster) : (s.updCluster q f).groot = s.groot := rfl
@[simp] theorem State.updCluster_farmap (s : State) (q : Nat) (f : Cluster → Cluster) : (s.updCluster q f).farmap = s.farmap := rfl
@[simp] theorem State.updCluster_migdrop (s : State) (q : Nat) (f : Cluster → Cluster) : (s.updCluster q f).migdrop = s.migdrop := rfl
@[simp] theorem State.updCluster_orphan (s : State) (q : Nat) (f : Cluster → Cluster) : (s.updCluster q f).orphan = s.orphan := rfl
@[simp] theorem State.updCluster_ecc (s : State) (q : Nat) (f : Cluster → Cluster) : (s.updCluster q f).ecc = s.ecc := rfl
@[simp] theorem State.updCluster_tlb (s : State) (q : Nat) (f : Cluster → Cluster) : (s.updCluster q f).tlb = s.tlb := rfl
@[simp] theorem State.updCluster_walks (s : State) (q : Nat) (f : Cluster → Cluster) : (s.updCluster q f).walks = s.walks := rfl
@[simp] theorem State.updCluster_blocked (s : State) (q : Nat) (f : Cluster → Cluster) : (s.updCluster q f).blocked = s.blocked := rfl
@[simp] theorem State.updCluster_absent (s : State) (q : Nat) (f : Cluster → Cluster) : (s.updCluster q f).absent = s.absent := rfl
@[simp] theorem State.updCluster_heat (s : State) (q : Nat) (f : Cluster → Cluster) : (s.updCluster q f).heat = s.heat := rfl
@[simp] theorem State.updCluster_migQ (s : State) (q : Nat) (f : Cluster → Cluster) : (s.updCluster q f).migQ = s.migQ := rfl
@[simp] theorem State.updCluster_migrating (s : State) (q : Nat) (f : Cluster → Cluster) : (s.updCluster q f).migrating = s.migrating := rfl
@[simp] theorem State.updCluster_farReads (s : State) (q : Nat) (f : Cluster → Cluster) : (s.updCluster q f).farReads = s.farReads := rfl
@[simp] theorem State.updCluster_farWrites (s : State) (q : Nat) (f : Cluster → Cluster) : (s.updCluster q f).farWrites = s.farWrites := rfl
@[simp] theorem State.updCluster_lost (s : State) (q : Nat) (f : Cluster → Cluster) : (s.updCluster q f).lost = s.lost := rfl
@[simp] theorem State.updCluster_launches (s : State) (q : Nat) (f : Cluster → Cluster) : (s.updCluster q f).launches = s.launches := rfl
@[simp] theorem State.updCluster_blockQ (s : State) (q : Nat) (f : Cluster → Cluster) : (s.updCluster q f).blockQ = s.blockQ := rfl
@[simp] theorem State.updCluster_nextLid (s : State) (q : Nat) (f : Cluster → Cluster) : (s.updCluster q f).nextLid = s.nextLid := rfl
@[simp] theorem State.updCluster_queues (s : State) (q : Nat) (f : Cluster → Cluster) : (s.updCluster q f).queues = s.queues := rfl
@[simp] theorem State.updCluster_gcrs (s : State) (q : Nat) (f : Cluster → Cluster) : (s.updCluster q f).gcrs = s.gcrs := rfl
@[simp] theorem State.updCluster_bars (s : State) (q : Nat) (f : Cluster → Cluster) : (s.updCluster q f).bars = s.bars := rfl
@[simp] theorem State.updCluster_faultQ (s : State) (q : Nat) (f : Cluster → Cluster) : (s.updCluster q f).faultQ = s.faultQ := rfl
@[simp] theorem State.updCluster_contain (s : State) (q : Nat) (f : Cluster → Cluster) : (s.updCluster q f).contain = s.contain := rfl
@[simp] theorem State.updCluster_trips (s : State) (q : Nat) (f : Cluster → Cluster) : (s.updCluster q f).trips = s.trips := rfl
@[simp] theorem State.updCluster_out (s : State) (q : Nat) (f : Cluster → Cluster) : (s.updCluster q f).out = s.out := rfl
@[simp] theorem State.updCluster_sessions (s : State) (q : Nat) (f : Cluster → Cluster) : (s.updCluster q f).sessions = s.sessions := rfl
@[simp] theorem State.updCluster_flows (s : State) (q : Nat) (f : Cluster → Cluster) : (s.updCluster q f).flows = s.flows := rfl
@[simp] theorem State.updCluster_peers (s : State) (q : Nat) (f : Cluster → Cluster) : (s.updCluster q f).peers = s.peers := rfl
@[simp] theorem State.updCluster_operators (s : State) (q : Nat) (f : Cluster → Cluster) : (s.updCluster q f).operators = s.operators := rfl
@[simp] theorem State.updCluster_recorder (s : State) (q : Nat) (f : Cluster → Cluster) : (s.updCluster q f).recorder = s.recorder := rfl
@[simp] theorem State.updCluster_power (s : State) (q : Nat) (f : Cluster → Cluster) : (s.updCluster q f).power = s.power := rfl
@[simp] theorem State.updCluster_tolerance (s : State) (q : Nat) (f : Cluster → Cluster) : (s.updCluster q f).tolerance = s.tolerance := rfl
@[simp] theorem State.updCluster_idleSince (s : State) (q : Nat) (f : Cluster → Cluster) : (s.updCluster q f).idleSince = s.idleSince := rfl
@[simp] theorem State.updCluster_portErrors (s : State) (q : Nat) (f : Cluster → Cluster) : (s.updCluster q f).portErrors = s.portErrors := rfl
@[simp] theorem State.updCluster_boot (s : State) (q : Nat) (f : Cluster → Cluster) : (s.updCluster q f).boot = s.boot := rfl
@[simp] theorem State.updCluster_mgmt (s : State) (q : Nat) (f : Cluster → Cluster) : (s.updCluster q f).mgmt = s.mgmt := rfl

@[simp] theorem State.setCurGroup_agenda (s : State) (g : Group) : (s.setCurGroup g).agenda = s.agenda := rfl
@[simp] theorem State.setCurGroup_curCore (s : State) (g : Group) : (s.setCurGroup g).curCore = s.curCore := rfl
@[simp] theorem State.setCurGroup_curStream (s : State) (g : Group) : (s.setCurGroup g).curStream = s.curStream := rfl
@[simp] theorem State.setCurGroup_ctr (s : State) (g : Group) : (s.setCurGroup g).ctr = s.ctr := rfl
@[simp] theorem State.setCurGroup_freeCtr (s : State) (g : Group) : (s.setCurGroup g).freeCtr = s.freeCtr := rfl
@[simp] theorem State.setCurGroup_stamp (s : State) (g : Group) : (s.setCurGroup g).stamp = s.stamp := rfl
@[simp] theorem State.setCurGroup_cycle (s : State) (g : Group) : (s.setCurGroup g).cycle = s.cycle := rfl
@[simp] theorem State.setCurGroup_clusters (s : State) (g : Group) : (s.setCurGroup g).clusters = s.clusters := rfl
@[simp] theorem State.setCurGroup_lanes (s : State) (g : Group) : (s.setCurGroup g).lanes = s.lanes := rfl
@[simp] theorem State.setCurGroup_lines (s : State) (g : Group) : (s.setCurGroup g).lines = s.lines := rfl
@[simp] theorem State.setCurGroup_owners (s : State) (g : Group) : (s.setCurGroup g).owners = s.owners := rfl
@[simp] theorem State.setCurGroup_dram (s : State) (g : Group) : (s.setCurGroup g).dram = s.dram := rfl
@[simp] theorem State.setCurGroup_poisoned (s : State) (g : Group) : (s.setCurGroup g).poisoned = s.poisoned := rfl
@[simp] theorem State.setCurGroup_tags (s : State) (g : Group) : (s.setCurGroup g).tags = s.tags := rfl
@[simp] theorem State.setCurGroup_flips (s : State) (g : Group) : (s.setCurGroup g).flips = s.flips := rfl
@[simp] theorem State.setCurGroup_asidt (s : State) (g : Group) : (s.setCurGroup g).asidt = s.asidt := rfl
@[simp] theorem State.setCurGroup_groot (s : State) (g : Group) : (s.setCurGroup g).groot = s.groot := rfl
@[simp] theorem State.setCurGroup_farmap (s : State) (g : Group) : (s.setCurGroup g).farmap = s.farmap := rfl
@[simp] theorem State.setCurGroup_migdrop (s : State) (g : Group) : (s.setCurGroup g).migdrop = s.migdrop := rfl
@[simp] theorem State.setCurGroup_orphan (s : State) (g : Group) : (s.setCurGroup g).orphan = s.orphan := rfl
@[simp] theorem State.setCurGroup_ecc (s : State) (g : Group) : (s.setCurGroup g).ecc = s.ecc := rfl
@[simp] theorem State.setCurGroup_tlb (s : State) (g : Group) : (s.setCurGroup g).tlb = s.tlb := rfl
@[simp] theorem State.setCurGroup_walks (s : State) (g : Group) : (s.setCurGroup g).walks = s.walks := rfl
@[simp] theorem State.setCurGroup_blocked (s : State) (g : Group) : (s.setCurGroup g).blocked = s.blocked := rfl
@[simp] theorem State.setCurGroup_absent (s : State) (g : Group) : (s.setCurGroup g).absent = s.absent := rfl
@[simp] theorem State.setCurGroup_heat (s : State) (g : Group) : (s.setCurGroup g).heat = s.heat := rfl
@[simp] theorem State.setCurGroup_migQ (s : State) (g : Group) : (s.setCurGroup g).migQ = s.migQ := rfl
@[simp] theorem State.setCurGroup_migrating (s : State) (g : Group) : (s.setCurGroup g).migrating = s.migrating := rfl
@[simp] theorem State.setCurGroup_farReads (s : State) (g : Group) : (s.setCurGroup g).farReads = s.farReads := rfl
@[simp] theorem State.setCurGroup_farWrites (s : State) (g : Group) : (s.setCurGroup g).farWrites = s.farWrites := rfl
@[simp] theorem State.setCurGroup_lost (s : State) (g : Group) : (s.setCurGroup g).lost = s.lost := rfl
@[simp] theorem State.setCurGroup_launches (s : State) (g : Group) : (s.setCurGroup g).launches = s.launches := rfl
@[simp] theorem State.setCurGroup_blockQ (s : State) (g : Group) : (s.setCurGroup g).blockQ = s.blockQ := rfl
@[simp] theorem State.setCurGroup_nextLid (s : State) (g : Group) : (s.setCurGroup g).nextLid = s.nextLid := rfl
@[simp] theorem State.setCurGroup_queues (s : State) (g : Group) : (s.setCurGroup g).queues = s.queues := rfl
@[simp] theorem State.setCurGroup_gcrs (s : State) (g : Group) : (s.setCurGroup g).gcrs = s.gcrs := rfl
@[simp] theorem State.setCurGroup_bars (s : State) (g : Group) : (s.setCurGroup g).bars = s.bars := rfl
@[simp] theorem State.setCurGroup_faultQ (s : State) (g : Group) : (s.setCurGroup g).faultQ = s.faultQ := rfl
@[simp] theorem State.setCurGroup_contain (s : State) (g : Group) : (s.setCurGroup g).contain = s.contain := rfl
@[simp] theorem State.setCurGroup_trips (s : State) (g : Group) : (s.setCurGroup g).trips = s.trips := rfl
@[simp] theorem State.setCurGroup_out (s : State) (g : Group) : (s.setCurGroup g).out = s.out := rfl
@[simp] theorem State.setCurGroup_sessions (s : State) (g : Group) : (s.setCurGroup g).sessions = s.sessions := rfl
@[simp] theorem State.setCurGroup_flows (s : State) (g : Group) : (s.setCurGroup g).flows = s.flows := rfl
@[simp] theorem State.setCurGroup_peers (s : State) (g : Group) : (s.setCurGroup g).peers = s.peers := rfl
@[simp] theorem State.setCurGroup_operators (s : State) (g : Group) : (s.setCurGroup g).operators = s.operators := rfl
@[simp] theorem State.setCurGroup_recorder (s : State) (g : Group) : (s.setCurGroup g).recorder = s.recorder := rfl
@[simp] theorem State.setCurGroup_power (s : State) (g : Group) : (s.setCurGroup g).power = s.power := rfl
@[simp] theorem State.setCurGroup_tolerance (s : State) (g : Group) : (s.setCurGroup g).tolerance = s.tolerance := rfl
@[simp] theorem State.setCurGroup_idleSince (s : State) (g : Group) : (s.setCurGroup g).idleSince = s.idleSince := rfl
@[simp] theorem State.setCurGroup_portErrors (s : State) (g : Group) : (s.setCurGroup g).portErrors = s.portErrors := rfl
@[simp] theorem State.setCurGroup_boot (s : State) (g : Group) : (s.setCurGroup g).boot = s.boot := rfl
@[simp] theorem State.setCurGroup_mgmt (s : State) (g : Group) : (s.setCurGroup g).mgmt = s.mgmt := rfl

@[simp] theorem State.updCur_agenda (s : State) (f : Core → Core) : (s.updCur f).agenda = s.agenda := rfl
@[simp] theorem State.updCur_curCore (s : State) (f : Core → Core) : (s.updCur f).curCore = s.curCore := rfl
@[simp] theorem State.updCur_curStream (s : State) (f : Core → Core) : (s.updCur f).curStream = s.curStream := rfl
@[simp] theorem State.updCur_ctr (s : State) (f : Core → Core) : (s.updCur f).ctr = s.ctr := rfl
@[simp] theorem State.updCur_freeCtr (s : State) (f : Core → Core) : (s.updCur f).freeCtr = s.freeCtr := rfl
@[simp] theorem State.updCur_stamp (s : State) (f : Core → Core) : (s.updCur f).stamp = s.stamp := rfl
@[simp] theorem State.updCur_cycle (s : State) (f : Core → Core) : (s.updCur f).cycle = s.cycle := rfl
@[simp] theorem State.updCur_clusters (s : State) (f : Core → Core) : (s.updCur f).clusters = s.clusters := rfl
@[simp] theorem State.updCur_lanes (s : State) (f : Core → Core) : (s.updCur f).lanes = s.lanes := rfl
@[simp] theorem State.updCur_lines (s : State) (f : Core → Core) : (s.updCur f).lines = s.lines := rfl
@[simp] theorem State.updCur_owners (s : State) (f : Core → Core) : (s.updCur f).owners = s.owners := rfl
@[simp] theorem State.updCur_dram (s : State) (f : Core → Core) : (s.updCur f).dram = s.dram := rfl
@[simp] theorem State.updCur_poisoned (s : State) (f : Core → Core) : (s.updCur f).poisoned = s.poisoned := rfl
@[simp] theorem State.updCur_tags (s : State) (f : Core → Core) : (s.updCur f).tags = s.tags := rfl
@[simp] theorem State.updCur_flips (s : State) (f : Core → Core) : (s.updCur f).flips = s.flips := rfl
@[simp] theorem State.updCur_asidt (s : State) (f : Core → Core) : (s.updCur f).asidt = s.asidt := rfl
@[simp] theorem State.updCur_groot (s : State) (f : Core → Core) : (s.updCur f).groot = s.groot := rfl
@[simp] theorem State.updCur_farmap (s : State) (f : Core → Core) : (s.updCur f).farmap = s.farmap := rfl
@[simp] theorem State.updCur_migdrop (s : State) (f : Core → Core) : (s.updCur f).migdrop = s.migdrop := rfl
@[simp] theorem State.updCur_orphan (s : State) (f : Core → Core) : (s.updCur f).orphan = s.orphan := rfl
@[simp] theorem State.updCur_ecc (s : State) (f : Core → Core) : (s.updCur f).ecc = s.ecc := rfl
@[simp] theorem State.updCur_tlb (s : State) (f : Core → Core) : (s.updCur f).tlb = s.tlb := rfl
@[simp] theorem State.updCur_walks (s : State) (f : Core → Core) : (s.updCur f).walks = s.walks := rfl
@[simp] theorem State.updCur_blocked (s : State) (f : Core → Core) : (s.updCur f).blocked = s.blocked := rfl
@[simp] theorem State.updCur_absent (s : State) (f : Core → Core) : (s.updCur f).absent = s.absent := rfl
@[simp] theorem State.updCur_heat (s : State) (f : Core → Core) : (s.updCur f).heat = s.heat := rfl
@[simp] theorem State.updCur_migQ (s : State) (f : Core → Core) : (s.updCur f).migQ = s.migQ := rfl
@[simp] theorem State.updCur_migrating (s : State) (f : Core → Core) : (s.updCur f).migrating = s.migrating := rfl
@[simp] theorem State.updCur_farReads (s : State) (f : Core → Core) : (s.updCur f).farReads = s.farReads := rfl
@[simp] theorem State.updCur_farWrites (s : State) (f : Core → Core) : (s.updCur f).farWrites = s.farWrites := rfl
@[simp] theorem State.updCur_lost (s : State) (f : Core → Core) : (s.updCur f).lost = s.lost := rfl
@[simp] theorem State.updCur_launches (s : State) (f : Core → Core) : (s.updCur f).launches = s.launches := rfl
@[simp] theorem State.updCur_blockQ (s : State) (f : Core → Core) : (s.updCur f).blockQ = s.blockQ := rfl
@[simp] theorem State.updCur_nextLid (s : State) (f : Core → Core) : (s.updCur f).nextLid = s.nextLid := rfl
@[simp] theorem State.updCur_queues (s : State) (f : Core → Core) : (s.updCur f).queues = s.queues := rfl
@[simp] theorem State.updCur_gcrs (s : State) (f : Core → Core) : (s.updCur f).gcrs = s.gcrs := rfl
@[simp] theorem State.updCur_bars (s : State) (f : Core → Core) : (s.updCur f).bars = s.bars := rfl
@[simp] theorem State.updCur_faultQ (s : State) (f : Core → Core) : (s.updCur f).faultQ = s.faultQ := rfl
@[simp] theorem State.updCur_contain (s : State) (f : Core → Core) : (s.updCur f).contain = s.contain := rfl
@[simp] theorem State.updCur_trips (s : State) (f : Core → Core) : (s.updCur f).trips = s.trips := rfl
@[simp] theorem State.updCur_out (s : State) (f : Core → Core) : (s.updCur f).out = s.out := rfl
@[simp] theorem State.updCur_sessions (s : State) (f : Core → Core) : (s.updCur f).sessions = s.sessions := rfl
@[simp] theorem State.updCur_flows (s : State) (f : Core → Core) : (s.updCur f).flows = s.flows := rfl
@[simp] theorem State.updCur_peers (s : State) (f : Core → Core) : (s.updCur f).peers = s.peers := rfl
@[simp] theorem State.updCur_operators (s : State) (f : Core → Core) : (s.updCur f).operators = s.operators := rfl
@[simp] theorem State.updCur_recorder (s : State) (f : Core → Core) : (s.updCur f).recorder = s.recorder := rfl
@[simp] theorem State.updCur_power (s : State) (f : Core → Core) : (s.updCur f).power = s.power := rfl
@[simp] theorem State.updCur_tolerance (s : State) (f : Core → Core) : (s.updCur f).tolerance = s.tolerance := rfl
@[simp] theorem State.updCur_idleSince (s : State) (f : Core → Core) : (s.updCur f).idleSince = s.idleSince := rfl
@[simp] theorem State.updCur_portErrors (s : State) (f : Core → Core) : (s.updCur f).portErrors = s.portErrors := rfl
@[simp] theorem State.updCur_boot (s : State) (f : Core → Core) : (s.updCur f).boot = s.boot := rfl
@[simp] theorem State.updCur_mgmt (s : State) (f : Core → Core) : (s.updCur f).mgmt = s.mgmt := rfl

@[simp] theorem State.bump_agenda (s : State) : (s.bump).agenda = s.agenda := rfl
@[simp] theorem State.bump_curCore (s : State) : (s.bump).curCore = s.curCore := rfl
@[simp] theorem State.bump_curStream (s : State) : (s.bump).curStream = s.curStream := rfl
@[simp] theorem State.bump_freeCtr (s : State) : (s.bump).freeCtr = s.freeCtr := rfl
@[simp] theorem State.bump_stamp (s : State) : (s.bump).stamp = s.stamp := rfl
@[simp] theorem State.bump_cycle (s : State) : (s.bump).cycle = s.cycle := rfl
@[simp] theorem State.bump_cores (s : State) : (s.bump).cores = s.cores := rfl
@[simp] theorem State.bump_clusters (s : State) : (s.bump).clusters = s.clusters := rfl
@[simp] theorem State.bump_lanes (s : State) : (s.bump).lanes = s.lanes := rfl
@[simp] theorem State.bump_lines (s : State) : (s.bump).lines = s.lines := rfl
@[simp] theorem State.bump_owners (s : State) : (s.bump).owners = s.owners := rfl
@[simp] theorem State.bump_dram (s : State) : (s.bump).dram = s.dram := rfl
@[simp] theorem State.bump_poisoned (s : State) : (s.bump).poisoned = s.poisoned := rfl
@[simp] theorem State.bump_tags (s : State) : (s.bump).tags = s.tags := rfl
@[simp] theorem State.bump_flips (s : State) : (s.bump).flips = s.flips := rfl
@[simp] theorem State.bump_asidt (s : State) : (s.bump).asidt = s.asidt := rfl
@[simp] theorem State.bump_groot (s : State) : (s.bump).groot = s.groot := rfl
@[simp] theorem State.bump_farmap (s : State) : (s.bump).farmap = s.farmap := rfl
@[simp] theorem State.bump_migdrop (s : State) : (s.bump).migdrop = s.migdrop := rfl
@[simp] theorem State.bump_orphan (s : State) : (s.bump).orphan = s.orphan := rfl
@[simp] theorem State.bump_ecc (s : State) : (s.bump).ecc = s.ecc := rfl
@[simp] theorem State.bump_tlb (s : State) : (s.bump).tlb = s.tlb := rfl
@[simp] theorem State.bump_walks (s : State) : (s.bump).walks = s.walks := rfl
@[simp] theorem State.bump_blocked (s : State) : (s.bump).blocked = s.blocked := rfl
@[simp] theorem State.bump_absent (s : State) : (s.bump).absent = s.absent := rfl
@[simp] theorem State.bump_heat (s : State) : (s.bump).heat = s.heat := rfl
@[simp] theorem State.bump_migQ (s : State) : (s.bump).migQ = s.migQ := rfl
@[simp] theorem State.bump_migrating (s : State) : (s.bump).migrating = s.migrating := rfl
@[simp] theorem State.bump_farReads (s : State) : (s.bump).farReads = s.farReads := rfl
@[simp] theorem State.bump_farWrites (s : State) : (s.bump).farWrites = s.farWrites := rfl
@[simp] theorem State.bump_lost (s : State) : (s.bump).lost = s.lost := rfl
@[simp] theorem State.bump_launches (s : State) : (s.bump).launches = s.launches := rfl
@[simp] theorem State.bump_blockQ (s : State) : (s.bump).blockQ = s.blockQ := rfl
@[simp] theorem State.bump_nextLid (s : State) : (s.bump).nextLid = s.nextLid := rfl
@[simp] theorem State.bump_queues (s : State) : (s.bump).queues = s.queues := rfl
@[simp] theorem State.bump_gcrs (s : State) : (s.bump).gcrs = s.gcrs := rfl
@[simp] theorem State.bump_bars (s : State) : (s.bump).bars = s.bars := rfl
@[simp] theorem State.bump_faultQ (s : State) : (s.bump).faultQ = s.faultQ := rfl
@[simp] theorem State.bump_contain (s : State) : (s.bump).contain = s.contain := rfl
@[simp] theorem State.bump_trips (s : State) : (s.bump).trips = s.trips := rfl
@[simp] theorem State.bump_out (s : State) : (s.bump).out = s.out := rfl
@[simp] theorem State.bump_sessions (s : State) : (s.bump).sessions = s.sessions := rfl
@[simp] theorem State.bump_flows (s : State) : (s.bump).flows = s.flows := rfl
@[simp] theorem State.bump_peers (s : State) : (s.bump).peers = s.peers := rfl
@[simp] theorem State.bump_operators (s : State) : (s.bump).operators = s.operators := rfl
@[simp] theorem State.bump_recorder (s : State) : (s.bump).recorder = s.recorder := rfl
@[simp] theorem State.bump_power (s : State) : (s.bump).power = s.power := rfl
@[simp] theorem State.bump_tolerance (s : State) : (s.bump).tolerance = s.tolerance := rfl
@[simp] theorem State.bump_idleSince (s : State) : (s.bump).idleSince = s.idleSince := rfl
@[simp] theorem State.bump_portErrors (s : State) : (s.bump).portErrors = s.portErrors := rfl
@[simp] theorem State.bump_boot (s : State) : (s.bump).boot = s.boot := rfl
@[simp] theorem State.bump_mgmt (s : State) : (s.bump).mgmt = s.mgmt := rfl

@[simp] theorem State.bumpFree_agenda (s : State) : (s.bumpFree).agenda = s.agenda := rfl
@[simp] theorem State.bumpFree_curCore (s : State) : (s.bumpFree).curCore = s.curCore := rfl
@[simp] theorem State.bumpFree_curStream (s : State) : (s.bumpFree).curStream = s.curStream := rfl
@[simp] theorem State.bumpFree_ctr (s : State) : (s.bumpFree).ctr = s.ctr := rfl
@[simp] theorem State.bumpFree_stamp (s : State) : (s.bumpFree).stamp = s.stamp := rfl
@[simp] theorem State.bumpFree_cycle (s : State) : (s.bumpFree).cycle = s.cycle := rfl
@[simp] theorem State.bumpFree_cores (s : State) : (s.bumpFree).cores = s.cores := rfl
@[simp] theorem State.bumpFree_clusters (s : State) : (s.bumpFree).clusters = s.clusters := rfl
@[simp] theorem State.bumpFree_lanes (s : State) : (s.bumpFree).lanes = s.lanes := rfl
@[simp] theorem State.bumpFree_lines (s : State) : (s.bumpFree).lines = s.lines := rfl
@[simp] theorem State.bumpFree_owners (s : State) : (s.bumpFree).owners = s.owners := rfl
@[simp] theorem State.bumpFree_dram (s : State) : (s.bumpFree).dram = s.dram := rfl
@[simp] theorem State.bumpFree_poisoned (s : State) : (s.bumpFree).poisoned = s.poisoned := rfl
@[simp] theorem State.bumpFree_tags (s : State) : (s.bumpFree).tags = s.tags := rfl
@[simp] theorem State.bumpFree_flips (s : State) : (s.bumpFree).flips = s.flips := rfl
@[simp] theorem State.bumpFree_asidt (s : State) : (s.bumpFree).asidt = s.asidt := rfl
@[simp] theorem State.bumpFree_groot (s : State) : (s.bumpFree).groot = s.groot := rfl
@[simp] theorem State.bumpFree_farmap (s : State) : (s.bumpFree).farmap = s.farmap := rfl
@[simp] theorem State.bumpFree_migdrop (s : State) : (s.bumpFree).migdrop = s.migdrop := rfl
@[simp] theorem State.bumpFree_orphan (s : State) : (s.bumpFree).orphan = s.orphan := rfl
@[simp] theorem State.bumpFree_ecc (s : State) : (s.bumpFree).ecc = s.ecc := rfl
@[simp] theorem State.bumpFree_tlb (s : State) : (s.bumpFree).tlb = s.tlb := rfl
@[simp] theorem State.bumpFree_walks (s : State) : (s.bumpFree).walks = s.walks := rfl
@[simp] theorem State.bumpFree_blocked (s : State) : (s.bumpFree).blocked = s.blocked := rfl
@[simp] theorem State.bumpFree_absent (s : State) : (s.bumpFree).absent = s.absent := rfl
@[simp] theorem State.bumpFree_heat (s : State) : (s.bumpFree).heat = s.heat := rfl
@[simp] theorem State.bumpFree_migQ (s : State) : (s.bumpFree).migQ = s.migQ := rfl
@[simp] theorem State.bumpFree_migrating (s : State) : (s.bumpFree).migrating = s.migrating := rfl
@[simp] theorem State.bumpFree_farReads (s : State) : (s.bumpFree).farReads = s.farReads := rfl
@[simp] theorem State.bumpFree_farWrites (s : State) : (s.bumpFree).farWrites = s.farWrites := rfl
@[simp] theorem State.bumpFree_lost (s : State) : (s.bumpFree).lost = s.lost := rfl
@[simp] theorem State.bumpFree_launches (s : State) : (s.bumpFree).launches = s.launches := rfl
@[simp] theorem State.bumpFree_blockQ (s : State) : (s.bumpFree).blockQ = s.blockQ := rfl
@[simp] theorem State.bumpFree_nextLid (s : State) : (s.bumpFree).nextLid = s.nextLid := rfl
@[simp] theorem State.bumpFree_queues (s : State) : (s.bumpFree).queues = s.queues := rfl
@[simp] theorem State.bumpFree_gcrs (s : State) : (s.bumpFree).gcrs = s.gcrs := rfl
@[simp] theorem State.bumpFree_bars (s : State) : (s.bumpFree).bars = s.bars := rfl
@[simp] theorem State.bumpFree_faultQ (s : State) : (s.bumpFree).faultQ = s.faultQ := rfl
@[simp] theorem State.bumpFree_contain (s : State) : (s.bumpFree).contain = s.contain := rfl
@[simp] theorem State.bumpFree_trips (s : State) : (s.bumpFree).trips = s.trips := rfl
@[simp] theorem State.bumpFree_out (s : State) : (s.bumpFree).out = s.out := rfl
@[simp] theorem State.bumpFree_sessions (s : State) : (s.bumpFree).sessions = s.sessions := rfl
@[simp] theorem State.bumpFree_flows (s : State) : (s.bumpFree).flows = s.flows := rfl
@[simp] theorem State.bumpFree_peers (s : State) : (s.bumpFree).peers = s.peers := rfl
@[simp] theorem State.bumpFree_operators (s : State) : (s.bumpFree).operators = s.operators := rfl
@[simp] theorem State.bumpFree_recorder (s : State) : (s.bumpFree).recorder = s.recorder := rfl
@[simp] theorem State.bumpFree_power (s : State) : (s.bumpFree).power = s.power := rfl
@[simp] theorem State.bumpFree_tolerance (s : State) : (s.bumpFree).tolerance = s.tolerance := rfl
@[simp] theorem State.bumpFree_idleSince (s : State) : (s.bumpFree).idleSince = s.idleSince := rfl
@[simp] theorem State.bumpFree_portErrors (s : State) : (s.bumpFree).portErrors = s.portErrors := rfl
@[simp] theorem State.bumpFree_boot (s : State) : (s.bumpFree).boot = s.boot := rfl
@[simp] theorem State.bumpFree_mgmt (s : State) : (s.bumpFree).mgmt = s.mgmt := rfl

/-! ## Core -/

@[simp] theorem Core.setThread_rows (k : Core) (x : Nat) (t : Thread) : (k.setThread x t).rows = k.rows := rfl
@[simp] theorem Core.setThread_crews (k : Core) (x : Nat) (t : Thread) : (k.setThread x t).crews = k.crews := rfl
@[simp] theorem Core.setThread_binds (k : Core) (x : Nat) (t : Thread) : (k.setThread x t).binds = k.binds := rfl
@[simp] theorem Core.setThread_bins (k : Core) (x : Nat) (t : Thread) : (k.setThread x t).bins = k.bins := rfl
@[simp] theorem Core.setThread_claimQ (k : Core) (x : Nat) (t : Thread) : (k.setThread x t).claimQ = k.claimQ := rfl
@[simp] theorem Core.setThread_selPol (k : Core) (x : Nat) (t : Thread) : (k.setThread x t).selPol = k.selPol := rfl
@[simp] theorem Core.setThread_selAge (k : Core) (x : Nat) (t : Thread) : (k.setThread x t).selAge = k.selAge := rfl
@[simp] theorem Core.setThread_stream0 (k : Core) (x : Nat) (t : Thread) : (k.setThread x t).stream0 = k.stream0 := rfl
@[simp] theorem Core.setThread_stream1 (k : Core) (x : Nat) (t : Thread) : (k.setThread x t).stream1 = k.stream1 := rfl
@[simp] theorem Core.setThread_suspended (k : Core) (x : Nat) (t : Thread) : (k.setThread x t).suspended = k.suspended := rfl
@[simp] theorem Core.setThread_psets (k : Core) (x : Nat) (t : Thread) : (k.setThread x t).psets = k.psets := rfl
@[simp] theorem Core.setThread_sob (k : Core) (x : Nat) (t : Thread) : (k.setThread x t).sob = k.sob := rfl
@[simp] theorem Core.setThread_lq (k : Core) (x : Nat) (t : Thread) : (k.setThread x t).lq = k.lq := rfl
@[simp] theorem Core.setThread_results (k : Core) (x : Nat) (t : Thread) : (k.setThread x t).results = k.results := rfl
@[simp] theorem Core.setThread_dab (k : Core) (x : Nat) (t : Thread) : (k.setThread x t).dab = k.dab := rfl
@[simp] theorem Core.setThread_v1 (k : Core) (x : Nat) (t : Thread) : (k.setThread x t).v1 = k.v1 := rfl
@[simp] theorem Core.setThread_e1 (k : Core) (x : Nat) (t : Thread) : (k.setThread x t).e1 = k.e1 := rfl
@[simp] theorem Core.setThread_xlat (k : Core) (x : Nat) (t : Thread) : (k.setThread x t).xlat = k.xlat := rfl
@[simp] theorem Core.setThread_scratch (k : Core) (x : Nat) (t : Thread) : (k.setThread x t).scratch = k.scratch := rfl
@[simp] theorem Core.setThread_badScratch (k : Core) (x : Nat) (t : Thread) : (k.setThread x t).badScratch = k.badScratch := rfl
@[simp] theorem Core.setThread_acc (k : Core) (x : Nat) (t : Thread) : (k.setThread x t).acc = k.acc := rfl
@[simp] theorem Core.setThread_badAcc (k : Core) (x : Nat) (t : Thread) : (k.setThread x t).badAcc = k.badAcc := rfl
@[simp] theorem Core.setThread_ledger (k : Core) (x : Nat) (t : Thread) : (k.setThread x t).ledger = k.ledger := rfl
@[simp] theorem Core.setThread_colLfsr (k : Core) (x : Nat) (t : Thread) : (k.setThread x t).colLfsr = k.colLfsr := rfl
@[simp] theorem Core.setThread_holder (k : Core) (x : Nat) (t : Thread) : (k.setThread x t).holder = k.holder := rfl
@[simp] theorem Core.setThread_mxe (k : Core) (x : Nat) (t : Thread) : (k.setThread x t).mxe = k.mxe := rfl
@[simp] theorem Core.setThread_copy (k : Core) (x : Nat) (t : Thread) : (k.setThread x t).copy = k.copy := rfl
@[simp] theorem Core.setThread_icache (k : Core) (x : Nat) (t : Thread) : (k.setThread x t).icache = k.icache := rfl

@[simp] theorem Core.updThread_rows (k : Core) (x : Nat) (f : Thread → Thread) : (k.updThread x f).rows = k.rows := rfl
@[simp] theorem Core.updThread_crews (k : Core) (x : Nat) (f : Thread → Thread) : (k.updThread x f).crews = k.crews := rfl
@[simp] theorem Core.updThread_binds (k : Core) (x : Nat) (f : Thread → Thread) : (k.updThread x f).binds = k.binds := rfl
@[simp] theorem Core.updThread_bins (k : Core) (x : Nat) (f : Thread → Thread) : (k.updThread x f).bins = k.bins := rfl
@[simp] theorem Core.updThread_claimQ (k : Core) (x : Nat) (f : Thread → Thread) : (k.updThread x f).claimQ = k.claimQ := rfl
@[simp] theorem Core.updThread_selPol (k : Core) (x : Nat) (f : Thread → Thread) : (k.updThread x f).selPol = k.selPol := rfl
@[simp] theorem Core.updThread_selAge (k : Core) (x : Nat) (f : Thread → Thread) : (k.updThread x f).selAge = k.selAge := rfl
@[simp] theorem Core.updThread_stream0 (k : Core) (x : Nat) (f : Thread → Thread) : (k.updThread x f).stream0 = k.stream0 := rfl
@[simp] theorem Core.updThread_stream1 (k : Core) (x : Nat) (f : Thread → Thread) : (k.updThread x f).stream1 = k.stream1 := rfl
@[simp] theorem Core.updThread_suspended (k : Core) (x : Nat) (f : Thread → Thread) : (k.updThread x f).suspended = k.suspended := rfl
@[simp] theorem Core.updThread_psets (k : Core) (x : Nat) (f : Thread → Thread) : (k.updThread x f).psets = k.psets := rfl
@[simp] theorem Core.updThread_sob (k : Core) (x : Nat) (f : Thread → Thread) : (k.updThread x f).sob = k.sob := rfl
@[simp] theorem Core.updThread_lq (k : Core) (x : Nat) (f : Thread → Thread) : (k.updThread x f).lq = k.lq := rfl
@[simp] theorem Core.updThread_results (k : Core) (x : Nat) (f : Thread → Thread) : (k.updThread x f).results = k.results := rfl
@[simp] theorem Core.updThread_dab (k : Core) (x : Nat) (f : Thread → Thread) : (k.updThread x f).dab = k.dab := rfl
@[simp] theorem Core.updThread_v1 (k : Core) (x : Nat) (f : Thread → Thread) : (k.updThread x f).v1 = k.v1 := rfl
@[simp] theorem Core.updThread_e1 (k : Core) (x : Nat) (f : Thread → Thread) : (k.updThread x f).e1 = k.e1 := rfl
@[simp] theorem Core.updThread_xlat (k : Core) (x : Nat) (f : Thread → Thread) : (k.updThread x f).xlat = k.xlat := rfl
@[simp] theorem Core.updThread_scratch (k : Core) (x : Nat) (f : Thread → Thread) : (k.updThread x f).scratch = k.scratch := rfl
@[simp] theorem Core.updThread_badScratch (k : Core) (x : Nat) (f : Thread → Thread) : (k.updThread x f).badScratch = k.badScratch := rfl
@[simp] theorem Core.updThread_acc (k : Core) (x : Nat) (f : Thread → Thread) : (k.updThread x f).acc = k.acc := rfl
@[simp] theorem Core.updThread_badAcc (k : Core) (x : Nat) (f : Thread → Thread) : (k.updThread x f).badAcc = k.badAcc := rfl
@[simp] theorem Core.updThread_ledger (k : Core) (x : Nat) (f : Thread → Thread) : (k.updThread x f).ledger = k.ledger := rfl
@[simp] theorem Core.updThread_colLfsr (k : Core) (x : Nat) (f : Thread → Thread) : (k.updThread x f).colLfsr = k.colLfsr := rfl
@[simp] theorem Core.updThread_holder (k : Core) (x : Nat) (f : Thread → Thread) : (k.updThread x f).holder = k.holder := rfl
@[simp] theorem Core.updThread_mxe (k : Core) (x : Nat) (f : Thread → Thread) : (k.updThread x f).mxe = k.mxe := rfl
@[simp] theorem Core.updThread_copy (k : Core) (x : Nat) (f : Thread → Thread) : (k.updThread x f).copy = k.copy := rfl
@[simp] theorem Core.updThread_icache (k : Core) (x : Nat) (f : Thread → Thread) : (k.updThread x f).icache = k.icache := rfl

@[simp] theorem Core.mapThreads_rows (k : Core) (l : List Nat) (f : Nat → Thread → Thread) : (k.mapThreads l f).rows = k.rows := rfl
@[simp] theorem Core.mapThreads_crews (k : Core) (l : List Nat) (f : Nat → Thread → Thread) : (k.mapThreads l f).crews = k.crews := rfl
@[simp] theorem Core.mapThreads_binds (k : Core) (l : List Nat) (f : Nat → Thread → Thread) : (k.mapThreads l f).binds = k.binds := rfl
@[simp] theorem Core.mapThreads_bins (k : Core) (l : List Nat) (f : Nat → Thread → Thread) : (k.mapThreads l f).bins = k.bins := rfl
@[simp] theorem Core.mapThreads_claimQ (k : Core) (l : List Nat) (f : Nat → Thread → Thread) : (k.mapThreads l f).claimQ = k.claimQ := rfl
@[simp] theorem Core.mapThreads_selPol (k : Core) (l : List Nat) (f : Nat → Thread → Thread) : (k.mapThreads l f).selPol = k.selPol := rfl
@[simp] theorem Core.mapThreads_selAge (k : Core) (l : List Nat) (f : Nat → Thread → Thread) : (k.mapThreads l f).selAge = k.selAge := rfl
@[simp] theorem Core.mapThreads_stream0 (k : Core) (l : List Nat) (f : Nat → Thread → Thread) : (k.mapThreads l f).stream0 = k.stream0 := rfl
@[simp] theorem Core.mapThreads_stream1 (k : Core) (l : List Nat) (f : Nat → Thread → Thread) : (k.mapThreads l f).stream1 = k.stream1 := rfl
@[simp] theorem Core.mapThreads_suspended (k : Core) (l : List Nat) (f : Nat → Thread → Thread) : (k.mapThreads l f).suspended = k.suspended := rfl
@[simp] theorem Core.mapThreads_psets (k : Core) (l : List Nat) (f : Nat → Thread → Thread) : (k.mapThreads l f).psets = k.psets := rfl
@[simp] theorem Core.mapThreads_sob (k : Core) (l : List Nat) (f : Nat → Thread → Thread) : (k.mapThreads l f).sob = k.sob := rfl
@[simp] theorem Core.mapThreads_lq (k : Core) (l : List Nat) (f : Nat → Thread → Thread) : (k.mapThreads l f).lq = k.lq := rfl
@[simp] theorem Core.mapThreads_results (k : Core) (l : List Nat) (f : Nat → Thread → Thread) : (k.mapThreads l f).results = k.results := rfl
@[simp] theorem Core.mapThreads_dab (k : Core) (l : List Nat) (f : Nat → Thread → Thread) : (k.mapThreads l f).dab = k.dab := rfl
@[simp] theorem Core.mapThreads_v1 (k : Core) (l : List Nat) (f : Nat → Thread → Thread) : (k.mapThreads l f).v1 = k.v1 := rfl
@[simp] theorem Core.mapThreads_e1 (k : Core) (l : List Nat) (f : Nat → Thread → Thread) : (k.mapThreads l f).e1 = k.e1 := rfl
@[simp] theorem Core.mapThreads_xlat (k : Core) (l : List Nat) (f : Nat → Thread → Thread) : (k.mapThreads l f).xlat = k.xlat := rfl
@[simp] theorem Core.mapThreads_scratch (k : Core) (l : List Nat) (f : Nat → Thread → Thread) : (k.mapThreads l f).scratch = k.scratch := rfl
@[simp] theorem Core.mapThreads_badScratch (k : Core) (l : List Nat) (f : Nat → Thread → Thread) : (k.mapThreads l f).badScratch = k.badScratch := rfl
@[simp] theorem Core.mapThreads_acc (k : Core) (l : List Nat) (f : Nat → Thread → Thread) : (k.mapThreads l f).acc = k.acc := rfl
@[simp] theorem Core.mapThreads_badAcc (k : Core) (l : List Nat) (f : Nat → Thread → Thread) : (k.mapThreads l f).badAcc = k.badAcc := rfl
@[simp] theorem Core.mapThreads_ledger (k : Core) (l : List Nat) (f : Nat → Thread → Thread) : (k.mapThreads l f).ledger = k.ledger := rfl
@[simp] theorem Core.mapThreads_colLfsr (k : Core) (l : List Nat) (f : Nat → Thread → Thread) : (k.mapThreads l f).colLfsr = k.colLfsr := rfl
@[simp] theorem Core.mapThreads_holder (k : Core) (l : List Nat) (f : Nat → Thread → Thread) : (k.mapThreads l f).holder = k.holder := rfl
@[simp] theorem Core.mapThreads_mxe (k : Core) (l : List Nat) (f : Nat → Thread → Thread) : (k.mapThreads l f).mxe = k.mxe := rfl
@[simp] theorem Core.mapThreads_copy (k : Core) (l : List Nat) (f : Nat → Thread → Thread) : (k.mapThreads l f).copy = k.copy := rfl
@[simp] theorem Core.mapThreads_icache (k : Core) (l : List Nat) (f : Nat → Thread → Thread) : (k.mapThreads l f).icache = k.icache := rfl

@[simp] theorem Core.updRow_threads (k : Core) (r : Nat) (f : Row → Row) : (k.updRow r f).threads = k.threads := rfl
@[simp] theorem Core.updRow_crews (k : Core) (r : Nat) (f : Row → Row) : (k.updRow r f).crews = k.crews := rfl
@[simp] theorem Core.updRow_binds (k : Core) (r : Nat) (f : Row → Row) : (k.updRow r f).binds = k.binds := rfl
@[simp] theorem Core.updRow_bins (k : Core) (r : Nat) (f : Row → Row) : (k.updRow r f).bins = k.bins := rfl
@[simp] theorem Core.updRow_claimQ (k : Core) (r : Nat) (f : Row → Row) : (k.updRow r f).claimQ = k.claimQ := rfl
@[simp] theorem Core.updRow_selPol (k : Core) (r : Nat) (f : Row → Row) : (k.updRow r f).selPol = k.selPol := rfl
@[simp] theorem Core.updRow_selAge (k : Core) (r : Nat) (f : Row → Row) : (k.updRow r f).selAge = k.selAge := rfl
@[simp] theorem Core.updRow_stream0 (k : Core) (r : Nat) (f : Row → Row) : (k.updRow r f).stream0 = k.stream0 := rfl
@[simp] theorem Core.updRow_stream1 (k : Core) (r : Nat) (f : Row → Row) : (k.updRow r f).stream1 = k.stream1 := rfl
@[simp] theorem Core.updRow_suspended (k : Core) (r : Nat) (f : Row → Row) : (k.updRow r f).suspended = k.suspended := rfl
@[simp] theorem Core.updRow_psets (k : Core) (r : Nat) (f : Row → Row) : (k.updRow r f).psets = k.psets := rfl
@[simp] theorem Core.updRow_sob (k : Core) (r : Nat) (f : Row → Row) : (k.updRow r f).sob = k.sob := rfl
@[simp] theorem Core.updRow_lq (k : Core) (r : Nat) (f : Row → Row) : (k.updRow r f).lq = k.lq := rfl
@[simp] theorem Core.updRow_results (k : Core) (r : Nat) (f : Row → Row) : (k.updRow r f).results = k.results := rfl
@[simp] theorem Core.updRow_dab (k : Core) (r : Nat) (f : Row → Row) : (k.updRow r f).dab = k.dab := rfl
@[simp] theorem Core.updRow_v1 (k : Core) (r : Nat) (f : Row → Row) : (k.updRow r f).v1 = k.v1 := rfl
@[simp] theorem Core.updRow_e1 (k : Core) (r : Nat) (f : Row → Row) : (k.updRow r f).e1 = k.e1 := rfl
@[simp] theorem Core.updRow_xlat (k : Core) (r : Nat) (f : Row → Row) : (k.updRow r f).xlat = k.xlat := rfl
@[simp] theorem Core.updRow_scratch (k : Core) (r : Nat) (f : Row → Row) : (k.updRow r f).scratch = k.scratch := rfl
@[simp] theorem Core.updRow_badScratch (k : Core) (r : Nat) (f : Row → Row) : (k.updRow r f).badScratch = k.badScratch := rfl
@[simp] theorem Core.updRow_acc (k : Core) (r : Nat) (f : Row → Row) : (k.updRow r f).acc = k.acc := rfl
@[simp] theorem Core.updRow_badAcc (k : Core) (r : Nat) (f : Row → Row) : (k.updRow r f).badAcc = k.badAcc := rfl
@[simp] theorem Core.updRow_ledger (k : Core) (r : Nat) (f : Row → Row) : (k.updRow r f).ledger = k.ledger := rfl
@[simp] theorem Core.updRow_colLfsr (k : Core) (r : Nat) (f : Row → Row) : (k.updRow r f).colLfsr = k.colLfsr := rfl
@[simp] theorem Core.updRow_holder (k : Core) (r : Nat) (f : Row → Row) : (k.updRow r f).holder = k.holder := rfl
@[simp] theorem Core.updRow_mxe (k : Core) (r : Nat) (f : Row → Row) : (k.updRow r f).mxe = k.mxe := rfl
@[simp] theorem Core.updRow_copy (k : Core) (r : Nat) (f : Row → Row) : (k.updRow r f).copy = k.copy := rfl
@[simp] theorem Core.updRow_icache (k : Core) (r : Nat) (f : Row → Row) : (k.updRow r f).icache = k.icache := rfl

@[simp] theorem Core.mapRows_threads (k : Core) (l : List Nat) (f : Nat → Row → Row) : (k.mapRows l f).threads = k.threads := rfl
@[simp] theorem Core.mapRows_crews (k : Core) (l : List Nat) (f : Nat → Row → Row) : (k.mapRows l f).crews = k.crews := rfl
@[simp] theorem Core.mapRows_binds (k : Core) (l : List Nat) (f : Nat → Row → Row) : (k.mapRows l f).binds = k.binds := rfl
@[simp] theorem Core.mapRows_bins (k : Core) (l : List Nat) (f : Nat → Row → Row) : (k.mapRows l f).bins = k.bins := rfl
@[simp] theorem Core.mapRows_claimQ (k : Core) (l : List Nat) (f : Nat → Row → Row) : (k.mapRows l f).claimQ = k.claimQ := rfl
@[simp] theorem Core.mapRows_selPol (k : Core) (l : List Nat) (f : Nat → Row → Row) : (k.mapRows l f).selPol = k.selPol := rfl
@[simp] theorem Core.mapRows_selAge (k : Core) (l : List Nat) (f : Nat → Row → Row) : (k.mapRows l f).selAge = k.selAge := rfl
@[simp] theorem Core.mapRows_stream0 (k : Core) (l : List Nat) (f : Nat → Row → Row) : (k.mapRows l f).stream0 = k.stream0 := rfl
@[simp] theorem Core.mapRows_stream1 (k : Core) (l : List Nat) (f : Nat → Row → Row) : (k.mapRows l f).stream1 = k.stream1 := rfl
@[simp] theorem Core.mapRows_suspended (k : Core) (l : List Nat) (f : Nat → Row → Row) : (k.mapRows l f).suspended = k.suspended := rfl
@[simp] theorem Core.mapRows_psets (k : Core) (l : List Nat) (f : Nat → Row → Row) : (k.mapRows l f).psets = k.psets := rfl
@[simp] theorem Core.mapRows_sob (k : Core) (l : List Nat) (f : Nat → Row → Row) : (k.mapRows l f).sob = k.sob := rfl
@[simp] theorem Core.mapRows_lq (k : Core) (l : List Nat) (f : Nat → Row → Row) : (k.mapRows l f).lq = k.lq := rfl
@[simp] theorem Core.mapRows_results (k : Core) (l : List Nat) (f : Nat → Row → Row) : (k.mapRows l f).results = k.results := rfl
@[simp] theorem Core.mapRows_dab (k : Core) (l : List Nat) (f : Nat → Row → Row) : (k.mapRows l f).dab = k.dab := rfl
@[simp] theorem Core.mapRows_v1 (k : Core) (l : List Nat) (f : Nat → Row → Row) : (k.mapRows l f).v1 = k.v1 := rfl
@[simp] theorem Core.mapRows_e1 (k : Core) (l : List Nat) (f : Nat → Row → Row) : (k.mapRows l f).e1 = k.e1 := rfl
@[simp] theorem Core.mapRows_xlat (k : Core) (l : List Nat) (f : Nat → Row → Row) : (k.mapRows l f).xlat = k.xlat := rfl
@[simp] theorem Core.mapRows_scratch (k : Core) (l : List Nat) (f : Nat → Row → Row) : (k.mapRows l f).scratch = k.scratch := rfl
@[simp] theorem Core.mapRows_badScratch (k : Core) (l : List Nat) (f : Nat → Row → Row) : (k.mapRows l f).badScratch = k.badScratch := rfl
@[simp] theorem Core.mapRows_acc (k : Core) (l : List Nat) (f : Nat → Row → Row) : (k.mapRows l f).acc = k.acc := rfl
@[simp] theorem Core.mapRows_badAcc (k : Core) (l : List Nat) (f : Nat → Row → Row) : (k.mapRows l f).badAcc = k.badAcc := rfl
@[simp] theorem Core.mapRows_ledger (k : Core) (l : List Nat) (f : Nat → Row → Row) : (k.mapRows l f).ledger = k.ledger := rfl
@[simp] theorem Core.mapRows_colLfsr (k : Core) (l : List Nat) (f : Nat → Row → Row) : (k.mapRows l f).colLfsr = k.colLfsr := rfl
@[simp] theorem Core.mapRows_holder (k : Core) (l : List Nat) (f : Nat → Row → Row) : (k.mapRows l f).holder = k.holder := rfl
@[simp] theorem Core.mapRows_mxe (k : Core) (l : List Nat) (f : Nat → Row → Row) : (k.mapRows l f).mxe = k.mxe := rfl
@[simp] theorem Core.mapRows_copy (k : Core) (l : List Nat) (f : Nat → Row → Row) : (k.mapRows l f).copy = k.copy := rfl
@[simp] theorem Core.mapRows_icache (k : Core) (l : List Nat) (f : Nat → Row → Row) : (k.mapRows l f).icache = k.icache := rfl

@[simp] theorem Core.updCrew_threads (k : Core) (b : Nat) (f : Crew → Crew) : (k.updCrew b f).threads = k.threads := rfl
@[simp] theorem Core.updCrew_rows (k : Core) (b : Nat) (f : Crew → Crew) : (k.updCrew b f).rows = k.rows := rfl
@[simp] theorem Core.updCrew_binds (k : Core) (b : Nat) (f : Crew → Crew) : (k.updCrew b f).binds = k.binds := rfl
@[simp] theorem Core.updCrew_bins (k : Core) (b : Nat) (f : Crew → Crew) : (k.updCrew b f).bins = k.bins := rfl
@[simp] theorem Core.updCrew_claimQ (k : Core) (b : Nat) (f : Crew → Crew) : (k.updCrew b f).claimQ = k.claimQ := rfl
@[simp] theorem Core.updCrew_selPol (k : Core) (b : Nat) (f : Crew → Crew) : (k.updCrew b f).selPol = k.selPol := rfl
@[simp] theorem Core.updCrew_selAge (k : Core) (b : Nat) (f : Crew → Crew) : (k.updCrew b f).selAge = k.selAge := rfl
@[simp] theorem Core.updCrew_stream0 (k : Core) (b : Nat) (f : Crew → Crew) : (k.updCrew b f).stream0 = k.stream0 := rfl
@[simp] theorem Core.updCrew_stream1 (k : Core) (b : Nat) (f : Crew → Crew) : (k.updCrew b f).stream1 = k.stream1 := rfl
@[simp] theorem Core.updCrew_suspended (k : Core) (b : Nat) (f : Crew → Crew) : (k.updCrew b f).suspended = k.suspended := rfl
@[simp] theorem Core.updCrew_psets (k : Core) (b : Nat) (f : Crew → Crew) : (k.updCrew b f).psets = k.psets := rfl
@[simp] theorem Core.updCrew_sob (k : Core) (b : Nat) (f : Crew → Crew) : (k.updCrew b f).sob = k.sob := rfl
@[simp] theorem Core.updCrew_lq (k : Core) (b : Nat) (f : Crew → Crew) : (k.updCrew b f).lq = k.lq := rfl
@[simp] theorem Core.updCrew_results (k : Core) (b : Nat) (f : Crew → Crew) : (k.updCrew b f).results = k.results := rfl
@[simp] theorem Core.updCrew_dab (k : Core) (b : Nat) (f : Crew → Crew) : (k.updCrew b f).dab = k.dab := rfl
@[simp] theorem Core.updCrew_v1 (k : Core) (b : Nat) (f : Crew → Crew) : (k.updCrew b f).v1 = k.v1 := rfl
@[simp] theorem Core.updCrew_e1 (k : Core) (b : Nat) (f : Crew → Crew) : (k.updCrew b f).e1 = k.e1 := rfl
@[simp] theorem Core.updCrew_xlat (k : Core) (b : Nat) (f : Crew → Crew) : (k.updCrew b f).xlat = k.xlat := rfl
@[simp] theorem Core.updCrew_scratch (k : Core) (b : Nat) (f : Crew → Crew) : (k.updCrew b f).scratch = k.scratch := rfl
@[simp] theorem Core.updCrew_badScratch (k : Core) (b : Nat) (f : Crew → Crew) : (k.updCrew b f).badScratch = k.badScratch := rfl
@[simp] theorem Core.updCrew_acc (k : Core) (b : Nat) (f : Crew → Crew) : (k.updCrew b f).acc = k.acc := rfl
@[simp] theorem Core.updCrew_badAcc (k : Core) (b : Nat) (f : Crew → Crew) : (k.updCrew b f).badAcc = k.badAcc := rfl
@[simp] theorem Core.updCrew_ledger (k : Core) (b : Nat) (f : Crew → Crew) : (k.updCrew b f).ledger = k.ledger := rfl
@[simp] theorem Core.updCrew_colLfsr (k : Core) (b : Nat) (f : Crew → Crew) : (k.updCrew b f).colLfsr = k.colLfsr := rfl
@[simp] theorem Core.updCrew_holder (k : Core) (b : Nat) (f : Crew → Crew) : (k.updCrew b f).holder = k.holder := rfl
@[simp] theorem Core.updCrew_mxe (k : Core) (b : Nat) (f : Crew → Crew) : (k.updCrew b f).mxe = k.mxe := rfl
@[simp] theorem Core.updCrew_copy (k : Core) (b : Nat) (f : Crew → Crew) : (k.updCrew b f).copy = k.copy := rfl
@[simp] theorem Core.updCrew_icache (k : Core) (b : Nat) (f : Crew → Crew) : (k.updCrew b f).icache = k.icache := rfl

@[simp] theorem Core.setStream_threads (k : Core) (st : Bool) (x : Stream) : (k.setStream st x).threads = k.threads := by cases st <;> rfl
@[simp] theorem Core.setStream_rows (k : Core) (st : Bool) (x : Stream) : (k.setStream st x).rows = k.rows := by cases st <;> rfl
@[simp] theorem Core.setStream_crews (k : Core) (st : Bool) (x : Stream) : (k.setStream st x).crews = k.crews := by cases st <;> rfl
@[simp] theorem Core.setStream_binds (k : Core) (st : Bool) (x : Stream) : (k.setStream st x).binds = k.binds := by cases st <;> rfl
@[simp] theorem Core.setStream_bins (k : Core) (st : Bool) (x : Stream) : (k.setStream st x).bins = k.bins := by cases st <;> rfl
@[simp] theorem Core.setStream_claimQ (k : Core) (st : Bool) (x : Stream) : (k.setStream st x).claimQ = k.claimQ := by cases st <;> rfl
@[simp] theorem Core.setStream_selPol (k : Core) (st : Bool) (x : Stream) : (k.setStream st x).selPol = k.selPol := by cases st <;> rfl
@[simp] theorem Core.setStream_selAge (k : Core) (st : Bool) (x : Stream) : (k.setStream st x).selAge = k.selAge := by cases st <;> rfl
@[simp] theorem Core.setStream_suspended (k : Core) (st : Bool) (x : Stream) : (k.setStream st x).suspended = k.suspended := by cases st <;> rfl
@[simp] theorem Core.setStream_psets (k : Core) (st : Bool) (x : Stream) : (k.setStream st x).psets = k.psets := by cases st <;> rfl
@[simp] theorem Core.setStream_sob (k : Core) (st : Bool) (x : Stream) : (k.setStream st x).sob = k.sob := by cases st <;> rfl
@[simp] theorem Core.setStream_lq (k : Core) (st : Bool) (x : Stream) : (k.setStream st x).lq = k.lq := by cases st <;> rfl
@[simp] theorem Core.setStream_results (k : Core) (st : Bool) (x : Stream) : (k.setStream st x).results = k.results := by cases st <;> rfl
@[simp] theorem Core.setStream_dab (k : Core) (st : Bool) (x : Stream) : (k.setStream st x).dab = k.dab := by cases st <;> rfl
@[simp] theorem Core.setStream_v1 (k : Core) (st : Bool) (x : Stream) : (k.setStream st x).v1 = k.v1 := by cases st <;> rfl
@[simp] theorem Core.setStream_e1 (k : Core) (st : Bool) (x : Stream) : (k.setStream st x).e1 = k.e1 := by cases st <;> rfl
@[simp] theorem Core.setStream_xlat (k : Core) (st : Bool) (x : Stream) : (k.setStream st x).xlat = k.xlat := by cases st <;> rfl
@[simp] theorem Core.setStream_scratch (k : Core) (st : Bool) (x : Stream) : (k.setStream st x).scratch = k.scratch := by cases st <;> rfl
@[simp] theorem Core.setStream_badScratch (k : Core) (st : Bool) (x : Stream) : (k.setStream st x).badScratch = k.badScratch := by cases st <;> rfl
@[simp] theorem Core.setStream_acc (k : Core) (st : Bool) (x : Stream) : (k.setStream st x).acc = k.acc := by cases st <;> rfl
@[simp] theorem Core.setStream_badAcc (k : Core) (st : Bool) (x : Stream) : (k.setStream st x).badAcc = k.badAcc := by cases st <;> rfl
@[simp] theorem Core.setStream_ledger (k : Core) (st : Bool) (x : Stream) : (k.setStream st x).ledger = k.ledger := by cases st <;> rfl
@[simp] theorem Core.setStream_colLfsr (k : Core) (st : Bool) (x : Stream) : (k.setStream st x).colLfsr = k.colLfsr := by cases st <;> rfl
@[simp] theorem Core.setStream_holder (k : Core) (st : Bool) (x : Stream) : (k.setStream st x).holder = k.holder := by cases st <;> rfl
@[simp] theorem Core.setStream_mxe (k : Core) (st : Bool) (x : Stream) : (k.setStream st x).mxe = k.mxe := by cases st <;> rfl
@[simp] theorem Core.setStream_copy (k : Core) (st : Bool) (x : Stream) : (k.setStream st x).copy = k.copy := by cases st <;> rfl
@[simp] theorem Core.setStream_icache (k : Core) (st : Bool) (x : Stream) : (k.setStream st x).icache = k.icache := by cases st <;> rfl

@[simp] theorem Core.setGroup_threads (k : Core) (st : Bool) (g : Option Group) : (k.setGroup st g).threads = k.threads := by cases st <;> rfl
@[simp] theorem Core.setGroup_rows (k : Core) (st : Bool) (g : Option Group) : (k.setGroup st g).rows = k.rows := by cases st <;> rfl
@[simp] theorem Core.setGroup_crews (k : Core) (st : Bool) (g : Option Group) : (k.setGroup st g).crews = k.crews := by cases st <;> rfl
@[simp] theorem Core.setGroup_binds (k : Core) (st : Bool) (g : Option Group) : (k.setGroup st g).binds = k.binds := by cases st <;> rfl
@[simp] theorem Core.setGroup_bins (k : Core) (st : Bool) (g : Option Group) : (k.setGroup st g).bins = k.bins := by cases st <;> rfl
@[simp] theorem Core.setGroup_claimQ (k : Core) (st : Bool) (g : Option Group) : (k.setGroup st g).claimQ = k.claimQ := by cases st <;> rfl
@[simp] theorem Core.setGroup_selPol (k : Core) (st : Bool) (g : Option Group) : (k.setGroup st g).selPol = k.selPol := by cases st <;> rfl
@[simp] theorem Core.setGroup_selAge (k : Core) (st : Bool) (g : Option Group) : (k.setGroup st g).selAge = k.selAge := by cases st <;> rfl
@[simp] theorem Core.setGroup_suspended (k : Core) (st : Bool) (g : Option Group) : (k.setGroup st g).suspended = k.suspended := by cases st <;> rfl
@[simp] theorem Core.setGroup_psets (k : Core) (st : Bool) (g : Option Group) : (k.setGroup st g).psets = k.psets := by cases st <;> rfl
@[simp] theorem Core.setGroup_sob (k : Core) (st : Bool) (g : Option Group) : (k.setGroup st g).sob = k.sob := by cases st <;> rfl
@[simp] theorem Core.setGroup_lq (k : Core) (st : Bool) (g : Option Group) : (k.setGroup st g).lq = k.lq := by cases st <;> rfl
@[simp] theorem Core.setGroup_results (k : Core) (st : Bool) (g : Option Group) : (k.setGroup st g).results = k.results := by cases st <;> rfl
@[simp] theorem Core.setGroup_dab (k : Core) (st : Bool) (g : Option Group) : (k.setGroup st g).dab = k.dab := by cases st <;> rfl
@[simp] theorem Core.setGroup_v1 (k : Core) (st : Bool) (g : Option Group) : (k.setGroup st g).v1 = k.v1 := by cases st <;> rfl
@[simp] theorem Core.setGroup_e1 (k : Core) (st : Bool) (g : Option Group) : (k.setGroup st g).e1 = k.e1 := by cases st <;> rfl
@[simp] theorem Core.setGroup_xlat (k : Core) (st : Bool) (g : Option Group) : (k.setGroup st g).xlat = k.xlat := by cases st <;> rfl
@[simp] theorem Core.setGroup_scratch (k : Core) (st : Bool) (g : Option Group) : (k.setGroup st g).scratch = k.scratch := by cases st <;> rfl
@[simp] theorem Core.setGroup_badScratch (k : Core) (st : Bool) (g : Option Group) : (k.setGroup st g).badScratch = k.badScratch := by cases st <;> rfl
@[simp] theorem Core.setGroup_acc (k : Core) (st : Bool) (g : Option Group) : (k.setGroup st g).acc = k.acc := by cases st <;> rfl
@[simp] theorem Core.setGroup_badAcc (k : Core) (st : Bool) (g : Option Group) : (k.setGroup st g).badAcc = k.badAcc := by cases st <;> rfl
@[simp] theorem Core.setGroup_ledger (k : Core) (st : Bool) (g : Option Group) : (k.setGroup st g).ledger = k.ledger := by cases st <;> rfl
@[simp] theorem Core.setGroup_colLfsr (k : Core) (st : Bool) (g : Option Group) : (k.setGroup st g).colLfsr = k.colLfsr := by cases st <;> rfl
@[simp] theorem Core.setGroup_holder (k : Core) (st : Bool) (g : Option Group) : (k.setGroup st g).holder = k.holder := by cases st <;> rfl
@[simp] theorem Core.setGroup_mxe (k : Core) (st : Bool) (g : Option Group) : (k.setGroup st g).mxe = k.mxe := by cases st <;> rfl
@[simp] theorem Core.setGroup_copy (k : Core) (st : Bool) (g : Option Group) : (k.setGroup st g).copy = k.copy := by cases st <;> rfl
@[simp] theorem Core.setGroup_icache (k : Core) (st : Bool) (g : Option Group) : (k.setGroup st g).icache = k.icache := by cases st <;> rfl

/-! ## Thread and row -/

@[simp] theorem Thread.setReg_phase (t : Thread) (n : Nat) (w : Word) : (t.setReg n w).phase = t.phase := rfl
@[simp] theorem Thread.setReg_p (t : Thread) (n : Nat) (w : Word) : (t.setReg n w).p = t.p := rfl
@[simp] theorem Thread.setReg_x (t : Thread) (n : Nat) (w : Word) : (t.setReg n w).x = t.x := rfl
@[simp] theorem Thread.setReg_bp (t : Thread) (n : Nat) (w : Word) : (t.setReg n w).bp = t.bp := rfl
@[simp] theorem Thread.setReg_lfsr (t : Thread) (n : Nat) (w : Word) : (t.setReg n w).lfsr = t.lfsr := rfl
@[simp] theorem Thread.setReg_keep (t : Thread) (n : Nat) (w : Word) : (t.setReg n w).keep = t.keep := rfl
@[simp] theorem Thread.setReg_void (t : Thread) (n : Nat) (w : Word) : (t.setReg n w).void = t.void := rfl
@[simp] theorem Thread.setReg_faultInfo (t : Thread) (n : Nat) (w : Word) : (t.setReg n w).faultInfo = t.faultInfo := rfl
@[simp] theorem Thread.setReg_next (t : Thread) (n : Nat) (w : Word) : (t.setReg n w).next = t.next := rfl
@[simp] theorem Thread.setReg_header (t : Thread) (n : Nat) (w : Word) : (t.setReg n w).header = t.header := rfl
@[simp] theorem Thread.setReg_reform (t : Thread) (n : Nat) (w : Word) : (t.setReg n w).reform = t.reform := rfl
@[simp] theorem Thread.setReg_yielding (t : Thread) (n : Nat) (w : Word) : (t.setReg n w).yielding = t.yielding := rfl
@[simp] theorem Thread.setReg_resume (t : Thread) (n : Nat) (w : Word) : (t.setReg n w).resume = t.resume := rfl
@[simp] theorem Thread.setReg_pend (t : Thread) (n : Nat) (w : Word) : (t.setReg n w).pend = t.pend := rfl
@[simp] theorem Thread.setReg_signed (t : Thread) (n : Nat) (w : Word) : (t.setReg n w).signed = t.signed := rfl
@[simp] theorem Thread.setReg_told (t : Thread) (n : Nat) (w : Word) : (t.setReg n w).told = t.told := rfl
@[simp] theorem Thread.setReg_acquires (t : Thread) (n : Nat) (w : Word) : (t.setReg n w).acquires = t.acquires := rfl
@[simp] theorem Thread.setReg_fresh (t : Thread) (n : Nat) (w : Word) : (t.setReg n w).fresh = t.fresh := rfl
@[simp] theorem Thread.setReg_badBp (t : Thread) (n : Nat) (w : Word) : (t.setReg n w).badBp = t.badBp := rfl

@[simp] theorem Thread.setPred_phase (t : Thread) (n : Nat) (b : Bool) : (t.setPred n b).phase = t.phase := rfl
@[simp] theorem Thread.setPred_v (t : Thread) (n : Nat) (b : Bool) : (t.setPred n b).v = t.v := rfl
@[simp] theorem Thread.setPred_x (t : Thread) (n : Nat) (b : Bool) : (t.setPred n b).x = t.x := rfl
@[simp] theorem Thread.setPred_bp (t : Thread) (n : Nat) (b : Bool) : (t.setPred n b).bp = t.bp := rfl
@[simp] theorem Thread.setPred_lfsr (t : Thread) (n : Nat) (b : Bool) : (t.setPred n b).lfsr = t.lfsr := rfl
@[simp] theorem Thread.setPred_keep (t : Thread) (n : Nat) (b : Bool) : (t.setPred n b).keep = t.keep := rfl
@[simp] theorem Thread.setPred_void (t : Thread) (n : Nat) (b : Bool) : (t.setPred n b).void = t.void := rfl
@[simp] theorem Thread.setPred_faultInfo (t : Thread) (n : Nat) (b : Bool) : (t.setPred n b).faultInfo = t.faultInfo := rfl
@[simp] theorem Thread.setPred_next (t : Thread) (n : Nat) (b : Bool) : (t.setPred n b).next = t.next := rfl
@[simp] theorem Thread.setPred_header (t : Thread) (n : Nat) (b : Bool) : (t.setPred n b).header = t.header := rfl
@[simp] theorem Thread.setPred_reform (t : Thread) (n : Nat) (b : Bool) : (t.setPred n b).reform = t.reform := rfl
@[simp] theorem Thread.setPred_yielding (t : Thread) (n : Nat) (b : Bool) : (t.setPred n b).yielding = t.yielding := rfl
@[simp] theorem Thread.setPred_resume (t : Thread) (n : Nat) (b : Bool) : (t.setPred n b).resume = t.resume := rfl
@[simp] theorem Thread.setPred_pend (t : Thread) (n : Nat) (b : Bool) : (t.setPred n b).pend = t.pend := rfl
@[simp] theorem Thread.setPred_signed (t : Thread) (n : Nat) (b : Bool) : (t.setPred n b).signed = t.signed := rfl
@[simp] theorem Thread.setPred_told (t : Thread) (n : Nat) (b : Bool) : (t.setPred n b).told = t.told := rfl
@[simp] theorem Thread.setPred_acquires (t : Thread) (n : Nat) (b : Bool) : (t.setPred n b).acquires = t.acquires := rfl
@[simp] theorem Thread.setPred_fresh (t : Thread) (n : Nat) (b : Bool) : (t.setPred n b).fresh = t.fresh := rfl
@[simp] theorem Thread.setPred_badV (t : Thread) (n : Nat) (b : Bool) : (t.setPred n b).badV = t.badV := rfl
@[simp] theorem Thread.setPred_badBp (t : Thread) (n : Nat) (b : Bool) : (t.setPred n b).badBp = t.badBp := rfl

@[simp] theorem Thread.setIdx_phase (t : Thread) (n : Nat) (w : Word) : (t.setIdx n w).phase = t.phase := rfl
@[simp] theorem Thread.setIdx_v (t : Thread) (n : Nat) (w : Word) : (t.setIdx n w).v = t.v := rfl
@[simp] theorem Thread.setIdx_p (t : Thread) (n : Nat) (w : Word) : (t.setIdx n w).p = t.p := rfl
@[simp] theorem Thread.setIdx_bp (t : Thread) (n : Nat) (w : Word) : (t.setIdx n w).bp = t.bp := rfl
@[simp] theorem Thread.setIdx_lfsr (t : Thread) (n : Nat) (w : Word) : (t.setIdx n w).lfsr = t.lfsr := rfl
@[simp] theorem Thread.setIdx_keep (t : Thread) (n : Nat) (w : Word) : (t.setIdx n w).keep = t.keep := rfl
@[simp] theorem Thread.setIdx_void (t : Thread) (n : Nat) (w : Word) : (t.setIdx n w).void = t.void := rfl
@[simp] theorem Thread.setIdx_faultInfo (t : Thread) (n : Nat) (w : Word) : (t.setIdx n w).faultInfo = t.faultInfo := rfl
@[simp] theorem Thread.setIdx_next (t : Thread) (n : Nat) (w : Word) : (t.setIdx n w).next = t.next := rfl
@[simp] theorem Thread.setIdx_header (t : Thread) (n : Nat) (w : Word) : (t.setIdx n w).header = t.header := rfl
@[simp] theorem Thread.setIdx_reform (t : Thread) (n : Nat) (w : Word) : (t.setIdx n w).reform = t.reform := rfl
@[simp] theorem Thread.setIdx_yielding (t : Thread) (n : Nat) (w : Word) : (t.setIdx n w).yielding = t.yielding := rfl
@[simp] theorem Thread.setIdx_resume (t : Thread) (n : Nat) (w : Word) : (t.setIdx n w).resume = t.resume := rfl
@[simp] theorem Thread.setIdx_pend (t : Thread) (n : Nat) (w : Word) : (t.setIdx n w).pend = t.pend := rfl
@[simp] theorem Thread.setIdx_signed (t : Thread) (n : Nat) (w : Word) : (t.setIdx n w).signed = t.signed := rfl
@[simp] theorem Thread.setIdx_told (t : Thread) (n : Nat) (w : Word) : (t.setIdx n w).told = t.told := rfl
@[simp] theorem Thread.setIdx_acquires (t : Thread) (n : Nat) (w : Word) : (t.setIdx n w).acquires = t.acquires := rfl
@[simp] theorem Thread.setIdx_fresh (t : Thread) (n : Nat) (w : Word) : (t.setIdx n w).fresh = t.fresh := rfl
@[simp] theorem Thread.setIdx_badV (t : Thread) (n : Nat) (w : Word) : (t.setIdx n w).badV = t.badV := rfl
@[simp] theorem Thread.setIdx_badBp (t : Thread) (n : Nat) (w : Word) : (t.setIdx n w).badBp = t.badBp := rfl

@[simp] theorem Thread.setLatch_phase (t : Thread) (n : Nat) (w : Dword) : (t.setLatch n w).phase = t.phase := rfl
@[simp] theorem Thread.setLatch_v (t : Thread) (n : Nat) (w : Dword) : (t.setLatch n w).v = t.v := rfl
@[simp] theorem Thread.setLatch_p (t : Thread) (n : Nat) (w : Dword) : (t.setLatch n w).p = t.p := rfl
@[simp] theorem Thread.setLatch_x (t : Thread) (n : Nat) (w : Dword) : (t.setLatch n w).x = t.x := rfl
@[simp] theorem Thread.setLatch_lfsr (t : Thread) (n : Nat) (w : Dword) : (t.setLatch n w).lfsr = t.lfsr := rfl
@[simp] theorem Thread.setLatch_keep (t : Thread) (n : Nat) (w : Dword) : (t.setLatch n w).keep = t.keep := rfl
@[simp] theorem Thread.setLatch_void (t : Thread) (n : Nat) (w : Dword) : (t.setLatch n w).void = t.void := rfl
@[simp] theorem Thread.setLatch_faultInfo (t : Thread) (n : Nat) (w : Dword) : (t.setLatch n w).faultInfo = t.faultInfo := rfl
@[simp] theorem Thread.setLatch_next (t : Thread) (n : Nat) (w : Dword) : (t.setLatch n w).next = t.next := rfl
@[simp] theorem Thread.setLatch_header (t : Thread) (n : Nat) (w : Dword) : (t.setLatch n w).header = t.header := rfl
@[simp] theorem Thread.setLatch_reform (t : Thread) (n : Nat) (w : Dword) : (t.setLatch n w).reform = t.reform := rfl
@[simp] theorem Thread.setLatch_yielding (t : Thread) (n : Nat) (w : Dword) : (t.setLatch n w).yielding = t.yielding := rfl
@[simp] theorem Thread.setLatch_resume (t : Thread) (n : Nat) (w : Dword) : (t.setLatch n w).resume = t.resume := rfl
@[simp] theorem Thread.setLatch_pend (t : Thread) (n : Nat) (w : Dword) : (t.setLatch n w).pend = t.pend := rfl
@[simp] theorem Thread.setLatch_signed (t : Thread) (n : Nat) (w : Dword) : (t.setLatch n w).signed = t.signed := rfl
@[simp] theorem Thread.setLatch_told (t : Thread) (n : Nat) (w : Dword) : (t.setLatch n w).told = t.told := rfl
@[simp] theorem Thread.setLatch_acquires (t : Thread) (n : Nat) (w : Dword) : (t.setLatch n w).acquires = t.acquires := rfl
@[simp] theorem Thread.setLatch_fresh (t : Thread) (n : Nat) (w : Dword) : (t.setLatch n w).fresh = t.fresh := rfl
@[simp] theorem Thread.setLatch_badV (t : Thread) (n : Nat) (w : Dword) : (t.setLatch n w).badV = t.badV := rfl

@[simp] theorem Row.setScalar_crew (r : Row) (n : Nat) (w : Word) : (r.setScalar n w).crew = r.crew := by unfold Row.setScalar; split <;> rfl
@[simp] theorem Row.setScalar_lci (r : Row) (n : Nat) (w : Word) : (r.setScalar n w).lci = r.lci := by unfold Row.setScalar; split <;> rfl
@[simp] theorem Row.setScalar_role (r : Row) (n : Nat) (w : Word) : (r.setScalar n w).role = r.role := by unfold Row.setScalar; split <;> rfl
@[simp] theorem Row.setScalar_allot (r : Row) (n : Nat) (w : Word) : (r.setScalar n w).allot = r.allot := by unfold Row.setScalar; split <;> rfl
@[simp] theorem Row.setScalar_groups (r : Row) (n : Nat) (w : Word) : (r.setScalar n w).groups = r.groups := by unfold Row.setScalar; split <;> rfl
@[simp] theorem Row.setScalar_joins (r : Row) (n : Nat) (w : Word) : (r.setScalar n w).joins = r.joins := by unfold Row.setScalar; split <;> rfl
@[simp] theorem Row.setScalar_arrivedAt (r : Row) (n : Nat) (w : Word) : (r.setScalar n w).arrivedAt = r.arrivedAt := by unfold Row.setScalar; split <;> rfl

/-! ## Reading back -/

@[simp] theorem State.core_setCore (s : State) (c : Nat) (k : Core) : (s.setCore c k).core c = k := by
  simp [State.setCore, State.core]

theorem State.core_setCore_other (s : State) {c d : Nat} (k : Core) (h : d ≠ c) : (s.setCore c k).core d = s.core d := by
  simp [State.setCore, State.core, FMap.get_set_other _ _ _ h]

@[simp] theorem State.setCore_setCore (s : State) (c : Nat) (k l : Core) : (s.setCore c k).setCore c l = s.setCore c l := by
  simp [State.setCore]

@[simp] theorem State.core_updCore (s : State) (c : Nat) (f : Core → Core) : (s.updCore c f).core c = f (s.core c) := by
  simp [State.updCore]

theorem State.core_updCore_other (s : State) {c d : Nat} (f : Core → Core) (h : d ≠ c) : (s.updCore c f).core d = s.core d := by
  simp [State.updCore, State.core_setCore_other s _ h]

@[simp] theorem State.updCore_updCore (s : State) (c : Nat) (f g : Core → Core) :
    (s.updCore c f).updCore c g = s.updCore c fun k => g (f k) := by
  simp [State.updCore]

@[simp] theorem State.cluster_updCluster (s : State) (q : Nat) (f : Cluster → Cluster) :
    (s.updCluster q f).cluster q = f (s.cluster q) := by
  simp [State.updCluster, State.cluster]

@[simp] theorem State.cur_updCur (s : State) (f : Core → Core) : (s.updCur f).cur = f s.cur := by
  simp [State.updCur, State.cur]

@[simp] theorem Core.thread_setThread (k : Core) (x : Nat) (t : Thread) : (k.setThread x t).thread x = t := by
  simp [Core.setThread, Core.thread]

theorem Core.thread_setThread_other (k : Core) {x y : Nat} (t : Thread) (h : y ≠ x) : (k.setThread x t).thread y = k.thread y := by
  simp [Core.setThread, Core.thread, FMap.get_set_other _ _ _ h]

theorem Core.thread_updThread (k : Core) (x y : Nat) (f : Thread → Thread) :
    (k.updThread x f).thread y = if y = x then f (k.thread x) else k.thread y := by
  split
  · rename_i h; subst h; simp [Core.updThread]
  · rename_i h; exact thread_setThread_other k _ h

theorem Core.row_updRow (k : Core) (r q : Nat) (f : Row → Row) : (k.updRow r f).row q = if q = r then f (k.row r) else k.row q := by
  simp only [Core.updRow, Core.row, FMap.get_set]

theorem Core.crew_updCrew (k : Core) (b d : Nat) (f : Crew → Crew) :
    (k.updCrew b f).crew d = if d = b then f (k.crew b) else k.crew d := by
  simp only [Core.updCrew, Core.crew, FMap.get_set]

@[simp] theorem Core.stream_setStream (k : Core) (st : Bool) (x : Stream) : (k.setStream st x).stream st = x := by
  cases st <;> rfl

@[simp] theorem Core.stream_setStream_other (k : Core) (st : Bool) (x : Stream) : (k.setStream st x).stream (!st) = k.stream (!st) := by
  cases st <;> rfl

@[simp] theorem Core.group_setGroup (k : Core) (st : Bool) (g : Option Group) : ((k.setGroup st g).stream st).group = g := by
  cases st <;> rfl

/-- A map over listed keys: the last write of each key stands. -/
theorem foldl_set_get {α : Type} (d : α) (F : Nat → α) (l : List Nat) (m : FMap α) (x : Nat) :
    FMap.get d (l.foldl (fun m x => FMap.set m x (F x)) m) x = if x ∈ l then F x else FMap.get d m x := by
  induction l generalizing m with
  | nil => simp
  | cons y r ih =>
    simp only [List.foldl_cons, ih, FMap.get_set, List.mem_cons]
    by_cases h : x ∈ r
    · simp [h]
    · by_cases hy : x = y
      · subst hy; simp [h]
      · simp [h, hy]

theorem Core.thread_mapThreads (k : Core) (l : List Nat) (f : Nat → Thread → Thread) (x : Nat) :
    (k.mapThreads l f).thread x = if x ∈ l then f x (k.thread x) else k.thread x :=
  foldl_set_get (α := Thread) {} (fun x => f x (k.thread x)) l k.threads x

theorem Core.row_mapRows (k : Core) (l : List Nat) (f : Nat → Row → Row) (r : Nat) :
    (k.mapRows l f).row r = if r ∈ l then f r (k.row r) else k.row r :=
  foldl_set_get (α := Row) {} (fun r => f r (k.row r)) l k.rows r

theorem Thread.reg_setReg (t : Thread) (n m : Nat) (w : Word) : (t.setReg n w).reg m = if m = n then w else t.reg m :=
  FMap.get_put 0 t.v n m w

theorem Thread.latch_setLatch (t : Thread) (n m : Nat) (w : Dword) : (t.setLatch n w).latch m = if m = n then w else t.latch m :=
  FMap.get_put 0 t.bp n m w

/-- s0 reads 0, whatever is written to it (R48). -/
@[simp] theorem Row.scalar_zero (r : Row) : r.scalar 0 = 0 := rfl

theorem Row.scalar_setScalar (r : Row) (n m : Nat) (w : Word) (h : n ≠ 0) : (r.setScalar n w).scalar m = if m = n then w else r.scalar m := by
  unfold Row.setScalar Row.scalar
  simp only [h, if_false, FMap.get_put]
  by_cases hm : m = 0
  · subst hm; simp [Ne.symm h]
  · simp [hm]

/-! ## Sets as rising lists -/

theorem mem_insertNat (x y : Nat) (l : List Nat) : y ∈ insertNat x l ↔ y = x ∨ y ∈ l := by
  induction l with
  | nil => simp [insertNat]
  | cons z r ih =>
    unfold insertNat
    split
    · simp
    · split
      · rename_i h; subst h; simp
      · simp only [List.mem_cons, ih, or_left_comm]

theorem mem_foldr_insertNat (y : Nat) (l : List Nat) : y ∈ l.foldr insertNat [] ↔ y ∈ l := by
  induction l with
  | nil => simp
  | cons z r ih => simp [mem_insertNat, ih]

theorem mem_unionNat (y : Nat) (a b : List Nat) : y ∈ unionNat a b ↔ y ∈ a ∨ y ∈ b := by
  unfold unionNat
  induction a with
  | nil => simp
  | cons z r ih => simp [mem_insertNat, ih, or_assoc]

end Sys2Proof.Machine
end

