-- ==== Sys2Proof/Laws/Issue.lean ====
section
/-!
SUPPORT. What the shared issue of a register-class instruction does (Machine/Operands.lean): the lanes it writes, and that an issue
without faults answers a next state.
-/
namespace Sys2Proof.Machine

/-! ## Parking nothing -/

@[simp] theorem Group.without_nil (g : Group) : g.without [] = g := by
  simp [Group.without, List.filter_eq_self.mpr]

@[simp] theorem State.parkFaults_nil (s : State) (c : Nat) (g : Group) (i : Instr) : s.parkFaults c g i [] = (s, g) := by
  unfold State.parkFaults
  split
  · simp [faultCodes]
  · simp [faultCodes, parkCodes]

theorem mem_activeSlots {k : Core} {g : Group} {gd : Guard} {x : Nat} :
    x ∈ activeSlots k g gd ↔ x ∈ g.members ∧ guardHolds gd (k.thread x) = true := by
  simp [activeSlots]

theorem activeSlots_filter (k : Core) (g : Group) (gd : Guard) :
    (activeSlots k g gd).filter g.members.contains = activeSlots k g gd := by
  rw [List.filter_eq_self]
  intro x hx
  simpa using (mem_activeSlots.mp hx).1

/-! ## The lanes -/

theorem topSlot_mem {slots : List Nat} (h : slots ≠ []) : topSlot slots ∈ slots := by
  have go : ∀ (l : List Nat) (x : Nat), l.foldl (fun a b => if laneOf a < laneOf b then b else a) x ∈ x :: l := by
    intro l
    induction l with
    | nil => intro x; simp
    | cons y r ih =>
      intro x
      simp only [List.foldl_cons]
      rcases List.mem_cons.mp (ih (if laneOf x < laneOf y then y else x)) with hc | hc
      · rw [hc]; split <;> simp
      · exact List.mem_cons_of_mem _ (List.mem_cons_of_mem _ hc)
  cases slots with
  | nil => exact absurd rfl h
  | cons x l => exact go l x

/-- No lane of the set lies above the one that topSlot takes. -/
theorem topSlot_top {slots : List Nat} {x : Nat} (h : x ∈ slots) : laneOf x ≤ laneOf (topSlot slots) := by
  have go : ∀ (l : List Nat) (y x : Nat), x = y ∨ x ∈ l →
      laneOf x ≤ laneOf (l.foldl (fun a b => if laneOf a < laneOf b then b else a) y) := by
    intro l
    induction l with
    | nil =>
      intro y x h
      rcases h with rfl | h
      · exact Nat.le_refl _
      · cases h
    | cons z r ih =>
      intro y x h
      simp only [List.foldl_cons]
      have base : laneOf y ≤ laneOf (if laneOf y < laneOf z then z else y) ∧ laneOf z ≤ laneOf (if laneOf y < laneOf z then z else y) := by
        split <;> omega
      rcases h with rfl | h
      · exact Nat.le_trans base.1 (ih _ _ (.inl rfl))
      · rcases List.mem_cons.mp h with rfl | h
        · exact Nat.le_trans base.2 (ih _ _ (.inl rfl))
        · exact ih _ _ (.inr h)
  cases slots with
  | nil => cases h
  | cons y l => exact go l y x (List.mem_cons.mp h)

theorem mem_rowsOf {r : Nat} {l : List Nat} : r ∈ rowsOf l ↔ ∃ x ∈ l, rowOf x = r := by
  simp [rowsOf, mem_foldr_insertNat]

/-- Lane effects matter only in the lanes that are done. -/
theorem writeLanes_congr (k : Core) (g : Group) (done : List Nat) (p : Bool) {out out' : Nat → LaneOut}
    (h : ∀ x ∈ done, out x = out' x) : writeLanes k g done p out = writeLanes k g done p out' := by
  have ht : (fun (x : Nat) (t : Thread) => if done.contains x then t.apply g.ring (out x) else if p then t.setLatch g.ring 0 else t) =
      fun x t => if done.contains x then t.apply g.ring (out' x) else if p then t.setLatch g.ring 0 else t := by
    funext x t
    by_cases hx : done.contains x
    · rw [if_pos hx, if_pos hx, h x (by simpa using hx)]
    · rw [if_neg hx, if_neg hx]
  unfold writeLanes
  rw [ht]
  by_cases hd : done = []
  · subst hd; rfl
  · rw [h _ (topSlot_mem hd)]

theorem writeLanes_thread (k : Core) (g : Group) (done : List Nat) (p : Bool) (out : Nat → LaneOut) (x : Nat) :
    (writeLanes k g done p out).thread x =
      if x ∈ g.members then
        (if x ∈ done then (k.thread x).apply g.ring (out x) else if p then (k.thread x).setLatch g.ring 0 else k.thread x)
      else k.thread x := by
  have h (k : Core) (l : List Nat) (f : Nat → Row → Row) : (k.mapRows l f).thread x = k.thread x := rfl
  unfold writeLanes
  rw [h, Core.thread_mapThreads]
  simp

theorem writeLanes_row (k : Core) (g : Group) (done : List Nat) (p : Bool) (out : Nat → LaneOut) (r : Nat) :
    (writeLanes k g done p out).row r =
      if ∃ x ∈ done, rowOf x = r then (k.row r).writeAll (out (topSlot done)).writes else k.row r := by
  have h (l : List Nat) (f : Nat → Thread → Thread) : (k.mapThreads l f).row r = k.row r := rfl
  unfold writeLanes
  rw [Core.row_mapRows, h]
  by_cases hr : ∃ x ∈ done, rowOf x = r
  · rw [if_pos hr, if_pos (mem_rowsOf.mpr hr)]
  · rw [if_neg hr, if_neg (fun h => hr (mem_rowsOf.mp h))]

/-- Only threads and rows are written. -/
theorem writeLanes_frame (k : Core) (g : Group) (done : List Nat) (p : Bool) (out : Nat → LaneOut) :
    writeLanes k g done p out =
      { k with threads := (writeLanes k g done p out).threads, rows := (writeLanes k g done p out).rows } := rfl

/-! ## The shared issue -/

/-- An issue whose operands are there and whose lanes do not fault writes its lanes and goes past the instruction. -/
theorem issueEff_done {i : Instr} {gd : Guard} {p : Bool} {regs : Thread → Nat → List Dst} {eval : Core → Nat → Except Nat LaneOut}
    {post : List Nat → State → State} {s : State} {g : Group} {out : Nat → LaneOut} (hg : s.curGroup = some g)
    (hs : mustStall s.cur g gd regs = false) (hl : latchBusy s.cur g p = false)
    (hok : ∀ x ∈ activeSlots s.cur g gd, eval s.cur x = .ok (out x)) :
    issueEff i gd p regs eval post s =
      .next ((post (activeSlots s.cur g gd) (s.updCur fun k => writeLanes k g (activeSlots s.cur g gd) p out)).setCurGroup (g.past i p)) := by
  unfold issueEff
  rw [hg]
  simp only [hs, hl, Bool.or_self, Bool.false_eq_true, if_false]
  generalize hfs : List.filterMap _ (activeSlots s.cur g gd) = fs
  have hnil : fs = [] := by
    rw [← hfs, List.filterMap_eq_nil_iff]
    intro x hx
    rw [hok x hx]
  subst hnil
  simp only [State.parkFaults_nil, activeSlots_filter]
  congr 3
  unfold State.updCur
  congr 1
  funext k
  apply writeLanes_congr
  intro x hx
  rw [hok x hx]

/-- A group that must stall stays as it is, and so does everything else. -/
theorem issueEff_stalls {i : Instr} {gd : Guard} {p : Bool} {regs : Thread → Nat → List Dst} {eval : Core → Nat → Except Nat LaneOut}
    {post : List Nat → State → State} {s : State} {g : Group} (hg : s.curGroup = some g)
    (h : mustStall s.cur g gd regs = true ∨ latchBusy s.cur g p = true) : issueEff i gd p regs eval post s = .next s := by
  unfold issueEff
  rw [hg]
  rcases h with h | h <;> simp [h]

theorem issueLanes_done {i : Instr} {gd : Guard} {p : Bool} {regs : Thread → Nat → List Dst} {eval : Core → Nat → Except Nat LaneOut}
    {s : State} {g : Group} {out : Nat → LaneOut} (hg : s.curGroup = some g) (hs : mustStall s.cur g gd regs = false)
    (hl : latchBusy s.cur g p = false) (hok : ∀ x ∈ activeSlots s.cur g gd, eval s.cur x = .ok (out x)) :
    issueLanes i gd p regs eval s =
      .next ((s.updCur fun k => writeLanes k g (activeSlots s.cur g gd) p out).setCurGroup (g.past i p)) :=
  issueEff_done hg hs hl hok

theorem issueReg_done {i : Instr} {f : EForm} {sp : ESpec} {eval : Thread → Row → Except Nat LaneOut} {s : State} {g : Group}
    {out : Nat → LaneOut} (hg : s.curGroup = some g) (hs : mustStall s.cur g f.guard (touched sp f) = false)
    (hl : latchBusy s.cur g (sp.produces f) = false)
    (hok : ∀ x ∈ activeSlots s.cur g f.guard, eval (s.cur.thread x) (s.cur.row (rowOf x)) = .ok (out x)) :
    issueReg i f sp eval s =
      .next ((s.updCur fun k => writeLanes k g (activeSlots s.cur g f.guard) (sp.produces f) out).setCurGroup (g.past i (sp.produces f))) :=
  issueLanes_done hg hs hl hok

/-- The state that a register-class issue leaves, spelled out: one core, its threads, its rows and its stream's group. -/
theorem issue_state (s : State) (g : Group) (act : List Nat) (p : Bool) (out : Nat → LaneOut) (g' : Group) :
    (s.updCur fun k => writeLanes k g act p out).setCurGroup g' =
      s.setCore s.curCore
        { s.cur.setGroup s.curStream (if g'.members.isEmpty then none else some g') with
          threads := (writeLanes s.cur g act p out).threads, rows := (writeLanes s.cur g act p out).rows } := by
  unfold State.setCurGroup State.updCur
  simp only [State.updCore_curCore, State.updCore_curStream, State.updCore_updCore]
  unfold State.updCore State.cur
  congr 1
  cases s.curStream <;> rfl

/-- A lane's result in its registers. -/
theorem lane2_ok {f : EForm} {wa wb wd : Bool} {op : Dword → Dword → Dword} {t : Thread} {r : Row} {a b : Dword} {ds : List Dst}
    (ha : readOpnd t r f f.a wa = .ok a) (hb : readOpnd t r f f.b wb = .ok b) (hd : dstOpnd t r f f.d wd = .ok ds) :
    lane2 f wa wb wd op t r = .ok (laneResult f ds wd (op a b)) := by
  simp [lane2, ha, hb, laneOut, hd]

theorem lane1_ok {f : EForm} {wa wd : Bool} {op : Dword → Dword} {t : Thread} {r : Row} {a : Dword} {ds : List Dst}
    (ha : readOpnd t r f f.a wa = .ok a) (hd : dstOpnd t r f f.d wd = .ok ds) :
    lane1 f wa wd op t r = .ok (laneResult f ds wd (op a)) := by
  simp [lane1, ha, laneOut, hd]

theorem lane3_ok {f : EForm} {wa wb wc wd : Bool} {op : Dword → Dword → Dword → Dword} {t : Thread} {r : Row} {a b c : Dword}
    {ds : List Dst} (ha : readOpnd t r f f.a wa = .ok a) (hb : readOpnd t r f f.b wb = .ok b) (hc : readOpnd t r f f.c wc = .ok c)
    (hd : dstOpnd t r f f.d wd = .ok ds) : lane3 f wa wb wc wd op t r = .ok (laneResult f ds wd (op a b c)) := by
  simp only [lane3, hc]
  exact lane2_ok ha hb hd

end Sys2Proof.Machine
end

