-- ==== Sys2Proof/Laws/Access.lean ====
section
/-!
SUPPORT. What the shared issue of an access does (Machine/Lse.lean issueAccess) when every active lane passes its checks.
-/
namespace Sys2Proof.Machine

theorem mem_byLane {l : List Nat} {x : Nat} (h : x ∈ byLane l) : x ∈ l := by
  unfold byLane at h
  obtain ⟨i, _, hi⟩ := List.mem_flatMap.mp h
  exact (List.mem_filter.mp hi).1

theorem byLane_mem {l : List Nat} {x : Nat} (h : x ∈ l) : x ∈ byLane l := by
  unfold byLane
  refine List.mem_flatMap.mpr ⟨laneOf x, ?_, List.mem_filter.mpr ⟨h, by simp⟩⟩
  simp only [List.mem_range]
  exact Nat.mod_lt _ (by decide)

@[simp] theorem mem_byLane_iff {l : List Nat} {x : Nat} : x ∈ byLane l ↔ x ∈ l := ⟨mem_byLane, byLane_mem⟩

@[simp] theorem byLane_nil : byLane [] = [] := by simp [byLane]

theorem faultsOf_ok (l : List Nat) (acc : Nat → Access) : faultsOf (l.map fun x => (.ok (acc x) : Except LaneFault Access)) = [] := by
  unfold faultsOf
  induction l with
  | nil => rfl
  | cons x r ih => simp

theorem accessesOf_ok (l : List Nat) (acc : Nat → Access) :
    accessesOf (l.map fun x => (.ok (acc x) : Except LaneFault Access)) = l.map acc := by
  unfold accessesOf
  induction l with
  | nil => rfl
  | cons x r ih => simpa using ih

/-- Every active lane passes its checks, permitted; the store buffer has room: the accesses are performed, in lane order. -/
theorem issueAccess_done {i : Instr} {q : AccessSpec} {p : Bool} {regs : Thread → Nat → List Dst}
    {perform : Group → List Access → State → State} {s : State} {g : Group} {acc : Nat → Access} (hg : s.curGroup = some g)
    (hs : mustStall s.cur g q.form.guard regs = false) (hl : latchBusy s.cur g p = false)
    (hok : ∀ x ∈ activeSlots s.cur g q.form.guard, q.check x = .ok (acc x) ∧ (acc x).slot = x)
    (hv : q.virt = true → ∀ x ∈ activeSlots s.cur g q.form.guard, s.verdictOf s.curCore g q.kind (acc x) = some 0)
    (hr : q.need ((byLane (activeSlots s.cur g q.form.guard)).map acc) = 0 ∨
      s.cur.sob.length + q.need ((byLane (activeSlots s.cur g q.form.guard)).map acc) ≤ Config.sobSize) :
    issueAccess i q p regs perform s =
      .next ((perform g ((byLane (activeSlots s.cur g q.form.guard)).map acc)
        (s.updCur fun k => writeLanes k g (byLane (activeSlots s.cur g q.form.guard)) p fun _ => {})).setCurGroup (g.past i p)) := by
  have hchecks : q.checks s.cur g = (byLane (activeSlots s.cur g q.form.guard)).map fun x => .ok (acc x) := by
    unfold AccessSpec.checks
    apply List.map_congr_left
    intro x hx
    exact (hok x (mem_byLane hx)).1
  have hcode : ∀ x ∈ activeSlots s.cur g q.form.guard, s.accessCode s.curCore g q (acc x) = 0 := by
    intro x hx
    unfold State.accessCode
    split
    · rename_i h; rw [hv h x hx]; rfl
    · rfl
  have hgood : s.goodAccesses s.curCore g q = (byLane (activeSlots s.cur g q.form.guard)).map acc := by
    unfold State.goodAccesses
    have hc : q.checks (s.core s.curCore) g = q.checks s.cur g := rfl
    rw [hc, hchecks, accessesOf_ok, List.filter_eq_self]
    intro a ha
    obtain ⟨x, hx, rfl⟩ := List.mem_map.mp ha
    simp [hcode x (mem_byLane hx)]
  have hroom : s.accessRoom s.curCore g q = true := by
    unfold State.accessRoom
    rw [hgood]
    have hc : s.core s.curCore = s.cur := rfl
    rw [hc]
    simpa using hr
  unfold issueAccess
  rw [hg]
  simp only [hs, hl, Bool.or_self, Bool.false_eq_true, if_false, hchecks, accessesOf_ok, faultsOf_ok]
  have hasked : (if q.virt then ((byLane (activeSlots s.cur g q.form.guard)).map acc).filter
      fun a => (s.verdictOf s.curCore g q.kind a).isNone else []) = [] := by
    split
    · rename_i h
      rw [List.filter_eq_nil_iff]
      intro a ha
      obtain ⟨x, hx, rfl⟩ := List.mem_map.mp ha
      simp [hv h x (mem_byLane hx)]
    · rfl
  rw [hasked]
  have hbad : ((byLane (activeSlots s.cur g q.form.guard)).map acc).filter (fun a => decide (s.accessCode s.curCore g q a ≠ 0)) = [] := by
    rw [List.filter_eq_nil_iff]
    intro a ha
    obtain ⟨x, hx, rfl⟩ := List.mem_map.mp ha
    simp [hcode x (mem_byLane hx)]
  have hdone : ((byLane (activeSlots s.cur g q.form.guard)).map acc).filter (fun a => g.members.contains a.slot) =
      (byLane (activeSlots s.cur g q.form.guard)).map acc := by
    rw [List.filter_eq_self]
    intro a ha
    obtain ⟨x, hx, rfl⟩ := List.mem_map.mp ha
    rw [(hok x (mem_byLane hx)).2]
    simpa using (mem_activeSlots.mp (mem_byLane hx)).1
  have hslots : ((byLane (activeSlots s.cur g q.form.guard)).map acc).map (·.slot) = byLane (activeSlots s.cur g q.form.guard) := by
    rw [List.map_map]
    conv => rhs; rw [← List.map_id (byLane (activeSlots s.cur g q.form.guard))]
    apply List.map_congr_left
    intro x hx
    exact (hok x (mem_byLane hx)).2
  simp only [List.isEmpty_nil, Bool.not_true, Bool.false_eq_true, if_false, hroom, hgood, hbad, List.map_nil, List.append_nil,
    State.parkFaults_nil, hdone, hslots]

/-- Lanes without an effect of their own: only the latch of the members that are not done changes. -/
theorem writeLanes_none (k : Core) (g : Group) (done : List Nat) (p : Bool) :
    (∀ x, (writeLanes k g done p fun _ => {}).thread x =
      if x ∈ g.members ∧ x ∉ done ∧ p = true then (k.thread x).setLatch g.ring 0 else k.thread x) ∧
      ∀ r, (writeLanes k g done p fun _ => {}).row r = k.row r := by
  constructor
  · intro x
    rw [writeLanes_thread]
    by_cases hm : x ∈ g.members <;> by_cases hd : x ∈ done <;> cases p <;> simp [hm, hd, Thread.apply, Thread.writeAll]
  · intro r
    rw [writeLanes_row]
    split <;> simp [Row.writeAll]

/-- Destinations made pending. -/
theorem pendFor_thread (k : Core) (slots : List Nat) (ds : Nat → List Dst) (x : Nat) :
    (k.pendFor slots ds).thread x = if x ∈ slots then { k.thread x with pend := (k.thread x).pend ++ ds x } else k.thread x := by
  have h (k : Core) (l : List Nat) (f : Nat → Row → Row) : (k.mapRows l f).thread x = k.thread x := rfl
  unfold Core.pendFor
  dsimp only
  split
  · rw [Core.thread_mapThreads]
  · rw [h, Core.thread_mapThreads]

/-- Which rows wait for scalars: those of the lanes, for all of these, for the value of the highest (R98). -/
theorem pendFor_row (k : Core) (slots : List Nat) (ds : Nat → List Dst) (r : Nat) :
    (k.pendFor slots ds).row r =
      if (∃ x ∈ slots, rowOf x = r) ∧ scalarDsts (ds (slots.headD 0)) ≠ [] then
        { k.row r with joins := (k.row r).joins ++ [⟨scalarDsts (ds (slots.headD 0)), slots, topSlot slots, 0⟩] }
      else k.row r := by
  have h (l : List Nat) (f : Nat → Thread → Thread) : (k.mapThreads l f).row r = k.row r := rfl
  unfold Core.pendFor
  dsimp only
  split
  · rename_i he
    rw [h, if_neg]
    rintro ⟨⟨x, hx, _⟩, hs⟩
    cases slots with
    | nil => cases hx
    | cons => exact hs (by simpa using he)
  · rename_i he
    rw [Core.row_mapRows, h]
    by_cases hr : ∃ x ∈ slots, rowOf x = r
    · rw [if_pos (mem_rowsOf.mpr hr), if_pos ⟨hr, fun hs => he (by rw [hs]; simp)⟩]
    · rw [if_neg (fun h => hr (mem_rowsOf.mp h)), if_neg fun h => hr h.1]

theorem pendFor_frame (k : Core) (slots : List Nat) (ds : Nat → List Dst) :
    k.pendFor slots ds = { k with threads := (k.pendFor slots ds).threads, rows := (k.pendFor slots ds).rows } := by
  unfold Core.pendFor
  dsimp only
  split <;> rfl

/-- Two folds with the same step on the list's members are equal. -/
theorem foldl_congr_mem {α β : Type} (l : List α) {f f' : β → α → β} (h : ∀ x ∈ l, ∀ b, f b x = f' b x) (b : β) : l.foldl f b = l.foldl f' b := by
  induction l generalizing b with
  | nil => rfl
  | cons x r ih =>
    rw [List.foldl_cons, List.foldl_cons, h x List.mem_cons_self]
    exact ih (fun y hy => h y (List.mem_cons_of_mem _ hy)) _

theorem mapThreads_congr (k : Core) (l : List Nat) {f f' : Nat → Thread → Thread} (h : ∀ x ∈ l, f x = f' x) :
    k.mapThreads l f = k.mapThreads l f' := by
  unfold Core.mapThreads
  congr 1
  exact foldl_congr_mem _ (fun x hx b => by rw [h x hx]) _

theorem pendFor_congr (k : Core) (l : List Nat) {f f' : Nat → List Dst} (h : ∀ x ∈ l, f x = f' x) : k.pendFor l f = k.pendFor l f' := by
  unfold Core.pendFor
  dsimp only
  rw [mapThreads_congr k l (f' := fun x t => { t with pend := t.pend ++ f' x }) (fun x hx => by rw [h x hx])]
  cases l with
  | nil => rfl
  | cons x r => rw [List.headD_cons, h x List.mem_cons_self]

theorem performLoad_eq (m : MForm) (p : Bool) (g : Group) (l : List Access) (s : State) (all : Nat → List Dst)
    (h : ∀ a ∈ l, loadDsts s.cur m.e (accessBytes m.e.sub = 8) p g.ring a.slot = all a.slot) :
    performLoad m p g l s = { s.updCur fun k => { k.pendFor (l.map (·.slot)) all with
      lq := k.lq ++ l.zipIdx.map fun e => loadEntry s s.curCore (s.ctr + e.2) e.1 (accessBytes m.e.sub) (m.e.sub = 0 || m.e.sub = 2) m.ch.toNat (all e.1.slot) }
      with ctr := s.ctr + l.length } := by
  have h1 : ∀ k : Core, k.pendFor (l.map (·.slot)) (fun x => loadDsts s.cur m.e (accessBytes m.e.sub = 8) p g.ring x) = k.pendFor (l.map (·.slot)) all := by
    intro k
    apply pendFor_congr
    intro x hx
    obtain ⟨a, ha, rfl⟩ := List.mem_map.mp hx
    exact h a ha
  have h2 : (l.zipIdx.map fun e => loadEntry s s.curCore (s.ctr + e.2) e.1 (accessBytes m.e.sub) (m.e.sub = 0 || m.e.sub = 2) m.ch.toNat
      (loadDsts s.cur m.e (accessBytes m.e.sub = 8) p g.ring e.1.slot)) = l.zipIdx.map fun e => loadEntry s s.curCore (s.ctr + e.2) e.1 (accessBytes m.e.sub) (m.e.sub = 0 || m.e.sub = 2) m.ch.toNat (all e.1.slot) := by
    apply List.map_congr_left
    intro e he
    have := List.mem_zipIdx he
    rw [h e.1 (by rw [this.2.2]; exact List.getElem_mem _)]
  simp only [performLoad, h1, h2]

theorem setCurGroup_of (s : State) (K : Core) (n : Nat) (g : Group) :
   ({ s.setCore s.curCore K with ctr := n } : State).setCurGroup g = { s.setCore s.curCore (K.setGroup s.curStream (if g.members.isEmpty then none else some g)) with ctr := n } := by
  have h : ({ s.setCore s.curCore K with ctr := n } : State).core s.curCore = K := by
    show (s.setCore s.curCore K).core s.curCore = K
    simp
  show ({ s.setCore s.curCore K with ctr := n } : State).setCore s.curCore ((({ s.setCore s.curCore K with ctr := n } : State).core s.curCore).setGroup s.curStream (if g.members.isEmpty then none else some g)) = _
  rw [h]
  simp [State.setCore]

end Sys2Proof.Machine
end

