-- ==== Sys2Proof/Laws/Filing.lean ====
section
/-!
SUPPORT. What sending threads elsewhere does (Machine/Ops.lean fileThread, leave, goTo): which entries hold them, and that nothing
else changes.
-/
namespace Sys2Proof.Machine

open Sys2Proof.Claims

/-- Only threads and bins differ. -/
def Core.SameBut (k j : Core) : Prop := j = { k with threads := j.threads, bins := j.bins }

theorem Core.sameBut_refl (k : Core) : k.SameBut k := rfl

theorem Core.SameBut.trans {k j l : Core} (h : k.SameBut j) (h' : j.SameBut l) : k.SameBut l := by
  unfold Core.SameBut at *
  rw [h'] ; rw [h]

theorem Core.sameBut_updThread (k : Core) (x : Nat) (f : Thread → Thread) : k.SameBut (k.updThread x f) := rfl

theorem Core.SameBut.crewOf {k j : Core} (h : k.SameBut j) (x : Nat) : j.crewOf x = k.crewOf x := by
  unfold Core.SameBut at h; rw [h]; rfl

theorem Core.SameBut.crewAt {k j : Core} (h : k.SameBut j) (x : Nat) : j.crewAt x = k.crewAt x := by
  unfold Core.SameBut at h; rw [h]; rfl

theorem Core.updThread_updThread (k : Core) (x : Nat) (f g : Thread → Thread) :
    (k.updThread x f).updThread x g = k.updThread x fun t => g (f t) := by
  simp [Core.updThread, Core.setThread, Core.thread, FMap.set_set]

theorem Core.fileIn_same (k : Core) (now x : Nat) (may : Bool) : k.SameBut (k.fileIn now x may) := by
  unfold Core.fileIn
  dsimp only
  split
  · rfl
  · split <;> rfl

theorem mem_insertNat_self (x : Nat) (l : List Nat) : x ∈ insertNat x l := by rw [mem_insertNat]; exact .inl rfl

theorem Core.fileIn_other (k : Core) (now : Nat) (may : Bool) {x y : Nat} (h : y ≠ x) : (k.fileIn now x may).thread y = k.thread y := by
  unfold Core.fileIn
  dsimp only
  split
  · rw [Core.thread_updThread, if_neg h]; rfl
  · split
    · rw [Core.thread_updThread, if_neg h]; rfl
    · rw [Core.thread_updThread, if_neg h]

theorem Core.updThread_threads (k : Core) (x : Nat) (f : Thread → Thread) :
    (k.updThread x f).threads = FMap.set k.threads x ((k.updThread x f).thread x) := by
  rw [Core.thread_updThread, if_pos rfl]; rfl

/-- Only the entry of x is set. -/
theorem Core.fileIn_threads (k : Core) (now x : Nat) (may : Bool) :
    (k.fileIn now x may).threads = FMap.set k.threads x ((k.fileIn now x may).thread x) := by
  unfold Core.fileIn
  dsimp only
  split
  · exact Core.updThread_threads _ _ _
  · split
    · exact Core.updThread_threads _ _ _
    · exact Core.updThread_threads _ _ _

theorem FMap.get_mem {α : Type} (d : α) (m : FMap α) (x : Nat) : FMap.get d m x = d ∨ (x, FMap.get d m x) ∈ m := by
  induction m with
  | nil => exact .inl rfl
  | cons a r ih =>
    obtain ⟨j, w⟩ := a
    unfold FMap.get
    split
    · rename_i h; subst h; exact .inr List.mem_cons_self
    · exact ih.imp id (List.mem_cons_of_mem _)

/-- A thread that is spilled is listed. -/
theorem Core.spilled_mem {k : Core} {x : Nat} (h : (k.thread x).phase = .spilled) : (x, k.thread x) ∈ k.threads := by
  rcases FMap.get_mem ({} : Thread) k.threads x with h' | h'
  · have : k.thread x = {} := h'
    rw [this] at h
    cases h
  · exact h'

theorem Core.othersSpilled_iff {k : Core} {x : Nat} :
    k.othersSpilled x = true ↔ ∃ z, z ≠ x ∧ (k.thread z).phase = .spilled := by
  unfold Core.othersSpilled
  rw [List.any_eq_true]
  refine ⟨fun ⟨e, _, h⟩ => ?_, fun ⟨z, hz, h⟩ => ⟨_, Core.spilled_mem h, by simp [hz, h]⟩⟩
  simp only [Bool.and_eq_true, decide_eq_true_eq] at h
  exact ⟨e.1, h.1.1, h.2⟩

theorem grown_refl (A : List Bin) (l : List Nat) : Grown A A l :=
  ⟨fun a h => ⟨a, h, rfl, rfl, fun _ h => h, fun _ h => h, fun h => h⟩, fun b h _ hy => .inr ⟨b, h, rfl, hy⟩⟩

theorem grown_trans {A B C : List Bin} {l m n : List Nat} (h : Grown A B l) (h' : Grown B C m) (hl : ∀ y ∈ l, y ∈ n)
    (hm : ∀ y ∈ m, y ∈ n) : Grown A C n := by
  refine ⟨fun a ha => ?_, fun c hc y hy => ?_⟩
  · obtain ⟨b, hb, h1, h2, h3, h4, h5⟩ := h.1 a ha
    obtain ⟨c, hc, g1, g2, g3, g4, g5⟩ := h'.1 b hb
    exact ⟨c, hc, g1.trans h1, g2.trans h2, fun y hy => g3 y (h3 y hy), fun y hy => g4 y (h4 y hy), fun hy => g5 (h5 hy)⟩
  · rcases h'.2 c hc y hy with hy | ⟨b, hb, hk, hy⟩
    · exact .inl (hm y hy)
    · rcases h.2 b hb y hy with hy | ⟨a, ha, hk', hy⟩
      · exact .inl (hl y hy)
      · exact .inr ⟨a, ha, hk'.trans hk, hy⟩

/-- Filing x: the entries grow by x, and x is in the entry of its key or spilled. -/
theorem Core.fileIn_bins (k : Core) (now x : Nat) (may : Bool) : Grown k.bins (k.fileIn now x may).bins [x] := by
  unfold Core.fileIn
  dsimp only
  split
  · refine ⟨fun a ha => ?_, fun b hb y hy => ?_⟩
    · refine ⟨if a.key = k.keyOf x then a.join k x else a, List.mem_map.mpr ⟨a, ha, rfl⟩, ?_⟩
      split
      · refine ⟨rfl, rfl, fun y hy => ?_, fun y hy => ?_, fun h => ?_⟩
        · exact (mem_insertNat _ _ _).mpr (.inr hy)
        · unfold Bin.join
          dsimp only
          split
          · exact (mem_insertNat _ _ _).mpr (.inr hy)
          · exact hy
        · simp [Bin.join, h]
      · exact ⟨rfl, rfl, fun _ h => h, fun _ h => h, fun h => h⟩
    · obtain ⟨a, ha, rfl⟩ := List.mem_map.mp hb
      split at hy
      · rename_i hk
        rcases (mem_insertNat _ _ _).mp hy with h | h
        · exact .inl (by simp [h])
        · exact .inr ⟨a, ha, by rw [if_pos hk]; rfl, h⟩
      · rename_i hk
        exact .inr ⟨a, ha, by rw [if_neg hk], hy⟩
  · split
    · refine ⟨fun a ha => ⟨a, List.mem_append_left _ ha, rfl, rfl, fun _ h => h, fun _ h => h, fun h => h⟩, fun b hb y hy => ?_⟩
      rcases List.mem_append.mp hb with h | h
      · exact .inr ⟨b, h, rfl, hy⟩
      · simp only [List.mem_singleton] at h
        subst h
        simp only [Bin.join] at hy
        rcases (mem_insertNat _ _ _).mp hy with h | h
        · exact .inl (by simp [h])
        · cases h
    · exact grown_refl _ _

/-- Where filing puts the thread. -/
theorem Core.fileIn_self (k : Core) (now x : Nat) (may : Bool) :
    ((k.fileIn now x may).thread x = { k.thread x with phase := .waiting, reform := false, yielding := false, void := none } ∧
      ∃ b ∈ (k.fileIn now x may).bins, b.key = k.keyOf x ∧ x ∈ b.members ∧ ((k.thread x).reform = true → k.crewOf x ∈ b.held) ∧
        ((k.thread x).yielding = true → b.yielded = true)) ∨
    ((k.fileIn now x may).thread x = { k.thread x with phase := .spilled, void := none } ∧ may = false ∧
      (k.fileIn now x may).bins = k.bins ∧ ∀ b ∈ k.bins, b.key ≠ k.keyOf x) := by
  have joined (b : Bin) : x ∈ (b.join k x).members ∧ ((k.thread x).reform = true → k.crewOf x ∈ (b.join k x).held) ∧
      ((k.thread x).yielding = true → (b.join k x).yielded = true) := by
    refine ⟨mem_insertNat_self _ _, fun h => ?_, fun h => ?_⟩
    · simp [Bin.join, h, mem_insertNat_self]
    · simp [Bin.join, h]
  unfold Core.fileIn
  dsimp only
  split
  · rename_i hany
    refine .inl ⟨by rw [Core.thread_updThread, if_pos rfl]; rfl, ?_⟩
    obtain ⟨b, hb, hk⟩ := List.any_eq_true.mp hany
    have hk : b.key = k.keyOf x := by simpa using hk
    exact ⟨b.join k x, List.mem_map.mpr ⟨b, hb, by rw [if_pos hk]⟩, hk, joined b⟩
  · rename_i hany
    split
    · exact .inl ⟨by rw [Core.thread_updThread, if_pos rfl]; rfl, _, List.mem_append_right _ (List.mem_singleton.mpr rfl), rfl, joined _⟩
    · rename_i h
      refine .inr ⟨by rw [Core.thread_updThread, if_pos rfl], by simpa using h, rfl, fun b hb hk => hany ?_⟩
      exact List.any_eq_true.mpr ⟨b, hb, by simpa using hk⟩

theorem Core.fileIn_length (k : Core) (now x : Nat) (may : Bool) : k.bins.length ≤ (k.fileIn now x may).bins.length := by
  unfold Core.fileIn
  dsimp only
  split
  · simp [Core.updThread, Core.setThread]
  · split <;> simp [Core.updThread, Core.setThread]

/-- Where no new entry may be made, the entries' keys stay. -/
theorem Core.fileIn_keys (k : Core) (now x : Nat) : (k.fileIn now x false).bins.map (·.key) = k.bins.map (·.key) := by
  unfold Core.fileIn
  dsimp only
  split
  · show (k.bins.map _).map _ = _
    rw [List.map_map]
    apply List.map_congr_left
    intro b _
    simp only [Function.comp]
    split <;> rfl
  · rfl

/-! ## Aiming and leaving -/

/-- The entries of j have the keys of those of k. -/
def SameKeys (k j : Core) : Prop := j.bins.map (·.key) = k.bins.map (·.key)

theorem SameKeys.none {k j : Core} (h : SameKeys k j) {key : BinKey} (hn : ∀ b ∈ k.bins, b.key ≠ key) : ∀ b ∈ j.bins, b.key ≠ key := by
  intro b hb he
  have : key ∈ j.bins.map (·.key) := List.mem_map.mpr ⟨b, hb, he⟩
  rw [h] at this
  obtain ⟨a, ha, hk⟩ := List.mem_map.mp this
  exact hn a ha hk

/-- Sending one thread to a: it is Filed, no other thread changes, the entries grow by it, and while another waits in the spill bin
none is made. -/
theorem Core.send_spec (k : Core) (now x : Nat) (a h : Dword) (resume : Option ResumePt) (held y : Bool) :
    let j := (k.aim x a h resume held y).leave now x
    k.SameBut j ∧ j.threads = FMap.set k.threads x (j.thread x) ∧ Filed k j.bins x (k.thread x) j.threads a h resume held y ∧
      Grown k.bins j.bins [x] ∧ k.bins.length ≤ j.bins.length ∧ (k.othersSpilled x = true → SameKeys k j) := by
  intro j
  have hx : (k.aim x a h resume held y).thread x =
      { k.thread x with next := a, header := h, resume := resume, reform := held, yielding := y } := by
    unfold Core.aim; rw [Core.thread_updThread, if_pos rfl]
  have hm : ∀ z, z ≠ x → (k.aim x a h resume held y).thread z = k.thread z := by
    intro z hz; unfold Core.aim; rw [Core.thread_updThread, if_neg hz]
  have hs : k.SameBut (k.aim x a h resume held y) := rfl
  have hkey : (k.aim x a h resume held y).keyOf x = ⟨(k.crewAt x).asid.toNat, (k.crewAt x).chk, a⟩ := by
    unfold Core.keyOf; rw [hx]; rfl
  have hset (w : Thread) : FMap.set (k.aim x a h resume held y).threads x w = FMap.set k.threads x w := by
    show FMap.set (FMap.set k.threads x _) x w = _
    exact FMap.set_set _ _ _ _
  by_cases hp : (k.thread x).pend.isEmpty
  · have hj : j = (k.aim x a h resume held y).fileThread now x := by
      show Core.leave _ _ _ = _
      unfold Core.leave; rw [hx, if_pos hp]
    rw [hj]
    unfold Core.fileThread
    generalize hmay : (decide ((k.aim x a h resume held y).bins.length < Config.bins) && !(k.aim x a h resume held y).othersSpilled x) = may
    refine ⟨hs.trans (Core.fileIn_same _ _ _ _), (Core.fileIn_threads _ _ _ _).trans (hset _), ?_,
      Core.fileIn_bins (k.aim x a h resume held y) _ _ _, Core.fileIn_length (k.aim x a h resume held y) _ _ _, fun ho => ?_⟩
    · rcases Core.fileIn_self (k.aim x a h resume held y) now x may with ⟨e, b, hb, h1, h2, h3, h4⟩ | ⟨e, hl, hB, hn⟩
      · refine ⟨.waiting, false, false, none, ?_, ?_⟩
        · show ((k.aim x a h resume held y).fileIn now x may).thread x = _
          rw [e, hx]
        · rw [if_pos hp]
          rw [hx] at h3 h4
          exact ⟨rfl, .inl ⟨rfl, rfl, rfl, b, hb, h1.trans hkey, h2, h3, h4⟩⟩
      · refine ⟨.spilled, held, y, none, ?_, ?_⟩
        · show ((k.aim x a h resume held y).fileIn now x may).thread x = _
          rw [e, hx]
        · rw [if_pos hp]
          refine ⟨rfl, .inr ⟨rfl, rfl, rfl, fun b hb => ?_, ?_⟩⟩
          · rw [hB] at hb
            rw [← hkey]
            exact hn b hb
          · rw [hl] at hmay
            rcases Bool.and_eq_false_iff.mp hmay with h | h
            · refine .inl ?_
              rw [hB]
              exact Nat.le_of_not_lt (by simpa using h)
            · obtain ⟨z, hz, h⟩ := Core.othersSpilled_iff.mp (by simpa using h)
              exact .inr ⟨z, hz, .inl (hm z hz ▸ h)⟩
    · have : (k.aim x a h resume held y).othersSpilled x = true := by
        obtain ⟨z, hz, h⟩ := Core.othersSpilled_iff.mp ho
        exact Core.othersSpilled_iff.mpr ⟨z, hz, (hm z hz).symm ▸ h⟩
      rw [this] at hmay
      have hmay : may = false := by rw [← hmay]; simp
      rw [hmay]
      exact Core.fileIn_keys _ _ _
  · have hj : j = (k.aim x a h resume held y).updThread x fun t => { t with phase := .pending } := by
      show Core.leave _ _ _ = _
      unfold Core.leave; rw [hx, if_neg hp]
    rw [hj]
    refine ⟨hs.trans (Core.sameBut_updThread _ _ _), (Core.updThread_threads _ _ _).trans (hset _), ?_,
      grown_refl _ _, Nat.le_refl _, fun _ => rfl⟩
    refine ⟨.pending, held, y, (k.thread x).void, ?_, ?_⟩
    · show ((k.aim x a h resume held y).updThread x _).thread x = _
      rw [Core.thread_updThread, if_pos rfl, hx]
    · rw [if_neg hp]
      exact ⟨rfl, rfl, rfl, rfl⟩

/-! ## Several threads -/

/-- A change of registers that filing does not see: done twice it is done once. -/
structure RegChange (R : Thread → Thread) : Prop where
  twice : ∀ t n h r ph rf y, R { R t with next := n, header := h, resume := r, phase := ph, reform := rf, yielding := y } =
    { R t with next := n, header := h, resume := r, phase := ph, reform := rf, yielding := y }
  again : ∀ t n h r ph rf y v w, { R { R t with next := n, header := h, resume := r, phase := ph, reform := rf, yielding := y, void := v }
      with void := w } = { R t with next := n, header := h, resume := r, phase := ph, reform := rf, yielding := y, void := w }
  pend : ∀ t, (R t).pend = t.pend

/-- A thread that has been sent and is sent once more is as if sent once. -/
theorem Filed.redo {R : Thread → Thread} (hR : RegChange R) {k J : Core} {B B' : List Bin} {T T' : FMap Thread} {x : Nat} {t u : Thread}
    {a h a' h' : Dword} {r r' : Option ResumePt} {hd y hd' y' : Bool} (hu : FMap.get {} T x = u) (hcrew : J.crewAt x = k.crewAt x)
    (hcrewOf : J.crewOf x = k.crewOf x) (hthr : ∀ z, z ≠ x → FMap.get {} T' z = J.thread z)
    (hf : Filed k B x (R t) T a h r hd y) (hf' : Filed J B' x (R u) T' a' h' r' hd' y') : Filed k B' x (R t) T' a' h' r' hd' y' := by
  obtain ⟨ph, rf, yy, v, e, hc⟩ := hf
  obtain ⟨ph', rf', yy', v', e', hc'⟩ := hf'
  rw [hu] at e
  have hp : (R u).pend = (R t).pend := by rw [hR.pend, e]
  rw [hcrew, hcrewOf, hp] at hc'
  by_cases hpe : (R t).pend.isEmpty
  · rw [if_pos hpe] at hc hc'
    obtain ⟨hv', hc'⟩ := hc'
    refine ⟨ph', rf', yy', v', ?_, ?_⟩
    · rw [e', e]
      have := hR.again t a h r ph rf yy v v'
      exact congrArg (fun q : Thread => { q with next := a', header := h', resume := r', phase := ph', reform := rf', yielding := yy' }) this
    · rw [if_pos hpe]
      refine ⟨hv', hc'.imp id fun ⟨c1, c2, c3, c4, c5⟩ => ⟨c1, c2, c3, c4, c5.imp id ?_⟩⟩
      rintro ⟨z, hz, h⟩
      exact ⟨z, hz, .inr (h.elim (fun h => hthr z hz ▸ h) id)⟩
  · rw [if_neg hpe] at hc hc'
    have hv : v = (R t).void := hc.2.2.2
    have hRu : R u = u := by rw [e, hv]; exact hR.twice t a h r ph rf yy
    refine ⟨ph', rf', yy', v', ?_, ?_⟩
    · rw [e', hRu, e]
    · rw [if_neg hpe]
      refine ⟨hc'.1, hc'.2.1, hc'.2.2.1, hc'.2.2.2.trans ?_⟩
      rw [hRu, e, hv]

/-- A list of threads sent away, each after a change of its registers: every one is Filed, and nothing else changes. -/
theorem Core.sends_spec (now : Nat) (go : Core → Nat → Core) (R : Nat → Thread → Thread) (a h : Nat → Dword)
    (resume : Nat → Option ResumePt) (held y : Nat → Bool) (k : Core) (l : List Nat) (hR : ∀ x ∈ l, RegChange (R x))
    (hgo : ∀ j, k.SameBut j → ∀ x ∈ l, go j x = ((j.updThread x (R x)).aim x (a x) (h x) (resume x) (held x) (y x)).leave now x) :
    let j := l.foldl go k
    k.SameBut j ∧ (∀ z, z ∉ l → j.thread z = k.thread z) ∧
      (∀ x ∈ l, Filed k j.bins x (R x (k.thread x)) j.threads (a x) (h x) (resume x) (held x) (y x)) ∧ Grown k.bins j.bins l := by
  -- from a core that has already sent done
  have main : ∀ (l' : List Nat) (done : List Nat) (j : Core), (∀ x ∈ l', x ∈ l) → (∀ x ∈ done, x ∈ l) → k.SameBut j →
      (∀ z, z ∉ done → j.thread z = k.thread z) →
      (∀ x ∈ done, Filed k j.bins x (R x (k.thread x)) j.threads (a x) (h x) (resume x) (held x) (y x)) → Grown k.bins j.bins l →
      let e := l'.foldl go j
      k.SameBut e ∧ (∀ z, z ∉ done → z ∉ l' → e.thread z = k.thread z) ∧
        (∀ x, x ∈ done ∨ x ∈ l' → Filed k e.bins x (R x (k.thread x)) e.threads (a x) (h x) (resume x) (held x) (y x)) ∧
        Grown k.bins e.bins l := by
    intro l'
    induction l' with
    | nil =>
      intro done j _ _ h1 h2 h3 h4
      exact ⟨h1, fun z hz _ => h2 z hz, fun x hx => h3 x (hx.elim id fun h => absurd h (by simp)), h4⟩
    | cons x r ih =>
      intro done j hl' hdone h1 h2 h3 h4
      have hxl : x ∈ l := hl' x List.mem_cons_self
      have hs := Core.send_spec (j.updThread x (R x)) now x (a x) (h x) (resume x) (held x) (y x)
      simp only [] at hs
      rw [← hgo j h1 x hxl] at hs
      obtain ⟨s1, s2, s3, s4, s5, s6⟩ := hs
      have hset : (go j x).threads = FMap.set j.threads x ((go j x).thread x) := s2.trans (FMap.set_set _ _ _ _)
      have hthr : ∀ z, z ≠ x → (go j x).thread z = j.thread z := by
        intro z hz
        show FMap.get {} (go j x).threads z = _
        rw [hset, FMap.get_set, if_neg hz]; rfl
      have h1' : k.SameBut (go j x) := (h1.trans (Core.sameBut_updThread j x (R x))).trans s1
      have hcrew : (j.updThread x (R x)).crewAt x = k.crewAt x := (h1.trans (Core.sameBut_updThread j x (R x))).crewAt x
      have hcrewOf : (j.updThread x (R x)).crewOf x = k.crewOf x := (h1.trans (Core.sameBut_updThread j x (R x))).crewOf x
      have hfx : Filed k (go j x).bins x (R x (k.thread x)) (go j x).threads (a x) (h x) (resume x) (held x) (y x) := by
        have hh := s3
        rw [Core.thread_updThread, if_pos rfl] at hh
        have hto : ∀ z, z ≠ x → FMap.get {} (go j x).threads z = (j.updThread x (R x)).thread z := fun z hz =>
          (hthr z hz).trans (by rw [Core.thread_updThread, if_neg hz])
        by_cases hd : x ∈ done
        · exact Filed.redo (hR x hxl) rfl hcrew hcrewOf hto (h3 x hd) hh
        · rw [h2 x hd] at hh
          obtain ⟨ph, rf, yy, v, e, hc⟩ := hh
          rw [hcrew, hcrewOf] at hc
          refine ⟨ph, rf, yy, v, e, ?_⟩
          split at hc
          · rename_i hp
            rw [if_pos hp]
            refine ⟨hc.1, hc.2.imp id fun ⟨c1, c2, c3, c4, c5⟩ => ⟨c1, c2, c3, c4, c5.imp id ?_⟩⟩
            rintro ⟨z, hz, h⟩
            exact ⟨z, hz, .inr (h.elim (fun h => hto z hz ▸ h) id)⟩
          · rename_i hp
            rw [if_neg hp]
            exact hc
      have hfz : ∀ z ∈ done, z ≠ x → Filed k (go j x).bins z (R z (k.thread z)) (go j x).threads (a z) (h z) (resume z) (held z) (y z) := by
        intro z hz hzx
        obtain ⟨ph, rf, yy, v, e, hc⟩ := h3 z hz
        have ez : j.thread z = _ := e
        refine ⟨ph, rf, yy, v, (hthr z hzx).trans e, ?_⟩
        split at hc
        · rename_i hp
          rw [if_pos hp]
          refine ⟨hc.1, ?_⟩
          rcases hc.2 with ⟨c1, c2, c3, b, hb, c4, c5, c6, c7⟩ | ⟨c1, c2, c3, c4, c5⟩
          · obtain ⟨c, hcB, g1, _, g3, g4, g5⟩ := s4.1 b hb
            exact .inl ⟨c1, c2, c3, c, hcB, g1.trans c4, g3 z c5, fun h => g4 _ (c6 h), fun h => g5 (c7 h)⟩
          · have hsp : (j.thread z).phase = .spilled := by rw [ez]; exact c1
            have hkeys : SameKeys j (go j x) := s6 (Core.othersSpilled_iff.mpr
              ⟨z, hzx, by rw [Core.thread_updThread, if_neg hzx]; exact hsp⟩)
            refine .inr ⟨c1, c2, c3, hkeys.none c4, ?_⟩
            rcases c5 with c5 | ⟨q, hqz, hq⟩
            · exact .inl (Nat.le_trans c5 s5)
            · refine .inr ?_
              rcases hq with hq | hq
              · exact ⟨q, hqz, .inl hq⟩
              · by_cases hqx : q = x
                · subst hqx
                  by_cases hqd : q ∈ done
                  · -- q was spilled, has no entry of its key, and stays spilled
                    obtain ⟨ph', rf', yy', v', e', hc'⟩ := h3 q hqd
                    have hph : ph' = .spilled := by rw [e'] at hq; exact hq
                    obtain ⟨ph2, rf2, yy2, v2, e2, hc2⟩ := hfx
                    split at hc'
                    · rename_i hp'
                      rw [if_pos hp'] at hc2
                      rcases hc'.2 with ⟨d1, _⟩ | ⟨_, _, _, d4, _⟩
                      · rw [hph] at d1; cases d1
                      · rcases hc2.2 with ⟨_, _, _, b, hb, d5, _⟩ | ⟨d1, _⟩
                        · exact absurd d5 (hkeys.none d4 b hb)
                        · exact ⟨q, hqz, .inr (by rw [e2]; exact d1)⟩
                    · rw [hph] at hc'
                      cases hc'.1
                  · exact ⟨q, hqz, .inl (h2 q hqd ▸ hq)⟩
                · exact ⟨q, hqz, .inr ((congrArg Thread.phase (hthr q hqx)).trans hq)⟩
        · rename_i hp
          rw [if_neg hp]
          exact hc
      have hgr : Grown k.bins (go j x).bins l := grown_trans h4 s4 (fun _ h => h) (fun z hz => by
        simp only [List.mem_singleton] at hz; subst hz; exact hxl)
      have hres := ih (x :: done) (go j x) (fun z hz => hl' z (List.mem_cons_of_mem _ hz))
        (fun z hz => by
          rcases List.mem_cons.mp hz with h | h
          · subst h; exact hxl
          · exact hdone z h) h1'
        (fun z hz => by
          have hzx : z ≠ x := fun h => hz (by rw [h]; exact List.mem_cons_self)
          rw [hthr z hzx]
          exact h2 z fun h => hz (List.mem_cons_of_mem _ h))
        (fun z hz => by
          by_cases hzx : z = x
          · subst hzx; exact hfx
          · exact hfz z ((List.mem_cons.mp hz).resolve_left hzx) hzx)
        hgr
      obtain ⟨e1, e2, e3, e4⟩ := hres
      refine ⟨e1, fun z hz hz' => e2 z (fun h => ?_) (fun h => hz' (List.mem_cons_of_mem _ h)), fun z hz => e3 z ?_, e4⟩
      · rcases List.mem_cons.mp h with h | h
        · exact hz' (by rw [h]; exact List.mem_cons_self)
        · exact hz h
      · rcases hz with h | h
        · exact .inl (List.mem_cons_of_mem _ h)
        · rcases List.mem_cons.mp h with h | h
          · exact .inl (by rw [h]; exact List.mem_cons_self)
          · exact .inr h
  have := main l [] k (fun _ h => h) (fun _ h => absurd h (by simp)) (Core.sameBut_refl k) (fun _ _ => rfl)
    (fun _ h => absurd h (by simp)) (grown_refl _ _)
  exact ⟨this.1, fun z hz => this.2.1 z (by simp) hz, fun x hx => this.2.2.1 x (.inr hx), this.2.2.2⟩

theorem regChange_id : RegChange id := ⟨fun _ _ _ _ _ _ _ => rfl, fun _ _ _ _ _ _ _ _ _ => rfl, fun _ => rfl⟩

end Sys2Proof.Machine
end

