-- ==== Sys2Proof/Laws/Parking.lean ====
section
/-!
SUPPORT. What taking a fault does (Machine/Ops.lean State.park).
-/
namespace Sys2Proof.Machine

open Sys2Proof.Claims

theorem freshFrom_not_mem (used : List Nat) (n fuel : Nat) (h : (used.filter fun x => n ≤ x).length ≤ fuel) :
    freshFrom used n fuel ∉ used := by
  induction fuel generalizing n with
  | zero =>
    intro hm
    have : n ∈ used.filter fun x => n ≤ x := List.mem_filter.mpr ⟨hm, by simp⟩
    rw [List.length_eq_zero_iff.mp (Nat.le_zero.mp h)] at this
    cases this
  | succ fuel ih =>
    unfold freshFrom
    split
    · rename_i hc
      apply ih
      have hm : n ∈ used := by simpa using hc
      have hlt : (used.filter fun x => n + 1 ≤ x).length < (used.filter fun x => n ≤ x).length := by
        clear ih h hc
        induction used with
        | nil => cases hm
        | cons a r ihr =>
          have hle : ∀ l : List Nat, (l.filter fun x => n + 1 ≤ x).length ≤ (l.filter fun x => n ≤ x).length := by
            intro l
            induction l with
            | nil => simp
            | cons b l ihl =>
              simp only [List.filter_cons]
              split <;> split <;> simp_all <;> omega
          rcases List.mem_cons.mp hm with h | h
          · subst h
            have := hle r
            have h1 : decide (n + 1 ≤ n) = false := by simp
            simp only [List.filter_cons, h1, Nat.le_refl, decide_true, if_true, List.length_cons]
            exact Nat.lt_succ_of_le this
          · have := ihr h
            simp only [List.filter_cons]
            split <;> split <;> simp_all <;> omega
      omega
    · rename_i hc
      simpa using hc

theorem State.park_spec (s : State) (c : Nat) (q : ParkReq) : Parked s (s.park c q) c q := by
  refine ⟨fun h => by simp [State.park, h], fun h => ?_⟩
  have he : q.slots.isEmpty = false := by simpa using h
  have hf := freshFrom_not_mem ((s.core c).psets.map (·.pset) ++ s.savedPsets c) 0
    ((s.core c).psets.map (·.pset) ++ s.savedPsets c).length (List.length_filter_le _ _)
  generalize hn : freshFrom ((s.core c).psets.map (·.pset) ++ s.savedPsets c) 0
    ((s.core c).psets.map (·.pset) ++ s.savedPsets c).length = n at hf
  refine ⟨((s.core c).mapThreads q.slots fun _ t => parkedThread q t).threads, n, fun p hp e => hf ?_, fun hm => hf ?_, fun x => ?_, ?_⟩
  · exact List.mem_append_left _ (List.mem_map.mpr ⟨p, hp, e⟩)
  · exact List.mem_append_right _ hm
  · exact Core.thread_mapThreads (s.core c) q.slots (fun _ t => parkedThread q t) x
  · unfold State.park
    rw [if_neg (by simp [he])]
    simp only [hn]
    rfl

end Sys2Proof.Machine
end

