-- ==== Sys2Proof/Laws/PerInstr.lean ====
section
/-!
SUPPORT. The shape of every instruction's words (R43, R44), one lemma per constructor of Instr.
-/
namespace Sys2Proof.Laws.WordShape

/-- The words that follow a first word with the length field l (R43). -/
def following (l : Nat) : Nat := if l = 0 then 0 else if l = 3 then 4 else 2

/-- The words of an instruction are words, and the first one's bits [31:30] give their number; a step of the machine has none. -/
def Fits : List Nat → Prop
  | [] => True
  | w :: r => w < 2 ^ 32 ∧ (∀ x ∈ r, x < 2 ^ 32) ∧ r.length = following (w / 2 ^ 30)

def Statement (i : Instr) : Prop := Fits (encode i)

theorem bit_lt (b : Bool) : Bool.bit b < 2 := by cases b <;> decide

theorem kind_lt (k : OpKind) : k.code < 4 := by cases k <;> decide

theorem litWords_lt (l : Dword) : ∀ x ∈ litWords (some l), x < 2 ^ 32 := by
  intro x hx
  have := l.isLt
  simp only [litWords, List.mem_cons, List.not_mem_nil, or_false] at hx
  omega

/-- Fields that fit give a word that fits. -/
theorem pack_lt : ∀ l : List (Nat × Nat), (∀ e ∈ l, e.2 < 2 ^ e.1) → pack l < 2 ^ (l.map (·.1)).sum
  | [], _ => by simp [pack]
  | (k, v) :: r, h => by
    have hv : v < 2 ^ k := h (k, v) (List.mem_cons_self ..)
    have hr := pack_lt r fun e he => h e (List.mem_cons_of_mem _ he)
    simp only [pack, List.map_cons, List.sum_cons, Nat.pow_add]
    calc v + 2 ^ k * pack r < 2 ^ k * (pack r + 1) := by rw [Nat.mul_succ]; omega
      _ ≤ 2 ^ k * 2 ^ (r.map (·.1)).sum := Nat.mul_le_mul_left _ hr

theorem word0 {l op w d a b : Nat} (hl : l < 4) (ho : op < 256) (hw : w < 2) (hd : d < 128) (ha : a < 128) (hb : b < 128) :
    encWord0 l op w d a b < 2 ^ 32 ∧ encWord0 l op w d a b / 2 ^ 30 = l := by
  simp only [encWord0, pack]; omega

theorem word1 {g : Guard} {sub rm sat c xd xa xb xc xs sa sb : Nat} (h : sub < 16 ∧ rm < 8 ∧ sat < 2 ∧ c < 256) (hx : xd < 2 ∧ xa < 2 ∧ xb < 2 ∧ xc < 2)
    (hs : xs < 4 ∧ sa < 8 ∧ sb < 8) : encWord1 g sub rm sat c xd xa xb xc xs sa sb < 2 ^ 32 := by
  refine pack_lt _ ?_
  simp only [List.mem_cons, List.not_mem_nil, or_false]
  rintro e (rfl | rfl | rfl | rfl | rfl | rfl | rfl | rfl | rfl | rfl | rfl | rfl | rfl) <;>
    first | exact bit_lt _ | exact g.p.isLt | (simp only; omega)

theorem three {w0 w1 w2 l : Nat} (h0 : w0 < 2 ^ 32 ∧ w0 / 2 ^ 30 = l) (hl : following l = 2) (h1 : w1 < 2 ^ 32) (h2 : w2 < 2 ^ 32) :
    Fits [w0, w1, w2] := by
  refine ⟨h0.1, ?_, ?_⟩
  · simp only [List.mem_cons, List.not_mem_nil, or_false]
    rintro x (rfl | rfl) <;> assumption
  · rw [h0.2, hl]; rfl

theorem five {w0 w1 w2 : Nat} {l : Dword} (h0 : w0 < 2 ^ 32 ∧ w0 / 2 ^ 30 = 3) (h1 : w1 < 2 ^ 32) (h2 : w2 < 2 ^ 32) :
    Fits ([w0, w1, w2] ++ litWords (some l)) := by
  refine ⟨h0.1, ?_, by rw [h0.2]; rfl⟩
  show ∀ x ∈ w1 :: w2 :: litWords (some l), x < 2 ^ 32
  intro x hx
  rcases List.mem_cons.1 hx with rfl | hx
  · exact h1
  rcases List.mem_cons.1 hx with rfl | hx
  · exact h2
  exact litWords_lt l x hx

theorem EForm.words_lt (f : EForm) : f.word1 < 2 ^ 32 ∧ ∀ e ∈ f.high, e.2 < 2 ^ e.1 := by
  have := f.d.code.isLt
  have := f.a.code.isLt
  have := f.b.code.isLt
  have k := kind_lt
  have b := bit_lt
  constructor
  · exact word1 ⟨f.sub.isLt, f.rm.isLt, b _, f.c.code.isLt⟩ ⟨b _, b _, b _, b _⟩ ⟨f.xs.isLt, f.sa.isLt, f.sb.isLt⟩
  · simp only [EForm.high, List.mem_cons, List.not_mem_nil, or_false]
    rintro e (rfl | rfl | rfl | rfl | rfl | rfl | rfl | rfl | rfl | rfl) <;> first | exact k _ | exact b _ | (simp only; omega)

theorem EForm.fits (f : EForm) {op w2 : Nat} (ho : op < 256) (h2 : w2 < 2 ^ 32) : Fits ([f.word0 op, f.word1, w2] ++ litWords f.lit) := by
  have h := @word0 (if f.lit.isSome then 3 else 1) op (Bool.bit f.w) (f.d.code.toNat % 128) (f.a.code.toNat % 128) (f.b.code.toNat % 128)
    (by split <;> omega) ho (bit_lt _) (by omega) (by omega) (by omega)
  have h1 := (EForm.words_lt f).1
  change f.word0 op < 2 ^ 32 ∧ f.word0 op / 2 ^ 30 = _ at h
  revert h
  cases f.lit with
  | none => exact fun h => three h rfl (EForm.words_lt f).1 h2
  | some l => exact fun h => five h (EForm.words_lt f).1 h2

theorem ofReg {i : Instr} {op : Nat} {f : EForm} (h : encode i = encReg op f) (ho : op < 256) : Statement i := by
  rw [Statement, h]
  refine EForm.fits f ho (pack_lt ([(8, f.imm8.toNat), (10, 0)] ++ f.high) ?_)
  intro e he
  simp only [List.cons_append, List.nil_append, List.mem_cons] at he
  rcases he with rfl | rfl | he
  · exact f.imm8.isLt
  · decide
  · exact (EForm.words_lt f).2 e he

theorem ofMem {i : Instr} {op : Nat} {m : MForm} (h : encode i = encMem op m) (ho : op < 256) : Statement i := by
  rw [Statement, h]
  refine EForm.fits m.e ho (pack_lt
    ([(8, m.e.imm8.toNat), (4, m.dx.toNat), (2, m.ok.toNat), (2, m.sc.toNat), (2, m.ch.toNat)] ++ m.e.high) ?_)
  intro e he
  simp only [List.cons_append, List.nil_append, List.mem_cons] at he
  rcases he with rfl | rfl | rfl | rfl | rfl | he
  · exact m.e.imm8.isLt
  · exact m.dx.isLt
  · exact m.ok.isLt
  · exact m.sc.isLt
  · exact m.ch.isLt
  · exact (EForm.words_lt m.e).2 e he

theorem one {w0 : Nat} (h0 : w0 < 2 ^ 32 ∧ w0 / 2 ^ 30 = 0) : Fits [w0] :=
  ⟨h0.1, by simp, by rw [h0.2]; rfl⟩

/-- The first two words of the E shape where no operand is more than a code. -/
theorem ofE {op d a b c sub rm sat : Nat} {g : Guard} {w2 : Nat} (ho : op < 256) (hd : d < 128 ∧ a < 128 ∧ b < 128)
    (h : sub < 16 ∧ rm < 8 ∧ sat < 2 ∧ c < 256) (h2 : w2 < 2 ^ 32) :
    Fits [encWord0 1 op 0 d a b, encWord1 g sub rm sat c 0 0 0 0 0 0 0, w2] :=
  three (word0 (by decide) ho (by decide) hd.1 hd.2.1 hd.2.2) rfl (word1 h (by decide) (by decide)) h2

theorem ofEng {i : Instr} {op : Nat} {f : GForm} (h : encode i = encEng op f) (ho : op < 256) : Statement i := by
  rw [Statement, h]
  have := f.d.isLt
  have := f.a.isLt
  have := f.b.isLt
  have b := bit_lt
  refine ofE ho (by omega) ⟨f.sub.isLt, f.rm.isLt, b _, f.c.isLt⟩ (pack_lt _ ?_)
  simp only [List.mem_cons, List.not_mem_nil, or_false]
  rintro e (rfl | rfl | rfl | rfl | rfl | rfl | rfl | rfl | rfl | rfl | rfl | rfl | rfl) <;>
    first | exact b _ | exact BitVec.isLt _ | (simp only; omega)

theorem ofShort {i : Instr} {op w d a b : Nat} (h : encode i = [encWord0 0 op w d a b]) (ho : op < 256) (hw : w < 2) (hd : d < 128)
    (ha : a < 128) (hb : b < 128) : Statement i := by
  rw [Statement, h]; exact one (word0 (by omega) ho hw hd ha hb)

theorem low {l op n : Nat} (hl : l < 4) (ho : op < 252) (hn : n < 2 ^ 23) : encLow l op n < 2 ^ 32 ∧ encLow l op n / 2 ^ 30 = l := by
  simp only [encLow, pack]; omega

theorem ofLow {i : Instr} {op n : Nat} (h : encode i = [encLow 0 op n]) (ho : op < 252) (hn : n < 2 ^ 23) : Statement i := by
  rw [Statement, h]; exact one (low (by omega) ho hn)

theorem ofDirect {i : Instr} {op : Nat} {f : CForm} (h : encode i = encDirect op f) (ho : op < 252) : Statement i := by
  rw [Statement, h]
  obtain ⟨g, c, t⟩ := f
  have hc := c.isLt
  cases t with
  | rel off => exact ofE (by omega) (by decide) ⟨by decide, by decide, by decide, hc⟩ (Nat.lt_trans off.isLt (by decide))
  | absE l =>
    exact five (word0 (by decide) (by omega) (by decide) (by decide) (by decide) (by decide))
      (word1 ⟨by decide, by decide, by decide, hc⟩ (by decide) (by decide)) (by decide)
  | absB l =>
    have hn : directLowOf op c.toNat < 2 ^ 23 := by unfold directLowOf; split <;> omega
    have h0 := @low 2 op _ (by decide) ho hn
    exact ⟨h0.1, litWords_lt l, by rw [h0.2]; rfl⟩

theorem ofIndirect {i : Instr} {op : Nat} {f : JForm} (h : encode i = encIndirect op f) (ho : op < 256) : Statement i := by
  rw [Statement, h]
  have := f.a.isLt
  refine ofE ho (by omega) (by decide) (pack_lt _ ?_)
  simp only [List.mem_cons, List.not_mem_nil, or_false]
  rintro e (rfl | rfl | rfl | rfl | rfl) <;> first | exact bit_lt _ | (simp only; omega)

theorem ofPlain {i : Instr} {op : Nat} {f : XForm} (h : encode i = encPlain op f) (ho : op < 256) : Statement i := by
  rw [Statement, h]
  exact ofE ho (by decide) ⟨by decide, by decide, by decide, f.c.isLt⟩ (by decide)

theorem ofNone {i : Instr} (h : encode i = []) : Statement i := by rw [Statement, h]; trivial

/-! ## The constructors -/

theorem nop : Statement .nop := one (by decide)
theorem blockHeader (cf : Bool) (hwm : BitVec 9) (len : BitVec 12) : Statement (.blockHeader cf hwm len) := by
  have := hwm.isLt
  have := len.isLt
  have := bit_lt cf
  exact one (by simp only [pack]; omega)
theorem addB (f : BForm) : Statement (.addB f) := ofShort rfl (by decide) (bit_lt _) f.d.isLt f.a.isLt f.b.isLt
theorem addE (f : EForm) : Statement (.addE f) := ofReg rfl (by decide)
theorem subB (f : BForm) : Statement (.subB f) := ofShort rfl (by decide) (bit_lt _) f.d.isLt f.a.isLt f.b.isLt
theorem subE (f : EForm) : Statement (.subE f) := ofReg rfl (by decide)
theorem addc (f : EForm) : Statement (.addc f) := ofReg rfl (by decide)
theorem subb (f : EForm) : Statement (.subb f) := ofReg rfl (by decide)
theorem mulB (f : BForm) : Statement (.mulB f) := ofShort rfl (by decide) (bit_lt _) f.d.isLt f.a.isLt f.b.isLt
theorem mulE (f : EForm) : Statement (.mulE f) := ofReg rfl (by decide)
theorem mulhB (f : BForm) : Statement (.mulhB f) := ofShort rfl (by decide) (bit_lt _) f.d.isLt f.a.isLt f.b.isLt
theorem mulhE (f : EForm) : Statement (.mulhE f) := ofReg rfl (by decide)
theorem mad (f : EForm) : Statement (.mad f) := ofReg rfl (by decide)
theorem minB (f : BForm) : Statement (.minB f) := ofShort rfl (by decide) (bit_lt _) f.d.isLt f.a.isLt f.b.isLt
theorem minE (f : EForm) : Statement (.minE f) := ofReg rfl (by decide)
theorem maxB (f : BForm) : Statement (.maxB f) := ofShort rfl (by decide) (bit_lt _) f.d.isLt f.a.isLt f.b.isLt
theorem maxE (f : EForm) : Statement (.maxE f) := ofReg rfl (by decide)
theorem absB (f : BUnary) : Statement (.absB f) := ofShort rfl (by decide) (bit_lt _) f.d.isLt f.a.isLt (by decide)
theorem absE (f : EForm) : Statement (.absE f) := ofReg rfl (by decide)
theorem andB (f : BForm) : Statement (.andB f) := ofShort rfl (by decide) (bit_lt _) f.d.isLt f.a.isLt f.b.isLt
theorem andE (f : EForm) : Statement (.andE f) := ofReg rfl (by decide)
theorem orB (f : BForm) : Statement (.orB f) := ofShort rfl (by decide) (bit_lt _) f.d.isLt f.a.isLt f.b.isLt
theorem orE (f : EForm) : Statement (.orE f) := ofReg rfl (by decide)
theorem xorB (f : BForm) : Statement (.xorB f) := ofShort rfl (by decide) (bit_lt _) f.d.isLt f.a.isLt f.b.isLt
theorem xorE (f : EForm) : Statement (.xorE f) := ofReg rfl (by decide)
theorem andnB (f : BForm) : Statement (.andnB f) := ofShort rfl (by decide) (bit_lt _) f.d.isLt f.a.isLt f.b.isLt
theorem andnE (f : EForm) : Statement (.andnE f) := ofReg rfl (by decide)
theorem notB (f : BUnary) : Statement (.notB f) := ofShort rfl (by decide) (bit_lt _) f.d.isLt f.a.isLt (by decide)
theorem notE (f : EForm) : Statement (.notE f) := ofReg rfl (by decide)
theorem shlB (f : BForm) : Statement (.shlB f) := ofShort rfl (by decide) (bit_lt _) f.d.isLt f.a.isLt f.b.isLt
theorem shlE (f : EForm) : Statement (.shlE f) := ofReg rfl (by decide)
theorem shrB (f : BForm) : Statement (.shrB f) := ofShort rfl (by decide) (bit_lt _) f.d.isLt f.a.isLt f.b.isLt
theorem shrE (f : EForm) : Statement (.shrE f) := ofReg rfl (by decide)
theorem sarB (f : BForm) : Statement (.sarB f) := ofShort rfl (by decide) (bit_lt _) f.d.isLt f.a.isLt f.b.isLt
theorem sarE (f : EForm) : Statement (.sarE f) := ofReg rfl (by decide)
theorem rolB (f : BForm) : Statement (.rolB f) := ofShort rfl (by decide) (bit_lt _) f.d.isLt f.a.isLt f.b.isLt
theorem rolE (f : EForm) : Statement (.rolE f) := ofReg rfl (by decide)
theorem clz (f : EForm) : Statement (.clz f) := ofReg rfl (by decide)
theorem popc (f : EForm) : Statement (.popc f) := ofReg rfl (by decide)
theorem brev (f : EForm) : Statement (.brev f) := ofReg rfl (by decide)
theorem bfe (f : EForm) : Statement (.bfe f) := ofReg rfl (by decide)
theorem bfi (f : EForm) : Statement (.bfi f) := ofReg rfl (by decide)
theorem sel (f : EForm) : Statement (.sel f) := ofReg rfl (by decide)
theorem cmp (f : EForm) : Statement (.cmp f) := ofReg rfl (by decide)
theorem pand (f : EForm) : Statement (.pand f) := ofReg rfl (by decide)
theorem por (f : EForm) : Statement (.por f) := ofReg rfl (by decide)
theorem pxor (f : EForm) : Statement (.pxor f) := ofReg rfl (by decide)
theorem pnot (f : EForm) : Statement (.pnot f) := ofReg rfl (by decide)
theorem movB (f : BUnary) : Statement (.movB f) := ofShort rfl (by decide) (bit_lt _) f.d.isLt f.a.isLt (by decide)
theorem movE (f : EForm) : Statement (.movE f) := ofReg rfl (by decide)
theorem movlBL (w : Bool) (d : BitVec 7) (lit : Dword) : Statement (.movlBL w d lit) := by
  have h := @word0 2 0x25 (Bool.bit w) d.toNat 0 0 (by decide) (by decide) (bit_lt _) d.isLt (by decide) (by decide)
  exact ⟨h.1, litWords_lt lit, by rw [show encWord0 2 0x25 (Bool.bit w) d.toNat 0 0 / 2 ^ 30 = 2 from h.2]; rfl⟩
theorem movlEL (f : EForm) : Statement (.movlEL f) := ofReg rfl (by decide)
theorem lea (f : EForm) : Statement (.lea f) := ofReg rfl (by decide)
theorem cvt (f : EForm) : Statement (.cvt f) := ofReg rfl (by decide)
theorem pack8 (f : EForm) : Statement (.pack8 f) := ofReg rfl (by decide)
theorem pack4 (f : EForm) : Statement (.pack4 f) := ofReg rfl (by decide)
theorem faddB (f : BForm) : Statement (.faddB f) := ofShort rfl (by decide) (bit_lt _) f.d.isLt f.a.isLt f.b.isLt
theorem faddE (f : EForm) : Statement (.faddE f) := ofReg rfl (by decide)
theorem fsubB (f : BForm) : Statement (.fsubB f) := ofShort rfl (by decide) (bit_lt _) f.d.isLt f.a.isLt f.b.isLt
theorem fsubE (f : EForm) : Statement (.fsubE f) := ofReg rfl (by decide)
theorem fmulB (f : BForm) : Statement (.fmulB f) := ofShort rfl (by decide) (bit_lt _) f.d.isLt f.a.isLt f.b.isLt
theorem fmulE (f : EForm) : Statement (.fmulE f) := ofReg rfl (by decide)
theorem fma (f : EForm) : Statement (.fma f) := ofReg rfl (by decide)
theorem fminB (f : BForm) : Statement (.fminB f) := ofShort rfl (by decide) (bit_lt _) f.d.isLt f.a.isLt f.b.isLt
theorem fminE (f : EForm) : Statement (.fminE f) := ofReg rfl (by decide)
theorem fmaxB (f : BForm) : Statement (.fmaxB f) := ofShort rfl (by decide) (bit_lt _) f.d.isLt f.a.isLt f.b.isLt
theorem fmaxE (f : EForm) : Statement (.fmaxE f) := ofReg rfl (by decide)
theorem fcmp (f : EForm) : Statement (.fcmp f) := ofReg rfl (by decide)
theorem fclass (f : EForm) : Statement (.fclass f) := ofReg rfl (by decide)
theorem hfma2 (f : EForm) : Statement (.hfma2 f) := ofReg rfl (by decide)
theorem fdot2 (f : EForm) : Statement (.fdot2 f) := ofReg rfl (by decide)
theorem frcpB (f : BUnary) : Statement (.frcpB f) := ofShort rfl (by decide) (bit_lt _) f.d.isLt f.a.isLt (by decide)
theorem frcpE (f : EForm) : Statement (.frcpE f) := ofReg rfl (by decide)
theorem frsqB (f : BUnary) : Statement (.frsqB f) := ofShort rfl (by decide) (bit_lt _) f.d.isLt f.a.isLt (by decide)
theorem frsqE (f : EForm) : Statement (.frsqE f) := ofReg rfl (by decide)
theorem fsqrtB (f : BUnary) : Statement (.fsqrtB f) := ofShort rfl (by decide) (bit_lt _) f.d.isLt f.a.isLt (by decide)
theorem fsqrtE (f : EForm) : Statement (.fsqrtE f) := ofReg rfl (by decide)
theorem fdivB (f : BForm) : Statement (.fdivB f) := ofShort rfl (by decide) (bit_lt _) f.d.isLt f.a.isLt f.b.isLt
theorem fdivE (f : EForm) : Statement (.fdivE f) := ofReg rfl (by decide)
theorem fexp2B (f : BUnary) : Statement (.fexp2B f) := ofShort rfl (by decide) (bit_lt _) f.d.isLt f.a.isLt (by decide)
theorem fexp2E (f : EForm) : Statement (.fexp2E f) := ofReg rfl (by decide)
theorem flog2B (f : BUnary) : Statement (.flog2B f) := ofShort rfl (by decide) (bit_lt _) f.d.isLt f.a.isLt (by decide)
theorem flog2E (f : EForm) : Statement (.flog2E f) := ofReg rfl (by decide)
theorem fsinpiB (f : BUnary) : Statement (.fsinpiB f) := ofShort rfl (by decide) (bit_lt _) f.d.isLt f.a.isLt (by decide)
theorem fsinpiE (f : EForm) : Statement (.fsinpiE f) := ofReg rfl (by decide)
theorem fcospiB (f : BUnary) : Statement (.fcospiB f) := ofShort rfl (by decide) (bit_lt _) f.d.isLt f.a.isLt (by decide)
theorem fcospiE (f : EForm) : Statement (.fcospiE f) := ofReg rfl (by decide)
theorem ftwid (f : EForm) : Statement (.ftwid f) := ofReg rfl (by decide)
theorem braB (off : BitVec 21) : Statement (.braB off) := ofLow rfl (by decide) (Nat.lt_trans off.isLt (by decide))
theorem braE (f : CForm) : Statement (.braE f) := ofDirect rfl (by decide)
theorem brcB (cp : BitVec 3) (cn : Bool) (off : BitVec 17) : Statement (.brcB cp cn off) := by
  have := off.isLt
  have := cp.isLt
  have := bit_lt cn
  exact ofLow rfl (by decide) (by omega)
theorem brcE (f : CForm) : Statement (.brcE f) := ofDirect rfl (by decide)
theorem jmpiB (a : BitVec 7) : Statement (.jmpiB a) := ofShort rfl (by decide) (by decide) (by decide) a.isLt (by decide)
theorem jmpiE (f : JForm) : Statement (.jmpiE f) := ofIndirect rfl (by decide)
theorem callB (off : BitVec 21) : Statement (.callB off) := ofLow rfl (by decide) (Nat.lt_trans off.isLt (by decide))
theorem callE (f : CForm) : Statement (.callE f) := ofDirect rfl (by decide)
theorem calliB (a : BitVec 7) : Statement (.calliB a) := ofShort rfl (by decide) (by decide) (by decide) a.isLt (by decide)
theorem calliE (f : JForm) : Statement (.calliE f) := ofIndirect rfl (by decide)
theorem retB : Statement .retB := ofLow rfl (by decide) (by decide)
theorem retE (f : XForm) : Statement (.retE f) := ofPlain rfl (by decide)
theorem exitB : Statement .exitB := ofLow rfl (by decide) (by decide)
theorem exitE (f : XForm) : Statement (.exitE f) := ofPlain rfl (by decide)
theorem exittoB (keep : BitVec 8) (off : BitVec 13) : Statement (.exittoB keep off) := by
  have := off.isLt
  have := keep.isLt
  exact ofLow rfl (by decide) (by omega)
theorem exittoE (f : CForm) : Statement (.exittoE f) := ofDirect rfl (by decide)
theorem reformB (off : BitVec 21) : Statement (.reformB off) := ofLow rfl (by decide) (Nat.lt_trans off.isLt (by decide))
theorem reformE (f : CForm) : Statement (.reformE f) := ofDirect rfl (by decide)
theorem trapB (code : BitVec 8) : Statement (.trapB code) := ofLow rfl (by decide) (Nat.lt_trans code.isLt (by decide))
theorem trapE (f : XForm) : Statement (.trapE f) := ofPlain rfl (by decide)
theorem brkB (code : BitVec 8) : Statement (.brkB code) := ofLow rfl (by decide) (Nat.lt_trans code.isLt (by decide))
theorem brkE (f : XForm) : Statement (.brkE f) := ofPlain rfl (by decide)
theorem shflIdx (f : EForm) : Statement (.shflIdx f) := ofReg rfl (by decide)
theorem shflXor (f : EForm) : Statement (.shflXor f) := ofReg rfl (by decide)
theorem shflUp (f : EForm) : Statement (.shflUp f) := ofReg rfl (by decide)
theorem shflDown (f : EForm) : Statement (.shflDown f) := ofReg rfl (by decide)
theorem voteAny (f : EForm) : Statement (.voteAny f) := ofReg rfl (by decide)
theorem voteAll (f : EForm) : Statement (.voteAll f) := ofReg rfl (by decide)
theorem voteBallot (f : EForm) : Statement (.voteBallot f) := ofReg rfl (by decide)
theorem matchLanes (f : EForm) : Statement (.matchLanes f) := ofReg rfl (by decide)
theorem redux (f : EForm) : Statement (.redux f) := ofReg rfl (by decide)
theorem scan (f : EForm) : Statement (.scan f) := ofReg rfl (by decide)
theorem isect (f : EForm) : Statement (.isect f) := ofReg rfl (by decide)
theorem arrive (f : EForm) : Statement (.arrive f) := ofReg rfl (by decide)
theorem await (f : EForm) : Statement (.await f) := ofReg rfl (by decide)
theorem arwait (f : EForm) : Statement (.arwait f) := ofReg rfl (by decide)
theorem awaitElect (f : EForm) : Statement (.awaitElect f) := ofReg rfl (by decide)
theorem sign (f : EForm) : Statement (.sign f) := ofReg rfl (by decide)
theorem evpost (f : EForm) : Statement (.evpost f) := ofReg rfl (by decide)
theorem evwait (f : EForm) : Statement (.evwait f) := ofReg rfl (by decide)
theorem yield (f : EForm) : Statement (.yield f) := ofReg rfl (by decide)
theorem gdset (f : EForm) : Statement (.gdset f) := ofReg rfl (by decide)
theorem gdclr (f : EForm) : Statement (.gdclr f) := ofReg rfl (by decide)
theorem rdsys (f : EForm) : Statement (.rdsys f) := ofReg rfl (by decide)
theorem wrsys (f : EForm) : Statement (.wrsys f) := ofReg rfl (by decide)
theorem claim (f : EForm) : Statement (.claim f) := ofReg rfl (by decide)
theorem cede (f : EForm) : Statement (.cede f) := ofReg rfl (by decide)
theorem lfsrd (f : EForm) : Statement (.lfsrd f) := ofReg rfl (by decide)
theorem lfswr (f : EForm) : Statement (.lfswr f) := ofReg rfl (by decide)
theorem probe (f : EForm) : Statement (.probe f) := ofReg rfl (by decide)
theorem icinv (f : EForm) : Statement (.icinv f) := ofReg rfl (by decide)
theorem ld (f : MForm) : Statement (.ld f) := ofMem rfl (by decide)
theorem st (f : MForm) : Statement (.st f) := ofMem rfl (by decide)
theorem lds (f : MForm) : Statement (.lds f) := ofMem rfl (by decide)
theorem sts (f : MForm) : Statement (.sts f) := ofMem rfl (by decide)
theorem movixRead (f : MForm) : Statement (.movixRead f) := ofMem rfl (by decide)
theorem movixWrite (f : MForm) : Statement (.movixWrite f) := ofMem rfl (by decide)
theorem pf (f : MForm) : Statement (.pf f) := ofMem rfl (by decide)
theorem fenceAcq (f : MForm) : Statement (.fenceAcq f) := ofMem rfl (by decide)
theorem fenceRel (f : MForm) : Statement (.fenceRel f) := ofMem rfl (by decide)
theorem fenceAr (f : MForm) : Statement (.fenceAr f) := ofMem rfl (by decide)
theorem fenceSys (f : MForm) : Statement (.fenceSys f) := ofMem rfl (by decide)
theorem atom (min : BitVec 2) (f : MForm) : Statement (.atom min f) := ofMem (op := 0xC8 + min.toNat) (m := f) rfl (by have := min.isLt; omega)
theorem red (min : BitVec 2) (f : MForm) : Statement (.red min f) := ofMem (op := 0xCC + min.toNat) (m := f) rfl (by have := min.isLt; omega)
theorem mxacq (f : GForm) : Statement (.mxacq f) := ofEng rfl (by decide)
theorem mxrel (f : GForm) : Statement (.mxrel f) := ofEng rfl (by decide)
theorem omap (f : GForm) : Statement (.omap f) := ofEng rfl (by decide)
theorem mxwait (f : GForm) : Statement (.mxwait f) := ofEng rfl (by decide)
theorem mxfence (f : GForm) : Statement (.mxfence f) := ofEng rfl (by decide)
theorem mmad (f : GForm) : Statement (.mmad f) := ofEng rfl (by decide)
theorem mmas (f : GForm) : Statement (.mmas f) := ofEng rfl (by decide)
theorem mmaq (f : GForm) : Statement (.mmaq f) := ofEng rfl (by decide)
theorem mscal (f : GForm) : Statement (.mscal f) := ofEng rfl (by decide)
theorem aczero (f : GForm) : Statement (.aczero f) := ofEng rfl (by decide)
theorem acld (f : GForm) : Statement (.acld f) := ofEng rfl (by decide)
theorem acst (f : GForm) : Statement (.acst f) := ofEng rfl (by decide)
theorem acmov (f : GForm) : Statement (.acmov f) := ofEng rfl (by decide)
theorem spz (f : GForm) : Statement (.spz f) := ofEng rfl (by decide)
theorem tnew (f : GForm) : Statement (.tnew f) := ofEng rfl (by decide)
theorem tfree (f : GForm) : Statement (.tfree f) := ofEng rfl (by decide)
theorem tinfo (f : GForm) : Statement (.tinfo f) := ofEng rfl (by decide)
theorem tmov (f : GForm) : Statement (.tmov f) := ofEng rfl (by decide)
theorem tadd (f : GForm) : Statement (.tadd f) := ofEng rfl (by decide)
theorem tmul (f : GForm) : Statement (.tmul f) := ofEng rfl (by decide)
theorem trnd (f : GForm) : Statement (.trnd f) := ofEng rfl (by decide)
theorem tdense (f : GForm) : Statement (.tdense f) := ofEng rfl (by decide)
theorem tlu (f : GForm) : Statement (.tlu f) := ofEng rfl (by decide)
theorem tchol (f : GForm) : Statement (.tchol f) := ofEng rfl (by decide)
theorem ttrsm (f : GForm) : Statement (.ttrsm f) := ofEng rfl (by decide)
theorem tdelta (f : GForm) : Statement (.tdelta f) := ofEng rfl (by decide)
theorem tcopy (f : GForm) : Statement (.tcopy f) := ofEng rfl (by decide)
theorem gath (f : GForm) : Statement (.gath f) := ofEng rfl (by decide)
theorem scat (f : GForm) : Statement (.scat f) := ofEng rfl (by decide)
theorem rules (f : GForm) : Statement (.rules f) := ofEng rfl (by decide)
theorem tcwait (f : GForm) : Statement (.tcwait f) := ofEng rfl (by decide)
theorem spred (f : GForm) : Statement (.spred f) := ofEng rfl (by decide)
theorem sfetch (f : GForm) : Statement (.sfetch f) := ofEng rfl (by decide)
theorem scheck (f : GForm) : Statement (.scheck f) := ofEng rfl (by decide)
theorem swait (f : GForm) : Statement (.swait f) := ofEng rfl (by decide)
theorem send (core entry : Nat) : Statement (.send core entry) := ofNone rfl
theorem writeScratch (core entry : Nat) : Statement (.writeScratch core entry) := ofNone rfl
theorem register (lane : LaneId) : Statement (.register lane) := ofNone rfl
theorem atomicAtHome (lane : LaneId) : Statement (.atomicAtHome lane) := ofNone rfl
theorem homeReduction (lane : LaneId) : Statement (.homeReduction lane) := ofNone rfl
theorem readRequest (lane : LaneId) : Statement (.readRequest lane) := ofNone rfl
theorem readResponse (lane : LaneId) : Statement (.readResponse lane) := ofNone rfl
theorem windowWrite (lane : LaneId) : Statement (.windowWrite lane) := ofNone rfl
theorem acknowledgement (lane : LaneId) : Statement (.acknowledgement lane) := ofNone rfl
theorem atomicResult (lane : LaneId) : Statement (.atomicResult lane) := ofNone rfl
theorem satisfy (core load : Nat) : Statement (.satisfy core load) := ofNone rfl
theorem evict (view : ViewId) (word : Nat) : Statement (.evict view word) := ofNone rfl
theorem signature (core slot : Nat) : Statement (.signature core slot) := ofNone rfl
theorem engineStart (e : EngineId) (cmd : Nat) : Statement (.engineStart e cmd) := ofNone rfl
theorem discard (e : EngineId) (cmd : Nat) : Statement (.discard e cmd) := ofNone rfl
theorem commit (e : EngineId) (cmd : Nat) : Statement (.commit e cmd) := ofNone rfl
theorem complete (e : EngineId) (cmd : Nat) : Statement (.complete e cmd) := ofNone rfl
theorem copyPiece (core cmd : Nat) : Statement (.copyPiece core cmd) := ofNone rfl
theorem starterPiece (cluster cmd : Nat) : Statement (.starterPiece cluster cmd) := ofNone rfl
theorem residueVerdict (e : EngineId) (cmd : Nat) (pass : Bool) : Statement (.residueVerdict e cmd pass) := ofNone rfl
theorem remoteWriteAck (core cmd : Nat) : Statement (.remoteWriteAck core cmd) := ofNone rfl
theorem post (core crew : Nat) : Statement (.post core crew) := ofNone rfl
theorem take (core crew : Nat) : Statement (.take core crew) := ofNone rfl
theorem barrierArrive (core row : Nat) : Statement (.barrierArrive core row) := ofNone rfl
theorem advance (bar : BarId) : Statement (.advance bar) := ofNone rfl
theorem merge (core crew : Nat) : Statement (.merge core crew) := ofNone rfl
theorem drain (core crew : Nat) : Statement (.drain core crew) := ofNone rfl
theorem binSelection (core : Nat) (stream : Bool) : Statement (.binSelection core stream) := ofNone rfl
theorem issueGroupStart (core : Nat) (stream : Bool) : Statement (.issueGroupStart core stream) := ofNone rfl
theorem pendingResultReturn (core result : Nat) : Statement (.pendingResultReturn core result) := ofNone rfl
theorem spillRefile (core : Nat) : Statement (.spillRefile core) := ofNone rfl
theorem groupResume (core : Nat) (group : Nat) : Statement (.groupResume core group) := ofNone rfl
theorem claimGrant (core : Nat) : Statement (.claimGrant core) := ofNone rfl
theorem threadExit (core slot : Nat) : Statement (.threadExit core slot) := ofNone rfl
theorem reformHoldEnd (core bin : Nat) : Statement (.reformHoldEnd core bin) := ofNone rfl
theorem faultService (core pset : Nat) (pa : Nat) : Statement (.faultService core pset pa) := ofNone rfl
theorem release (m : OhpHdr) (r : ReleaseReq) : Statement (.release m r) := ofNone rfl
theorem translationVerdict (core req : Nat) : Statement (.translationVerdict core req) := ofNone rfl
theorem farLineFill (line : Nat) (data : BitVec 512) : Statement (.farLineFill line data) := ofNone rfl
theorem destinationUnreachable (dest : Dest) : Statement (.destinationUnreachable dest) := ofNone rfl
theorem llcWriteBack (line : Nat) : Statement (.llcWriteBack line) := ofNone rfl
theorem maintenanceCommand (range : PageRange) (phase : MaintPhase) : Statement (.maintenanceCommand range phase) := ofNone rfl
theorem migration (phase : MigPhase) : Statement (.migration phase) := ofNone rfl
theorem placement (lid : Nat) (gang : Nat) (place : List PlaceReq) (commit : Bool) : Statement (.placement lid gang place commit) := ofNone rfl
theorem abandon (lid : Nat) : Statement (.abandon lid) := ofNone rfl
theorem crewStart (lid gang : Nat) : Statement (.crewStart lid gang) := ofNone rfl
theorem crewDone (core crew : Nat) : Statement (.crewDone core crew) := ofNone rfl
theorem watchdogExpiry (lid gang : Nat) : Statement (.watchdogExpiry lid gang) := ofNone rfl
theorem stallNotice (lid gang : Nat) : Statement (.stallNotice lid gang) := ofNone rfl
theorem preemption (lid gang : Nat) : Statement (.preemption lid gang) := ofNone rfl
theorem gangResume (lid gang : Nat) : Statement (.gangResume lid gang) := ofNone rfl
theorem gangKill (lid gang : Nat) (t : TriggerReq) : Statement (.gangKill lid gang t) := ofNone rfl
theorem relaunch (lid gang : Nat) (place : List PlaceReq) : Statement (.relaunch lid gang place) := ofNone rfl
theorem heartbeat (standby : Bool) : Statement (.heartbeat standby) := ofNone rfl
theorem bringUp (ok : Bool) : Statement (.bringUp ok) := ofNone rfl
theorem partitionRegisterWrite (reg : PartReg) (value : Dword) : Statement (.partitionRegisterWrite reg value) := ofNone rfl
theorem farWriteBackAck (line : Nat) : Statement (.farWriteBackAck line) := ofNone rfl
theorem patrol (part : Nat) : Statement (.patrol part) := ofNone rfl
theorem partMigdropClear (part : Nat) (value : Word) : Statement (.partMigdropClear part value) := ofNone rfl
theorem partOrphanClear (part : Nat) (value : Word) : Statement (.partOrphanClear part value) := ofNone rfl
theorem partEccClear (part : Nat) (value : Dword) : Statement (.partEccClear part value) := ofNone rfl
theorem selPolicyWrite (core lid : Nat) (value : Word) : Statement (.selPolicyWrite core lid value) := ofNone rfl
theorem selAgeWrite (core lid : Nat) (value : Word) : Statement (.selAgeWrite core lid value) := ofNone rfl
theorem lfsrWrite (core slot : Nat) (value : Word) : Statement (.lfsrWrite core slot value) := ofNone rfl
theorem accStatWrite (core crew : Nat) (value : Word) : Statement (.accStatWrite core crew value) := ofNone rfl
theorem linkActivity (port : Nat) : Statement (.linkActivity port) := ofNone rfl
theorem malformedMessage (m : OhpHdr) : Statement (.malformedMessage m) := ofNone rfl
theorem farLineRequest (port : Nat) (va : Nat) : Statement (.farLineRequest port va) := ofNone rfl
theorem attestationRequest (m : OhpHdr) (nonce : BitVec 256) : Statement (.attestationRequest m nonce) := ofNone rfl
theorem latencyTolerance (m : OhpHdr) : Statement (.latencyTolerance m) := ofNone rfl
theorem recorderControl (m : OhpHdr) (base len : Nat) : Statement (.recorderControl m base len) := ofNone rfl
theorem imageLoad (m : OhpHdr) (slot : Bool) (image : Nat) : Statement (.imageLoad m slot image) := ofNone rfl
theorem sessionOpen (m : OhpHdr) (number : Nat) (endpoint : Nat) (glb : Bool) (asids : List Nat) : Statement (.sessionOpen m number endpoint glb asids) :=
  ofNone rfl
theorem sessionClose (m : OhpHdr) (number : Nat) : Statement (.sessionClose m number) := ofNone rfl
theorem inboundWrite (port : Nat) (supported : Bool) (va : Nat) (bytes : List Byte) : Statement (.inboundWrite port supported va bytes) := ofNone rfl
theorem ohpContain (m : OhpHdr) (lid gang : Nat) : Statement (.ohpContain m lid gang) := ofNone rfl
theorem ohpSuspend (m : OhpHdr) (lid gang : Nat) : Statement (.ohpSuspend m lid gang) := ofNone rfl
theorem ohpResume (m : OhpHdr) (lid gang : Nat) : Statement (.ohpResume m lid gang) := ofNone rfl
theorem farPageService (m : OhpHdr) (index : Nat) (remote : Nat) (data : BitVec 512) : Statement (.farPageService m index remote data) := ofNone rfl
theorem launchSubmission (m : OhpHdr) : Statement (.launchSubmission m) := ofNone rfl
theorem memoryWrite (m : OhpHdr) (bytes : List Byte) : Statement (.memoryWrite m bytes) := ofNone rfl
theorem memoryRead (m : OhpHdr) : Statement (.memoryRead m) := ofNone rfl
theorem heatUpdate : Statement .heatUpdate := ofNone rfl
theorem sweep : Statement .sweep := ofNone rfl
theorem dependencePoll : Statement .dependencePoll := ofNone rfl
theorem takeover : Statement .takeover := ofNone rfl
theorem deviceReset : Statement .deviceReset := ofNone rfl
theorem romReportTimeout : Statement .romReportTimeout := ofNone rfl
theorem powerStateEntry : Statement .powerStateEntry := ofNone rfl
theorem illegalInstruction : Statement .illegalInstruction := ofNone rfl
theorem standbyHeartbeatLoss : Statement .standbyHeartbeatLoss := ofNone rfl

end Sys2Proof.Laws.WordShape
end

