-- ==== Sys2Proof/Laws/Retire.lean ====
section
/-!
SUPPORT. What retiring threads does (Machine/Retire.lean): with no command pending it always succeeds, and it changes only threads,
rows and crews of the core, and barriers.
-/
namespace Sys2Proof.Machine

/-- Where retiring threads of core c leads from s: only threads, rows and crews of the core and barriers differ. -/
structure RetireFrame (c : Nat) (s t : State) : Prop where
  state : ∃ T R C bars, t.setCore c (t.core c) = { s.setCore c { s.core c with threads := T, rows := R, crews := C } with bars := bars }
  crewOf : ∀ x, (t.core c).crewOf x = (s.core c).crewOf x

theorem RetireFrame.refl (c : Nat) (s : State) : RetireFrame c s s :=
  ⟨⟨(s.core c).threads, (s.core c).rows, (s.core c).crews, s.bars, rfl⟩, fun _ => rfl⟩

theorem RetireFrame.core {c : Nat} {s t : State} (h : RetireFrame c s t) :
    t.core c = { s.core c with threads := (t.core c).threads, rows := (t.core c).rows, crews := (t.core c).crews } := by
  obtain ⟨T, R, C, b, e⟩ := h.state
  have : (t.setCore c (t.core c)).core c = t.core c := by simp
  rw [← this, e]
  simp [State.setCore, State.core]

theorem RetireFrame.trans {c : Nat} {s t u : State} (h : RetireFrame c s t) (h' : RetireFrame c t u) : RetireFrame c s u := by
  obtain ⟨T, R, C, b, e⟩ := h.state
  obtain ⟨T', R', C', b', e'⟩ := h'.state
  refine ⟨⟨T', R', C', b', ?_⟩, fun x => (h'.crewOf x).trans (h.crewOf x)⟩
  rw [e']
  have hk := h.core
  have e2 : ∀ k, t.setCore c k = { s.setCore c k with bars := b } := by
    intro k
    have := congrArg (fun z => State.setCore z c k) e
    simpa [State.setCore] using this
  rw [e2, hk]

theorem RetireFrame.sob {c : Nat} {s t : State} (h : RetireFrame c s t) : (t.core c).sob = (s.core c).sob := by rw [h.core]
theorem RetireFrame.bins {c : Nat} {s t : State} (h : RetireFrame c s t) : (t.core c).bins = (s.core c).bins := by rw [h.core]

/-! ## Convergence sets -/

/-- The crew's registers that stand in the map have no command pending. -/
def Crew.idle (r : Crew) : Prop := ∀ e ∈ r.cv, e.2.pending = none

theorem fmap_get_mem {α : Type} {d : α} {m : FMap α} {n : Nat} : FMap.get d m n = d ∨ (n, FMap.get d m n) ∈ m := by
  induction m with
  | nil => exact .inl rfl
  | cons e r ih =>
    obtain ⟨j, u⟩ := e
    unfold FMap.get
    split
    · rename_i h; subst h; exact .inr List.mem_cons_self
    · exact ih.imp id (List.mem_cons_of_mem _)

theorem fmap_mem_set {α : Type} {m : FMap α} {n : Nat} {v : α} {e : Nat × α} (h : e ∈ m.set n v) : e = (n, v) ∨ e ∈ m := by
  induction m with
  | nil => exact .inl (by simpa [FMap.set] using h)
  | cons a r ih =>
    obtain ⟨j, u⟩ := a
    simp only [FMap.set] at h
    split at h
    · rcases List.mem_cons.mp h with h | h
      · exact .inl h
      · exact .inr h
    · split at h
      · rcases List.mem_cons.mp h with h | h
        · exact .inl h
        · exact .inr (List.mem_cons_of_mem _ h)
      · rcases List.mem_cons.mp h with h | h
        · exact .inr (by rw [h]; exact List.mem_cons_self)
        · exact (ih h).imp id (List.mem_cons_of_mem _)

theorem Crew.idle_conv {r : Crew} (h : r.idle) (i : Nat) : (r.conv i).pending = none := by
  unfold Crew.conv
  rcases fmap_get_mem (d := ({} : ConvReg)) (m := r.cv) (n := i) with e | e
  · rw [e]
  · exact h _ e

/-- With nothing pending the sets are only stored. -/
theorem State.convSets_idle {s : State} {c w : Nat} (h : ((s.core c).crew w).idle) (i : Nat) (d g : List Nat) :
    s.convSets c w i d g =
      some (s.updCore c fun k => k.updCrew w fun r => r.setConv i { declared := d, signed := g }) := by
  unfold State.convSets
  simp only [Crew.idle_conv h i]

theorem Crew.conv_setConv (r : Crew) (i j : Nat) (v : ConvReg) : (r.setConv i v).conv j = if j = i then v else r.conv j := by
  unfold Crew.setConv Crew.conv
  split
  · rename_i h; subst h; simp
  · rename_i h; simp [FMap.get_set_other _ _ _ h]

/-- What undeclaring a thread does: nothing but sets of the crew, which lose it; nothing becomes pending. -/
theorem State.undeclare_idle (s : State) (c w x : Nat) (l : List Nat) (h : ((s.core c).crew w).idle) :
    ∃ t, s.undeclare c w x l = some t ∧ RetireFrame c s t ∧ (t.core c).threads = (s.core c).threads ∧
      (t.core c).rows = (s.core c).rows ∧ (∀ v, ((s.core c).crew v).idle → ((t.core c).crew v).idle) ∧
      (∀ v n y, y ∉ (((s.core c).crew v).conv n).declared → y ∉ (((t.core c).crew v).conv n).declared) ∧
      ∀ n, n ∈ l → x ∉ (((t.core c).crew w).conv n).declared := by
  induction l generalizing s with
  | nil =>
    exact ⟨s, rfl, RetireFrame.refl c s, rfl, rfl, fun _ h => h, fun _ _ _ h => h, fun _ h => absurd h (by simp)⟩
  | cons i r ih =>
    unfold State.undeclare
    simp only [State.convSets_idle h]
    generalize hs1 : s.updCore c _ = s1
    have hk : s1.core c = (s.core c).updCrew w fun q => q.setConv i { declared := (((s.core c).crew w).conv i).declared.filter (· ≠ x), signed := (((s.core c).crew w).conv i).signed.filter (· ≠ x) } := by
      rw [← hs1]; simp
    have hcrew (v : Nat) : (s1.core c).crew v = if v = w then ((s.core c).crew w).setConv i
          { declared := (((s.core c).crew w).conv i).declared.filter (· ≠ x),
            signed := (((s.core c).crew w).conv i).signed.filter (· ≠ x) }
        else (s.core c).crew v := by
      rw [hk, Core.crew_updCrew]
    have hfr : RetireFrame c s s1 := by
      refine ⟨⟨(s.core c).threads, (s.core c).rows, (s1.core c).crews, s.bars, ?_⟩, fun y => by rw [hk]; rfl⟩
      rw [hk, ← hs1]
      simp only [State.updCore, State.setCore_setCore]
      rfl
    have hidle (v : Nat) (hv : ((s.core c).crew v).idle) : ((s1.core c).crew v).idle := by
      rw [hcrew]
      split
      · intro e he
        rcases fmap_mem_set he with h' | h'
        · rw [h']
        · exact h e h'
      · exact hv
    have hdecl (v n y : Nat) (hy : y ∉ (((s.core c).crew v).conv n).declared) : y ∉ (((s1.core c).crew v).conv n).declared := by
      rw [hcrew]
      split
      · rename_i hv; subst hv
        rw [Crew.conv_setConv]
        split
        · rename_i hn; subst hn
          intro hm
          exact hy (List.mem_filter.mp hm).1
        · exact hy
      · exact hy
    have hx : x ∉ (((s1.core c).crew w).conv i).declared := by
      rw [hcrew, if_pos rfl, Crew.conv_setConv, if_pos rfl]
      simp
    obtain ⟨t, h1, h2, h3, h4, h5, h6, h7⟩ := ih s1 (hidle w h)
    refine ⟨t, h1, hfr.trans h2, h3.trans (by rw [hk]; rfl), h4.trans (by rw [hk]; rfl), fun v hv => h5 v (hidle v hv),
      fun v n y hy => h6 v n y (hdecl v n y hy), fun n hn => ?_⟩
    rcases List.mem_cons.mp hn with e | e
    · subst e; exact h6 w _ x hx
    · exact h7 n e

/-! ## Allotments -/

/-- Shrinking a cohort keeps what matters to others: phases, filing, latches and the rows' crews. -/
theorem Core.shrink_keeps (k : Core) (r : Nat) :
    (k.shrink r = { k with threads := (k.shrink r).threads, rows := (k.shrink r).rows }) ∧
      (∀ x, (k.shrink r).crewOf x = k.crewOf x) ∧
      ∀ x, ((k.shrink r).thread x).phase = (k.thread x).phase ∧ ((k.shrink r).thread x).bp = (k.thread x).bp ∧
        ((k.shrink r).thread x).next = (k.thread x).next := by
  have hrow (k : Core) (r a : Nat) : (k.updRow r fun row => { row with allot := a }).crewOf = k.crewOf := by
    funext x
    unfold Core.crewOf
    rw [Core.row_updRow]
    split
    · rename_i h; rw [h]
    · rfl
  unfold Core.shrink
  dsimp only
  split
  · exact ⟨rfl, fun x => by rw [hrow], fun x => ⟨rfl, rfl, rfl⟩⟩
  · split
    · generalize (min (_ : Nat) (_ : Nat)) = a
      have hfold (l : List Nat) (k : Core) :
          let j := l.foldl (fun k x => k.updThread x fun t => { t with keep := none, v := t.v.filter fun e => e.1 < a }) k
          j = { k with threads := j.threads } ∧ ∀ x, (j.thread x).phase = (k.thread x).phase ∧ (j.thread x).bp = (k.thread x).bp ∧
            (j.thread x).next = (k.thread x).next := by
        induction l generalizing k with
        | nil => exact ⟨rfl, fun x => ⟨rfl, rfl, rfl⟩⟩
        | cons y l ih =>
          have hh := ih (k.updThread y fun t => { t with keep := none, v := t.v.filter fun e => e.1 < a })
          simp only [List.foldl_cons] at hh ⊢
          refine ⟨hh.1.trans rfl, fun x => ?_⟩
          have := hh.2 x
          rw [this.1, this.2.1, this.2.2, Core.thread_updThread]
          split
          · rename_i hx; subst hx; exact ⟨rfl, rfl, rfl⟩
          · exact ⟨rfl, rfl, rfl⟩
      have hf := hfold (k.liveSlots r) k
      simp only [] at hf
      generalize List.foldl _ k (k.liveSlots r) = j at hf
      obtain ⟨hf1, hf2⟩ := hf
      generalize j.threads = T at hf1
      subst hf1
      exact ⟨rfl, fun x => by rw [hrow]; rfl, hf2⟩
    · exact ⟨rfl, fun _ => rfl, fun _ => ⟨rfl, rfl, rfl⟩⟩

/-! ## One thread -/

/-- A drained thread of a crew with nothing pending retires: it is Exited, without latches, in no declared set. -/
theorem State.retire_idle (s : State) (c x : Nat) (hd : (s.core c).drained x = true) (hi : ((s.core c).crewAt x).idle) :
    ∃ t, s.retire c x = some t ∧ RetireFrame c s t ∧
      ((t.core c).thread x).phase = .exited ∧ ((t.core c).thread x).bp = [] ∧
      (∀ n, x ∉ (((t.core c).crewAt x).conv n).declared) ∧
      (∀ y, y ≠ x → ((t.core c).thread y).phase = ((s.core c).thread y).phase ∧ ((t.core c).thread y).bp = ((s.core c).thread y).bp ∧
        ((t.core c).thread y).next = ((s.core c).thread y).next) ∧
      (∀ v, ((s.core c).crew v).idle → ((t.core c).crew v).idle) ∧
      ∀ v n y, y ∉ (((s.core c).crew v).conv n).declared → y ∉ (((t.core c).crew v).conv n).declared := by
  obtain ⟨u, h1, h2, h3, h4, h5, h6, h7⟩ := s.undeclare_idle c ((s.core c).crewOf x) x ((s.core c).crewAt x).cv.keys hi
  unfold State.retire
  dsimp only
  rw [if_pos hd, h1]
  dsimp only
  generalize hv : u.updCore c _ = w
  have hw : w.core c = ((u.core c).updThread x fun t => { t with phase := .exited, bp := [], resume := none }).shrink (rowOf x) := by
    rw [← hv]; simp
  obtain ⟨k1, k2, k3⟩ := Core.shrink_keeps ((u.core c).updThread x fun t => { t with phase := .exited, bp := [], resume := none }) (rowOf x)
  rw [← hw] at k1 k2 k3
  have hgone : ∃ bars, w.cohortGone c (rowOf x) = { w with bars := bars } := by
    unfold State.cohortGone
    dsimp only
    split
    · exact ⟨_, rfl⟩
    · exact ⟨w.bars, rfl⟩
  obtain ⟨bars, hb⟩ := hgone
  have hcore : (w.cohortGone c (rowOf x)).core c = w.core c := by rw [hb]; rfl
  have hcrew (v : Nat) : (w.core c).crew v = (u.core c).crew v := by rw [k1]; rfl
  have hco : ∀ y, (w.core c).crewOf y = (s.core c).crewOf y := fun y => (k2 y).trans (h2.crewOf y)
  refine ⟨_, rfl, h2.trans ⟨⟨(w.core c).threads, (w.core c).rows, (w.core c).crews, bars, ?_⟩, fun y => ?_⟩, ?_, ?_, ?_, ?_, ?_, ?_⟩
  · rw [hcore, hb]
    have hw3 : w.core c = { u.core c with threads := (w.core c).threads, rows := (w.core c).rows, crews := (w.core c).crews } := by
      have hcr : (w.core c).crews = (u.core c).crews := by rw [k1]; rfl
      rw [hcr]
      exact k1
    have hw4 (k : Core) : ({ w with bars := bars } : State).setCore c k = { u.setCore c k with bars := bars } := by
      rw [← hv]
      simp [State.updCore, State.setCore]
    rw [hw4]
    conv => lhs; rw [hw3]
  · rw [hcore]; exact k2 y
  · rw [hcore, (k3 x).1, Core.thread_updThread, if_pos rfl]
  · rw [hcore, (k3 x).2.1, Core.thread_updThread, if_pos rfl]
  · intro n
    rw [hcore]
    unfold Core.crewAt
    rw [hco, hcrew]
    by_cases hn : n ∈ ((s.core c).crewAt x).cv.keys
    · exact h7 n hn
    · apply h6
      have : ((s.core c).crew ((s.core c).crewOf x)).conv n = {} := by
        unfold Crew.conv
        rcases fmap_get_mem (d := ({} : ConvReg)) (m := ((s.core c).crew ((s.core c).crewOf x)).cv) (n := n) with e | e
        · exact e
        · exact absurd (List.mem_map.mpr ⟨_, e, rfl⟩) hn
      rw [this]
      simp
  · intro y hy
    rw [hcore, (k3 y).1, (k3 y).2.1, (k3 y).2.2, Core.thread_updThread, if_neg hy]
    unfold Core.thread
    rw [h3]
    exact ⟨rfl, rfl, rfl⟩
  · intro v hv'
    rw [hcore, hcrew]; exact h5 v hv'
  · intro v n y hy
    rw [hcore, hcrew]; exact h6 v n y hy

end Sys2Proof.Machine
end

