-- ==== Sys2Proof/Tests/Slice0.lean ====
section
/-!
SUPPORT. Tests: words of the encodings; ill-formed terms; for every statement with hypotheses, concrete states and operands that
meet them (the theorems meets_…); and one step of instructions, with results worked out from the spec's rules by hand.
-/
namespace Sys2Proof.Tests
open Sys2Proof Sys2Proof.Machine Sys2Proof.Claims

/-! ## Helpers -/

def always : Guard := ⟨7, false⟩
def zero : Opnd := ⟨.vec, 0, false, false⟩
def vr (n : BitVec 8) : Opnd := ⟨.vec, n, false, false⟩
def sr (n : BitVec 8) : Opnd := ⟨.scl, n, false, false⟩
def sp (n : BitVec 8) : Opnd := ⟨.spc, n, false, false⟩
def im : Opnd := ⟨.imm, 0, false, false⟩
def e0 : EForm :=
  { lit := none, w := false, guard := always, sub := 0, rm := 0, sat := false, d := zero, a := zero, b := zero, c := zero, xs := 0, sa := 0,
    sb := 0, imm8 := 0 }
def m0 : MForm := ⟨e0, 0, 0, 0, 0⟩
def g0 : GForm :=
  { guard := always, sub := 0, rm := 0, sat := false, d := 0, a := 0, b := 0, c := 0, n6 := 0, m2 := 0, gs := 0, gp := false, ge := false,
    cv := 0, imm8 := 0 }

/-- A group of core 0, stream 0, whose next words are these: one thread, in slot 0. -/
def grp (code : List Nat) : Group :=
  { id := 0, key := ⟨0, false, 0x400000000#64⟩, header := 0x400000000#64, members := [0], cols := [0], entering := false, headWord := 0,
    code := code, pc := 0, hwm := 256, len := 16 }

/-- Thread 0 has 7 in v1, 9 in v2 and true in p0; v4 is 3, v5 0x01000000, v6 0x40. -/
def thr : Thread := { phase := .streaming, v := [(1, 7), (2, 9), (4, 3), (5, 0x01000000), (6, 0x40)], p := 1 }

def core0 (g : Group) : Core := { probeCore g with threads := [(0, thr)] }

def at0 (g : Group) : State := { State.reset with agenda := [.issue 0 false], cores := [(0, core0 g)] }

/-- The words, of a block at 0x400000000, as they come next. -/
def st (code : List Nat) : State := at0 (grp code)

def s0 : State := st [0]

/-- The state after a step. -/
def after (s : State) : State := match step s with
  | .next t => t
  | _ => State.reset

/-- A thread after a step. -/
def thread0 (s : State) : Thread := (after s).cur.thread 0

theorem only {P : Nat → Prop} {l : List Nat} {n : Nat} (h : l = [n]) (p : P n) : ∀ x ∈ l, P x := by
  subst h; intro x hx; cases List.mem_singleton.1 hx; exact p

/-! ## Words of the encodings -/

def reads (ws : List Nat) (i : Instr) : Bool :=
  match decode ws with
  | .ok (j, n) => decide (j = i) && decide (n = ws.length)
  | .error _ => false

/-- R44 to R66: words of the integer family, each with the instruction it encodes. -/
def words_integer : List (List Nat × Instr) := [
  -- nop
  ([0x00000000], .nop),
  -- add.i32 v5, v6, ^
  ([0x0001437E], .addB ⟨false, 5, 6, 126⟩),
  -- (!p2) add.i64.sat v[130:131], s[4:5], -3
  ([0x40008200, 0x53100000, 0x806000FD], .addE { e0 with guard := ⟨2, true⟩, sub := 3, imm8 := 253, sat := true, d := vr 130, a := sr 4, b := im }),
  -- sub _, v1, v2
  ([0x00600082], .subB ⟨true, 0, 1, 2⟩),
  -- sub.n8 v9, v200, v3
  ([0x40426403, 0xE9000000, 0x40000000], .subE { e0 with sub := 9, d := vr 9, a := vr 200, b := vr 3 }),
  -- addc.n32 v3, v4, v5, p1
  ([0x4080C205, 0xE1001000, 0x000C0000], .addc { e0 with sub := 1, d := vr 3, a := vr 4, b := vr 5, c := sp 1 }),
  -- subb.b64 v[2:3], v[4:5], v[6:7], p6
  ([0x40C08206, 0xE5006000, 0x000C0000], .subb { e0 with sub := 5, d := vr 2, a := vr 4, b := vr 6, c := sp 6 }),
  -- mul.i32 v1, v2, v3
  ([0x01004103], .mulB ⟨false, 1, 2, 3⟩),
  -- mul.i16.sat v1, v2, bp3
  ([0x41004103, 0xE6100000, 0x08000000], .mulE { e0 with sub := 6, sat := true, d := vr 1, a := vr 2, b := ⟨.vec, 3, true, false⟩ }),
  -- mulh.i32 v1, v2, v3
  ([0x01404103], .mulhB ⟨false, 1, 2, 3⟩),
  -- mulh.n64 v[8:9], v[10:11], v[12:13]
  ([0x4142050C, 0xE4000000, 0x00000000], .mulhE { e0 with sub := 4, d := vr 8, a := vr 10, b := vr 12 }),
  -- mad.i32 s7, v2, v[x1+3], s5
  ([0x4181C103, 0xE0005240, 0x01040000], .mad { e0 with xs := 1, d := sr 7, a := vr 2, b := ⟨.vec, 3, false, true⟩, c := sr 5 }),
  -- min.i32 v1, v2, v3
  ([0x02004103], .minB ⟨false, 1, 2, 3⟩),
  -- min.n16 v1, v2, v3
  ([0x42004103, 0xE7000000, 0x00000000], .minE { e0 with sub := 7, d := vr 1, a := vr 2, b := vr 3 }),
  -- max.i32 v1, v2, v3
  ([0x02404103], .maxB ⟨false, 1, 2, 3⟩),
  -- max.i8 v1, v2, v3
  ([0x42404103, 0xE8000000, 0x00000000], .maxE { e0 with sub := 8, d := vr 1, a := vr 2, b := vr 3 }),
  -- abs.i32 v1, v2
  ([0x02804100], .absB ⟨false, 1, 2⟩),
  -- abs.i32.sat v1, s63
  ([0x42805F80, 0xE0100000, 0x00400000], .absE { e0 with sat := true, d := vr 1, a := sr 63 }),
  -- and v1, v2, v3
  ([0x03004103], .andB ⟨false, 1, 2, 3⟩),
  -- and.b64 v[2:3], v[4:5], 0x123456789
  ([0xC3008200, 0xE5000000, 0x00200000, 0x23456789, 0x00000001], .andE { e0 with lit := some 0x123456789, sub := 5, d := vr 2, a := vr 4, b := im }),
  -- or v1, v2, v3
  ([0x03404103], .orB ⟨false, 1, 2, 3⟩),
  -- or.b32 v1, v2, s3
  ([0x43404103, 0xE2000000, 0x00100000], .orE { e0 with sub := 2, d := vr 1, a := vr 2, b := sr 3 }),
  -- xor v1, v2, v3
  ([0x03804103], .xorB ⟨false, 1, 2, 3⟩),
  -- xor.b32 v1, v2, 1
  ([0x43804100, 0xE2000000, 0x00200001], .xorE { e0 with sub := 2, imm8 := 1, d := vr 1, a := vr 2, b := im }),
  -- andn v1, v2, v3
  ([0x03C04103], .andnB ⟨false, 1, 2, 3⟩),
  -- andn.b32 v3, v1, v2
  ([0x43C0C082, 0xE2000000, 0x00000000], .andnE { e0 with sub := 2, d := vr 3, a := vr 1, b := vr 2 }),
  -- not v1, v2
  ([0x04004100], .notB ⟨false, 1, 2⟩),
  -- not.b32 v1, v2
  ([0x44004100, 0xE2000000, 0x00000000], .notE { e0 with sub := 2, d := vr 1, a := vr 2 }),
  -- shl v1, v2, v3
  ([0x04404103], .shlB ⟨false, 1, 2, 3⟩),
  -- shl.b32 v1, v2, 4
  ([0x44404100, 0xE2000000, 0x00200004], .shlE { e0 with sub := 2, imm8 := 4, d := vr 1, a := vr 2, b := im }),
  -- shr v1, v2, v3
  ([0x04804103], .shrB ⟨false, 1, 2, 3⟩),
  -- shr.n32 v4, v3, 7
  ([0x44810180, 0xE1000000, 0x00200007], .shrE { e0 with sub := 1, imm8 := 7, d := vr 4, a := vr 3, b := im }),
  -- sar v1, v2, v3
  ([0x04C04103], .sarB ⟨false, 1, 2, 3⟩),
  -- sar.i64 v[2:3], v[4:5], v6
  ([0x44C08206, 0xE3000000, 0x00000000], .sarE { e0 with sub := 3, d := vr 2, a := vr 4, b := vr 6 }),
  -- rol v1, v2, v3
  ([0x05004103], .rolB ⟨false, 1, 2, 3⟩),
  -- rol.n8 v1, v2, v3
  ([0x45004103, 0xE9000000, 0x00000000], .rolE { e0 with sub := 9, d := vr 1, a := vr 2, b := vr 3 })]

theorem test_decode_integer : (words_integer.all fun e => reads e.1 e.2) = true := by decide

/-- R44 to R66: words of the bit, compare and move family, each with the instruction it encodes. -/
def words_bit_compare_and_move : List (List Nat × Instr) := [
  -- clz.b32 v1, v2
  ([0x45404100, 0xE2000000, 0x00000000], .clz { e0 with sub := 2, d := vr 1, a := vr 2 }),
  -- popc.b64 v[8:9], v[2:3]
  ([0x45820100, 0xE5000000, 0x00000000], .popc { e0 with sub := 5, d := vr 8, a := vr 2 }),
  -- brev.b32 v1, v2
  ([0x45C04100, 0xE2000000, 0x00000000], .brev { e0 with sub := 2, d := vr 1, a := vr 2 }),
  -- bfe.i32 v5, v4, 0x0804
  ([0xC6014200, 0xE0000000, 0x00200000, 0x00000804, 0x00000000], .bfe { e0 with lit := some 0x804, d := vr 5, a := vr 4, b := im }),
  -- bfi.b32 v6, v1, v6, 0x0410
  ([0xC6418086, 0xE2000000, 0x00080000, 0x00000410, 0x00000000], .bfi { e0 with lit := some 0x410, sub := 2, d := vr 6, a := vr 1, b := vr 6, c := im }),
  -- sel.b32 v7, v1, v2, p3
  ([0x4681C082, 0xE2003000, 0x000C0000], .sel { e0 with sub := 2, d := vr 7, a := vr 1, b := vr 2, c := sp 3 }),
  -- cmp.lt.i32 p1, v3, v4
  ([0x47004184, 0xE0002000, 0x03000000], .cmp { e0 with d := sp 1, a := vr 3, b := vr 4, c := vr 2 }),
  -- pand p3, p1, !p2
  ([0x4800C082, 0xE0000001, 0x03F00000], .pand { e0 with sb := 1, d := sp 3, a := sp 1, b := sp 2 }),
  -- por p3, !p7, p2
  ([0x4840C382, 0xE0000008, 0x03F00000], .por { e0 with sa := 1, d := sp 3, a := sp 7, b := sp 2 }),
  -- pxor p3, p1, p2
  ([0x4880C082, 0xE0000000, 0x03F00000], .pxor { e0 with d := sp 3, a := sp 1, b := sp 2 }),
  -- pnot p4, p4
  ([0x48C10200, 0xE0000000, 0x03C00000], .pnot { e0 with d := sp 4, a := sp 4 }),
  -- mov v1, v2
  ([0x09004100], .movB ⟨false, 1, 2⟩),
  -- mov x2, v5
  ([0x49028280, 0xE0000000, 0x03000000], .movE { e0 with d := sp 10, a := vr 5 }),
  -- movl v3, 0x89ABCDEF
  ([0x8940C000, 0x89ABCDEF, 0x00000000], .movlBL false 3 0x89ABCDEF),
  -- movl.b64 v[4:5], 0x1122334455667788
  ([0xC9410000, 0xE5000000, 0x00800000, 0x55667788, 0x11223344], .movlEL { e0 with lit := some 0x1122334455667788, sub := 5, d := vr 4, a := im }),
  -- lea v[4:5], s[2:3], v6, 2
  ([0x49810106, 0xE0002000, 0x00400000], .lea { e0 with d := vr 4, a := sr 2, b := vr 6, c := vr 2 })]

theorem test_decode_bit_compare_and_move : (words_bit_compare_and_move.all fun e => reads e.1 e.2) = true := by decide

/-- R44 to R66: words of the conversion and floating-point family, each with the instruction it encodes. -/
def words_conversion_and_floatingpoint : List (List Nat × Instr) := [
  -- cvt.bf16.f32.rs v1, v2
  ([0x4C004100, 0xE9A0A000, 0x00000000], .cvt { e0 with sub := 9, rm := 5, d := vr 1, a := vr 2, c := vr 10 }),
  -- pack8.e4m3.f16 v1, v2, v3
  ([0x4C404103, 0xEC008000, 0x00000000], .pack8 { e0 with sub := 12, d := vr 1, a := vr 2, b := vr 3, c := vr 8 }),
  -- pack4.e2m1.bf16.sat v1, v[2:3], v[4:5]
  ([0x4C804104, 0xEE109000, 0x00000000], .pack4 { e0 with sub := 14, sat := true, d := vr 1, a := vr 2, b := vr 4, c := vr 9 }),
  -- fadd v1, v2, v3
  ([0x10004103], .faddB ⟨false, 1, 2, 3⟩),
  -- fadd.f64.rz v[2:3], v[4:5], v[6:7]
  ([0x50008206, 0xE3200000, 0x00000000], .faddE { e0 with sub := 3, rm := 1, d := vr 2, a := vr 4, b := vr 6 }),
  -- fsub v1, v2, v3
  ([0x10404103], .fsubB ⟨false, 1, 2, 3⟩),
  -- fsub.f16 v1, v2, v3
  ([0x50404103, 0xE1000000, 0x00000000], .fsubE { e0 with sub := 1, d := vr 1, a := vr 2, b := vr 3 }),
  -- fmul v1, v2, v3
  ([0x10804103], .fmulB ⟨false, 1, 2, 3⟩),
  -- fmul.e4m3 v5, v8.byte2, v9
  ([0x50814409, 0xE4000010, 0x00000000], .fmulE { e0 with sub := 4, sa := 2, d := vr 5, a := vr 8, b := vr 9 }),
  -- fma.bf16.rz v4, v1, v2, v4
  ([0x50C10082, 0xE2204000, 0x00000000], .fma { e0 with sub := 2, rm := 1, d := vr 4, a := vr 1, b := vr 2, c := vr 4 }),
  -- fmin v1, v2, v3
  ([0x11004103], .fminB ⟨false, 1, 2, 3⟩),
  -- fmin.f32 v1, v2, s3
  ([0x51004103, 0xE0000000, 0x00100000], .fminE { e0 with d := vr 1, a := vr 2, b := sr 3 }),
  -- fmax v1, v2, v3
  ([0x11404103], .fmaxB ⟨false, 1, 2, 3⟩),
  -- fmax.f64 v[2:3], v[4:5], v[6:7]
  ([0x51408206, 0xE3000000, 0x00000000], .fmaxE { e0 with sub := 3, d := vr 2, a := vr 4, b := vr 6 }),
  -- fcmp.or.f32 p0, v1, v2
  ([0x51800082, 0xE0007000, 0x03000000], .fcmp { e0 with d := sp 0, a := vr 1, b := vr 2, c := vr 7 }),
  -- fclass.e2m1 v1, v2.nib7
  ([0x51C04100, 0xE6000038, 0x00000000], .fclass { e0 with sub := 6, sa := 7, d := vr 1, a := vr 2 }),
  -- hfma2.f16 v1, v2, v3, v4
  ([0x52004103, 0xE1004000, 0x00000000], .hfma2 { e0 with sub := 1, d := vr 1, a := vr 2, b := vr 3, c := vr 4 }),
  -- fdot2.bf16 v1, v2, v3, v4
  ([0x52404103, 0xE2004000, 0x00000000], .fdot2 { e0 with sub := 2, d := vr 1, a := vr 2, b := vr 3, c := vr 4 }),
  -- frcp v3, v1
  ([0x1300C080], .frcpB ⟨false, 3, 1⟩),
  -- frcp.f16 v3, v1
  ([0x5300C080, 0xE1000000, 0x00000000], .frcpE { e0 with sub := 1, d := vr 3, a := vr 1 }),
  -- frsq v3, v1
  ([0x1340C080], .frsqB ⟨false, 3, 1⟩),
  -- frsq.bf16 v3, v1
  ([0x5340C080, 0xE2000000, 0x00000000], .frsqE { e0 with sub := 2, d := vr 3, a := vr 1 }),
  -- fsqrt v3, v1
  ([0x1380C080], .fsqrtB ⟨false, 3, 1⟩),
  -- fsqrt.f64.ru v[2:3], v[4:5]
  ([0x53808200, 0xE3400000, 0x00000000], .fsqrtE { e0 with sub := 3, rm := 2, d := vr 2, a := vr 4 }),
  -- fdiv v1, v2, v3
  ([0x13C04103], .fdivB ⟨false, 1, 2, 3⟩),
  -- fdiv.f64.rz v[4:5], v[4:5], v[6:7]
  ([0x53C10206, 0xE3200000, 0x00000000], .fdivE { e0 with sub := 3, rm := 1, d := vr 4, a := vr 4, b := vr 6 }),
  -- fexp2 v1, v2
  ([0x14004100], .fexp2B ⟨false, 1, 2⟩),
  -- fexp2.f32 v1, s2
  ([0x54004100, 0xE0000000, 0x00400000], .fexp2E { e0 with d := vr 1, a := sr 2 }),
  -- flog2 v1, v2
  ([0x14404100], .flog2B ⟨false, 1, 2⟩),
  -- flog2.f32 v1, s2
  ([0x54404100, 0xE0000000, 0x00400000], .flog2E { e0 with d := vr 1, a := sr 2 }),
  -- fsinpi v6, v2
  ([0x14818100], .fsinpiB ⟨false, 6, 2⟩),
  -- fsinpi.f32 v1, s2
  ([0x54804100, 0xE0000000, 0x00400000], .fsinpiE { e0 with d := vr 1, a := sr 2 }),
  -- fcospi v6, v2
  ([0x14C18100], .fcospiB ⟨false, 6, 2⟩),
  -- fcospi.f32 v1, s2
  ([0x54C04100, 0xE0000000, 0x00400000], .fcospiE { e0 with d := vr 1, a := sr 2 }),
  -- ftwid v[8:9], v2, 12
  ([0x55020100, 0xE0000000, 0x0020000C], .ftwid { e0 with imm8 := 12, d := vr 8, a := vr 2, b := im })]

theorem test_decode_conversion_and_floatingpoint : (words_conversion_and_floatingpoint.all fun e => reads e.1 e.2) = true := by decide

/-- R44 to R66: words of the control family, each with the instruction it encodes. -/
def words_control : List (List Nat × Instr) := [
  -- block header: CF 1, HWM 4, LEN 16
  ([0x1FE04010], .blockHeader true 4 16),
  -- bra -2
  ([0x1A1FFFFE], .braB (-2)),
  -- (p3) bra +5, E shape
  ([0x5A000000, 0x60000000, 0x00000005], .braE ⟨⟨3, false⟩, 0, .rel 5⟩),
  -- brc !p3, +9
  ([0x1A4E0009], .brcB 3 true 9),
  -- brc p6 to an absolute address, B+L
  ([0x9A580000, 0x00001000, 0x00000040], .brcE ⟨always, 6, .absB 0x4000001000⟩),
  -- jmpi v12
  ([0x1A800600], .jmpiB 12),
  -- jmpi v200
  ([0x5A802400, 0xE0000000, 0x40000000], .jmpiE ⟨always, 200, false⟩),
  -- call +3
  ([0x1B000003], .callB 3),
  -- (p2) call to an absolute address, E+L
  ([0xDB000000, 0x40000000, 0x00000000, 0x00001000, 0x00000040], .callE ⟨⟨2, false⟩, 0, .absE 0x4000001000⟩),
  -- calli v40
  ([0x1B401400], .calliB 40),
  -- calli bp2, E shape
  ([0x5B400100, 0xE0000000, 0x10000000], .calliE ⟨always, 2, true⟩),
  -- ret
  ([0x1B800000], .retB),
  -- (!p0) ret
  ([0x5B800000, 0x10000000, 0x00000000], .retE ⟨⟨0, true⟩, 0⟩),
  -- exit
  ([0x1C000000], .exitB),
  -- (p1) exit
  ([0x5C000000, 0x20000000, 0x00000000], .exitE ⟨⟨1, false⟩, 0⟩),
  -- exitto +7, keep 16
  ([0x1C420007], .exittoB 16 7),
  -- (p1) exitto -1, keep 255
  ([0x5C400000, 0x200FF000, 0x03FFFFFF], .exittoE ⟨⟨1, false⟩, 255, .rel (-1)⟩),
  -- reform +1
  ([0x1C800001], .reformB 1),
  -- (p4) reform +1
  ([0x5C800000, 0x80000000, 0x00000001], .reformE ⟨⟨4, false⟩, 0, .rel 1⟩),
  -- trap 9
  ([0x1CC00009], .trapB 9),
  -- (p1) trap 200
  ([0x5CC00000, 0x200C8000, 0x00000000], .trapE ⟨⟨1, false⟩, 200⟩),
  -- brk 9
  ([0x3EC00009], .brkB 9),
  -- (p1) brk 200
  ([0x7EC00000, 0x200C8000, 0x00000000], .brkE ⟨⟨1, false⟩, 200⟩)]

theorem test_decode_control : (words_control.all fun e => reads e.1 e.2) = true := by decide

/-- R44 to R66: words of the cross-lane and synchronisation family, each with the instruction it encodes. -/
def words_crosslane_and_synchronisation : List (List Nat × Instr) := [
  -- shfl.idx.b32 v1, v2, 31
  ([0x60004100, 0xE0000000, 0x0020001F], .shflIdx { e0 with imm8 := 31, d := vr 1, a := vr 2, b := im }),
  -- shfl.xor.b64 v[2:3], v[4:5], s6
  ([0x60408206, 0xE1000000, 0x00100000], .shflXor { e0 with sub := 1, d := vr 2, a := vr 4, b := sr 6 }),
  -- shfl.up.b32 v1, v2, v3
  ([0x60804103, 0xE0000000, 0x00000000], .shflUp { e0 with d := vr 1, a := vr 2, b := vr 3 }),
  -- shfl.down.b32 v1, v2, 1
  ([0x60C04100, 0xE0000000, 0x00200001], .shflDown { e0 with imm8 := 1, d := vr 1, a := vr 2, b := im }),
  -- vote.any p1, p2
  ([0x61004100, 0xE0000000, 0x03C00000], .voteAny { e0 with d := sp 1, a := sp 2 }),
  -- vote.all p1, p7
  ([0x61404380, 0xE0000000, 0x03C00000], .voteAll { e0 with d := sp 1, a := sp 7 }),
  -- vote.ballot s9, p2
  ([0x61824100, 0xE0000000, 0x01C00000], .voteBallot { e0 with d := sr 9, a := sp 2 }),
  -- match.b64 v1, v[2:3]
  ([0x62004100, 0xE1000000, 0x00000000], .matchLanes { e0 with sub := 1, d := vr 1, a := vr 2 }),
  -- redux.fadd.f64 s[2:3], v[4:5]
  ([0x62408200, 0xEC000000, 0x01000000], .redux { e0 with sub := 12, d := sr 2, a := vr 4 }),
  -- scan.add.b32.ex v1, v2
  ([0x62804100, 0xE0000000, 0x00200001], .scan { e0 with imm8 := 1, d := vr 1, a := vr 2, b := im }),
  -- isect.n32 v[2:3], v4, v5, s6
  ([0x62C08205, 0xE0006000, 0x00040000], .isect { e0 with d := vr 2, a := vr 4, b := vr 5, c := sr 6 }),
  -- arrive.leave grp3
  ([0x66000000, 0xE0003000, 0x00800001], .arrive { e0 with imm8 := 1, a := im, c := vr 3 }),
  -- await grp255
  ([0x66400000, 0xE00FF000, 0x00000000], .await { e0 with c := vr 255 }),
  -- arwait grp0
  ([0x66800000, 0xE0000000, 0x00000000], .arwait e0),
  -- await.elect p5, grp2
  ([0x66C14000, 0xE0002000, 0x03000000], .awaitElect { e0 with d := sp 5, c := vr 2 }),
  -- sign cv4
  ([0x67000A00, 0xE0000000, 0x00C00000], .sign { e0 with a := sp 20 }),
  -- evpost p0, s1, s[2:3]
  ([0x67400082, 0xE0000000, 0x03500000], .evpost { e0 with d := sp 0, a := sr 1, b := sr 2 }),
  -- evwait v[6:7]
  ([0x67818000, 0xE0000000, 0x00000000], .evwait { e0 with d := vr 6 }),
  -- yield
  ([0x67C00000, 0xE0000000, 0x00000000], .yield e0),
  -- gdset gd3, p1
  ([0x6808C080, 0xE0000000, 0x03C00000], .gdset { e0 with d := sp 35, a := sp 1 }),
  -- gdclr gd15
  ([0x684BC000, 0xE0000000, 0x03000000], .gdclr { e0 with d := sp 47 })]

theorem test_decode_crosslane_and_synchronisation : (words_crosslane_and_synchronisation.all fun e => reads e.1 e.2) = true := by decide

/-- R44 to R66: words of the system family, each with the instruction it encodes. -/
def words_system : List (List Nat × Instr) := [
  -- rdsys v1, 0x00
  ([0x7E004000, 0xE0000000, 0x00000000], .rdsys { e0 with d := vr 1 }),
  -- wrsys 0x0A, v2
  ([0x7E000002, 0xE100A000, 0x00000000], .wrsys { e0 with sub := 1, b := vr 2, c := vr 10 }),
  -- claim 8
  ([0x7E400000, 0xE0000000, 0x00200008], .claim { e0 with imm8 := 8, b := im }),
  -- cede s4
  ([0x7E400004, 0xE1000000, 0x00100000], .cede { e0 with sub := 1, b := sr 4 }),
  -- lfsrd.col v1, v2
  ([0x7E804002, 0xE0001000, 0x00000000], .lfsrd { e0 with d := vr 1, b := vr 2, c := vr 1 }),
  -- lfswr s5
  ([0x7E800005, 0xE1000000, 0x00100000], .lfswr { e0 with sub := 1, b := sr 5 }),
  -- probe.w p1, v[2:3]
  ([0x7EC04100, 0xE1001000, 0x03000000], .probe { e0 with sub := 1, d := sp 1, a := vr 2, c := vr 1 }),
  -- icinv
  ([0x7EC00000, 0xE2000000, 0x00000000], .icinv { e0 with sub := 2 })]

theorem test_decode_system : (words_system.all fun e => reads e.1 e.2) = true := by decide

/-- R44 to R66: words of the memory family, each with the instruction it encodes. -/
def words_memory : List (List Nat × Instr) := [
  -- ld.b64 v[4:5], [s[2:3] + v6*8 - 1]
  ([0x6A010106, 0xE5000001, 0x0040CFFF], .ld ⟨{ e0 with sub := 5, sb := 1, imm8 := 255, d := vr 4, a := sr 2, b := vr 6 }, 0, 3, 0, 15⟩),
  -- st.n8 [v[2:3]], v7, stream
  ([0x6A400100, 0xE1007000, 0x00110000], .st ⟨{ e0 with sub := 1, a := vr 2, b := sr 0, c := vr 7 }, 1, 0, 0, 0⟩),
  -- lds.b32 v1, [v2 + 16]
  ([0x6B004100, 0xE4000000, 0x00100010], .lds ⟨{ e0 with sub := 4, imm8 := 16, d := vr 1, a := vr 2, b := sr 0 }, 0, 0, 0, 0⟩),
  -- sts.i16 [s3], s4
  ([0x6B400180, 0xE2004000, 0x00540000], .sts ⟨{ e0 with sub := 2, a := sr 3, b := sr 0, c := sr 4 }, 0, 0, 0, 0⟩),
  -- movix v1, v[v2 + 3]
  ([0x6C004002, 0xE0000000, 0x00000003], .movixRead ⟨{ e0 with imm8 := 3, d := vr 1, b := vr 2 }, 0, 0, 0, 0⟩),
  -- movix v[v2], s3
  ([0x6C000002, 0xE0003008, 0x00040000], .movixWrite ⟨{ e0 with sa := 1, b := vr 2, c := sr 3 }, 0, 0, 0, 0⟩),
  -- pf [v[2:3]], LLC
  ([0x6D000100, 0xE0000000, 0x00120000], .pf ⟨{ e0 with a := vr 2, b := sr 0 }, 2, 0, 0, 0⟩),
  -- fence.acq
  ([0x6E000000, 0xE0000000, 0x00000000], .fenceAcq ⟨e0, 0, 0, 0, 0⟩),
  -- fence.rel
  ([0x6E400000, 0xE0000000, 0x00000000], .fenceRel ⟨e0, 0, 0, 0, 0⟩),
  -- fence.ar
  ([0x6E800000, 0xE0000000, 0x00000000], .fenceAr ⟨e0, 0, 0, 0, 0⟩),
  -- fence.sys
  ([0x6EC00000, 0xE0000000, 0x00000000], .fenceSys ⟨e0, 0, 0, 0, 0⟩),
  -- atom.cas.n32.ar v1, [v[2:3]], v[4:5] -> p3
  ([0x72404100, 0xE7004020, 0x00103000], .atom 1 ⟨{ e0 with sub := 7, sa := 4, d := vr 1, a := vr 2, b := sr 0, c := vr 4 }, 0, 0, 3, 0⟩),
  -- red.fadd.f64 [v[2:3]], v[4:5]
  ([0x73800100, 0xE1004000, 0x00100000], .red 2 ⟨{ e0 with sub := 1, a := vr 2, b := sr 0, c := vr 4 }, 0, 0, 0, 0⟩)]

theorem test_decode_memory : (words_memory.all fun e => reads e.1 e.2) = true := by decide

/-- R44 to R66: words of the matrix engine family, each with the instruction it encodes. -/
def words_matrix_engine : List (List Nat × Instr) := [
  -- mxacq p2
  ([0x76008000, 0xE0000000, 0x00000000], .mxacq { g0 with d := 2 }),
  -- mxrel
  ([0x76400000, 0xE0000000, 0x00000000], .mxrel g0),
  -- omap om3, v[8:11]
  ([0x7680C400, 0xE0000000, 0x00000000], .omap { g0 with d := 3, a := 8 }),
  -- mxwait p1
  ([0x76C04000, 0xE0000000, 0x00000000], .mxwait { g0 with d := 1 }),
  -- mxfence
  ([0x76C00000, 0xE1000000, 0x00000200], .mxfence { g0 with sub := 1, cv := 2 }),
  -- mmad.bf16 acc(16,32), om1, om2, 32x48, cv5, ?!gd3
  ([0x77108082, 0xE0000000, 0x0034F500], .mmad { g0 with d := 66, a := 1, b := 2, n6 := 3, m2 := 1, gs := 3, cv := 5, gp := true, ge := true }),
  -- mmas.i8.sat acc(0,0), om1, om2, v40
  ([0x77400082, 0xE6128000, 0x00100000], .mmas { g0 with sub := 6, a := 1, b := 2, c := 40, n6 := 1, sat := true }),
  -- mmaq.q3.bf16 acc(0,0), om1, om2
  ([0x77800082, 0xE6000000, 0x00100000], .mmaq { g0 with sub := 6, a := 1, b := 2, n6 := 1 }),
  -- mscal acc(0,0), om1, acc(48,0)
  ([0x77C00080, 0xE00C0000, 0x00100000], .mscal { g0 with a := 1, c := 192, n6 := 1 }),
  -- aczero acc(0,0), 64x1024
  ([0x78000000, 0xE0000000, 0x00080000], .aczero { g0 with m2 := 2 }),
  -- acld.f32 acc(0,0), om1
  ([0x78400080, 0xE000A000, 0x00100000], .acld { g0 with a := 1, c := 10, n6 := 1 }),
  -- acst.e4m3.rs.sat acc(0,0), v[2:3], v4
  ([0x78800104, 0xE0B1C000, 0x00100000], .acst { g0 with rm := 5, a := 2, b := 4, c := 28, n6 := 1, sat := true }),
  -- acmov acc(16,0), acc(0,0)
  ([0x78D00000, 0xE0000000, 0x00100000], .acmov { g0 with d := 64, n6 := 1 }),
  -- spz v40, om1
  ([0x790A0080, 0xE0000000, 0x00000000], .spz { g0 with d := 40, a := 1 })]

theorem test_decode_matrix_engine : (words_matrix_engine.all fun e => reads e.1 e.2) = true := by decide

/-- R44 to R66: words of the tiles, copy engine, Starter family, each with the instruction it encodes. -/
def words_tiles_copy_engine_starter : List (List Nat × Instr) := [
  -- tnew [v[4:5]], low rank, rank 5, status p2
  ([0x7A010000, 0xE0021000, 0x00000045], .tnew { g0 with d := 4, c := 33, imm8 := 69 }),
  -- tfree v[4:5]
  ([0x7A410000, 0xE0000000, 0x00000000], .tfree { g0 with d := 4 }),
  -- tinfo v[4:7], [v[8:9]]
  ([0x7A810400, 0xE0072000, 0x00000000], .tinfo { g0 with d := 4, a := 8, c := 114 }),
  -- tmov v[4:5], v[8:9]
  ([0x7AC10400, 0xE0000000, 0x00000000], .tmov { g0 with d := 4, a := 8 }),
  -- tadd.r v[4:5], v[6:7], v[8:9]
  ([0x7B010308, 0xE1000000, 0x00000000], .tadd { g0 with sub := 1, d := 4, a := 6, b := 8 }),
  -- tmul v[4:5], v[6:7], v[8:9]
  ([0x7B410308, 0xE0000000, 0x00000000], .tmul { g0 with d := 4, a := 6, b := 8 }),
  -- trnd v[4:5], v[6:7]
  ([0x7B810300, 0xE0000000, 0x00000000], .trnd { g0 with d := 4, a := 6 }),
  -- tdense v[4:5], v[6:7]
  ([0x7BC10300, 0xE0000000, 0x00000000], .tdense { g0 with d := 4, a := 6 }),
  -- tlu v[4:5], v[6:7]
  ([0x7BC10300, 0xE1000000, 0x00000000], .tlu { g0 with sub := 1, d := 4, a := 6 }),
  -- tchol v[4:5], v[6:7]
  ([0x7BC10300, 0xE2000000, 0x00000000], .tchol { g0 with sub := 2, d := 4, a := 6 }),
  -- ttrsm v[4:5], v[6:7], v[8:9]
  ([0x7BC10308, 0xE3000000, 0x00000000], .ttrsm { g0 with sub := 3, d := 4, a := 6, b := 8 }),
  -- tdelta v[4:5], v[6:7]
  ([0x7BC10300, 0xE4073000, 0x00000000], .tdelta { g0 with sub := 4, d := 4, a := 6, c := 115 }),
  -- tcopy v[4:5], cv15
  ([0x7C000200, 0xE0000000, 0x00000F00], .tcopy { g0 with a := 4, cv := 15 }),
  -- gath v[4:5]
  ([0x7C400200, 0xE0000000, 0x00000000], .gath { g0 with a := 4 }),
  -- scat.min.i32 v[4:5]
  ([0x7C800200, 0xE4000000, 0x00000000], .scat { g0 with sub := 4, a := 4 }),
  -- rules v[4:5]
  ([0x7CC00200, 0xE0000000, 0x00000000], .rules { g0 with a := 4 }),
  -- tcwait
  ([0x7CC1C000, 0xE1000000, 0x00000000], .tcwait { g0 with sub := 1, d := 7 }),
  -- spred v[4:5]
  ([0x7D000200, 0xE0000000, 0x00000000], .spred { g0 with a := 4 }),
  -- sfetch v[4:5]
  ([0x7D400200, 0xE0000000, 0x00000000], .sfetch { g0 with a := 4 }),
  -- scheck v[4:5]
  ([0x7D800200, 0xE0000000, 0x00000000], .scheck { g0 with a := 4 }),
  -- swait p0
  ([0x7DC00000, 0xE0000000, 0x00000000], .swait g0)]

theorem test_decode_tiles_copy_engine_starter : (words_tiles_copy_engine_starter.all fun e => reads e.1 e.2) = true := by decide
/-! ## Ill-formed terms are refused -/

theorem test_refuses_unassigned : firstError (.clz { e0 with sub := 3, d := vr 3, a := vr 1 }) = some .unassigned := by decide
theorem test_refuses_rounding : firstError (.addE { e0 with rm := 1 }) = some .rounding := by decide
theorem test_refuses_saturation : firstError (.andE { e0 with sat := true }) = some .saturation := by decide
theorem test_refuses_shortDest : firstError (.addB ⟨false, 124, 1, 2⟩) = some .shortDest := by decide
theorem test_refuses_noWriteBack : firstError (.addB ⟨true, 1, 1, 2⟩) = some .noWriteBack := by decide
theorem test_refuses_noWriteBack_of_scalar : firstError (.addE { e0 with w := true, d := sr 0 }) = some .noWriteBack := by decide
theorem test_refuses_operandKind : firstError (.addE { e0 with c := vr 1 }) = some .operandKind := by decide
theorem test_refuses_operandCode : firstError (.addE { e0 with a := sr 64 }) = some .operandCode := by decide
theorem test_refuses_operandCode_of_p7 : firstError (.pnot { e0 with d := sp 7, a := sp 0 }) = some .operandCode := by decide
theorem test_refuses_oddRegister : firstError (.addE { e0 with sub := 3, a := vr 1 }) = some .oddRegister := by decide
theorem test_refuses_immediates : firstError (.addE { e0 with a := im, b := im }) = some .immediates := by decide
theorem test_refuses_indirection : firstError (.addE { e0 with xs := 1 }) = some .indirection := by decide
theorem test_refuses_selector : firstError (.faddE { e0 with sa := 1 }) = some .selector := by decide
theorem test_refuses_unusedField : firstError (.addE { e0 with imm8 := 1 }) = some .unusedField := by decide
theorem test_refuses_memory_field : firstError (.lds { m0 with e := { e0 with a := sr 2 }, ch := 1 }) = some .unusedField := by decide
theorem test_refuses_engineShape : firstError (.aczero { g0 with m2 := 3 }) = some .engineShape := by decide
theorem test_refuses_engineShape_of_origin : firstError (.aczero { g0 with d := 1, n6 := 0 }) = some .engineShape := by decide
theorem test_refuses_engineGuard : firstError (.aczero { g0 with gs := 1 }) = some .engineGuard := by decide
theorem test_refuses_header : firstError (.blockHeader false 257 1) = some .header := by decide
theorem test_refuses_header_length : firstError (.blockHeader false 0 0) = some .header := by decide

/-! ## Hypotheses that are met: register instructions -/

def e1 : EForm := { e0 with d := vr 3, a := vr 1, b := vr 2, c := vr 4 }

/-- One (IntegerOneSourceComplete, FloatingPointComplete). -/
theorem meets_one : Ready s0 (grp [0]) e1.guard ((entryOf (.absE e1)).produces e1) (touched (entryOf (.absE e1)) e1) ∧
    ∀ x ∈ activeSlots s0.cur (grp [0]) e1.guard, Reads s0 e1 e1.a false x 7 ∧ Into s0 e1 false x [.v 3] :=
  ⟨⟨rfl, rfl, rfl⟩, only rfl ⟨rfl, rfl⟩⟩

/-- Two, at .i32. -/
theorem meets_two : Ready s0 (grp [0]) e1.guard ((entryOf (.addE e1)).produces e1) (touched (entryOf (.addE e1)) e1) ∧
    ∀ x ∈ activeSlots s0.cur (grp [0]) e1.guard, Reads s0 e1 e1.a false x 7 ∧ Reads s0 e1 e1.b false x 9 ∧ Into s0 e1 false x [.v 3] :=
  ⟨⟨rfl, rfl, rfl⟩, only rfl ⟨rfl, rfl, rfl⟩⟩

/-- Two, at .i64: pairs. -/
theorem meets_two_wide :
    let f : EForm := { e0 with sub := 3, d := vr 254, a := vr 4, b := im, imm8 := 0xFF }
    Ready s0 (grp [0]) f.guard ((entryOf (.addE f)).produces f) (touched (entryOf (.addE f)) f) ∧
    ∀ x ∈ activeSlots s0.cur (grp [0]) f.guard, Reads s0 f f.a true x 0x0100000000000003 ∧ Reads s0 f f.b true x 0xFFFFFFFFFFFFFFFF ∧
      Into s0 f true x [.v 254, .v 255] :=
  ⟨⟨rfl, rfl, rfl⟩, only rfl ⟨rfl, rfl, rfl⟩⟩

/-- Two, of the B shape. -/
theorem meets_two_short :
    let f : EForm := bToE ⟨false, 3, 1, 2⟩
    Ready s0 (grp [0]) f.guard ((entryOf (.addE f)).produces f) (touched (entryOf (.addE f)) f) ∧
    ∀ x ∈ activeSlots s0.cur (grp [0]) f.guard, Reads s0 f f.a false x 7 ∧ Reads s0 f f.b false x 9 ∧ Into s0 f false x [.v 3] :=
  ⟨⟨rfl, rfl, rfl⟩, only rfl ⟨rfl, rfl, rfl⟩⟩

/-- Three. -/
theorem meets_three : Ready s0 (grp [0]) e1.guard ((entryOf (.mad e1)).produces e1) (touched (entryOf (.mad e1)) e1) ∧
    ∀ x ∈ activeSlots s0.cur (grp [0]) e1.guard,
      Reads s0 e1 e1.a false x 7 ∧ Reads s0 e1 e1.b false x 9 ∧ Reads s0 e1 e1.c false x 3 ∧ Into s0 e1 false x [.v 3] :=
  ⟨⟨rfl, rfl, rfl⟩, only rfl ⟨rfl, rfl, rfl, rfl⟩⟩

/-- Chained: addc with the carry in p0. -/
theorem meets_chained :
    let f : EForm := { e1 with sub := 1, c := sp 0 }
    Ready s0 (grp [0]) f.guard ((entryOf (.addc f)).produces f) (touched (entryOf (.addc f)) f) ∧
    ∀ x ∈ activeSlots s0.cur (grp [0]) f.guard, Reads s0 f f.a (wideInt f) x 7 ∧ Reads s0 f f.b (wideInt f) x 9 ∧
      Into s0 f (wideInt f) x [.v 3] :=
  ⟨⟨rfl, rfl, rfl⟩, only rfl ⟨rfl, rfl, rfl⟩⟩

/-- Converts, of cvt.f32.i32 and of pack8.e4m3 from f32 pairs. -/
theorem meets_converts :
    let f : EForm := { e0 with sub := 10, d := vr 3, a := vr 1, c := vr 2 }
    let q : EForm := { e0 with sub := 12, d := vr 3, a := vr 4, b := vr 4, c := vr 10 }
    (Ready s0 (grp [0]) f.guard ((entryOf (.cvt f)).produces f) (touched (entryOf (.cvt f)) f) ∧
      ∀ x ∈ activeSlots s0.cur (grp [0]) f.guard, Reads s0 f f.a false x 7 ∧ (false = true → Reads s0 f f.b false x 7) ∧
        Into s0 f false x [.v 3]) ∧
    q.c.code = 10 ∧ Ready s0 (grp [0]) q.guard ((entryOf (.pack8 q)).produces q) (touched (entryOf (.pack8 q)) q) ∧
      ∀ x ∈ activeSlots s0.cur (grp [0]) q.guard, Reads s0 q q.a true x 0x0100000000000003 ∧
        (true = true → Reads s0 q q.b true x 0x0100000000000003) ∧ Into s0 q false x [.v 3] :=
  ⟨⟨⟨rfl, rfl, rfl⟩, only rfl ⟨rfl, nofun, rfl⟩⟩, rfl, ⟨rfl, rfl, rfl⟩, only rfl ⟨rfl, fun _ => rfl, rfl⟩⟩

/-- The other pack8 and pack4 forms of ConversionsComplete. -/
theorem meets_pack :
    let f : EForm := { e0 with sub := 12, d := vr 3, a := vr 1, b := vr 2, c := vr 8 }
    let q : EForm := { e0 with sub := 14, d := vr 3, a := vr 4, b := vr 4, c := vr 8 }
    let r : EForm := { e0 with sub := 15, d := vr 3, a := vr 1, b := vr 2 }
    (f.c.code ≠ 10 ∧ Ready s0 (grp [0]) f.guard ((entryOf (.pack8 f)).produces f) (touched (entryOf (.pack8 f)) f) ∧
      ∀ x ∈ activeSlots s0.cur (grp [0]) f.guard, Reads s0 f f.a false x 7 ∧ (true = true → Reads s0 f f.b false x 9) ∧
        Into s0 f false x [.v 3]) ∧
    (q.sub ≠ 15 ∧ Ready s0 (grp [0]) q.guard ((entryOf (.pack4 q)).produces q) (touched (entryOf (.pack4 q)) q) ∧
      ∀ x ∈ activeSlots s0.cur (grp [0]) q.guard, Reads s0 q q.a true x 0x0100000000000003 ∧
        (true = true → Reads s0 q q.b true x 0x0100000000000003) ∧ Into s0 q false x [.v 3]) ∧
    r.sub = 15 ∧ Ready s0 (grp [0]) r.guard ((entryOf (.pack4 r)).produces r) (touched (entryOf (.pack4 r)) r) ∧
      ∀ x ∈ activeSlots s0.cur (grp [0]) r.guard, Reads s0 r r.a false x 7 ∧ Reads s0 r r.b false x 9 ∧ Into s0 r false x [.v 3] :=
  ⟨⟨by decide, ⟨rfl, rfl, rfl⟩, only rfl ⟨rfl, fun _ => rfl, rfl⟩⟩, ⟨by decide, ⟨rfl, rfl, rfl⟩, only rfl ⟨rfl, fun _ => rfl, rfl⟩⟩,
    rfl, ⟨rfl, rfl, rfl⟩, only rfl ⟨rfl, rfl, rfl⟩⟩

/-- Cross (redux, match, scan; ReductionTree) and Votes. -/
theorem meets_cross :
    let f : EForm := { e0 with d := sr 3, a := vr 1 }
    let q : EForm := { e0 with d := sp 1, a := sp 0 }
    (Ready s0 (grp [0]) f.guard ((entryOf (.redux f)).produces f) (touched (entryOf (.redux f)) f) ∧
      ∀ x ∈ activeSlots s0.cur (grp [0]) f.guard, Reads s0 f f.a false x 7 ∧ (∃ b, Reads s0 f f.b false x b) ∧ Into s0 f false x [.s 3]) ∧
    Ready s0 (grp [0]) q.guard ((entryOf (.voteAny q)).produces q) (touched (entryOf (.voteAny q)) q) ∧
      ∀ x ∈ activeSlots s0.cur (grp [0]) q.guard, (∃ a b, Reads s0 q q.a false x a ∧ Reads s0 q q.b false x b) ∧ Into s0 q false x [.p 1] :=
  ⟨⟨⟨rfl, rfl, rfl⟩, only rfl ⟨rfl, ⟨_, rfl⟩, rfl⟩⟩, ⟨rfl, rfl, rfl⟩, only rfl ⟨⟨_, _, rfl, rfl⟩, rfl⟩⟩

/-- Shuffles, and isect. -/
theorem meets_shuffles :
    let f : EForm := { e0 with d := vr 3, a := vr 1, b := im }
    let q : EForm := { e0 with d := vr 6, a := vr 1, b := vr 2, c := sr 2 }
    (Ready s0 (grp [0]) f.guard ((entryOf (.shflIdx f)).produces f) (fun t r => .p 6 :: touched (entryOf (.shflIdx f)) f t r) ∧
      ∀ x ∈ activeSlots s0.cur (grp [0]) f.guard, Reads s0 f f.a (f.sub = 1) x 7 ∧ Reads s0 f f.b false x 0 ∧ Into s0 f (f.sub = 1) x [.v 3]) ∧
    Ready s0 (grp [0]) q.guard ((entryOf (.isect q)).produces q) (touched (entryOf (.isect q)) q) ∧
      ∀ x ∈ activeSlots s0.cur (grp [0]) q.guard,
        Reads s0 q q.a false x 7 ∧ Reads s0 q q.b false x 9 ∧ Reads s0 q q.c false x 0 ∧ Into s0 q true x [.v 6, .v 7] :=
  ⟨⟨⟨rfl, rfl, rfl⟩, only rfl ⟨rfl, rfl, rfl⟩⟩, ⟨rfl, rfl, rfl⟩, only rfl ⟨rfl, rfl, rfl, rfl⟩⟩

/-! ## Hypotheses that are met: control -/

/-- Jumps, MarksAndLeaves, and the first half of Calls: nothing is pending and the allotment is 256. -/
theorem meets_jumps : s0.curGroup = some (grp [0]) ∧ mustStall s0.cur (grp [0]) always (fun _ _ => [.v 255]) = false ∧
    (activeSlots s0.cur (grp [0]) always).filter (fun x => (s0.cur.row (rowOf x)).allot < 256) = [] := ⟨rfl, rfl, rfl⟩

/-- The other half of Calls: the allotment is 248. -/
def sShort : State := s0.updCur fun k => { k with rows := [(0, { allot := 248 })] }

theorem meets_calls_short : sShort.curGroup = some (grp [0]) ∧ mustStall sShort.cur (grp [0]) always (fun _ _ => [.v 255]) = false ∧
    (activeSlots sShort.cur (grp [0]) always).filter (fun x => (sShort.cur.row (rowOf x)).allot < 256) ≠ [] := ⟨rfl, rfl, by decide⟩

/-- Exits, Traps and Breaks: the thread is drained. -/
theorem meets_exits : s0.curGroup = some (grp [0]) ∧ mustStall s0.cur (grp [0]) always (fun _ _ => []) = false ∧
    ∀ x ∈ activeSlots s0.cur (grp [0]) always, s0.cur.drained x = true ∧ ∀ e ∈ (s0.cur.crewAt x).cv, e.2.pending = none :=
  ⟨rfl, rfl, only rfl ⟨rfl, fun _ h => absurd h List.not_mem_nil⟩⟩

/-- The clauses of BlockEntryAndYieldComplete. -/
theorem meets_blocks : s0.curGroup = some (grp [0]) ∧ mustStall s0.cur (grp [0]) e0.guard (fun _ _ => []) = false := ⟨rfl, rfl⟩

/-! ## Hypotheses that are met: system instructions -/

def eSys (n : BitVec 8) : EForm := { e0 with d := vr 6, a := vr 1, b := vr 1, c := vr n }

theorem meets_rdsys : Ready s0 (grp [0]) always ((entryOf (.rdsys (eSys 0x09))).produces (eSys 0x09)) (touched (entryOf (.rdsys (eSys 0x09))) (eSys 0x09)) ∧
    ∀ x ∈ activeSlots s0.cur (grp [0]) always, sysValue s0.curCore s0.cycle s0.cur x 0x09 = some 0 ∧ Into s0 (eSys 0x09) (sysWide 0x09) x [.v 6, .v 7] :=
  ⟨⟨rfl, rfl, rfl⟩, only rfl ⟨rfl, rfl⟩⟩

/-- wrsys of LFSR (0x0A) and of a role register (0x10), lfsrd and lfswr of the thread's state (0). -/
theorem meets_wrsys : Ready s0 (grp [0]) always false (touched (entryOf (.wrsys (eSys 0x0A))) (eSys 0x0A)) ∧
    Ready s0 (grp [0]) always false (touched (entryOf (.wrsys (eSys 0x10))) (eSys 0x10)) ∧
    Ready s0 (grp [0]) always ((entryOf (.lfsrd (eSys 0))).produces (eSys 0)) (touched (entryOf (.lfsrd (eSys 0))) (eSys 0)) ∧
    Ready s0 (grp [0]) always false (touched (entryOf (.lfswr (eSys 0))) (eSys 0)) ∧
    ∀ n ∈ ([0x0A, 0x10, 0] : List (BitVec 8)), ∀ x ∈ activeSlots s0.cur (grp [0]) always,
      Reads s0 (eSys n) (eSys n).b false x 7 ∧ Into s0 (eSys n) false x [.v 6] :=
  ⟨⟨rfl, rfl, rfl⟩, ⟨rfl, rfl, rfl⟩, ⟨rfl, rfl, rfl⟩, ⟨rfl, rfl, rfl⟩, fun _ _ => only rfl ⟨rfl, rfl⟩⟩

/-- lfsrd and lfswr of a column: the crew holds a matrix engine with nothing queued. -/
def sHeld : State := s0.updCur fun k => { k with holder := some 0 }

theorem meets_lfsr_column : Ready sHeld (grp [0]) always ((entryOf (.lfsrd (eSys 1))).produces (eSys 1)) (touched (entryOf (.lfsrd (eSys 1))) (eSys 1)) ∧
    Ready sHeld (grp [0]) always false (touched (entryOf (.lfswr (eSys 1))) (eSys 1)) ∧ sHeld.cur.mxe.queue = [] ∧
    ∀ x ∈ activeSlots sHeld.cur (grp [0]) always, sHeld.cur.holder = some (sHeld.cur.crewOf x) ∧
      Reads sHeld (eSys 1) (eSys 1).a false x 7 ∧ Reads sHeld (eSys 1) (eSys 1).b false x 7 ∧ Into sHeld (eSys 1) false x [.v 6] :=
  ⟨⟨rfl, rfl, rfl⟩, ⟨rfl, rfl, rfl⟩, rfl, only rfl ⟨rfl, rfl, rfl, rfl⟩⟩

/-- probe: the answer has come; it is asked for; the address is out of range. -/
def gProbed : Group := { grp [0] with verdicts := [(0, 0, 0)] }

theorem meets_probe :
    let f : EForm := { e0 with sub := 1, d := sp 1, a := vr 4 }
    (Ready (at0 gProbed) gProbed f.guard false (touched (entryOf (.probe f)) f) ∧
      ∀ x ∈ activeSlots (at0 gProbed).cur gProbed f.guard, Into (at0 gProbed) f false x [.p 1] ∧
        ∀ a, Reads (at0 gProbed) f f.a true x a → a.toNat < 2 ^ 57 → gProbed.probed x ≠ none) ∧
    Ready s0 (grp [0]) f.guard false (touched (entryOf (.probe f)) f) ∧
    (∀ x ∈ activeSlots s0.cur (grp [0]) f.guard, (grp [0]).probed x = none ∧ Reads s0 f f.a true x 0x0100000000000003 ∧
      (0x0100000000000003 : Dword).toNat < 2 ^ 57) ∧
    ((byLane (activeSlots s0.cur (grp [0]) f.guard)).filterMap fun x => (some 0x0100000000000003#64).map fun v => (x, keyOf s0 x v)) ≠ [] ∧
    ∀ q ∈ s0.cur.xlat, q.group ≠ some (grp [0]).id :=
  ⟨⟨⟨rfl, rfl, rfl⟩, only (n := 0) rfl ⟨rfl, fun _ _ _ => by decide⟩⟩, ⟨rfl, rfl, rfl⟩, only (n := 0) rfl ⟨rfl, rfl, by decide⟩, by decide, nofun⟩

/-- movix at the last register of the allotment. -/
theorem meets_movix :
    let m : MForm := { m0 with e := { e0 with d := vr 6, b := vr 1, c := vr 2, imm8 := 248 } }
    let n (j : Dword) : Word := j.setWidth 32 + (disp m).setWidth 32
    Ready s0 (grp [0]) m.e.guard ((entryOf (.movixRead m)).produces m.e) (touched (entryOf (.movixRead m)) m.e) ∧
    Ready s0 (grp [0]) m.e.guard false (touched (entryOf (.movixWrite m)) m.e) ∧
    ∀ x ∈ activeSlots s0.cur (grp [0]) m.e.guard, Reads s0 m.e m.e.b false x 7 ∧ (n 7).toNat < (s0.cur.row (rowOf x)).allot ∧
      (n 7).toNat < 2 ^ 31 ∧ .v (n 7).toNat ∉ (s0.cur.thread x).pend ∧ Reads s0 m.e m.e.c false x 9 ∧ Into s0 m.e false x [.v 6] :=
  ⟨⟨rfl, rfl, rfl⟩, ⟨rfl, rfl, rfl⟩, only rfl ⟨rfl, by decide, by decide, by decide, rfl, rfl⟩⟩

/-! ## Hypotheses that are met: memory instructions -/

/-- The view of core 0 holds the word at 0x40. -/
def sMem : State := s0.updCur fun k => { k with v1 := [(0x10, ⟨0x1234, true, true, true, true, .clean, false, 0⟩)] }

def mAt (sub : BitVec 4) (imm8 : BitVec 8) : MForm :=
  { m0 with e := { e0 with sub := sub, d := vr 8, a := vr 6, b := vr 10, c := vr 12, imm8 := imm8 } }

def mScr (sub : BitVec 4) (imm8 : BitVec 8) : MForm :=
  { m0 with e := { e0 with sub := sub, d := vr 8, a := sr 2, b := vr 10, c := vr 12, imm8 := imm8 } }

/-- Loads and Stores of ld and st: the word at 0x40. -/
theorem meets_loads :
    let m := mAt 4 0
    Ready sMem (grp [0]) m.e.guard ((entryOf (.ld m)).produces m.e) (touched (entryOf (.ld m)) m.e) ∧
    Ready sMem (grp [0]) m.e.guard false (touched (entryOf (.st m)) m.e) ∧
    ∀ x ∈ activeSlots sMem.cur (grp [0]) m.e.guard, Permits sMem (grp [0]) m (accessBytes m.e.sub) 0 x 0x40 ∧
      Permits sMem (grp [0]) m (accessBytes m.e.sub) 1 x 0x40 ∧ Into sMem m.e (accessBytes m.e.sub = 8) x [.v 8] ∧
      Reads sMem m.e m.e.c (accessBytes m.e.sub = 8) x 0 :=
  ⟨⟨rfl, rfl, rfl⟩, ⟨rfl, rfl, rfl⟩,
    only rfl ⟨⟨⟨_, _, rfl, rfl, rfl⟩, by decide, rfl, rfl⟩, ⟨⟨_, _, rfl, rfl, rfl⟩, by decide, rfl, rfl⟩, rfl, rfl⟩⟩

/-- Loads and Stores of lds and sts: the last doubleword of an allotment of 64 KiB that its displacement reaches, and room. -/
theorem meets_scratch :
    let m := mScr 5 0x78
    Ready s0 (grp [0]) m.e.guard ((entryOf (.lds m)).produces m.e) (touched (entryOf (.lds m)) m.e) ∧
    Ready s0 (grp [0]) m.e.guard false (touched (entryOf (.sts m)) m.e) ∧
    (∀ x ∈ activeSlots s0.cur (grp [0]) m.e.guard, Scratches s0 m (accessBytes m.e.sub) x 0x78 .scratch 0x78 ∧
      Into s0 m.e (accessBytes m.e.sub = 8) x [.v 8, .v 9] ∧ Reads s0 m.e m.e.c (accessBytes m.e.sub = 8) x 0) ∧
    s0.cur.sob.length + (storeEntries 8 0 (numbered (fun _ => 2) s0.ctr [0]) (fun _ => .scratch) (fun _ => 0x78) fun _ => 0).length ≤ Config.sobSize :=
  ⟨⟨rfl, rfl, rfl⟩, ⟨rfl, rfl, rfl⟩, only rfl ⟨⟨⟨_, _, rfl, rfl, rfl⟩, rfl, rfl⟩, rfl, rfl⟩, by decide⟩

/-- Atomics and Reductions. -/
theorem meets_atomics :
    let m := mAt 7 0
    Ready sMem (grp [0]) m.e.guard ((entryOf (.atom 1 m)).produces m.e) (fun t a => touched (entryOf (.atom 1 m)) m.e t a ++ predDsts m) ∧
    Ready sMem (grp [0]) m.e.guard false (touched (entryOf (.red 1 m)) m.e) ∧
    (∀ x ∈ activeSlots sMem.cur (grp [0]) m.e.guard, Permits sMem (grp [0]) m (atomBytes 1) 3 x 0x40 ∧
      atomOperands (sMem.cur.thread x) (sMem.cur.row (rowOf x)) 1 m.e = .ok (0, 0) ∧ Into sMem m.e (2 ≤ (1 : BitVec 2).toNat) x [.v 8] ∧
      Reads sMem m.e m.e.c (2 ≤ (1 : BitVec 2).toNat) x 0) ∧ sMem.cur.sob.length + 1 ≤ Config.sobSize :=
  ⟨⟨rfl, rfl, rfl⟩, ⟨rfl, rfl, rfl⟩,
    only rfl ⟨⟨⟨_, _, rfl, rfl, rfl⟩, by decide, rfl, rfl⟩, rfl, rfl, rfl⟩, by decide⟩

/-- AccessFaultsPark: out of range (bit 57 set), misaligned, not permitted; no scratch byte, misaligned. -/
def sHigh : State := sMem.updCur fun k => { k with threads := [(0, { thr with v := [(6, 0x40), (7, 0x02000000)] })] }
def sDark : State := s0.updCur fun k => { k with v1 := [(0x10, ⟨0, true, false, false, false, .clean, false, 0⟩)] }

theorem meets_access_faults :
    (activeSlots sHigh.cur (grp [0]) always = [0] ∧ Addresses sHigh (mAt 4 0) 0 0x0200000000000040 ∧
      BadVirtual (mAt 4 0) 0 sHigh (grp [0]) 0 0x0200000000000040 0x09) ∧
    (Addresses sMem (mAt 4 1) 0 0x41 ∧ BadVirtual (mAt 4 1) 1 sMem (grp [0]) 0 0x41 0x0B) ∧
    (Addresses sDark (mAt 4 0) 0 0x40 ∧ BadVirtual (mAt 4 0) 0 sDark (grp [0]) 0 0x40 0x0A) ∧
    (Addresses s0 (mScr 4 0xFC) 0 0xFFFFFFFFFFFFFFFC → False) ∧
    (Addresses s0 { mScr 4 0xFC with dx := 15 } 0 0xFFFFFFFFFFFFFFFC ∧
      BadScratch { mScr 4 0xFC with dx := 15 } s0 (grp [0]) 0 0xFFFFFFFFFFFFFFFC 0x0A) ∧
    Addresses s0 (mScr 4 2) 0 2 ∧ BadScratch (mScr 4 2) s0 (grp [0]) 0 2 0x0B ∧
    (∃ ds, Into s0 (mScr 4 2).e false 0 ds) ∧ ∃ v, Reads s0 (mScr 4 2).e (mScr 4 2).e.c false 0 v :=
  ⟨⟨rfl, ⟨_, _, rfl, rfl, rfl⟩, .inl ⟨by decide, rfl⟩⟩, ⟨⟨_, _, rfl, rfl, rfl⟩, .inr (.inl ⟨by decide, by decide, rfl⟩)⟩,
    ⟨⟨_, _, rfl, rfl, rfl⟩, .inr (.inr ⟨by decide, rfl, by decide, rfl⟩)⟩,
    fun ⟨_, _, ha, hb, h⟩ => by cases ha; cases hb; exact absurd h (by decide),
    ⟨⟨_, _, rfl, rfl, rfl⟩, .inl ⟨rfl, rfl⟩⟩, ⟨_, _, rfl, rfl, rfl⟩, .inr ⟨by decide, by decide, rfl⟩, ⟨_, rfl⟩, _, rfl⟩

/-- The pf clause of MemoryOrderingComplete: one lane in range, and one out of range. -/
theorem meets_pf :
    (s0.curGroup = some (grp [0]) ∧ mustStall s0.cur (grp [0]) always (touched (entryOf (.pf (mAt 0 0))) (mAt 0 0).e) = false ∧
      ∀ x ∈ byLane (activeSlots s0.cur (grp [0]) always), Addresses s0 (mAt 0 0) x 0x40 ∧ (0x40 : Dword).toNat < 2 ^ 57) ∧
    ∀ x ∈ byLane (activeSlots sHigh.cur (grp [0]) always), ∀ a, Addresses sHigh (mAt 0 0) x a → ¬ a.toNat < 2 ^ 57 :=
  ⟨⟨rfl, rfl, only rfl ⟨⟨_, _, rfl, rfl, rfl⟩, by decide⟩⟩,
    only (n := 0) rfl fun _ ⟨_, _, ha, hb, h⟩ => by cases ha; cases hb; subst h; decide⟩

/-- At with an active lane and with none; Released, and a thread that is not; loads whose bytes have come, and one whose have not. -/
def gOff : Guard := ⟨7, true⟩
def sBusy : State := s0.updCur fun k => { k with sob := [⟨0, [0], .global, 0x10, 0xF, 0, false, false, 0, 0⟩] }

/-- The load 4 of thread 0 waits for the word 0x10. -/
def lq0 (hint : Nat) (atomic : Bool) : LqEntry :=
  { id := 4, slot := 0, addr := 0x40, bytes := 4, signed := false, space := .global, parts := [⟨0x10, 0, 0, false, false, 0⟩], e1 := 0, e2 := 0, dsts := [.v 8],
    hint := hint, pred := none, atomic := atomic, acquire := false, acq := 0 }
def sLoading : State := s0.updCur fun k => { k with lq := [lq0 0 false] }

theorem meets_at : At s0 (grp [0]) always (fun _ _ => []) [0] ∧ At s0 (grp [0]) gOff (fun _ _ => []) [] ∧ Released s0 (grp [0]) [0] ∧
    At sBusy (grp [0]) always (fun _ _ => []) [0] ∧ ¬ Released sBusy (grp [0]) [0] ∧
    (∀ x ∈ [0], s0.cur.loadsDone x = true) ∧
    At sLoading (grp [0]) always (fun _ _ => []) [0] ∧ (¬ ∀ x ∈ [0], sLoading.cur.loadsDone x = true) ∧ ¬ Released sLoading (grp [0]) [0] :=
  ⟨⟨rfl, rfl, rfl⟩, ⟨rfl, rfl, rfl⟩, only (n := 0) rfl rfl, ⟨rfl, rfl, rfl⟩, fun h => absurd (h 0 (by decide)) (by decide), by decide,
    ⟨rfl, rfl, rfl⟩, by decide, fun h => absurd (h 0 (by decide)) (by decide)⟩

/-- fence.sys: nothing far is dirty; a far line is; it waits for an acknowledgement, and it has come. -/
def lineAt (f : FillAddr) (dirty : Bool) : Line := ⟨0, 0xF14CF14C, true, true, false, true, dirty, 0, f, 0, false⟩
def sFar : State := { s0 with lines := [(1, lineAt (.far 3 0x1000 .host) true)] }
def gCov : Group := { grp [0] with blocked := true, covers := some [1] }

theorem meets_fence_sys :
    ((grp [0]).covers = none ∧ s0.farDirty (spacesOf s0 [0]) = []) ∧
    (At sFar (grp [0]) always (fun _ _ => []) [0] ∧ Released sFar (grp [0]) [0] ∧ (grp [0]).covers = none ∧ sFar.farDirty (spacesOf sFar [0]) ≠ []) ∧
    At (at0 gCov) gCov always (fun _ _ => []) [0] ∧ gCov.covers = some [1] ∧ ∀ w ∈ (at0 gCov).farWrites, w.line ∉ [1] :=
  ⟨⟨rfl, rfl⟩, ⟨⟨rfl, rfl, rfl⟩, only (n := 0) rfl rfl, rfl, by decide⟩, ⟨rfl, rfl, rfl⟩, rfl, by decide⟩

theorem meets_icinv :
    ((grp [0]).covers = none ∧ ∀ n ∈ s0.allGroups, n = (grp [0]).id) ∧
    At (at0 gCov) gCov always (fun _ _ => []) [0] ∧ Released (at0 gCov) gCov [0] ∧ gCov.covers = some [1] ∧ (∀ n ∈ [1], n ∉ (at0 gCov).allGroups) ∧
    ∃ n ∈ (s0.updCur fun k => { k with suspended := [{ grp [0] with id := 1 }] }).allGroups, n ≠ (grp [0]).id :=
  ⟨⟨rfl, by decide⟩, ⟨rfl, rfl, rfl⟩, only (n := 0) rfl rfl, rfl, by decide, by decide⟩

/-! ## Hypotheses that are met: the pool, barriers, declarations, events -/

/-- claim of 8 registers by a cohort that has 248: the pool has room; another claim waits. cede of 8. -/
def eCount : EForm := { e0 with b := im, imm8 := 8 }
def sWaits : State := sShort.updCur fun k => { k with claimQ := [⟨1, 8⟩] }

theorem meets_claim :
    (At sShort (grp [0]) always (touched (entryOf (.claim eCount)) eCount) [0] ∧ Count sShort eCount [0] 8 0 ∧ (sShort.cur.row 0).allot + 8 ≤ 256 ∧
      sShort.cur.claimQ = [] ∧ 8 ≤ sShort.cur.poolFree) ∧
    (At sWaits (grp [0]) always (touched (entryOf (.claim eCount)) eCount) [0] ∧ Count sWaits eCount [0] 8 0 ∧ (sWaits.cur.row 0).allot + 8 ≤ 256 ∧
      sWaits.cur.claimQ ≠ []) ∧
    At sShort (grp [0]) always (touched (entryOf (.cede { eCount with sub := 1 })) { eCount with sub := 1 }) [0] ∧
      Count sShort { eCount with sub := 1 } [0] 8 0 ∧ 8 + 8 ≤ (sShort.cur.row 0).allot ∧
      ∀ x ∈ rowSlots 0, ∀ j, .v j ∈ (sShort.cur.thread x).pend → j < (sShort.cur.row 0).allot - 8 :=
  ⟨⟨⟨rfl, rfl, rfl⟩, ⟨rfl, by decide, rfl, rfl⟩, by decide, rfl, by decide⟩,
    ⟨⟨rfl, rfl, rfl⟩, ⟨rfl, by decide, rfl, rfl⟩, by decide, by decide⟩, ⟨rfl, rfl, rfl⟩, ⟨rfl, by decide, rfl, rfl⟩, by decide,
    fun x hx j h => by
      have : ∀ x ∈ rowSlots 0, (sShort.cur.thread x).pend = [] := by decide
      rw [this x hx] at h; exact absurd h List.not_mem_nil⟩

/-- A barrier of group 0 with these members; the cohort of thread 0 has the number 0. -/
def bar0 (mask : List Nat) : Barrier :=
  { id := ⟨0, 0, none⟩, gen := 4, mask := mask, commitMask := mask, arrived := [], leaves := [], joins := [], level := .core, poisoned := false,
    merged := [], drained := [] }
def sBar (mask : List Nat) (target : Option Nat) : State :=
  { s0.updCur fun k => { k with rows := [(0, { allot := 256, groups := [⟨0, target, none⟩] })] } with bars := [bar0 mask] }
def viewOf (s : State) : BarView := (s.barView 0 0 0).getD ⟨0, 0, {}, bar0 [], ⟨0, none, none⟩, false⟩

/-- No group; a member that arrives, one that has arrived, and other cohorts: a plain arrive, .join of an empty group, of another. -/
theorem meets_arrive :
    AtBarrier s0 (grp [0]) (.arrive e0) e0 [0] none ∧
    (∀ p ∈ [([0], none), ([0], some 5), ([1], none), ([], none)],
      AtBarrier (sBar p.1 p.2) (grp [0]) (.arrive e0) e0 [0] (some (viewOf (sBar p.1 p.2))) ∧ (sBar p.1 p.2).cur.cohortDrained 0 = true) ∧
    ((viewOf (sBar [0] none)).member = true ∧ (viewOf (sBar [0] none)).slot.target ≠ some ((viewOf (sBar [0] none)).bar.gen + 1)) ∧
    ((viewOf (sBar [0] (some 5))).member = true ∧ (viewOf (sBar [0] (some 5))).slot.target = some ((viewOf (sBar [0] (some 5))).bar.gen + 1)) ∧
    ((viewOf (sBar [1] none)).member = false ∧ barMode e0 ≠ 2) ∧
    ((viewOf (sBar [] none)).member = false ∧ barMode { e0 with a := im, imm8 := 2 } = 2 ∧ (viewOf (sBar [] none)).bar.mask = []) ∧
    (viewOf (sBar [1] none)).bar.mask ≠ [] :=
  ⟨⟨⟨rfl, rfl, rfl⟩, by decide, rfl, rfl⟩, by
    intro p hp
    simp only [List.mem_cons, List.not_mem_nil, or_false] at hp
    rcases hp with rfl | rfl | rfl | rfl <;> exact ⟨⟨⟨rfl, rfl, rfl⟩, by decide, rfl, rfl⟩, rfl⟩, by decide, by decide, by decide, by decide, by decide⟩

/-- The wait half: over (the generation has come; no group), and not over; arwait before its arrival. -/
def gArr : Group := { grp [0] with arrived := true }
theorem meets_waits :
    (AtBarrier (sBar [0] (some 4)) (grp [0]) (.await e0) e0 [0] (some (viewOf (sBar [0] (some 4)))) ∧ waitOver (viewOf (sBar [0] (some 4))) = true) ∧
    AtBarrier s0 (grp [0]) (.await e0) e0 [0] none ∧
    (AtBarrier (sBar [0] (some 5)) (grp [0]) (.await e0) e0 [0] (some (viewOf (sBar [0] (some 5)))) ∧ waitOver (viewOf (sBar [0] (some 5))) = false) ∧
    (gArr.arrived = true ∧ AtBarrier (at0 gArr) gArr (.arwait e0) e0 [0] none) ∧ Loaded s0 (grp [0]) ∧
    (AtBarrier sLoading (grp [0]) (.await e0) e0 [0] none ∧ ¬ Loaded sLoading (grp [0])) ∧
    (grp [0]).arrived = false ∧ (viewOf (sBar [0] none)).row = (grp [0]).row ∧
      (sBar [0] none).barrier (viewOf (sBar [0] none)).crew e0.c.code.toNat = some (viewOf (sBar [0] none)).bar :=
  ⟨⟨⟨⟨rfl, rfl, rfl⟩, by decide, rfl, rfl⟩, rfl⟩, ⟨⟨rfl, rfl, rfl⟩, by decide, rfl, rfl⟩, ⟨⟨⟨rfl, rfl, rfl⟩, by decide, rfl, rfl⟩, rfl⟩,
    ⟨rfl, ⟨rfl, rfl, rfl⟩, by decide, rfl, rfl⟩, only (n := 0) rfl rfl,
    ⟨⟨⟨rfl, rfl, rfl⟩, by decide, rfl, rfl⟩, fun h => absurd (h 0 (by decide)) (by decide)⟩, rfl, rfl, rfl⟩

/-- The stops: code 0x07 of rdsys, of wrsys, of a column of an MXE that the crew does not hold; 0x06 of a count and of a sum; 0x0C of a
poisoned group; 0x05 of an index outside its bounds. -/
def sSick : State := { sBar [0] none with bars := [{ bar0 [0] with poisoned := true }] }
def eInd : EForm := { e0 with d := vr 6, a := ⟨.vec, 0, false, true⟩, b := vr 1 }
def sInd : State := s0.updCur fun k => { k with threads := [(0, { thr with x := [(0, 0x080709)] })] }
theorem meets_stops :
    (sysValue s0.curCore s0.cycle s0.cur 0 0x20 = none ∧ Into s0 (eSys 0x20) (sysWide 0x20) 0 [.v 6] ∧
      Ready s0 (grp [0]) always ((entryOf (.rdsys (eSys 0x20))).produces (eSys 0x20)) (touched (entryOf (.rdsys (eSys 0x20))) (eSys 0x20))) ∧
    (Ready s0 (grp [0]) always false (touched (entryOf (.wrsys (eSys 0x20))) (eSys 0x20)) ∧ Reads s0 (eSys 0x20) (eSys 0x20).b false 0 7) ∧
    (s0.cur.mxe.queue = [] ∧ s0.cur.holder ≠ some (s0.cur.crewOf 0) ∧ Reads s0 (eSys 1) (eSys 1).a false 0 7 ∧
      Reads s0 (eSys 1) (eSys 1).b false 0 7 ∧ Into s0 (eSys 1) false 0 [.v 6]) ∧
    (At s0 (grp [0]) always (touched (entryOf (.claim eCount)) eCount) [0] ∧ Reads s0 eCount eCount.b false 0 (BitVec.ofNat 64 8) ∧
      256 < (s0.cur.row (rowOf 0)).allot + 8 ∧ ¬ (9 % 8 = 0 ∧ 8 ≤ 9 ∧ 9 ≤ 256)) ∧
    (∀ i ∈ [Instr.arrive e0, .await e0, .arwait e0, .awaitElect e0], At sSick (grp [0]) always (touched (entryOf i) e0) [0]) ∧
    sSick.poisoned? sSick.curCore (grp [0]).row e0.c.code.toNat = true ∧
    (Ready sInd (grp [0]) always ((entryOf (.addE eInd)).produces eInd) (touched (entryOf (.addE eInd)) eInd) ∧
      activeSlots sInd.cur (grp [0]) always = [0] ∧ readOpnd (sInd.cur.thread 0) (sInd.cur.row (rowOf 0)) eInd eInd.a (wideInt eInd) = .error 0x05) :=
  ⟨⟨rfl, rfl, rfl, rfl, rfl⟩, ⟨⟨rfl, rfl, rfl⟩, rfl⟩, ⟨rfl, by decide, rfl, rfl, rfl⟩, ⟨⟨rfl, rfl, rfl⟩, rfl, by decide, by decide⟩, by
    intro i hi
    simp only [List.mem_cons, List.not_mem_nil, or_false] at hi
    rcases hi with rfl | rfl | rfl | rfl <;> exact ⟨rfl, rfl, rfl⟩, rfl, ⟨rfl, rfl, rfl⟩, rfl, rfl⟩

/-- sign, gdset of a predicate and of a number, gdclr. -/
theorem meets_declarations :
    let f : EForm := { e0 with a := sp 16 }
    let q : EForm := { e0 with d := sp 32, a := sp 0 }
    let r : EForm := { e0 with d := sp 32, a := im }
    (At s0 (grp [0]) always (fun _ _ => []) [0] ∧ Released s0 (grp [0]) [0] ∧ signNew f = false ∧
      ((s0.cur.crew (s0.cur.crewOf 0)).conv (convOf f)).pending = none) ∧
    (At s0 (grp [0]) always (touched (entryOf (.gdset q)) q) [0] ∧ q.a.kind = .spc) ∧
    (At s0 (grp [0]) always (touched (entryOf (.gdset r)) r) [0] ∧ r.a.kind ≠ .spc ∧
      Reads s0 r r.a false (topSlot [0]) 0) ∧
    At s0 (grp [0]) always (touched (entryOf (.gdclr q)) q) [0] :=
  ⟨⟨⟨rfl, rfl, rfl⟩, only (n := 0) rfl rfl, rfl, rfl⟩, ⟨⟨rfl, rfl, rfl⟩, rfl⟩, ⟨⟨rfl, rfl, rfl⟩, by decide, rfl⟩, ⟨rfl, rfl, rfl⟩⟩

/-- evwait; evpost to the own crew, to a crew that is not there, and beyond the numbers of crews. -/
theorem meets_events :
    let f : EForm := { e0 with d := vr 8 }
    let q : EForm := { e0 with d := sp 1, a := im, b := vr 4 }
    let posting (n : BitVec 8) : EForm := { q with imm8 := n }
    (Ready s0 (grp [0]) always ((entryOf (.evwait f)).produces f) (touched (entryOf (.evwait f)) f) ∧
      ∀ x ∈ byLane (activeSlots s0.cur (grp [0]) always), Into s0 f true x [.v 8, .v 9]) ∧
    (At s0 (grp [0]) always (touched (entryOf (.evpost q)) q) [0] ∧ (grp [0]).doneAt = [] ∧ s0.cur.released 0 = true ∧ Reads s0 q q.a false 0 0 ∧
      Reads s0 q q.b true 0 0x0100000000000003 ∧ s0.crewPlace (s0.cur.crewAt 0).lid ((s0.cur.crewAt 0).gang * 8 + 0) = some (0, 0) ∧
      ((s0.core 0).crew 0).evq.length < Config.evqSize) ∧
    (Reads s0 (posting 7) (posting 7).a false 0 7 ∧ s0.crewPlace (s0.cur.crewAt 0).lid ((s0.cur.crewAt 0).gang * 8 + 7) = none) ∧
    Reads s0 (posting 9) (posting 9).a false 0 9 :=
  ⟨⟨⟨rfl, rfl, rfl⟩, only (n := 0) rfl rfl⟩, ⟨⟨rfl, rfl, rfl⟩, rfl, rfl, rfl, rfl, rfl, by decide⟩, ⟨rfl, rfl⟩, rfl⟩

/-! ## Hypotheses that are met: engine commands and waits -/

/-- mxacq of a free MXE, and of one that is held. -/
theorem meets_mxacq :
    (At s0 (grp [0]) always (fun _ _ => [.p 0]) [0] ∧ s0.cur.holder = none ∧ s0.cur.mxe.queue = [] ∧ crewsByRow s0.cur [0] = [0]) ∧
    At sHeld (grp [0]) always (fun _ _ => [.p 0]) [0] ∧ sHeld.cur.holder ≠ none :=
  ⟨⟨⟨rfl, rfl, rfl⟩, rfl, rfl, rfl⟩, ⟨rfl, rfl, rfl⟩, by decide⟩

theorem meets_mxrel :
    (At s0 (grp [0]) always (fun _ _ => []) [0] ∧ ∀ x ∈ [0], s0.cur.holder ≠ some (s0.cur.crewOf x)) ∧
    (At sHeld (grp [0]) always (fun _ _ => []) [0] ∧ sHeld.cur.holder = some (sHeld.cur.crewOf 0) ∧ ∀ c ∈ sHeld.cur.mxe.queue, c.crew ≠ sHeld.cur.crewOf 0) ∧
    At s0 (grp [0]) always (fun _ _ => cmdRegs (.omap g0) 0) [0] :=
  ⟨⟨⟨rfl, rfl, rfl⟩, by decide⟩, ⟨⟨rfl, rfl, rfl⟩, rfl, by decide⟩, ⟨rfl, rfl, rfl⟩⟩

/-- A command of crew 0 in the queue of an engine. -/
def cmd0 (i : Instr) : Cmd := { id := 5, instr := i, core := 0, crew := 0, row := 0, lanes := [0] }
def sQueued (i : Instr) (p : CmdPhase) : State :=
  s0.updCur fun k => { k with holder := some 0, mxe := { queue := [{ cmd0 i with phase := p }] }, threads := [(0, { thr with signed := [5] })] }

theorem meets_mxrel_wait : At (sQueued (.aczero g0) .queued) (grp [0]) always (fun _ _ => []) [0] ∧
    (sQueued (.aczero g0) .queued).cur.holder = some ((sQueued (.aczero g0) .queued).cur.crewOf 0) ∧
    ∃ c ∈ (sQueued (.aczero g0) .queued).cur.mxe.queue, c.crew = (sQueued (.aczero g0) .queued).cur.crewOf 0 :=
  ⟨⟨rfl, rfl, rfl⟩, rfl, by decide⟩

theorem agrees {v : ConvReg} {i : Instr} (h : (pendingOf v).all (fun p => decide (p.instr = i)) = true) :
    ∀ p, pendingOf v = some p → p.instr = i := fun p e => by simpa [e] using h

/-- The convergence register 0 of crew 0, which holds the MXE. -/
def sSet (v : ConvReg) : State := sHeld.updCur fun k => { k with crews := [(0, { rows := [0], scr := 65536, cv := [(0, v)] })] }
def sOther : State := sSet ⟨[0, 1], [], none⟩
/-- A command that thread 1 has signed and fixed; a queue that is full. -/
def sJoin (d : List Nat) (i : Instr) : State := sSet ⟨d, [1], some (cmd0 i)⟩
def sFull : State := sHeld.updCur fun k => { k with mxe := { queue := List.replicate 32 (cmd0 (.aczero g0)) } }

/-- Signs: alone, with others to sign, of the copy engine; no active lane. -/
theorem meets_signs :
    (Signs sHeld (grp [0]) (.aczero g0) [0] 0 ∧ engineRoom (engineOf 0 (.aczero g0)) (sHeld.engine (engineOf 0 (.aczero g0))).queue 0 0 = true ∧
      unionNat [0] ((sHeld.cur.crew 0).conv (cvOf (.aczero g0))).declared = unionNat [0] []) ∧
    (Signs sOther (grp [0]) (.aczero g0) [0] 0 ∧ unionNat [0] ((sOther.cur.crew 0).conv (cvOf (.aczero g0))).declared ≠ unionNat [0] []) ∧
    (Signs s0 (grp [0]) (.tcopy g0) [0] 0) ∧
    cmdStall s0.cur (grp [0]) (.aczero { g0 with guard := gOff }) gOff = false ∧ activeSlots s0.cur (grp [0]) gOff = [] :=
  ⟨⟨⟨rfl, rfl, rfl, by decide, by decide, fun _ => rfl, agrees rfl, by decide⟩, rfl, rfl⟩,
    ⟨⟨rfl, rfl, rfl, by decide, by decide, fun _ => rfl, agrees rfl, by decide⟩, by decide⟩,
    ⟨rfl, rfl, rfl, by decide, by decide, nofun, agrees rfl, by decide⟩, rfl, rfl⟩

/-- A signature that joins a set and leaves another to sign, one that completes it, one that finds no room, a lane that has signed. -/
theorem meets_joins :
    (Signs (sJoin [0, 1, 2] (.aczero g0)) (grp [0]) (.aczero g0) [0] 0 ∧
      (pendingOf (((sJoin [0, 1, 2] (.aczero g0)).cur.crew 0).conv (cvOf (.aczero g0)))).isNone = false ∧
      unionNat [0] [0, 1, 2] ≠ unionNat [0] [1]) ∧
    (Signs (sJoin [0, 1] (.aczero g0)) (grp [0]) (.aczero g0) [0] 0 ∧ unionNat [0] [0, 1] = unionNat [0] [1]) ∧
    (Signs sFull (grp [0]) (.aczero g0) [0] 0 ∧ engineRoom (.mxe 0) (sFull.engine (.mxe 0)).queue 0 0 = false) ∧
    ∃ g : Group, Signs (sHeld.setCurGroup g) g (.aczero g0) [0] 0 ∧ [0].filter (fun x => !g.doneAt.contains x) = [] :=
  ⟨⟨⟨rfl, rfl, rfl, by decide, by decide, fun _ => rfl, agrees rfl, by decide⟩, rfl, by decide⟩,
    ⟨⟨rfl, rfl, rfl, by decide, by decide, fun _ => rfl, agrees rfl, by decide⟩, by decide⟩,
    ⟨⟨rfl, rfl, rfl, by decide, by decide, fun _ => rfl, agrees rfl, by decide⟩, by decide⟩,
    { grp [0] with doneAt := [0] }, ⟨rfl, rfl, rfl, by decide, by decide, fun _ => rfl, agrees rfl, by decide⟩, rfl⟩

/-- CommandStops: the MXE is not held; another command is pending. -/
theorem meets_command_stops :
    (cmdStall s0.cur (grp [0]) (.aczero g0) g0.guard = false ∧ activeSlots s0.cur (grp [0]) g0.guard = [0] ∧
      needsMxe (.aczero g0) = true ∧ ∀ x ∈ [0], s0.cur.holder ≠ some (s0.cur.crewOf x)) ∧
    (∀ x ∈ [0], (sJoin [0, 1] (.acmov g0)).cur.holder = some ((sJoin [0, 1] (.acmov g0)).cur.crewOf x)) ∧
    ∀ x ∈ [0], x ∉ (grp [0]).doneAt ∧ ∃ p, pendingOf (((sJoin [0, 1] (.acmov g0)).cur.crewAt x).conv (cvOf (.aczero g0))) = some p ∧
      p.instr ≠ .aczero g0 :=
  ⟨⟨rfl, rfl, rfl, by decide⟩, by decide, only rfl ⟨by decide, _, rfl, by decide⟩⟩

/-- WaitsEngine: the command that the wait covers is in the queue; it has ended well. -/
def sEnded : State := s0.updCur fun k => { k with mxe := { ended := [⟨5, 0, 0, 0, false, none, []⟩] }, threads := [(0, { thr with signed := [5] })] }

theorem meets_engine_waits :
    (At (sQueued (.aczero g0) .queued) (grp [0]) always (fun _ _ => [.p 0]) [0] ∧
      ∃ n ∈ ((grp [0]).waitOf 0).getD ((sQueued (.aczero g0) .queued).coverOf (waitEngine 0 (.mxwait g0)) 0 0),
        ((sQueued (.aczero g0) .queued).engine (waitEngine 0 (.mxwait g0))).find n = none) ∧
    At sEnded (grp [0]) always (fun _ _ => [.p 0]) [0] ∧
      ((grp [0]).waitOf 0).getD (sEnded.coverOf (waitEngine 0 (.mxwait g0)) 0 0) = [5] ∧ sEnded.cur.loadsDone 0 = true ∧
      ((sEnded.engine (waitEngine 0 (.mxwait g0))).find 5).any (fun e => e.fault.isNone) = true :=
  ⟨⟨⟨rfl, rfl, rfl⟩, by decide⟩, ⟨rfl, rfl, rfl⟩, rfl, rfl, rfl⟩

/-! ## Hypotheses that are met: store buffers, answers, homes, loads -/

def sob0 (k : SobKind) (sent : Bool) : SobEntry := ⟨3, [0], k, 0x10, 0xF, 0xAB, sent, false, 0, 0⟩
def sSob (l : List SobEntry) : State := s0.updCur fun k => { k with sob := l }

theorem meets_store_buffer :
    (sobSplit 3 (sSob [sob0 .global false]).cur.sob = some ([], sob0 .global false) ∧ canSend [] (sob0 .global false) = true ∧
      (s0.core 0).loadsAllow (sob0 .global false) = true ∧ canWriteScratch 0 [] (sob0 .global false) = false) ∧
    (sobSplit 3 (sSob [sob0 .scratch false]).cur.sob = some ([], sob0 .scratch false) ∧ canSend [] (sob0 .scratch false) = false ∧
      canWriteScratch 0 [] (sob0 .scratch false) = true) ∧
    (sLoading.core 0).loadsAllow { sob0 .global false with id := 5, release := true } = false ∧
    sobSplit 3 (sSob [sob0 (.window 2) false]).cur.sob = some ([], sob0 (.window 2) false) ∧ canWriteScratch 0 [] (sob0 (.window 2) false) = true :=
  ⟨⟨rfl, rfl, rfl, rfl⟩, ⟨rfl, rfl, rfl⟩, rfl, rfl, rfl⟩

/-- A message at the head of a lane; the load 4 of thread 0 waits. -/
def laneTo (d : Endpoint) : LaneId := ⟨.part 0, d, 0⟩
def sMsg (d : Endpoint) (m : Msg) (hint : Nat) : State :=
  { s0.updCur fun k => { k with lq := [lq0 hint false] } with
    lanes := [⟨laneTo d, [m]⟩], lines := [(1, lineAt (.local 0x10040) false)], owners := [(0x10, 3)] }

theorem meets_answers :
    (sMsg (.lse 2) (.window 0 3 none 0x80 0xF 1) 0).head (laneTo (.lse 2)) = some (.window 0 3 none 0x80 0xF 1) ∧
    (sMsg (.lse 0) (.ack 0 3 none) 0).head (laneTo (.lse 0)) = some (.ack 0 3 none) ∧
    ((sMsg (.lse 0) (.result 0 3 4 9 true 0x10) 0).head (laneTo (.lse 0)) = some (.result 0 3 4 9 true 0x10) ∧
      ((sMsg (.lse 0) (.result 0 3 4 9 true 0x10) 0).core 0).lq.find? (fun q => q.id = 4) = some (lq0 0 false)) ∧
    (let s := s0.updCur fun k => { k with results := [⟨4, 0, [.v 8], some 1, none⟩] }
     (s.core 0).results.find? (fun r => r.id = 4) = some ⟨4, 0, [.v 8], some 1, none⟩ ∧ ((s.core 0).thread 0).phase ≠ .pending ∧
       ∀ m, ((s.core 0).thread 0).void = some m → 8 < m) :=
  ⟨rfl, rfl, ⟨rfl, rfl⟩, rfl, by decide, nofun⟩

set_option exponentiation.threshold 600 in
set_option maxRecDepth 100000 in
/-- The line's tags are those of its zeros. -/
theorem meets_clean : (sMsg (.part 5) (.ack 0 0 none) 0).badWord 0x10 = false := by decide

theorem meets_clean_word (d : Endpoint) (m : Msg) (h : Nat) : (sMsg d m h).badWord 0x10 = false := meets_clean

/-- An answer for the load 4, with a cache hint; a load of two words. -/
def lq1 : LqEntry := { lq0 1 false with bytes := 8, parts := [⟨0x10, 0, 0, true, false, 0⟩, ⟨0x11, 0, 0, true, false, 0⟩], dsts := [.v 8, .v 9] }
def filled0 (q : LqEntry) : List LqPart := (q.fillPart 0x10 fun p => { p.take 9 0 with asked := false }).parts
def sAnswer (q : LqEntry) (bad : Taint) : State :=
  (sMsg (.lse 0) (.readResp 0 4 none 0x10 9 true true false bad 0) 0).updCur fun k => { k with lq := [q] }

/-- The sector of the word 0x10 is poisoned. -/
def sPoison (m : Msg) : State := { sMsg (.part 5) m 0 with lines := [(1, { lineAt (.local 0x10040) false with poison := 3 })] }

/-- RegistrationAtHome, AtomicsAtHome, ReadsAtHome: the line is there, the word has an owner; its sector is good, and poisoned. -/
theorem meets_home :
    ((sPoison (.sector (some 0) 0 none 0x10 7)).head (laneTo (.part 5)) = some (.sector (some 0) 0 none 0x10 7) ∧
      (sPoison (.sector (some 0) 0 none 0x10 7)).lines.find (0x10 / 16) = some { lineAt (.local 0x10040) false with poison := 3 }) ∧
    ((∀ m, (sPoison m).head (laneTo (.part 5)) = some m) ∧ (sPoison (.ack 0 0 none)).badWord 0x10 = true) ∧
    (let s := sMsg (.part 5) (.register (some 0) 0 3 none 0 0x10 0xF 7) 0
     s.head (laneTo (.part 5)) = some (.register (some 0) 0 3 none 0 0x10 0xF 7) ∧
       s.lines.find (0x10 / 16) = some (lineAt (.local 0x10040) false) ∧ s.badWord 0x10 = false ∧ s.owners.find 0x10 = some 3 ∧
       (some 0 : Option Nat) ≠ some 3) ∧
    (let s := sMsg (.part 5) (.atomic 0 3 4 1 0 0 0x10 1 0) 0
     s.head (laneTo (.part 5)) = some (.atomic 0 3 4 1 0 0 0x10 1 0) ∧ s.lines.find (0x10 / 16) = some (lineAt (.local 0x10040) false) ∧
       s.badWord 0x10 = false) ∧
    (let s := sMsg (.part 5) (.reduce 0 3 none 2 0 0 0x10 1 none) 0
     s.head (laneTo (.part 5)) = some (.reduce 0 3 none 2 0 0 0x10 1 none) ∧ s.badWord 0x10 = false ∧ (0x10 % 2 = 0 ∨ 2 < 2)) ∧
    (let s := sMsg (.part 5) (.readReq 0 4 none 0 0x10) 0
     s.head (laneTo (.part 5)) = some (.readReq 0 4 none 0 0x10)) ∧
    (∀ q ∈ [lq0 0 false, lq0 1 false, lq0 2 false, lq1], ∀ bad,
      (sAnswer q bad).head (laneTo (.lse 0)) = some (.readResp 0 4 none 0x10 9 true true false bad 0) ∧
      ((sAnswer q bad).core 0).lq.find? (fun q => q.id = 4) = some q ∧ q.atomic = false ∧ ((sAnswer q bad).core 0).e1 = q.e1 ∧
      ((sAnswer q bad).cluster (clusterOf 0)).e2 = q.e2) ∧
    (∀ h < 3, ∀ p ∈ filled0 (lq0 h false), p.known = 0xF) ∧ (∃ p ∈ filled0 lq1, p.known ≠ 0xF) ∧
    (s0.core 0).lq.find? (fun q => q.id = 4) = none ∧
    (let s := sMsg (.lse 0) (.readResp 0 0 (some (.copy 0, 5)) 0x10 9 true true false .clean 0) 0
     s.head (laneTo (.lse 0)) = some (.readResp 0 0 (some (.copy 0, 5)) 0x10 9 true true false .clean 0)) :=
  ⟨⟨rfl, rfl⟩, ⟨fun _ => rfl, by decide⟩, ⟨rfl, rfl, meets_clean_word _ _ _, rfl, by decide⟩, ⟨rfl, rfl, meets_clean_word _ _ _⟩,
    ⟨rfl, meets_clean_word _ _ _, by decide⟩, rfl, by
    intro q hq bad
    simp only [List.mem_cons, List.not_mem_nil, or_false] at hq
    rcases hq with rfl | rfl | rfl | rfl <;> exact ⟨rfl, rfl, rfl, rfl, rfl⟩, by decide, by decide, rfl, rfl⟩

/-- A load of two words, and one of a scratchpad word. -/
def lq2 : LqEntry := { lq1 with parts := [⟨0x10, 0, 0, false, false, 0⟩, ⟨0x11, 0, 0, false, false, 0⟩] }
def lqS : LqEntry := { lq0 0 false with space := .scratch }

/-- LoadsAreSatisfied: from its own store, from a view, from neither, where the view's copy is older than what the thread has written;
two words, of which the view holds one; a scratchpad word. -/
theorem meets_satisfy :
    let s := sMsg (.lse 0) (.ack 0 3 none) 0
    let own := s.updCur fun k => { k with sob := [sob0 .global false] }
    let seen := s.updCur fun k => { k with v1 := [(0x10, ⟨5, false, true, true, true, .clean, false, 0⟩)] }
    ((s.core 0).lq.find? (fun q => q.id = 4) = some (lq0 0 false) ∧ heldBack (s.core 0) (lq0 0 false) = false ∧ s.badParts 0 (lq0 0 false) = [] ∧
      (∃ p ∈ (lq0 0 false).parts, p.known ≠ 0xF ∧ p.asked = false) ∧
      (ownBytes 0 (s.core 0) (lq0 0 false) (ownDet (s.core 0) (lq0 0 false) ⟨0x10, 0, 0, false, false, 0⟩)).known ≠ 0xF) ∧
    (own.badParts 0 (lq0 0 false) = [] ∧
      (ownBytes 0 (own.core 0) (lq0 0 false) (ownDet (own.core 0) (lq0 0 false) ⟨0x10, 0, 0, false, false, 0⟩)).known = 0xF) ∧
    (seen.badParts 0 (lq0 0 false) = [] ∧ (seen.core 0).v1.find 0x10 = some ⟨5, false, true, true, true, .clean, false, 0⟩) ∧
    5 < (({ thr with fresh := [(0x10, 0, 6)] } : Thread).floor (seen.core 0).e1 0x10) ∧
    (let s := seen.updCur fun k => { k with lq := [lq2] }
     (s.core 0).lq.find? (fun q => q.id = 4) = some lq2 ∧ heldBack (s.core 0) lq2 = false ∧ s.badParts 0 lq2 = [] ∧
       (∃ p ∈ lq2.parts, p.known ≠ 0xF ∧ p.asked = false)) ∧
    (let s := s0.updCur fun k => { k with lq := [lqS] }
     (s.core 0).lq.find? (fun q => q.id = 4) = some lqS ∧ heldBack (s.core 0) lqS = false ∧ s.badParts 0 lqS = [] ∧
       lqS.space.array 0 = some 0) :=
  ⟨⟨rfl, rfl, rfl, by decide, by decide⟩, ⟨rfl, rfl⟩, ⟨rfl, rfl⟩, by decide, ⟨rfl, rfl, rfl, by decide⟩, rfl, rfl, rfl, rfl⟩

/-! ## Hypotheses that are met: translation, far memory, heat, migration -/

/-- An access of the byte 0x40 waits for its verdict; its page's leaf is in the TLB. -/
def leafWord (perms res : Nat) : Dword := BitVec.ofNat 64 (1 + 4 * perms + res * 2 ^ 12 + 2 ^ 16)
def sXlat (grp : Option Nat) (hint : Nat) (w : Dword) : State :=
  { s0.updCur fun k => { k with xlat := [⟨4, grp, 0, 0x40, 0, hint, 0, 0⟩] } with tlb := [⟨homeOf 0x40, 0, 0, 4, 0x8000, w⟩] }
def sHit (grp : Option Nat) (hint : Nat) (l : Line) : State := { sXlat grp hint 0 with lines := [(1, l)] }

theorem meets_verdicts :
    (((sHit (some 0) 0 (lineAt (.local 0) false)).core 0).xlat.find? (fun q => q.id = 4) = some ⟨4, some 0, 0, 0x40, 0, 0, 0, 0⟩ ∧
      (sHit (some 0) 0 (lineAt (.local 0) false)).lines.find (0x40 / lineBytes) = some (lineAt (.local 0) false)) ∧
    (((sHit none 2 (lineAt (.local 0) false)).core 0).xlat.find? (fun q => q.id = 4) = some ⟨4, none, 0, 0x40, 0, 2, 0, 0⟩) ∧
    ((sXlat (some 0) 0 0).lines.find (0x40 / lineBytes) = none ∧ (sXlat (some 0) 0 0).isBlocked 0x40 = false ∧
      ((sXlat (some 0) 0 0).setLines (0x40 / lineBytes)).length < Config.cacheWays) ∧
    (∃ e t, s0.translate 0x40 = (.error e, t)) ∧
    (∃ t, (sXlat (some 0) 0 (leafWord 7 2)).translate 0x40 = (.ok ⟨0x8000, (leafWord 7 2).toNat, 4⟩, t) ∧ leafRes (leafWord 7 2).toNat = 2) ∧
    (∃ t, (sXlat (some 0) 0 (leafWord 2 0)).translate 0x40 = (.ok ⟨0x8000, (leafWord 2 0).toNat, 4⟩, t) ∧ leafRes (leafWord 2 0).toNat ≠ 2 ∧
      leafGrants (leafWord 2 0).toNat 0 = false) ∧
    ∃ t, (sXlat (some 0) 0 (leafWord 7 0)).translate 0x40 = (.ok ⟨0x8000, (leafWord 7 0).toNat, 4⟩, t) ∧ leafRes (leafWord 7 0).toNat = 0 ∧
      leafGrants (leafWord 7 0).toNat 0 = true :=
  ⟨⟨rfl, rfl⟩, rfl, ⟨rfl, rfl, by decide⟩, ⟨_, _, rfl⟩, ⟨_, rfl, rfl⟩, ⟨_, rfl, by decide, rfl⟩, _, rfl, rfl, rfl⟩

/-- A read of the far line 1, for one access, that maintenance has overtaken or not; a far write-back of it. -/
def read0 (stale : Bool) : FarRead :=
  { line := 1, index := 3, addr := 0x1000, dest := .host, leafAddr := 0x8000, leaf := 5, waiters := [(0, 4)], fetches := [], cmds := [],
    stale := stale, heat := [(0x40, 0)] }
def write0 : FarWrite := { line := 1, dest := .host, index := 3, addr := 0x1000, data := 0, tags := 0, poison := 0 }
def sReads (stale : Bool) : State := { sXlat (some 0) 0 0 with farReads := [read0 stale] }

theorem meets_far :
    ((sReads true).farReads.find? (fun r => r.line = 1) = some (read0 true) ∧ (read0 true).stale = true) ∧
    ((sReads false).farReads.find? (fun r => r.line = 1) = some (read0 false) ∧ (read0 false).stale = false ∧
      (sReads false).isBlocked (1 * lineBytes) = false ∧ ((sReads false).setLines 1).length < Config.cacheWays) ∧
    (∀ p ∈ [(FillAddr.local 0x40, false), (.local 0x40, true), (.far 3 0x1000 .host, true)],
      ({ s0 with lines := [(1, lineAt p.1 p.2)] } : State).lines.find 1 = some (lineAt p.1 p.2)) ∧ ∀ w ∈ s0.farWrites, w.line ≠ 1 :=
  ⟨⟨rfl, rfl⟩, ⟨rfl, rfl, rfl, by decide⟩, fun _ _ => rfl, by decide⟩

/-- A destination that has not answered for a second: one write, one read, a remote copy; and for less. -/
def late (s : State) : State := { s with cycle := 940000000 }
def cLost : Cmd := { cmd0 (.tcopy g0) with phase := .started, outstanding := 1, work := { ready := true, desc := 2 * 2 ^ 20 } }
def sLost : State := late (s0.updCur fun k => { k with copy := { queue := [cLost] } })
theorem meets_unreachable :
    (let s : State := late { s0 with farWrites := [write0], lines := [(1, lineAt (.far 3 0x1000 .host) false)] }
     s.farReads = [] ∧ s.farWrites = [write0] ∧ write0.dest = .host ∧ write0.since + 940000000 ≤ s.cycle ∧ s.lines.find write0.line = some (lineAt (.far 3 0x1000 .host) false)) ∧
    (late (sReads false)).farReads = [read0 false] ∧ (late (sReads false)).farWrites = [] ∧
    (read0 false).since + 940000000 ≤ (late (sReads false)).cycle ∧ (read0 false).dest = .host ∧ (read0 false).waiters = [(0, 4)] ∧
    (read0 false).fetches = [] ∧ (read0 false).cmds = [] ∧ (read0 false).front = false ∧
    ((late (sReads false)).core 0).xlat.find? (fun x => x.id = 4) = some ⟨4, some 0, 0, 0x40, 0, 0, 0, 0⟩ ∧
    (∃ d, sLost.unanswered d = true) ∧ sLost.farReads = [] ∧ sLost.farWrites = [] ∧ (sReads false).unanswered .host = false :=
  ⟨⟨rfl, rfl, rfl, by decide, rfl⟩, rfl, rfl, by decide, rfl, rfl, rfl, rfl, rfl, rfl, ⟨.peer 0, by decide⟩, rfl, rfl, by decide⟩

/-- migration: the record, the first lines, the last, and bytes that do not come next. -/
def mig0 (copied : Nat) : Migrating := ⟨⟨0, false, 0, 0, 0, 0, 0x8000⟩, 0x20000, copied, false, true⟩
def sMig (copied : Nat) : State := { s0 with migrating := some (mig0 copied) }

theorem meets_migration :
    (sMig 0).mayCopy (mig0 0) 0x30000 64 = true ∧ (sMig 64).mayCopy (mig0 64) 0x20040 (2 ^ 16 - 64) = true ∧
    (sMig 64).mayCopy (mig0 64) 0x20000 64 = false ∧ (sMig (2 ^ 16)).migrating = some (mig0 (2 ^ 16)) ∧
    (mig0 (2 ^ 16)).copied = (mig0 (2 ^ 16)).record.bytes ∧ (mig0 (2 ^ 16)).final = false ∧
    ({ mig0 0 with final := true } : Migrating).onUnblock (migRange (mig0 0).record) = none ∧
    (mig0 0).onUnblock (migRange (mig0 0).record) ≠ none := ⟨by decide, by decide, by decide, rfl, by decide, rfl, by decide, by decide⟩

/-- heatUpdate: below 3; 3 on a remote leaf with no record, with a credit and with none. -/
def sHeat (leaf credits : Nat) : State :=
  { s0 with heat := [⟨0, 0x8000, false, 0, false, 0, 0x40⟩], dram := (Memory.writeNat [] 0x8000 8 leaf),
            migQ := List.replicate credits ⟨0, false, 0, 0, 0, 0, 0⟩ }

theorem meets_heat :
    bitsOf (heated ((sHeat 1 0).tableWord 0x8000) false) 8 7 ≠ 3 ∧ (sHeat 3 0).flips = [] ∧
    (sHeat 3 0).sectorPoisoned (0x8000 / 32) = false ∧ ({ sHeat 3 0 with poisoned := [0x400] } : State).sectorPoisoned (0x8000 / 32) = true ∧
    (let e := heated ((sHeat (1 + 2 * 2 ^ 7 + 2 ^ 12) 0).tableWord 0x8000) false
     bitsOf e 8 7 = 3 ∧ leafRes e = 1 ∧ e.testBit 11 = false) ∧
    (sHeat 1 63).migQ.length < Config.migCredits ∧ Config.migCredits ≤ (sHeat 1 64).migQ.length ∧ s0.power = .c0 ∧
    ({ s0 with power := .c2 } : State).power ≠ .c0 ∧
    (let r : PageRange := ⟨0, false, 0, 0x10000⟩
     r ∈ ({ s0 with blocked := [r] } : State).blocked ∧ rangeHas r (1 * lineBytes) = true ∧ rangeHas r (4 * 0x10) = true ∧
       rangeHas r (0x10000 / 64 * lineBytes) = false) ∧
    s0.migrating = none ∧ (sHeat 1 1).migQ = [⟨0, false, 0, 0, 0, 0, 0⟩] :=
  ⟨by decide, rfl, by decide, by decide, by decide, by decide, by decide, rfl, by decide, by decide, rfl, rfl⟩

/-! ## Hypotheses that are met: the selector and the streams -/

def bin0 (yielded : Bool) (filed : Nat) : Bin := ⟨⟨0, false, 0x400000000#64⟩, 0x400000000#64, [0], filed, [], yielded⟩
/-- Thread 0 waits in a bin; the streams are free. -/
def sBin : State :=
  s0.updCur fun k => { k with stream0 := {}, bins := [bin0 false 0], threads := [(0, { thr with phase := .waiting, next := 0x400000000#64 })] }
def old (s : State) : State := { s with cycle := 5000 }

theorem meets_selection :
    (((sBin.core 0).stream false).sel = none ∧ ((sBin.core 0).stream false).group = none ∧ sBin.choose 0 false = some (bin0 false 0, [0])) ∧
    (let s := s0.updCur fun k => { k with threads := [(0, { thr with phase := .spilled, next := 0x400000000#64 })] }
     (s.core 0).spilled = [0] ∧ (s.core 0).bins.length < Config.bins) :=
  ⟨⟨rfl, rfl, rfl⟩, rfl, by decide⟩

/-- SelectionFollowsPolicy: an entry may be taken; it is old, and it is not; every policy; full and not; a yielded entry alone. -/
theorem meets_policies :
    (sBin.takeable 0 false = [(bin0 false 0, [0])] ∧ ¬ (sBin.core 0).selAge.toNat < (bin0 false 0).age sBin.cycle) ∧
    ((old sBin).takeable 0 false = [(bin0 false 0, [0])] ∧ ((old sBin).core 0).selAge.toNat < (bin0 false 0).age (old sBin).cycle) ∧
    (∀ p : BitVec 2, ((sBin.updCur fun k => { k with selPol := p }).core 0).policy = p) ∧
    (sBin.core 0).isFull (bin0 false 0, [0]) = true ∧
    (let s := sBin.updCur fun k => { k with threads := k.threads ++ [(1, { phase := .parked })] }
     (s.core 0).isFull (bin0 false 0, [0]) = false) ∧
    (sBin.core 0).tid 0 < 2 ^ 32 ∧ (sBin.updCur fun k => { k with bins := [bin0 true 0] }).takeable 0 false = [(bin0 true 0, [0])] :=
  ⟨⟨rfl, by decide⟩, ⟨rfl, by decide⟩, by decide, by decide, by decide, by decide, rfl⟩

/-- A suspended group whose wait is over, its pipe open; one whose block the other stream runs; a claim at the head of the queue; a
drained thread at its exit; a signature. -/
def gAt (i : Instr) : Group := { grp (encode i) with blocked := true }
def gExit : Group := { gAt .exitB with len := 1 }
theorem meets_streams :
    (let s := s0.updCur fun k => { k with stream0 := {}, suspended := [gAt (.sign { e0 with a := sp 16 })] }
     (s.core 0).suspended.find? (fun g => g.id = 0) = some (gAt (.sign { e0 with a := sp 16 })) ∧
       s.groupReady 0 (gAt (.sign { e0 with a := sp 16 })) = true ∧ (gAt (.sign { e0 with a := sp 16 })).pipe = false ∧
       ((s.core 0).stream false).group = none ∧ ((s.core 0).stream true).block = none ∧ ((s.core 0).stream true).group = none) ∧
    (let s := s0.updCur fun k => { k with stream0 := {}, stream1 := { group := some (grp [0]) } }
     ((s.core 0).stream true).block = some ((grp [0]).key.asid, (grp [0]).header)) ∧
    (let s := s0.updCur fun k => { k with rows := [(0, { allot := 248 })], claimQ := [⟨0, 8⟩] }
     (s.core 0).claimQ = [⟨0, 8⟩] ∧ 8 ≤ (s.core 0).poolFree) ∧
    (let s := at0 gExit
     (s.core 0).stream0.group = some gExit ∧ gExit.blocked = true ∧ 0 ∈ gExit.members ∧ fetched gExit = some .exitB ∧
       ∃ t, s.retire 0 0 = some t) ∧
    (let i := Instr.tcopy { g0 with a := 4 }
     let g := { gAt i with cf := true }
     let s := at0 g
     ∃ f e t, (s.core 0).stream0.group = some g ∧ fetched g = some i ∧ gEntry i = some (f, e) ∧ e.queued = true ∧
       cmdStall (s.core 0) g i f.guard = false ∧ activeSlots (s.core 0) g f.guard = [0] ∧ 0 ∉ g.doneAt ∧ (s.core 0).released 0 = true ∧
       cmdFaults (s.core 0) g i [0] = [] ∧ s.signCohort 0 i ([0].filter fun y => rowOf y = rowOf 0) [0] = some t) :=
  ⟨⟨rfl, rfl, rfl, rfl, rfl, rfl⟩, rfl, ⟨rfl, by decide⟩, ⟨rfl, rfl, by decide, rfl, _, rfl⟩, _, _, _, rfl, rfl, rfl, rfl, rfl, rfl, by decide, rfl, rfl, rfl⟩

/-! ## Hypotheses that are met: block fetch, synchronisation, engines -/

/-- The block at 0x400000000 is cached: a header with LEN 1, or with CF too, and an exit. -/
def sCode (head : Nat) : State :=
  sBin.updCur fun k => { k with
    icache := [(0x400000000 / 64, BitVec.ofNat 512 (head + 2 ^ 32 * (encode .exitB).headD 0))], bins := [],
    stream0 := { sel := some ⟨⟨0, false, 0x400000000#64⟩, 0x400000000#64, [0]⟩ } }

set_option exponentiation.threshold 600 in
theorem meets_group_start : ∀ h ∈ [0x1FC00001, 0x1FE00001],
    (((sCode h).core 0).stream false).group = none ∧ (((sCode h).core 0).stream false).sel = some ⟨⟨0, false, 0x400000000#64⟩, 0x400000000#64, [0]⟩ ∧
    (((sCode h).core 0).stream true).group = none ∧
    (sCode h).fetchBlock 0 false 0 0x400000000 = (.block h (encode .exitB), sCode h) ∧
    ((sCode h).core 0).cohortComplete [0] 0 = true ∧ ((sCode h).core 0).pick (headCf h) [] [0] ≠ [] := by
  intro h hh
  simp only [List.mem_cons, List.not_mem_nil, or_false] at hh
  rcases hh with rfl | rfl <;> exact ⟨rfl, rfl, rfl, rfl, rfl, by decide⟩

/-- A selected entry in the middle of a word; a block with no header; a block whose fetch faults. -/
def sEnter (a : Dword) (l : List (Nat × BitVec 512)) : State :=
  s0.updCur fun k => { k with icache := l, stream0 := { sel := some ⟨⟨0, false, a⟩, a, [0]⟩ } }
set_option exponentiation.threshold 600 in
theorem meets_no_header :
    (∀ a l, (((sEnter a l).core 0).stream false).group = none ∧ (((sEnter a l).core 0).stream false).sel = some ⟨⟨0, false, a⟩, a, [0]⟩ ∧
      (((sEnter a l).core 0).stream true).group = none) ∧
    (0x400000002#64).toNat % 4 ≠ 0 ∧
    (sEnter 0x400000000 [(0x400000000 / 64, 0)]).fetchBlock 0 false 0 0x400000000 = (.noHeader, sEnter 0x400000000 [(0x400000000 / 64, 0)]) ∧
    ∃ code a t, (sEnter 0x400000000 []).fetchBlock 0 false 0 0x400000000 = (.fault code a false, t) :=
  ⟨fun _ _ => ⟨rfl, rfl, rfl⟩, by decide, rfl, _, _, _, rfl⟩

theorem meets_register_writes : (s0.core 0).ownsSelector 0 = true ∧ (s0.core 0).detBound = false ∧ ((s0.core 0).thread 0).phase ≠ .free ∧
    (s0.core 0).crews.find 0 = some { rows := [0], scr := 65536 } ∧ s0.power = .c0 ∧ ({ s0 with power := .c1 } : State).power ≠ .c0 :=
  ⟨rfl, rfl, by decide, rfl, rfl, by decide⟩

/-- The arrive of a cohort block waits at its instruction; a DET crew whose cohorts have all arrived, and whose merge has been taken. -/
def eArr : EForm := e0
def gArrive : Group := { grp (encode (.arrive eArr)) with cf := true }
def sArr : State := { at0 gArrive with bars := [bar0 [0]] }.updCur fun k => { k with rows := [(0, { allot := 256, groups := [⟨0, none, none⟩] })] }
def sDet (b : Barrier) : State := { s0 with bars := [b] }.updCur fun k => { k with crews := [(0, { rows := [0], scr := 65536, det := true })] }

theorem meets_synchronisation :
    (sArr.core 0).stream0.group = some gArrive ∧ fetched gArrive = some (.arrive eArr) ∧ gArrive.arrived = false ∧
    mustStall (sArr.core 0) gArrive always (fun _ _ => []) = false ∧ activeSlots (sArr.core 0) gArrive always ≠ [] ∧
    sArr.poisoned? 0 0 0 = false ∧ sArr.barView 0 0 0 = some (viewOf sArr) ∧ arriveNow (sArr.core 0) (viewOf sArr) = .step ∧
    (let b : Barrier := { bar0 [0] with arrived := [0] }
     (((sDet b).core 0).crew 0).det = true ∧ (sDet b).mergeDue 0 b = true ∧ barServes b.id 0 0 = true ∧
     ({ s0 with bars := [b] } : State).canAdvance b = true) ∧
    (let s := s0.updCur fun k => { k with crews := [(0, { rows := [0], held := [1], evReqs := [⟨0, 4⟩], evq := [9] })] }
     ((s.core 0).crew 0).held = 1 :: [] ∧ ((s.core 0).crew 0).evq.length < Config.evqSize ∧ ((s.core 0).crew 0).evReqs = ⟨0, 4⟩ :: [] ∧
     ((s.core 0).crew 0).evq = 9 :: []) :=
  ⟨rfl, by decide, rfl, rfl, by decide, rfl, rfl, by decide, ⟨rfl, rfl, rfl, rfl⟩, rfl, by decide, rfl, rfl⟩

theorem meets_merge_and_drain :
    (sDet { bar0 [0] with arrived := [0] }).bars.find? (fun b => barServes b.id 0 0 && (sDet { bar0 [0] with arrived := [0] }).mergeDue 0 b) =
      some { bar0 [0] with arrived := [0] } ∧
    (sDet { bar0 [0] with arrived := [0], merged := [0] }).bars.find?
        (fun b => barServes b.id 0 0 && !b.poisoned && b.merged.contains 0 && !b.drained.contains 0) =
      some { bar0 [0] with arrived := [0], merged := [0] } ∧
    (sDet { bar0 [0] with poisoned := true }).bars.find? (fun b => b.id = ⟨0, 0, none⟩) = some { bar0 [0] with poisoned := true } ∧
    (sDet (bar0 [0])).bars.find? (fun b => b.id = ⟨0, 0, none⟩) = some (bar0 [0]) ∧ (sDet (bar0 [0])).canAdvance (bar0 [0]) = false :=
  ⟨rfl, rfl, rfl, rfl, rfl⟩

/-- EngineStepsComplete: a queued command that may start, whose guard runs it, is against it, or is not resolved; a fence; started,
committed and ended ones. -/
def gGuard : GForm := { g0 with ge := true }
def sGuard (f : GForm) (gd : FMap Bool) : State :=
  (sQueued (.aczero f) .queued).updCur fun k => { k with crews := [(0, { rows := [0], scr := 65536, gd := gd })] }

theorem meets_engine_start :
    Queued (sQueued (.aczero g0) .queued) (.mxe 0) 5 [] (cmd0 (.aczero g0)) ∧
    (sQueued (.aczero g0) .queued).mayStart (.mxe 0) [] (cmd0 (.aczero g0)) = true ∧
    (sQueued (.aczero g0) .queued).guardOf (cmd0 (.aczero g0)) = .run ∧ isFence (.aczero g0) = false ∧ isFence (.mxfence g0) = true ∧
    (∃ w t p, (sQueued (.aczero g0) .queued).tryStart (.mxe 0) (cmd0 (.aczero g0)) = (.run w, t, p)) ∧
    (∃ f t p, (sQueued (.tcopy { g0 with a := 4 }) .queued).tryStart (.copy 0) { cmd0 (.tcopy { g0 with a := 4 }) with addrA := 1 } = (.fault f, t, p)) ∧
    (sGuard gGuard [(0, true)]).guardOf (cmd0 (.aczero gGuard)) = .run ∧ (sGuard gGuard [(0, false)]).guardOf (cmd0 (.aczero gGuard)) = .against ∧
    (sGuard gGuard []).guardOf (cmd0 (.aczero gGuard)) = .unresolved ∧
    (sQueued (.aczero g0) .queued).unheld (.mxe 0) (cmd0 (.aczero g0)) = false ∧
    ((sQueued (.aczero g0) .queued).updCur fun k => { k with holder := none }).unheld (.mxe 0) (cmd0 (.aczero g0)) = true ∧
    ∃ w t p, s0.tryStart (.mxe 0) { cmd0 (.acld { g0 with c := 16 }) with work := { asked := [0x10] } } = (.wait w, t, p) :=
  ⟨⟨rfl, rfl, rfl⟩, rfl, rfl, rfl, rfl, ⟨_, _, _, rfl⟩, ⟨_, _, _, rfl⟩, rfl, rfl, rfl, rfl, rfl, _, _, _, rfl⟩

/-- A fault of a queued command. -/
theorem meets_discard :
    let c : Cmd := { cmd0 (.aczero g0) with fault := some (0x19, 0, 0) }
    let s := s0.updCur fun k => { k with mxe := { queue := [c] } }
    s.findCmd (.mxe 0) 5 = some ([], c) ∧ c.fault = some (0x19, 0, 0) ∧ c.phase = .queued := ⟨rfl, rfl, rfl⟩

theorem meets_engine_steps :
    (let c : Cmd := { cmd0 (.aczero g0) with phase := .started, work := { ready := true } }
     Queued (s0.updCur fun k => { k with mxe := { queue := [c] } }) (.mxe 0) 5 [] c ∧ (c.phase = .started ∧ c.work.ready = true)) ∧
    (let c : Cmd := { cmd0 (.spz g0) with phase := .committed, work := { todo := [(0, 1)] } }
     Queued (s0.updCur fun k => { k with mxe := { queue := [c] } }) (.mxe 0) 5 [] c ∧ (c.phase = .committed ∧ (c.work.jobs ≠ [] ∨ c.work.todo ≠ []))) ∧
    (Queued (sQueued (.aczero g0) .started) (.mxe 0) 5 [] { cmd0 (.aczero g0) with phase := .started } ∧
      residueHolds ((sQueued (.aczero g0) .started).core 0) { cmd0 (.aczero g0) with phase := .started } = false) ∧
    (let c : Cmd := { cmd0 (.tnew g0) with phase := .started }
     isTile c.instr = true ∧ c.residue = false) ∧
    (let c : Cmd := { cmd0 (.aczero g0) with phase := .committed }
     Queued (sQueued (.aczero g0) .committed) (.mxe 0) 5 [] c ∧ c.work.jobs = [] ∧ c.work.todo = [] ∧ c.outstanding = 0 ∧ c.residue = false) ∧
    (let c : Cmd := { cmd0 (.mmad g0) with phase := .started, residue := true }
     let s := s0.updCur fun k => { k with mxe := { queue := [c] } }
     Queued s (.mxe 0) 5 [] c ∧ c.phase ≠ .queued ∧ c.residue = true) :=
  ⟨⟨⟨rfl, rfl, rfl⟩, rfl, rfl⟩, ⟨⟨rfl, rfl, rfl⟩, rfl, by decide⟩, ⟨⟨rfl, rfl, rfl⟩, rfl⟩, ⟨rfl, rfl⟩, ⟨⟨rfl, rfl, rfl⟩, rfl, rfl, rfl, rfl⟩,
    ⟨rfl, rfl, rfl⟩, by decide, rfl⟩

/-- CommitValues: a command of each kind, ready to commit. ContainedCommandsRest: a committed one with bytes left, whose gang is to be
killed. -/
def cRun (i : Instr) : Cmd := { cmd0 i with phase := .started, work := { ready := true } }
def sCmd (c : Cmd) : State := s0.updCur fun k => { k with mxe := { queue := [c] } }
def cLeft : Cmd := { cmd0 (.acst g0) with phase := .committed, work := { ready := true, todo := [(0, 1)] } }

theorem noLedger {k : Core} {c : Cmd} (h : k.ledger = []) : residueHolds k c = false := by
  unfold residueHolds; split <;> simp [h, owesResidue]

theorem meets_commits :
    (∀ i ∈ [Instr.mmad g0, .mmas g0, .mmaq g0, .mmad { g0 with sub := 3 }, .mscal { g0 with c := 192 }, .mscal g0, .aczero g0, .acmov g0,
      .acld { g0 with c := 10 }, .acld { g0 with c := 11 }, .acst { g0 with c := 10 }], Commits (sCmd (cRun i)) 5 [] (cRun i)) ∧
    originCol (gForm (.mmad { g0 with n6 := 1 })).d + 16 ≤ Config.accCols ∧
    (mulShape (.mmad { g0 with sub := 9 })).fa = fFmt f64 ∧ (mulShape (.mmad g0)).fa ≠ fFmt f64 ∧
    (let s : State := { sCmd cLeft with contain := [⟨0, 0, ⟨5, 0, 0, 0⟩, 0⟩] }
     s.findCmd (.mxe 0) 5 = some ([], cLeft) ∧ s.cmdHeld cLeft = true ∧ cLeft.standing = true ∧ cLeft.work.todo ≠ [] ∧ cLeft.fault = none ∧
       residueHolds (s.core 0) cLeft = false ∧ (cRun (.acst g0)).standing = false) := by
  refine ⟨?_, by decide, by decide, by decide, rfl, rfl, rfl, by decide, rfl, noLedger rfl, by decide⟩
  intro i hi
  simp only [List.mem_cons, List.not_mem_nil, or_false] at hi
  rcases hi with rfl | rfl | rfl | rfl | rfl | rfl | rfl | rfl | rfl | rfl | rfl <;>
    exact ⟨⟨rfl, rfl, rfl⟩, rfl, rfl, rfl, fun _ h => absurd h List.not_mem_nil, noLedger rfl, rfl⟩

/-- PieceStepsComplete: a started, a finished and an unreachable copy; a remote write outstanding; the Starter's. ContainedCommandsRest. -/
def sCopy (c : Cmd) : State := s0.updCur fun k => { k with copy := { queue := [c] } }
def cCopy (n : Nat) : Cmd :=
  { cmd0 (.tcopy g0) with phase := .started, outstanding := n, progress := 1, work := { ready := true, desc := 2 * 2 ^ 20 } }
def cStart : Cmd := { cmd0 (.spred g0) with phase := .started, work := { ready := true } }
def sStart : State := s0.updCluster 0 fun k => { k with starter := { queue := [cStart] } }

theorem meets_pieces :
    Queued (sCopy (cCopy 0)) (.copy 0) 5 [] (cCopy 0) ∧ (cCopy 0).phase = .started ∧ copyEnded (cCopy 0) = true ∧
    (Queued (sCopy (cCopy 1)) (.copy 0) 5 [] (cCopy 1) ∧ (cCopy 1).outstanding ≠ 0 ∧ isTcopy (cCopy 1).instr = true) ∧
    (∃ d, (copyDesc d).dsp = 2) ∧
    Queued sStart (.starter 0) 5 [] cStart ∧ cStart.phase = .started ∧ starterEnded cStart = true ∧
    (let s : State := { sCopy (cCopy 0) with contain := [⟨0, 0, ⟨5, 0, 0, 0⟩, 0⟩] }
     s.findCmd (.copy 0) 5 = some ([], cCopy 0) ∧ s.cmdHeld (cCopy 0) = true) :=
  ⟨⟨rfl, rfl, rfl⟩, rfl, rfl, ⟨⟨rfl, rfl, rfl⟩, by decide, rfl⟩, ⟨2 * 2 ^ 20, by decide⟩, ⟨rfl, rfl, rfl⟩, rfl, rfl, rfl, rfl⟩

/-- Pieces with their ranges: gath of two rows of 4 bytes, the second skipped; tcopy of one i32; sfetch of a row that is read. -/
def started (i : Instr) (desc : Nat) (index : List (Option Nat)) (got : FMap Word) : Cmd :=
  let w : Work := { ready := true, desc := desc, index := index, got := got, asked := got.keys }
  { cmd0 i with phase := .started, work := w }
def cGath : Cmd := started (.gath g0) (0x1000 * 2 ^ 64 + 0x2000 * 2 ^ 128 + 2 * 2 ^ 256 + 4 * 2 ^ 320) [some 0, none] []
def cTuple : Cmd := started (.tcopy g0) (2 * 2 ^ 24 + 2 * 2 ^ 28 + 0x1000 * 2 ^ 64 + 0x2000 * 2 ^ 128) [] []
def cFetch : Cmd := started (.sfetch g0) (0x40 * 2 ^ 320 + 4 * 2 ^ 416) [some 0] [(0x10, 7)]

set_option exponentiation.threshold 600 in
theorem meets_piece_ranges :
    (Piece cGath ∧ cGath.unreachable = false ∧ cGath.progress < copyPieces cGath.instr cGath.work.desc ∧
      ∃ t, (sCopy cGath).gather cGath [copySpan 0 0x2000 4 1, copySpan 0 0x1000 4 0, copySpan 0 0x2000 4 1] = (.ok, t)) ∧
    (Piece cTuple ∧ cTuple.progress < copyPieces cTuple.instr cTuple.work.desc ∧ (copyDesc cTuple.work.desc).dsp ≠ 2 ∧
      ∃ t, (sCopy cTuple).gather cTuple [copySpan 0 0x1000 4 0, copySpan 0 0x2000 4 1] = (.ok, t)) ∧
    (Piece cFetch ∧ cFetch.progress < starterPieces cFetch ∧ ∃ t, s0.gather cFetch [⟨true, 0x40, 4, 0, 1, 0x0B⟩] = (.ok, t)) :=
  ⟨⟨⟨by decide, rfl, rfl⟩, rfl, by decide, _, rfl⟩, ⟨⟨by decide, rfl, rfl⟩, by decide, by decide, _, rfl⟩, ⟨by decide, rfl, rfl⟩, by decide, _, rfl⟩

/-! ## Hypotheses that are met: launches and gangs -/

def rec0 (prio bound : Nat) : LaunchRec :=
  { tag := 0, gangs := 1, prio := prio, det := false, chk := false, rst := true, tmd := false, pol := 0, asid := 0, queue := 0, age := 4096,
    entry := 0x400000000, bound := bound, seed := 0, gtab := 0, ngrp := 0, heaps := 0, cw := 0, crews := [⟨1, 8, 0, 0⟩], deps := [], resets := [],
    snaps := [], groups := [] }
def place0 : List PlaceReq := [⟨0, 0, 0, [0], 0, 0⟩]
def gang0 (p : GangPhase) : Gang := { phase := p, place := if p = .unplaced then [] else place0 }
def launch0 (p : GangPhase) : Launch :=
  { record := rec0 1 0, submitter := .host 1 2, eligible := true, gangs := [(0, gang0 p)] }
/-- Launch 1 with its gang 0 in a phase; nothing on the cores. -/
def sLaunch (p : GangPhase) : State := { State.reset with launches := [(1, launch0 p)], queues := [(0, [1])] }
/-- The gang's crew is on core 0. -/
def sLive (p : GangPhase) (t : Thread) : State :=
  { sLaunch p with cores := [(0, { threads := (List.range 32).map fun x => (x, t), rows := [(0, {})], crews := [(0, { lid := 1, rows := [0] })],
                                   binds := [(0, { state := .live, lid := 1, rows := [0] })] })] }

theorem meets_placement :
    ((sLaunch .unplaced).launches.find 1 = some (launch0 .unplaced) ∧ (launch0 .unplaced).phase 0 = .unplaced ∧
      (sLaunch .unplaced).isChoice 1 (launch0 .unplaced) = true ∧ (sLaunch .unplaced).soleReserver 1 = true ∧
      (sLaunch .unplaced).placeOk 1 (launch0 .unplaced) place0 = true ∧ (∀ g ∈ (launch0 .unplaced).gangs, g.1 < 0 → g.2.phase ≠ .unplaced) ∧
      (∀ g ∈ (launch0 .unplaced).gangs, g.2.phase ≠ .reserved) ∧ ∃ gs t, (sLaunch .unplaced).readForGang (rec0 1 0) = (.ok, gs, t)) ∧
    (Stands (sLaunch .reserved) 1 0 (launch0 .reserved) (gang0 .reserved) .reserved ∧ (launch0 .reserved).crossed = false ∧
      (launch0 .reserved).snapped = false ∧ ({ launch0 .reserved with snapped := true } : Launch).snapped = true ∧
      ∃ gs t, (sLaunch .reserved).readForGang (rec0 1 0) = (.ok, gs, t)) ∧
    (∃ gs t, (sLaunch .reserved).readForGang { rec0 1 0 with ngrp := 1, gtab := 2 ^ 57 } = (.fault, gs, t)) ∧
    (let l : Launch := { launch0 .reserved with record := { rec0 1 0 with snaps := [⟨2 ^ 57, 0, 32⟩, ⟨0, 64, 32⟩] } }
     let s : State := { sLaunch .reserved with launches := [(1, l)] }
     l.snapped = false ∧ l.eligible = true ∧ s.copyPiece l.record.asid false l.record.snaps l.snapAt = (some 1, s) ∧
       snapPiece l.record.snaps 0 1 ≠ none) ∧
    (launch0 .reserved).abandonable = true ∧
    (∃ e ∈ ({ sLaunch .reserved with launches := [(1, launch0 .reserved), (2, { launch0 .unplaced with record := { rec0 2 0 with queue := 1 } })],
                                     queues := [(0, [1]), (1, [2])] } : State).eligibleHeads, (launch0 .reserved).record.prio < e.2.record.prio) :=
  ⟨⟨rfl, rfl, rfl, rfl, by decide, by decide, by decide, _, _, rfl⟩, ⟨⟨rfl, rfl, rfl⟩, rfl, rfl, rfl, _, _, rfl⟩, ⟨_, _, rfl⟩,
    ⟨rfl, rfl, rfl, by decide⟩, rfl, by decide⟩

/-- A gang to start, and one with a trigger; a crew at its end, and one whose DET buffers are not empty; steps on a completion block: to
come, of a line that is there or of none, and of one in a range that is blocked. -/
theorem meets_crews :
    Stands (sLaunch .committed) 1 0 (launch0 .committed) (gang0 .committed) .committed ∧
    (let s := sLive .running { phase := .exited }
     (s.core 0).crews.find 0 = some { lid := 1, rows := [0] } ∧ s.launches.find 1 = some (launch0 .running) ∧ (launch0 .running).phase 0 = .running ∧
       s.containing 1 0 = false ∧ (∀ x ∈ (s.core 0).crewSlots 0, ((s.core 0).thread x).phase = .exited) ∧ s.enginesEmpty 0 0 = true ∧
       (s.core 0).crewSob 0 = false ∧ (∀ d ∈ (s.core 0).dab, d.crew ≠ 0) ∧ (launch0 .running).counted.contains (0, 0) = false) ∧
    ({ sLaunch .committed with contain := [⟨1, 0, ⟨5, 0, 0, 0⟩, 0⟩] } : State).containing 1 0 = true ∧
    (∀ d ∈ [[], [({ key := 0x40, byte := 0xAB, tid := 0, seq := 0 } : DsbEntry)]], (launch0 .running).lowerDone 0 0 = true ∧
      (((sLive .running { phase := .exited }).updCore 0 fun k => { k with
        crews := [(0, { lid := 1, rows := [0], det := true, dsb := d })] }).core 0).crews.find 0 =
          some { lid := 1, rows := [0], det := true, dsb := d }) ∧
    (let s : State := { sLaunch .running with blockQ := [(1, .count)] }
     s.blockQ = (1, .count) :: [] ∧ s.launches.find 1 = some (launch0 .running) ∧
       ∃ t, s.cwAtomic (launch0 .running).record (BlockOp.word .count) (BlockOp.apply .count) = (.ok, t)) ∧
    ∃ t, ({ sLaunch .running with blocked := [⟨0, false, 0, 0x10000⟩] } : State).cwAtomic { rec0 1 0 with cw := 0x40 } 0 (· + 1) = (.wait, t) :=
  ⟨⟨rfl, rfl, rfl⟩, ⟨rfl, rfl, rfl, rfl, by decide, rfl, rfl, by decide, rfl⟩, rfl, fun _ _ => ⟨rfl, rfl⟩, ⟨rfl, rfl, _, rfl⟩, _, rfl⟩

/-- Timers: a bound of 10 cycles that has passed, and that has not; a second without activity; nothing queued. -/
def lBound : Launch := { launch0 .running with record := rec0 1 10 }
theorem meets_timers :
    Stands (sLaunch .running) 1 0 (launch0 .running) (gang0 .running) .running ∧ (sLaunch .running).containing 1 0 = false ∧
    (lBound.record.bound ≠ 0 ∧ lBound.record.bound ≤ (gang0 .running).elapsed 10 ∧ (gang0 .running).elapsed 9 < lBound.record.bound) ∧
    (launch0 .running).record.bound = 0 ∧ (gang0 .running).lastActive + 940000000 ≤ 940000000 ∧ (sLaunch .running).cycle < (gang0 .running).lastActive + 940000000 ∧
    (sLaunch .running).gangWorks 1 0 (gang0 .running) = false ∧ ∀ q, State.reset.queue q = [] :=
  ⟨⟨rfl, rfl, rfl⟩, rfl, by decide, rfl, by decide, by decide, by decide, fun _ => rfl⟩

/-- The dependence poll: one launch without dependences at the head of queue 0. -/
def sPoll : State := { sLaunch .unplaced with launches := [(1, { launch0 .unplaced with eligible := false })] }
theorem meets_poll :
    (∀ r, sPoll.queue r = if r = 0 then [1] else []) ∧ sPoll.launches.find 1 = some { launch0 .unplaced with eligible := false } ∧
    (launch0 .unplaced).record.gangs ≠ 0 ∧
    ∃ met t, sPoll.depsMet (launch0 .unplaced).record.asid (launch0 .unplaced).record.deps = (met, t) ∧ t.launches = sPoll.launches ∧
      t.queues = sPoll.queues := by
  refine ⟨fun r => ?_, rfl, by decide, _, _, rfl, rfl, rfl⟩
  cases r <;> rfl

/-- preemption: nothing is outstanding; a store is. gangResume: nothing stands in its way. -/
def saved0 : SavedCrew :=
  { core := 0, bind := 0, crew := { lid := 1, rows := [0] }, rows := [(0, {})], threads := [(0, { phase := .waiting })], binned := [0], scratch := [],
    holdsMxe := false, badScratch := [], badAcc := [], lq := [], acc := [], colLfsr := [], claims := [], psets := [], mxe := {}, copy := {}, starter := {}, dab := [], results := [] }
def gSaved : Gang := { gang0 .saved with saved := [saved0] }
def sSaved : State := { sLaunch .saved with launches := [(1, { launch0 .saved with gangs := [(0, gSaved)] })] }

theorem meets_preemption :
    ((gang0 .running).halting = false ∧ ({ launch0 .running with suspended := true } : Launch).suspended = true ∧
      (sLive .running { phase := .waiting }).containing 1 0 = false) ∧
    ((sLive .running { phase := .waiting }).quietGang 1 0 { gang0 .running with halting := true } = true ∧
      ({ gang0 .running with halting := true } : Gang).phase = .running) ∧
    ((sLive .running { phase := .waiting }).updCore 0 fun k => { k with sob := [sob0 .global false] }).quietGang 1 0 (gang0 .running) = false ∧
    (sSaved.launches.find 1 = some { launch0 .saved with gangs := [(0, gSaved)] } ∧ gSaved.phase = .saved ∧ sSaved.containing 1 0 = false ∧
      (launch0 .saved).suspended = false ∧ sSaved.allSaved 1 { launch0 .saved with gangs := [(0, gSaved)] } 0 = true ∧
      sSaved.resumeTurn 1 { launch0 .saved with gangs := [(0, gSaved)] } = true ∧
      (sSaved.resumeGangs 1 { launch0 .saved with gangs := [(0, gSaved)] } [0]).isSome = true ∧
      (∀ x ∈ gSaved.saved, sSaved.roomFor 1 { launch0 .saved with gangs := [(0, gSaved)] } x = true)) ∧
    (({ sSaved with cores := [(0, { binds := [(0, { state := .live, lid := 2, rows := [0] })] })] } : State).resumeGangs 1
      { launch0 .saved with gangs := [(0, gSaved)] } [0]) = none ∧
    ({ gang0 .running with deferred := [⟨0, 7, 0, 0, []⟩] } : Gang).deferred ≠ [] :=
  ⟨⟨rfl, rfl, rfl⟩, ⟨by decide, rfl⟩, by decide, ⟨rfl, rfl, rfl, rfl, by decide, by decide, by decide, by decide⟩, by decide, by decide⟩

/-- gangKill: the gang runs; it stops; its kill is quiet, and not yet; it is over. relaunch: a reset word is to come; the gang's place is
free, and it is not. -/
theorem meets_kill :
    (sLaunch .running).launches.find 1 = some (launch0 .running) ∧ (launch0 .running).gangs.find 0 = some (gang0 .running) ∧
    ({ sLaunch .running with contain := [⟨1, 0, ⟨5, 0, 0, 0⟩, 0⟩] } : State).contain.find?
      (fun c => c.lid = 1 && c.gang = 0 && c.trigger = ⟨5, 0, 0, 0⟩) = some ⟨1, 0, ⟨5, 0, 0, 0⟩, 0⟩ ∧ (gang0 .running).running = true ∧
    (gang0 .killing).phase = .killing ∧ (sLaunch .killing).killQuiet 1 0 (gang0 .killing) = true ∧
    (sLaunch .killing).killQuiet 1 0 { gang0 .killing with draining := [(.mxe 0, cmd0 .nop)] } = false ∧
    Stands (sLaunch .killed) 1 0 (launch0 .killed) (gang0 .killed) .killed ∧
    (gang0 .stopping).phase = .stopping ∧ (gang0 .freed).phase = .freed ∧ (launch0 .freed).again (gang0 .freed) = true ∧
    (gang0 .killed).restored = false ∧ (({ rec0 1 0 with resets := [(2 ^ 57, 0)] } : LaunchRec).resets[0]? = some (2 ^ 57, 0)) ∧
    (sLaunch .killed).resetWord 0 (2 ^ 57, 0) = (true, sLaunch .killed) ∧ ({ gang0 .killed with restored := true } : Gang).restored = true ∧
    ((sLaunch .killed).relaunchPlace 1 0 (launch0 .killed) (gang0 .killed) place0).isSome = true ∧
    (∃ gs t u, (sLaunch .killed).readForGang (rec0 1 0) = (.ok, gs, t) ∧ t.relaunchPlace 1 0 (launch0 .killed) (gang0 .killed) place0 = some u) ∧
    (({ sLaunch .killed with cores := [(0, { binds := [(0, { state := .live, lid := 2, rows := [0] })] })] } : State).relaunchPlace 1 0
      (launch0 .killed) (gang0 .killed) place0) = none :=
  ⟨rfl, rfl, rfl, rfl, rfl, rfl, rfl, ⟨rfl, rfl, rfl⟩, rfl, rfl, by decide, rfl, rfl, rfl, rfl, by decide, ⟨_, _, _, rfl, rfl⟩, by decide⟩

/-- Page tables for the page at 0: of ASID 0, and the global one. -/
def tables (leaf : Nat) : Memory :=
  [(0, 0x2001), (0x2000, 0x4001), (0x4000, 0x6001), (0x6000, 0x8001), (0x8000, leaf)].foldl (fun m e => m.writeNat e.1 8 e.2) ([] : Memory)
def parked0 (p : Option Dword) : ParkSet := ⟨7, ⟨8, 0, 0, false, false, false, 7, 1, 0, 0, 0x40, 0, 0, 0, 0, 0, [0]⟩, p⟩
def sParked (p : Option Dword) : State :=
  { s0.updCur fun k => { k with psets := [parked0 p], threads := [(0, { thr with phase := .parked })], stream0 := {} } with dram := tables 0x1001F }

theorem meets_service :
    (7 < 2 ^ 16 ∧ ((sParked (some 0x40)).core 0).psets.find? (fun p => p.pset = 7) = some (parked0 (some 0x40)) ∧
      (parked0 (some 0x40)).service = some 0x40 ∧
      ∃ t u, (sParked (some 0x40)).makePresent (byteKey 0 0x40) 0x20000 = some t ∧ t.applyRelease ⟨0, 7, 0, 0, []⟩ = some u) ∧
    ((sParked none).core 0).psets.find? (fun p => p.pset = 7) = some (parked0 none) ∧ (parked0 none).service = none ∧
    (let s : State := { s0 with dram := tables 0x1201F, absent := [0x40] }
     s.absent[0]? = some 0x40 ∧ s.migrating = none ∧ ∃ l, (({ s with tlb := [], walks := [] } : State).walkAll (homeOf (keyVa 0x40)) (keyTag 0x40)
       (keyVa 0x40)).1 = .ok l ∧ leafRes l.word = 2 ∧ s.frameOk l.level 0x20000 = true) :=
  ⟨⟨by decide, rfl, rfl, _, _, rfl, rfl⟩, rfl, rfl, rfl, rfl, _, rfl, rfl, by decide⟩

/-! ## Hypotheses that are met: messages and management -/

/-- A message of session 1 from endpoint 2, at port 1. -/
def msgOf (endpoint type asid addr : Nat) (payload : List Byte) : OhpHdr :=
  ⟨1, endpoint, ohpHead type 0 1 0 payload.length asid addr, payload⟩
def hdr (type len : Nat) : OhpHdr := msgOf 2 type 3 0x1000 (List.replicate len 0)
def ctl (type len : Nat) : OhpHdr := ⟨0, 9, ohpHead type 0 0 0 len 3 0x1000, List.replicate len 0⟩
/-- In service; the session 1 of endpoint 2 has the address space 3; 9 is an operator. -/
def sRun : State :=
  { State.reset with boot := { phase := .running }, sessions := [(1, ⟨2, true, [3]⟩)], operators := [9], groot := 0x2001, dram := tables 0x1003F }

set_option maxRecDepth 8000 in
/-- Serves: each type is admitted; the payloads of an attestation request and of a recorder control say what they do. -/
theorem meets_serves :
    (∀ t ∈ [0x01, 0x04, 0x06, 0x08, 0x09, 0x0B, 0x0E], Admitted sRun (hdr t 0) t) ∧ Admitted sRun (hdr 0x03 1) 0x03 ∧
    Admitted sRun (ctl 0x0C 32) 0x0C ∧ Admitted sRun (ctl 0x11 0) 0x11 ∧ Admitted sRun (ctl 0x12 0) 0x12 ∧
    leNat (ctl 0x0C 32).payload = (0 : BitVec 256).toNat ∧ (hdr 0x0E 0).addr = 0x1000 ∧ leNat (hdr 0x0E 0).payload = 0 ∧
    leNat (msgOf 2 0x0E 3 0x1000 [0x40]).payload = 0x40 := by
  refine ⟨?_, ⟨rfl, rfl, rfl, rfl, rfl, rfl, rfl, rfl, rfl⟩, ⟨rfl, rfl, rfl, rfl, rfl, rfl, rfl, rfl, rfl⟩,
    ⟨rfl, rfl, rfl, rfl, rfl, rfl, rfl, rfl, rfl⟩, ⟨rfl, rfl, rfl, rfl, rfl, rfl, rfl, rfl, rfl⟩, by decide, rfl, rfl, rfl⟩
  intro t ht
  simp only [List.mem_cons, List.not_mem_nil, or_false] at ht
  rcases ht with rfl | rfl | rfl | rfl | rfl | rfl | rfl <;> exact ⟨rfl, rfl, rfl, rfl, rfl, rfl, rfl, rfl, rfl⟩

/-- release: of a set that is there, and of one that is not; retirement, at once and not yet; the gangs to contain. -/
def sHosted : State := { sParked none with boot := { phase := .running }, sessions := [(1, ⟨2, true, [3]⟩)] }
theorem meets_release : Admitted sHosted (hdr 0x08 0) 0x08 ∧ sHosted.savedIn 0 7 = [] ∧
    (sHosted.core 0).psets.find? (fun p => p.pset = 7) = some (parked0 none) ∧ (∀ p ∈ (sHosted.core 0).psets, p.pset ≠ 8) ∧
    (sHosted.retireSlots 0 [0]).isSome = true ∧
    (sHosted.updCur fun k => { k with sob := [sob0 .global false] }).retireSlots 0 [0] = none ∧
    0 ∈ (parked0 none).record.mask :=
  ⟨⟨rfl, rfl, rfl, rfl, rfl, rfl, rfl, rfl, rfl⟩, rfl, rfl, by decide, by decide, by decide, by decide⟩

/-- A far line of the host, for one line and asked for once; a session that is open, with nothing to do, and with a message to do. -/
theorem meets_host_messages :
    (sReads false).farReads.any (fun r => r.dest = .host && r.index = 3 && r.addr = 0x1000) = true ∧
    sRun.sessions.find 5 = none ∧ sRun.sessions.find 1 ≠ none ∧ (sRun.flow 1).held = [] ∧
    ((sRun.updFlow 1 fun f => { f with held := [{ item := .none_ (hdr 0x55 0) }] }).flow 1).held ≠ [] :=
  ⟨by decide, rfl, by decide, rfl, by decide⟩

set_option exponentiation.threshold 600 in
set_option maxRecDepth 100000 in
/-- A submission and a write whose page is not mapped; a write of a word and of more, and a read, of a page that is; one that waits. -/
theorem meets_refusals :
    (∃ q t, ({ sRun with power := .c0 } : State).submit (.host 1 2) 3 0x1000 (sRun.permits 1) = (q, t) ∧ q ≠ .wait) ∧
    (∃ t, sRun.frontAt (byteKey 3 0x1000) 1 = (.fault, t)) ∧ (∃ t, sRun.frontAt (byteKey 0 (2 ^ 56)) 1 = (.ok, t)) ∧
    (∃ t, ({ sRun with blocked := [⟨0, true, 2 ^ 56, 0x10000⟩] } : State).frontAt (byteKey 0 (2 ^ 56)) 1 = (.wait, t)) ∧
    (∃ c t, firstChunk 0 (2 ^ 56) [1, 2] = some c ∧ sRun.storeChunk c = (.ok, false, t) ∧ c.bytes = 2) ∧
    (∃ c t, firstChunk 0 (2 ^ 56) (List.replicate 5 1) = some c ∧ sRun.storeChunk c = (.ok, false, t) ∧ c.bytes < 5) ∧
    inSpace (2 ^ 56) 5 = true ∧ (hdr 0x04 3).len ≠ 0 :=
  ⟨⟨_, _, rfl, by decide⟩, ⟨_, rfl⟩, ⟨_, rfl⟩, ⟨_, rfl⟩, ⟨_, _, rfl, rfl, by decide⟩, ⟨_, _, rfl, rfl, by decide⟩, by decide, by decide⟩

theorem meets_admission :
    sRun.boot.phase = .running ∧ sRun.takes 1 = true ∧ sRun.takes 12 = false ∧ sRun.known (hdr 0x03 1) = true ∧
    (∃ m : OhpHdr, sRun.known m = false) ∧ (hdr 0x03 1).seq = (sRun.flow 1).next ∧ (hdr 0x03 1).seq ≠ 1 ∧ malformedHdr (hdr 0x55 0) = true ∧ malformedHdr (hdr 0x03 1) = false ∧ (hdr 0x03 1).type = 0x03 ∧
    sRun.mayUse (msgOf 5 0x03 3 0x1000 [0]) = false ∧ sRun.granted (msgOf 2 0x03 4 0x1000 [0]) = false ∧
    State.reset.boot.phase ≠ .running ∧ State.reset.boot.phase ≠ .recovery :=
  ⟨rfl, rfl, rfl, rfl, ⟨⟨1, 2, ohpHead 0x03 0 9 0 1 3 0x1000, [0]⟩, rfl⟩, rfl, by decide, rfl, rfl, rfl, rfl, rfl, by decide, by decide⟩

set_option exponentiation.threshold 600 in
set_option maxRecDepth 100000 in
/-- An inbound write, one that goes on, and a far-line request to the global page at 2^56. -/
theorem meets_peers :
    2 ^ 56 / 2 ^ 56 = 1 ∧ 2 ^ 55 / 2 ^ 56 ≠ 1 ∧ sRun.recorder.on = false ∧
    (∃ c t, firstChunk 0 (2 ^ 56) [1, 2] = some c ∧ (peerArrives sRun (.peerWrite 1 (2 ^ 56) [1, 2])).storeChunk c = (.ok, false, t)) ∧
    (let x : Ingress := { item := .peerWrite 1 (2 ^ 56) (List.replicate 5 1), begun := true, wrote := 4 }
     ({ sRun with peers := [x] } : State).peers[0]? = some x ∧ x.record = [] ∧
       ∃ c t, firstChunk 0 (2 ^ 56 + 4) [1] = some c ∧ ({ sRun with peers := [x] } : State).storeChunk c = (.ok, false, t)) ∧
    (∃ t, (peerArrives sRun (.peerRead 1 (2 ^ 56))).frontAt (byteKey 0 (2 ^ 56 / lineBytes * lineBytes)) 0 = (.ok, t) ∧
      t.badWord (byteKey 0 (2 ^ 56) / 4) = false ∧ t.badWord (byteKey 0 (2 ^ 56) / 4 + 8) = false) :=
  ⟨by decide, by decide, rfl, ⟨_, _, rfl, rfl⟩, ⟨rfl, rfl, _, _, rfl, rfl⟩, _, rfl, by decide, by decide⟩

/-- Bring-up: an image that both dies' ROMs accept (which images they do, the vendor's keys decide), none, and the later steps. -/
theorem meets_boot (i : Nat) (h : accepts 0 (some i) = true) : ({ slot0 := some i } : Boot).agreed = some (false, i) := by
  simp [Boot.agreed, Boot.choice, h]

theorem meets_bring_up :
    State.reset.boot.phase = .powered ∧ State.reset.boot.agreed = none ∧ 0 + 2 * 940000000 ≤ 1880000000 ∧
    (let s : State := { State.reset with boot := { phase := .recovery } }
     s.boot.phase = .recovery ∧ s.boot.mute = false ∧ (ctl 0x10 0).port = 0 ∧ (ctl 0x10 0).session = 0 ∧ malformedHdr (ctl 0x10 0) = false ∧ (ctl 0x10 0).type = 0x10) ∧
    sRun.managed = true ∧ sRun.mgmt.primaryHeld = false ∧ sRun.mgmt.standbyHeld = false ∧ sRun.mgmt.standby = false ∧
    sRun.mgmt.beat0 + 4700000 ≤ 4700000 ∧ ({ sRun with mgmt := { standbyHeld := true } } : State).mgmt.standbyHeld = true ∧
    sRun.mgmt.hung0 = false ∧ sRun.mgmt.hung1 = false ∧ sRun.quietPorts = true ∧ sRun.idle = true ∧ sRun.idleSince + 94000 ≤ 94000 :=
  ⟨rfl, rfl, by decide, ⟨rfl, rfl, rfl, rfl, rfl, rfl⟩, rfl, rfl, rfl, rfl, by decide, rfl, rfl, rfl, rfl, rfl, by decide⟩

/-! ## Hypotheses that are met: values, faults, decoding, steps -/

theorem meets_values : (0 : BitVec 4).toNat < 10 ∧ (9 : BitVec 4).toNat < 10 ∧ intWidth 8 < 64 ∧ intSigned 8 = true ∧ intSigned 9 = false ∧ intWidth 3 = 64 ∧
    (opClz 2 1).toNat < 32 ∧ (1 : Nat) < 2 ^ 32 ∧ FVal.nan = .nan ∧ FVal.inf true ≠ .nan ∧ f16 ∈ [f16, bf16, f32, f64, e4m3, e5m2, e2m1] := by decide

def mPred : MForm := ⟨{ e0 with sub := 7, sa := 4, d := vr 1, a := vr 2, b := sr 0, c := vr 4 }, 0, 0, 6, 0⟩
theorem meets_registers :
    WellFormed (.cmp { e0 with sub := 0, d := sp 6, a := vr 1, b := vr 2, c := vr 4 }) ∧ WellFormed (.fcmp { e0 with d := sp 0, a := vr 1, b := vr 2 }) ∧
    WellFormed (.pand { e0 with d := sp 6, a := sp 7, b := sp 7 }) ∧ WellFormed (.pnot { e0 with d := sp 6, a := sp 7 }) ∧
    WellFormed (.voteAny { e0 with d := sp 6, a := sp 7 }) ∧ WellFormed (.probe { e0 with sub := 1, d := sp 6, a := vr 4 }) ∧
    WellFormed (.evpost { e0 with d := sp 6, a := im, b := vr 4 }) ∧ WellFormed (.awaitElect { e0 with d := sp 6 }) ∧
    WellFormed (.addc { e0 with sub := 1, d := vr 3, a := vr 4, b := vr 5, c := sp 6 }) ∧
    WellFormed (.subb { e0 with sub := 1, d := vr 3, a := vr 4, b := vr 5, c := sp 0 }) ∧ WellFormed (.atom 0 mPred) ∧ atomPred mPred.e ≠ none ∧
    (sr 0).kind = .scl ∧ (sr 0).code = 0 ∧ lfsrStore 5 = 5 :=
  ⟨rfl, rfl, rfl, rfl, rfl, rfl, rfl, rfl, rfl, rfl, rfl, by decide, rfl, rfl, rfl⟩

/-- CodePointers at both ends of the range. -/
theorem meets_code_pointers :
    let c : Crew := { codeBase := 0x400000000 }
    c.codeBase.toNat + 2 ^ 34 ≤ 2 ^ 64 ∧ c.codeBase.toNat % 4 = 0 ∧ (0x400000000 : Dword).toNat % 4 = 0 ∧
    c.codeBase.toNat ≤ (0x7FFFFFFFC : Dword).toNat ∧ (0x7FFFFFFFC : Dword).toNat < c.codeBase.toNat + 2 ^ 34 := by decide

/-- FaultsFormParkSets: two codes; the lowest code and lane first; a cohort block and another. -/
theorem meets_faults :
    let fs : List LaneFault := [⟨1, 0x0B, 0, 0x41⟩, ⟨0, 0x0A, 0, 0x40⟩]
    (⟨0, 0x0A, 0, 0x40⟩ : LaneFault) ∈ fs ∧ (∀ h ∈ fs, 0x0A ≤ h.code) ∧
    (∀ h ∈ fs, h.code = 0x0A → laneOf 0 < laneOf h.slot ∨ h = ⟨0, 0x0A, 0, 0x40⟩) ∧ gArrive.cf = true ∧ (grp [0]).cf = false := by decide

/-- DecodeAfterEncode, EncodeAfterDecode, and the clauses of StepRunsDecodedInstruction: a legal instruction, one that the block does
not allow (v8 with an HWM of one group), a word of an empty opcode, a header, a step of the machine, an empty agenda. -/
def goesOn (o : Host.Outcome State Fault Refusal) : Bool := match o with
  | .next _ => true
  | _ => false
def gEnter : Group := { grp [] with entering := true, headWord := 0x1FE04010 }
theorem meets_decoding :
    Instr.isCode (.mad e1) = true ∧ WellFormed (.mad e1) ∧ Instr.mad e1 ≠ .addB ⟨false, 0, 0, 0⟩ ∧
    decode (encode (.mad e1)) = .ok (.mad e1, 3) ∧ (∀ w ∈ encode (.mad e1), w < 2 ^ 32) :=
  ⟨rfl, rfl, by decide, rfl, by decide⟩

def gMov : Group := grp (encode (.movB ⟨false, 8, 1⟩))

theorem meets_steps :
    ((at0 gMov).agenda = .issue 0 false :: [] ∧ (((at0 gMov).core 0).stream false).group = some gMov ∧ gMov.entering = false ∧
      blockLegal gMov (.movB ⟨false, 8, 1⟩) = true) ∧
    (at0 gMov).disproved gMov = false ∧
    ({ at0 gMov with contain := [⟨0, 0, ⟨1, 0, 0, 0⟩, 0⟩] } : State).disproved { gMov with repeated := true } = true ∧
    (fetched { gMov with repeated := true }).isSome = true ∧
    blockLegal { gMov with hwm := 8 } (.movB ⟨false, 8, 1⟩) = false ∧
    (gEnter.entering = true ∧ decode [gEnter.headWord] = .ok (.blockHeader true 4 16, 1)) :=
  ⟨⟨rfl, rfl, rfl, by decide⟩, by decide, by decide, by decide, by decide, rfl, rfl⟩

/-- A register with an error, and a result that DET holds back. -/
def sBadReg : State := (at0 gMov).updCur fun k => { k with threads := [(0, { thr with badV := [1] })] }
def sHeldBack : State := (at0 gMov).updCur fun k => { k with
  threads := [(0, { thr with pend := [.v 1] })], lq := [{ lq0 2 true with dsts := [.v 1] }],
  dab := [⟨0, 0, 0, 3, 0x10, .atomic 0 0 1 0 4, 0, some 4, false, 0⟩] }
theorem meets_reads :
    ((at0 gMov).core 0).readsHeld gMov (.movB ⟨false, 8, 1⟩) = false ∧ badLanes ((at0 gMov).core 0) gMov (.movB ⟨false, 8, 1⟩) = [] ∧
    (sHeldBack.core 0).readsHeld gMov (.movB ⟨false, 8, 1⟩) = true ∧
    (sBadReg.core 0).readsHeld gMov (.movB ⟨false, 8, 1⟩) = false ∧ badLanes (sBadReg.core 0) gMov (.movB ⟨false, 8, 1⟩) ≠ [] :=
  ⟨by decide, by decide, by decide, by decide, by decide⟩

theorem meets_step_decodes : 0 < Config.cores ∧ reads (gMov.code.drop gMov.pc) (.movB ⟨false, 8, 1⟩) = true := by decide

theorem meets_no_decoding : (decode ((grp [0x3FC00000]).code.drop 0)).isOk = false := by decide

theorem meets_any_step : Instr.isCode .sweep = false ∧ State.reset.agenda = [] ∧ s0.dram.wf = true := ⟨rfl, rfl, rfl⟩

theorem meets_next : goesOn (step s0) = true := by decide

/-! ## One step: integer and floating-point results (07), worked out by hand -/

def regs (l : FMap Word) (code : List Nat) : State := (st code).updCur fun k => { k with threads := [(0, { thr with v := l })] }
/-- A terminator alone in its block; an instruction of a cohort block. -/
def term (i : Instr) : State := at0 { grp (encode i) with len := (encode i).length }
def coh (i : Instr) : State := at0 { grp (encode i) with cf := true }
/-- v3 of thread 0 after one step. -/
def v3 (l : FMap Word) (i : Instr) : Word := (thread0 (regs l (encode i))).reg 3
def two (sub : BitVec 4) : EForm := { e0 with sub := sub, d := vr 3, a := vr 1, b := vr 2 }
def imm (sub : BitVec 4) (n : BitVec 8) : EForm := { two sub with b := im, imm8 := n }
def lit (sub : BitVec 4) (n : Dword) : EForm := { two sub with b := im, lit := some n }

theorem test_nop : (after (st [0])).curGroup = some { grp [0] with pc := 1 } := by decide
theorem test_add : v3 [(1, 7), (2, 9)] (.addB ⟨false, 3, 1, 2⟩) = 16 := by decide
theorem test_add_wraps : v3 [(1, 7)] (.addE (imm 1 0xF8)) = 0xFFFFFFFF := by decide
theorem test_add_saturates : v3 [(1, 7)] (.addE { imm 8 0x7F with sat := true }) = 127 := by decide
theorem test_add_narrow_sign : v3 [(1, 0x7F), (2, 1)] (.addE (two 8)) = 0xFFFFFF80 := by decide
theorem test_add_latch : (thread0 (st (encode (.addB ⟨true, 0, 1, 2⟩)))).latch 0 = 16 := by decide
theorem test_add_guard_off : v3 [(1, 7), (2, 9), (3, 5)] (.addE { two 0 with guard := ⟨1, false⟩ }) = 5 := by decide
theorem test_sub : v3 [(1, 7), (2, 9)] (.subB ⟨false, 3, 1, 2⟩) = 0xFFFFFFFE := by decide
theorem test_addc :
    let t := thread0 (st (encode (.addc { imm 1 0xFF with c := sp 0 })))
    t.reg 3 = 7 ∧ t.pred 0 = true := by decide
theorem test_subb :
    let t := thread0 (st (encode (.subb { two 1 with c := sp 0 })))
    t.reg 3 = 0xFFFFFFFD ∧ t.pred 0 = true := by decide
theorem test_mulh : v3 [(1, 0xFFFFFFFF), (2, 0xFFFFFFFF)] (.mulhE (two 1)) = 0xFFFFFFFE := by decide
theorem test_mad : v3 [(1, 7), (2, 9), (4, 3)] (.mad { two 0 with c := vr 4 }) = 66 := by decide
theorem test_min_signed : v3 [(1, 7)] (.minE (imm 0 0xFF)) = 0xFFFFFFFF := by decide
theorem test_min_unsigned : v3 [(1, 7)] (.minE (imm 1 0xFF)) = 7 := by decide
theorem test_abs_least : v3 [(1, 0x80000000)] (.absE { two 0 with b := zero }) = 0x80000000 := by decide
theorem test_abs_saturates : v3 [(1, 0x80000000)] (.absE { two 0 with b := zero, sat := true }) = 0x7FFFFFFF := by decide
theorem test_andn : v3 [(1, 7), (2, 5)] (.andnB ⟨false, 3, 1, 2⟩) = 2 := by decide
theorem test_shl_by_width : v3 [(1, 7)] (.shlE (imm 2 32)) = 0 := by decide
theorem test_sar_by_width : v3 [(1, 0x80000000)] (.sarE (imm 0 33)) = 0xFFFFFFFF := by decide
theorem test_rol : v3 [(1, 0x80000001)] (.rolE (imm 2 33)) = 3 := by decide
theorem test_clz : v3 [(1, 7)] (.clz { two 2 with b := zero }) = 29 := by decide
theorem test_popc : v3 [(1, 7)] (.popc { two 2 with b := zero }) = 3 := by decide
theorem test_brev : v3 [(1, 7)] (.brev { two 2 with b := zero }) = 0xE0000000 := by decide
theorem test_bfe_sign : v3 [(1, 7)] (.bfe (lit 0 0x300)) = 0xFFFFFFFF := by decide
theorem test_bfe_length_0 : v3 [(1, 7)] (.bfe (lit 0 0)) = 0 := by decide
theorem test_bfi : v3 [(1, 7), (2, 0)] (.bfi { two 2 with c := im, lit := some 0x204 }) = 0x30 := by decide
theorem test_cmp : (thread0 (st (encode (.cmp { two 0 with d := sp 1, c := vr 2 })))).pred 1 = true := by decide
theorem test_pnot : (thread0 (st (encode (.pnot { e0 with d := sp 1, a := sp 0 })))).pred 1 = false := by decide
theorem test_mov_index : (thread0 (st (encode (.movE { e0 with sub := 2, d := sp 8, a := im, lit := some 0xFF123456 })))).idx 0 = 0x123456 := by decide
theorem test_mov_s0 : ((after (st (encode (.movE { e0 with sub := 2, d := sr 0, a := vr 1 })))).cur.row 0).scalar 0 = 0 := by decide
theorem test_movl : v3 [] (.movlBL false 3 0x1_89ABCDEF) = 0x89ABCDEF := by decide
theorem test_lea :
    let t := thread0 (regs [(4, 0x10), (1, 0xFFFFFFFF)] (encode (.lea { e0 with d := vr 8, a := vr 4, b := vr 1, c := vr 2 })))
    t.reg 8 = 0xC ∧ t.reg 9 = 0 := by decide
theorem test_fadd : v3 [(1, 0x3F800000), (2, 0x3F800000)] (.faddB ⟨false, 3, 1, 2⟩) = 0x40000000 := by decide
theorem test_fma_one_rounding : v3 [(1, 0x3F800001), (2, 0x3F800001), (4, 0xBF800002)] (.fma { two 0 with c := vr 4 }) = 0x28800000 := by decide
theorem test_fmin_zeros : v3 [(1, 0), (2, 0x80000000)] (.fminB ⟨false, 3, 1, 2⟩) = 0x80000000 := by decide
theorem test_fdiv : v3 [(1, 0x3F800000), (2, 0x40400000)] (.fdivB ⟨false, 3, 1, 2⟩) = 0x3EAAAAAB := by decide
set_option maxRecDepth 4000 in
theorem test_fsqrt : v3 [(1, 0x40000000)] (.fsqrtB ⟨false, 3, 1⟩) = 0x3FB504F3 := by decide
theorem test_fcmp_nan : (thread0 (regs [(1, 0x7FC00000)] (encode (.fcmp { two 0 with d := sp 1, c := vr 6 })))).pred 1 = true := by decide
theorem test_fclass : v3 [(1, 0xFF800000)] (.fclass { two 0 with b := zero }) = 1 := by decide
theorem test_cvt_to_int : v3 [(1, 0x40200000)] (.cvt { e0 with sub := 2, d := vr 3, a := vr 1, c := vr 10 }) = 2 := by decide
theorem test_cvt_to_float : v3 [(1, 7)] (.cvt { e0 with sub := 10, d := vr 3, a := vr 1, c := vr 2 }) = 0x40E00000 := by decide
theorem test_cvt_e4m3_saturates : v3 [(1, 0x44000000)] (.cvt { e0 with sub := 12, sat := true, d := vr 3, a := vr 1, c := vr 10 }) = 0x7E := by decide

/-! ## One step: control and system (05, 06) -/

theorem test_bra : ((after (term (.braB (-2)))).cur.bins.map fun b => (b.key.addr, b.members)) = [(0x3FFFFFFFC#64, [0])] := by decide
theorem test_brc_falls : ((after (term (.brcB 1 false 5))).cur.bins.map fun b => b.key.addr) = [0x400000008#64] := by decide
theorem test_call_links :
    let s := after (term (.callB 5))
    (s.cur.thread 0).reg 255 = 0x100000002 % 2 ^ 32 ∧ s.cur.bins.map (fun b => b.key.addr) = [0x400000018#64] := by decide
theorem test_ret : ((after ((term .retB).updCur fun k => { k with threads := [(0, { thr with v := [(255, 3)] })] })).cur.bins.map fun b => b.key.addr) = [12#64] := by decide
theorem test_exit : ((after (term .exitB)).cur.thread 0).phase = .exited := by decide
theorem test_trap : ((after (term (.trapB 9))).cur.psets.map fun p => (p.record.code, p.record.detail)) = [(0x10, 9)] := by decide
theorem test_brk : ((after (st (encode (.brkB 9)))).cur.psets.map fun p => (p.record.code, p.record.detail)) = [(0x11, 9)] := by decide
theorem test_illegal : ((after (st [0x3FC00000])).cur.psets.map fun p => p.record.code) = [1] := by decide
theorem test_yield : ((after (st (encode (.yield e0)))).cur.bins.map fun b => (b.key.addr, b.yielded)) = [(0x400000010#64, true)] := by decide
theorem test_rdsys_allot : v3 [] (.rdsys { e0 with d := vr 3, c := vr 5 }) = 256 := by decide
theorem test_rdsys_unlisted : ((after (st (encode (.rdsys { e0 with d := vr 3, c := vr 0x20 })))).cur.psets.map fun p => p.record.code) = [0x07] := by decide
theorem test_lfswr_zero : (thread0 (st (encode (.lfswr { e0 with sub := 1, b := sr 0 })))).lfsr = 1 := by decide
theorem test_wrsys_age : (after (st (encode (.wrsys { e0 with sub := 1, b := im, imm8 := 5, c := vr 0x11 })))).cur.selAge = 64 := by decide
theorem test_claim_full : ((after (coh (.claim { e0 with b := im, imm8 := 8 }))).cur.psets.map fun p => p.record.code) = [0x06] := by decide
set_option maxRecDepth 4000 in
theorem test_cede : ((after (coh (.cede { e0 with sub := 1, b := im, imm8 := 8 }))).cur.row 0).allot = 248 := by decide
theorem test_movix : v3 [(1, 2), (6, 0x40)] (.movixRead { m0 with e := { e0 with d := vr 3, b := vr 1, imm8 := 4 } }) = 0x40 := by decide

/-! ## One step: two lanes (08) -/

def pair (l m : FMap Word) (p q : BitVec 7) (i : Instr) : State :=
  (at0 { grp (encode i) with members := [0, 1], cols := [0, 1], cf := true }).updCur fun k =>
    { k with threads := [(0, { thr with v := l, p := p }), (1, { thr with v := m, p := q })] }
def lane1 (s : State) : Thread := (after s).cur.thread 1

theorem test_shfl : (thread0 (pair [(1, 7)] [(1, 9)] 0 0 (.shflXor (imm 0 1)))).reg 3 = 9 := by decide
theorem test_shfl_no_lane :
    let t := lane1 (pair [(1, 7)] [(1, 9)] 0 0 (.shflDown (imm 0 1)))
    t.reg 3 = 0 ∧ t.pred 6 = true := by decide
theorem test_vote : (thread0 (pair [] [] 1 0 (.voteBallot { e0 with d := vr 3, a := sp 0 }))).reg 3 = 1 := by decide
theorem test_redux : (lane1 (pair [(1, 7)] [(1, 9)] 0 0 (.redux { two 0 with b := zero }))).reg 3 = 16 := by decide
theorem test_scan_exclusive : (lane1 (pair [(1, 7)] [(1, 9)] 0 0 (.scan (imm 0 1)))).reg 3 = 7 := by decide
theorem test_isect :
    let t := thread0 (pair [(1, 5), (2, 6)] [(1, 6), (2, 8)] 0 0 (.isect { e0 with d := vr 8, a := vr 1, b := vr 2, c := im, lit := some 0x202 }))
    t.reg 8 = 1 ∧ t.reg 9 = 0x00010201 := by decide

/-! ## One step: memory, synchronisation, engines -/

theorem test_sts : (after (st (encode (.sts { m0 with e := { e0 with sub := 4, a := sr 2, b := vr 10, c := vr 1, imm8 := 4 } })))).cur.sob.map
    (fun e => (e.word, e.mask, e.data)) = [(1, 0xF, 7)] := by decide
def ldAt (n : BitVec 8) : MForm := { m0 with e := { e0 with sub := 4, d := vr 8, a := vr 6, b := vr 10, imm8 := n } }
theorem test_ld_misaligned : ((after (st (encode (.ld (ldAt 1))))).cur.psets.map fun p => (p.record.code, p.record.addr)) = [(0x0B, 0x41#64)] := by decide
theorem test_ld_waits : ((after (st (encode (.ld (ldAt 0))))).cur.xlat.map fun q => (q.key, q.kind)) = [(0x40, 0)] := by decide
set_option exponentiation.threshold 600 in
set_option maxRecDepth 8000 in
theorem test_register_message :
    let t := (step { sMsg (.part 5) (.register (some 0) 0 3 none 0 0x10 0x3 0x11223344) 0 with agenda := [.op (.register (laneTo (.part 5)))] })
    (match t with | .next t => (t.homeWord 0x10, t.owners.find 0x10) | _ => (0, none)) = (0x3344, some 0) := by decide
set_option exponentiation.threshold 600 in
set_option maxRecDepth 8000 in
theorem test_atomic_at_home :
    let t := step { sMsg (.part 5) (.atomic 0 3 4 0 0 0 0x10 5 0) 0 with agenda := [.op (.atomicAtHome (laneTo (.part 5)))] }
    (match t with | .next t => (t.homeWord 0x10, t.owners.find 0x10) | _ => (0, some 9)) = (5, none) := by decide
theorem test_gdset : ((after (st (encode (.gdset { e0 with d := sp 33, a := sp 0 })))).cur.crew 0).gd = [(1, true)] := by decide
theorem test_sign : (((after (coh (.sign { e0 with a := sp 17 }))).cur.crew 0).conv 1).declared = [0] := by decide
theorem test_evpost : ((after (st (encode (.evpost { e0 with d := sp 1, a := im, b := vr 4 })))).cur.crew 0).evq.length = 1 := by decide
theorem test_mxacq :
    let s := after (st (encode (.mxacq { g0 with d := 1 })))
    s.cur.holder = some 0 ∧ s.cur.results.map (fun r => (r.slot, r.pred)) = [(0, some (1, true))] ∧ (s.cur.thread 0).pend = [.p 1] := by decide
theorem test_aczero_appends : ((after ((at0 { grp (encode (.aczero g0)) with cf := true }).updCur fun k => { k with holder := some 0 })).cur.mxe.queue.map
    fun c => c.crew) = [0] := by decide

/-! ## One step of the machine -/

theorem test_sweep : (match step { sHeat (1 + 2 * 2 ^ 7) 0 with agenda := [.op .sweep], asidt := 0 } with
    | .next t => decide (t.power = .c0)
    | _ => false) = true := by decide
theorem test_malformed : (match step { sRun with agenda := [.op (.malformedMessage (hdr 0x55 0))] } with
    | .next t => t.out
    | _ => []) = [.reply 0x55 2 1 0] := by decide
theorem test_session_close : (match step { sRun with agenda := [.op (.sessionClose (ctl 0x12 0) 1)] } with
    | .next t => t.sessions
    | _ => [(0, ⟨0, false, []⟩)]) = [] := by decide
set_option exponentiation.threshold 600 in
set_option maxRecDepth 8000 in
theorem test_memory_write : (match step { sRun with agenda := [.op (.memoryWrite (msgOf 2 0x03 3 (2 ^ 56 + 5) [0xAB]) [0xAB])] } with
    | .next t => (t.homeBytes 0 (2 ^ 56 + 4) 2, t.out)
    | _ => ([], [])) = ([0, 0xAB], [.reply 3 0 1 0]) := by decide

end Sys2Proof.Tests
end

section
/-!
SUPPORT. Management writes of registers, and the patrol (spec/05_core_execution.md R111, R112, spec/06_core_control_system.md R140,
spec/10_memory_translation.md R221, spec/25_containment.md R461, R465): what each write stores, and that a pass of the patrol mends
exactly the sectors that the code corrects at its start.
-/
namespace Sys2Proof

theorem FMap.find_eq_none_of_not_mem_keys {α : Type} {m : FMap α} {k : Nat} (h : k ∉ m.keys) : m.find k = none := by
  induction m with
  | nil => rfl
  | cons e r ih =>
    simp only [FMap.keys, List.map_cons, List.mem_cons, not_or] at h
    simp only [FMap.find, if_neg (Ne.symm h.1)]
    exact ih h.2

end Sys2Proof

namespace Sys2Proof.Machine

/-! ## Selector, thread and crew registers -/

theorem Core.writePolicy_eq (k : Core) (lid : Nat) (v : Word) :
    k.writePolicy lid v = if k.ownsSelector lid = true ∧ k.detBound = false then { k with selPol := v.setWidth 2 } else k := by
  simp [Core.writePolicy]

theorem exec_selPolicyWrite (s : State) (c lid : Nat) (v : Word) :
    exec (.selPolicyWrite c lid v) s = .next (s.setCore c ((s.core c).writePolicy lid v)) := rfl

/-- A write to a free slot's LFSR has no effect. -/
theorem exec_lfsrWrite (s : State) (c x : Nat) (v : Word) : exec (.lfsrWrite c x v) s = .next (s.updCore c fun k =>
    if (k.thread x).phase = .free then k else k.updThread x fun t => { t with lfsr := lfsrStore v }) := rfl

theorem exec_lfsrWrite_of_bound {s : State} {c x : Nat} (v : Word) (h : ((s.core c).thread x).phase ≠ .free) :
    exec (.lfsrWrite c x v) s = .next (s.setCore c ((s.core c).updThread x fun t => { t with lfsr := lfsrStore v })) := by
  rw [exec_lfsrWrite, State.updCore, if_neg h]

theorem exec_accStatWrite (s : State) (c w : Nat) (v : Word) : exec (.accStatWrite c w v) s = .next (s.updCore c fun k =>
    if (k.crews.find w).isSome then k.clearSatf w v else k) := rfl

theorem exec_accStatWrite_of_crew {s : State} {c w : Nat} {q : Crew} (v : Word) (h : (s.core c).crews.find w = some q) :
    exec (.accStatWrite c w v) s = .next (s.setCore c ((s.core c).clearSatf w v)) := by
  rw [exec_accStatWrite, State.updCore, h]
  rfl

/-! ## Counters of a partition -/

theorem onPart_of_lt {p : Nat} (s t : State) (h : p < 32) : onPart p s t = .next t := by
  simp [onPart, Config.partitions, h]

theorem onPart_of_le {p : Nat} (s t : State) (h : 32 ≤ p) : onPart p s t = .next s := by
  simp [onPart, Config.partitions, Nat.not_lt.mpr h]

theorem exec_partMigdropClear (s : State) (p : Nat) (v : Word) : exec (.partMigdropClear p v) s =
    onPart p s { s with migdrop := FMap.put 0 s.migdrop p (FMap.get 0 s.migdrop p &&& ~~~v) } := rfl

theorem exec_partOrphanClear (s : State) (p : Nat) (v : Word) : exec (.partOrphanClear p v) s =
    onPart p s { s with orphan := FMap.put 0 s.orphan p (FMap.get 0 s.orphan p &&& ~~~v) } := rfl

theorem exec_partEccClear (s : State) (p : Nat) (v : Dword) : exec (.partEccClear p v) s =
    onPart p s { s with ecc := FMap.put 0 s.ecc p (FMap.get 0 s.ecc p &&& ~~~v) } := rfl

/-! ## The patrol (R461, R465) -/

/-- What the patrol finds at a sector, data or reserved. -/
def State.patrolFinds (s : State) (n : Nat) : SectorRead := if n < 2 ^ 38 then s.readSector n else s.readStored n

/-- A sector written anew, and counted as corrected. -/
def State.mend (s : State) (p n : Nat) : State := { s.countEcc p 0 with flips := s.flips.erase n }

/-- The patrol of a partition at one sector. -/
def State.patrolAt (p : Nat) (s : State) (n : Nat) : State :=
  if sectorPart n = p && s.patrolFinds n = .corrected then s.mend p n else s

theorem exec_patrol (s : State) (p : Nat) :
    exec (.patrol p) s = .next (if s.power ≠ .c0 then s else s.flips.keys.foldl (State.patrolAt p) s) := rfl

theorem State.patrolAt_of_corrected {p : Nat} {s : State} {n : Nat} (h : sectorPart n = p ∧ s.patrolFinds n = .corrected) :
    State.patrolAt p s n = s.mend p n := by
  simp [State.patrolAt, h]

theorem State.patrolAt_of_not {p : Nat} {s : State} {n : Nat} (h : ¬ (sectorPart n = p ∧ s.patrolFinds n = .corrected)) :
    State.patrolAt p s n = s := by
  simp [State.patrolAt, h]

/-- Mending one sector leaves the reads of every other stored sector as they were. -/
theorem State.readStored_mend (s : State) (p x n : Nat) : (s.mend p x).readStored n = if n = x then .clean else s.readStored n := by
  have hflips : (s.mend p x).flips = s.flips.erase x := rfl
  have hdata : (s.mend p x).storedSector n = s.storedSector n := rfl
  have hres : (s.mend p x).storedReserved n = s.storedReserved n := rfl
  simp only [State.readStored, hflips, hdata, hres, FMap.find_erase]
  by_cases h : n = x <;> simp [h]

/-- A reserved sector can only be uncorrectable where some bit has flipped, so the list that a read takes says it of the mode map and
the overflow table in every state. -/
theorem State.lost_reservedOf_iff (s : State) (n : Nat) : (∃ r ∈ s.reservedOf n, s.readStored r = .uncorrectable) ↔
    s.readStored (modeSector n) = .uncorrectable ∨
      ((s.storedSector n).incompressible = true ∧ s.readStored (overSector n) = .uncorrectable) := by
  by_cases hf : s.flips = []
  · simp [State.reservedOf, State.readStored, FMap.find, hf]
  · cases hi : (s.storedSector n).incompressible <;> simp [State.reservedOf, hf, hi]

theorem State.readSector_eq_corrected (s : State) (n : Nat) : s.readSector n = .corrected ↔
    sectorPart n ∉ s.boot.links ∧ (¬ ∃ r ∈ s.reservedOf n, s.readStored r = .uncorrectable) ∧ s.readStored n = .corrected := by
  unfold State.readSector
  split
  case isTrue hlink => simp_all
  case isFalse hlink =>
    split
    case isTrue hlost => simp_all
    case isFalse hlost => simp_all

theorem State.readStored_of_patrolFinds {s : State} {n : Nat} (h : s.patrolFinds n = .corrected) : s.readStored n = .corrected := by
  unfold State.patrolFinds at h
  split at h
  · exact ((s.readSector_eq_corrected n).mp h).2.2
  · exact h

/-- A corrected sector was no obstacle to reading another one, so mending it changes nothing that the patrol still has to find. -/
theorem State.patrolFinds_mend {s : State} {x : Nat} (p : Nat) {n : Nat} (hx : s.readStored x = .corrected) (hn : n ≠ x) :
    (s.mend p x).patrolFinds n = .corrected ↔ s.patrolFinds n = .corrected := by
  have hbad (r : Nat) : (s.mend p x).readStored r = .uncorrectable ↔ s.readStored r = .uncorrectable := by
    rw [State.readStored_mend]
    by_cases hr : r = x
    · simp [hr, hx]
    · simp [hr]
  have hown : (s.mend p x).readStored n = s.readStored n := by rw [State.readStored_mend, if_neg hn]
  have hboot : (s.mend p x).boot = s.boot := rfl
  have hdata : (s.mend p x).storedSector n = s.storedSector n := rfl
  have hlost : (∃ r ∈ (s.mend p x).reservedOf n, (s.mend p x).readStored r = .uncorrectable) ↔
      ∃ r ∈ s.reservedOf n, s.readStored r = .uncorrectable := by
    rw [State.lost_reservedOf_iff, State.lost_reservedOf_iff, hbad, hbad, hdata]
  unfold State.patrolFinds
  split
  · rw [State.readSector_eq_corrected, State.readSector_eq_corrected, hlost, hboot, hown]
  · rw [hown]

/-- One pass mends, of the sectors that it visits, those of its partition that the code corrects at its start. -/
theorem State.find_flips_patrol (p : Nat) (l : List Nat) (s : State) (n : Nat) :
    (l.foldl (State.patrolAt p) s).flips.find n =
      if n ∈ l ∧ sectorPart n = p ∧ s.patrolFinds n = .corrected then none else s.flips.find n := by
  induction l generalizing s with
  | nil => simp
  | cons x r ih =>
    rw [List.foldl_cons, ih]
    by_cases hx : sectorPart x = p ∧ s.patrolFinds x = .corrected
    · have hfind : (s.mend p x).flips.find n = if n = x then none else s.flips.find n := FMap.find_erase s.flips x n
      rw [State.patrolAt_of_corrected hx, hfind]
      by_cases hn : n = x
      · subst hn; simp [hx]
      · simp [hn, State.patrolFinds_mend p (State.readStored_of_patrolFinds hx.2) hn]
    · rw [State.patrolAt_of_not hx]
      by_cases hn : n = x
      · subst hn; simp [hx]
      · simp [hn]

/-- What does not change in any step of a fold does not change in the fold. -/
theorem foldl_keeps {α β γ : Type} (view : β → γ) (f : β → α → β) (h : ∀ b a, view (f b a) = view b) (l : List α) (b : β) :
    view (l.foldl f b) = view b := by
  induction l generalizing b with
  | nil => rfl
  | cons a r ih => rw [List.foldl_cons, ih, h]

/-- The data that the modules and the homes hold. -/
def State.contents (s : State) : Memory × FMap (BitVec 16) × List Nat × FMap Line := (s.dram, s.tags, s.poisoned, s.lines)

theorem State.contents_patrolAt (p : Nat) (s : State) (n : Nat) : (State.patrolAt p s n).contents = s.contents := by
  unfold State.patrolAt
  split <;> rfl

theorem exec_patrol_paused {s : State} (p : Nat) (h : s.power ≠ .c0) : exec (.patrol p) s = .next s := by
  rw [exec_patrol, if_pos h]

theorem exec_patrol_c0 {s : State} (p : Nat) (h : s.power = .c0) : ∃ t, exec (.patrol p) s = .next t ∧ t.contents = s.contents ∧
    ∀ n, t.flips.find n = if sectorPart n = p ∧ s.patrolFinds n = .corrected then none else s.flips.find n := by
  refine ⟨s.flips.keys.foldl (State.patrolAt p) s, by simp [exec_patrol, h], ?_, fun n => ?_⟩
  · exact foldl_keeps State.contents _ (State.contents_patrolAt p) _ s
  · rw [State.find_flips_patrol]
    by_cases hn : n ∈ s.flips.keys
    · simp [hn]
    · simp [FMap.find_eq_none_of_not_mem_keys hn]

/-- Settles O33: each register's write by its own lemma, the patrol by its pass over the sectors with flipped bits. -/
theorem managementRegisterWritesComplete : Obligations.ManagementRegisterWritesComplete := by
  refine ⟨⟨?policy, fun _ _ _ _ => rfl, ?lfsr, ?satf⟩, fun _ _ => rfl, fun _ _ => rfl, fun _ _ => rfl, ?paused, ?patrol,
    ?beyond, ?migdrop, ?orphan, ?ecc⟩
  case policy =>
    intro s c lid v
    rw [exec_selPolicyWrite, Core.writePolicy_eq]
  case lfsr => exact fun s c x v h => exec_lfsrWrite_of_bound v h
  case satf =>
    intro s c w v q h
    rw [exec_accStatWrite_of_crew v h]
    rfl
  case paused => exact fun s p h => exec_patrol_paused p h
  case patrol =>
    intro s p h
    obtain ⟨t, ht, hsame, hflips⟩ := exec_patrol_c0 p h
    simp only [State.contents, Prod.mk.injEq] at hsame
    obtain ⟨hdram, htags, hpoisoned, hlines⟩ := hsame
    exact ⟨t, ht, hdram, htags, hpoisoned, hlines, hflips⟩
  case beyond => exact fun s p h v w => ⟨onPart_of_le s _ h, onPart_of_le s _ h, onPart_of_le s _ h⟩
  case migdrop => exact fun s p v h => ⟨_, onPart_of_lt s _ h, FMap.get_put_same .., fun n hn => FMap.get_put_other _ _ _ hn⟩
  case orphan => exact fun s p v h => ⟨_, onPart_of_lt s _ h, FMap.get_put_same .., fun n hn => FMap.get_put_other _ _ _ hn⟩
  case ecc => exact fun s p v h => ⟨_, onPart_of_lt s _ h, FMap.get_put_same .., fun n hn => FMap.get_put_other _ _ _ hn⟩

end Sys2Proof.Machine
end

section
/-!
SUPPORT. Bring-up, the management complexes and power states (spec/25_containment.md R454 to R456, spec/26_host_link.md R475, R476, R479,
R480): one lemma for each stage of bring-up, and what a takeover leaves unchanged.
-/
namespace Sys2Proof.Machine

/-! ## Bring-up, stage by stage (R475, R476, R479) -/

theorem exec_bringUp (ok : Bool) (s : State) : exec (.bringUp ok) s = execBringUp ok s := rfl

theorem exec_bringUp_powered_fails {s : State} (h : s.boot.phase = .powered) : exec (.bringUp false) s = .next (s.recover true) := by
  simp [exec_bringUp, execBringUp, h]

theorem exec_bringUp_agreed {s : State} {x : Bool × Nat} (h : s.boot.phase = .powered) (hx : s.boot.agreed = some x) :
    exec (.bringUp true) s = .next { s with boot := { s.boot with phase := .verified, bootSlot := x.1, image := x.2 } } := by
  simp [exec_bringUp, execBringUp, h, hx]

theorem exec_bringUp_disagreed {s : State} (h : s.boot.phase = .powered) (hx : s.boot.agreed = none) :
    exec (.bringUp true) s = .next (s.verifyAgain false) := by
  simp [exec_bringUp, execBringUp, h, hx]

theorem exec_bringUp_verified {s : State} (ok : Bool) (h : s.boot.phase = .verified) :
    exec (.bringUp ok) s = .next (if ok then s.startFirmware else s.missFirmware) := by
  simp [exec_bringUp, execBringUp, h]

theorem exec_bringUp_firmware {s : State} (ok : Bool) (h : s.boot.phase = .firmware) :
    exec (.bringUp ok) s = .next (s.trainMemory ok) := by
  simp [exec_bringUp, execBringUp, h]

theorem exec_bringUp_memory {s : State} (ok : Bool) (h : s.boot.phase = .memory) : exec (.bringUp ok) s = .next (s.linkUp ok) := by
  simp [exec_bringUp, execBringUp, h]

theorem exec_bringUp_links {s : State} (ok : Bool) (h : s.boot.phase = .links) : exec (.bringUp ok) s = .next
    (if ok then { s with boot := { s.boot with phase := .running }, idleSince := s.cycle } else s.recover false) := by
  simp [exec_bringUp, execBringUp, h]

theorem State.verifyAgain_of_retried {s : State} (dead : Bool) (h : s.boot.retried = true) : s.verifyAgain dead = s.recover dead := by
  simp [State.verifyAgain, h]

theorem State.verifyAgain_of_first {s : State} (dead : Bool) (h : s.boot.retried = false) :
    s.verifyAgain dead = { s with boot := { s.boot with retried := true, since := s.cycle } } := by
  simp [State.verifyAgain, h]

/-- Each die's counter is the raised one or the one before. -/
theorem State.missFirmware_fuses (s : State) :
    s.missFirmware.boot.fuse0 ∈ [s.boot.fuse0, max s.boot.fuse0 (Config.imageVersion s.boot.image)] ∧
    s.missFirmware.boot.fuse1 ∈ [s.boot.fuse1, max s.boot.fuse1 (Config.imageVersion s.boot.image)] := by
  simp only [State.missFirmware, State.recover, Bool.false_eq_true, if_false]
  constructor
  · cases (Config.fuseRaised s.freeCtr).testBit 0 <;> simp
  · cases (Config.fuseRaised s.freeCtr).testBit 1 <;> simp

/-- A link that fails is one of the 32 partitions'. -/
theorem State.trainMemory_fails_links (s : State) : ∀ n ∈ (s.trainMemory false).boot.links, n < 32 := by
  intro n hn
  exact of_decide_eq_true (List.mem_filter.mp hn).2

theorem exec_romReportTimeout_of_late {s : State} (h : s.boot.phase = .powered) (hlate : s.boot.since + 2 * 940000000 ≤ s.cycle) :
    exec .romReportTimeout s = .next (s.verifyAgain true) := by
  rw [show exec .romReportTimeout s = execRomReportTimeout s from rfl]
  simp [execRomReportTimeout, cyclesPerSecond, h, hlate]

theorem exec_imageLoad_in_recovery {s : State} {m : OhpHdr} (slot : Bool) (image : Nat) (hphase : s.boot.phase = .recovery)
    (hmute : s.boot.mute = false) (hport : m.port = 0) (hsession : m.session = 0) (hform : malformedHdr m = false) (htype : m.type = 0x10) :
    exec (.imageLoad m slot image) s = .next (({ s with
      boot := if slot then { s.boot with slot1 := some image } else { s.boot with slot0 := some image } } : State).deviceReset) := by
  rw [show exec (.imageLoad m slot image) s = execImageLoad m slot image s from rfl]
  simp [execImageLoad, hphase, hmute, hport, hsession, hform, htype]

/-! ## The management complexes (R12, R454 to R456) -/

theorem State.silent_iff (s : State) (beat : Nat) : s.silent beat = true ↔ beat + 4700000 ≤ s.cycle := by
  have h5ms : 5000 * cyclesPerUs = 4700000 := rfl
  rw [State.silent, h5ms, decide_eq_true_iff]

theorem exec_heartbeat (standby : Bool) (s : State) : exec (.heartbeat standby) s = execHeartbeat standby s := rfl

/-- A complex writes its heartbeat word while it is neither held nor stopped. -/
theorem exec_heartbeat_primary {s : State} (hm : s.managed = true) (hheld : s.mgmt.primaryHeld = false) (hhung : s.mgmt.hung0 = false) :
    exec (.heartbeat false) s = .next { s with mgmt := { s.mgmt with beat0 := s.cycle } } := by
  simp [exec_heartbeat, execHeartbeat, hm, hheld, hhung]

theorem exec_heartbeat_standby {s : State} (hm : s.managed = true) (hheld : s.mgmt.standbyHeld = false) (hhung : s.mgmt.hung1 = false) :
    exec (.heartbeat true) s = .next { s with mgmt := { s.mgmt with beat1 := s.cycle } } := by
  simp [exec_heartbeat, execHeartbeat, hm, hheld, hhung]

/-- What a takeover does not touch: who is in control, once that is set, the modules and the homes' lines. -/
structure SameBeneath (s t : State) : Prop where
  mgmt : t.mgmt = s.mgmt
  dram : t.dram = s.dram
  lines : t.lines = s.lines

theorem SameBeneath.refl (s : State) : SameBeneath s s := ⟨rfl, rfl, rfl⟩

theorem SameBeneath.trans {s t u : State} (h : SameBeneath s t) (h' : SameBeneath t u) : SameBeneath s u :=
  ⟨h'.mgmt.trans h.mgmt, h'.dram.trans h.dram, h'.lines.trans h.lines⟩

theorem SameBeneath.foldl {α : Type} {f : State → α → State} (h : ∀ s a, SameBeneath s (f s a)) (l : List α) (s : State) :
    SameBeneath s (l.foldl f s) := by
  induction l generalizing s with
  | nil => exact .refl s
  | cons a r ih => exact (h s a).trans (ih (f s a))

theorem SameBeneath.post (s : State) (n : Nat) (f : Nat → OutMsg) : SameBeneath s (s.post n f) := ⟨rfl, rfl, rfl⟩

theorem SameBeneath.report (s : State) (r : FaultRecord) : SameBeneath s (s.report r) := by
  unfold State.report
  exact .post s _ _

theorem SameBeneath.updLaunch (s : State) (lid : Nat) (f : Launch → Launch) : SameBeneath s (s.updLaunch lid f) := ⟨rfl, rfl, rfl⟩

theorem SameBeneath.freeBinds (s : State) (lid gang : Nat) (place : List PlaceReq) : SameBeneath s (s.freeBinds lid gang place) := by
  refine .foldl (fun t p => ?_) place s
  dsimp only
  split <;> exact ⟨rfl, rfl, rfl⟩

theorem SameBeneath.abandon (s : State) (lid : Nat) (l : Launch) : SameBeneath s (s.abandon lid l) := by
  unfold State.abandon
  refine .trans (.foldl (fun t g => ?_) _ s) (.updLaunch _ lid _)
  exact .freeBinds t lid g.1 g.2.place

theorem SameBeneath.killAgain (s : State) (lid gang : Nat) (g : Gang) : SameBeneath s (s.killAgain lid gang g) := by
  unfold State.killAgain
  split <;> exact ⟨rfl, rfl, rfl⟩

theorem SameBeneath.reportAgain (s : State) (r : FaultRecord) : SameBeneath s (s.reportAgain r) := by
  unfold State.reportAgain
  dsimp only
  split
  · exact .report s r
  · exact .refl s

theorem SameBeneath.takeOver (s : State) (m : Mirror) : SameBeneath s (s.takeOver m) := by
  unfold State.takeOver
  dsimp only
  refine .trans ?_ (.foldl (fun t q => .post t q.1 _) m.sessions _)
  refine .trans ?_ (.foldl .reportAgain m.faults _)
  refine .trans ?_ (.foldl (fun t e => .killAgain t e.1 e.2.1 e.2.2) m.kills _)
  refine .foldl (fun t e => ?_) m.placements s
  exact .abandon t e.1 e.2

theorem exec_takeover_of_silent {s : State} (hm : s.managed = true) (hprimary : s.mgmt.standby = false) (hheld : s.mgmt.standbyHeld = false)
    (hbeat : s.mgmt.beat0 + 4700000 ≤ s.cycle) : exec .takeover s =
      .next (State.takeOver { s with mgmt := { s.mgmt with primaryHeld := true, standby := true } } s.mirror) := by
  rw [show exec .takeover s = execTakeover s from rfl]
  simp [execTakeover, hm, hprimary, hheld, (s.silent_iff _).mpr hbeat]

theorem exec_standbyHeartbeatLoss_of_silent {s : State} (hm : s.managed = true) (hprimary : s.mgmt.standby = false)
    (hheld : s.mgmt.standbyHeld = false) (hbeat : s.mgmt.beat1 + 4700000 ≤ s.cycle) : exec .standbyHeartbeatLoss s =
      .next (({ s with mgmt := { s.mgmt with standbyHeld := true } } : State).post 0 fun n => .machineCheck none n .standbyLost 0 0) := by
  rw [show exec .standbyHeartbeatLoss s = execStandbyHeartbeatLoss s from rfl]
  simp [execStandbyHeartbeatLoss, hm, hprimary, hheld, (s.silent_iff _).mpr hbeat]

theorem exec_deviceReset_of_silent {s : State} (hm : s.managed = true) (hlast : s.mgmt.standby = true ∨ s.mgmt.standbyHeld = true)
    (hbeat : (if s.mgmt.standby then s.mgmt.beat1 else s.mgmt.beat0) + 4700000 ≤ s.cycle) :
    exec .deviceReset s = .next s.deviceReset := by
  rw [show exec .deviceReset s = execDeviceReset s from rfl]
  simp [execDeviceReset, hm, hlast, (s.silent_iff _).mpr hbeat]

theorem exec_powerStateEntry_of_idle {s : State} (hphase : s.boot.phase = .running) (hidle : s.idle = true) (hports : s.quietPorts = true)
    (hsince : s.idleSince + 94000 ≤ s.cycle) : exec .powerStateEntry s = .next { s with power := deepest s.tolerance } := by
  rw [show exec .powerStateEntry s = execPowerStateEntry s from rfl]
  simp [execPowerStateEntry, cyclesPerUs, hphase, hidle, hports, hsince]

/-- Settles O44: bring-up by its stages, the management complexes and power entry by the guard of each step. -/
theorem bringUpAndManagementComplete : Obligations.BringUpAndManagementComplete := by
  refine ⟨⟨?agreed, ?disagreed, ?dead, ?firmware, ?noFirmware, ?memory, ?lostLinks, ?ports, ?service, ?late, ?image⟩,
    ?primary, ?standby, ?takeover, ?loss, ?reset, ?power⟩
  case agreed => exact fun s x h hx => exec_bringUp_agreed h hx
  case disagreed =>
    intro s h hx
    rw [exec_bringUp_disagreed h hx]
    cases hr : s.boot.retried with
    | false => rw [State.verifyAgain_of_first false hr]; simp
    | true => rw [State.verifyAgain_of_retried false hr]; rfl
  case dead => exact fun s h => exec_bringUp_powered_fails h
  case firmware => exact fun s h => exec_bringUp_verified true h
  case noFirmware => exact fun s h => ⟨_, exec_bringUp_verified false h, rfl, s.missFirmware_fuses⟩
  case memory => exact fun s h => exec_bringUp_firmware true h
  case lostLinks => exact fun s h => ⟨_, exec_bringUp_firmware false h, rfl, rfl, s.trainMemory_fails_links⟩
  case ports =>
    intro s b h
    refine ⟨_, exec_bringUp_memory b h, ?_⟩
    cases b with
    | false => exact ⟨rfl, rfl, nofun⟩
    | true => exact ⟨rfl, rfl, fun _ => rfl⟩
  case service => exact fun s h => ⟨exec_bringUp_links true h, exec_bringUp_links false h⟩
  case late =>
    intro s h hlate
    rw [exec_romReportTimeout_of_late h hlate]
    exact ⟨fun hr => by rw [State.verifyAgain_of_first true hr], fun hr => by rw [State.verifyAgain_of_retried true hr]; rfl⟩
  case image =>
    intro m slot image s hphase hmute hport hsession hform htype
    refine ⟨_, exec_imageLoad_in_recovery slot image hphase hmute hport hsession hform htype, rfl, rfl, rfl, ?_⟩
    cases slot <;> exact ⟨rfl, rfl, rfl, rfl⟩
  case primary => exact fun s hm hheld hhung => exec_heartbeat_primary hm hheld hhung
  case standby => exact fun s hm hheld hhung => exec_heartbeat_standby hm hheld hhung
  case takeover =>
    intro s hm hprimary hheld hbeat
    refine ⟨_, exec_takeover_of_silent hm hprimary hheld hbeat, ?_⟩
    obtain ⟨hmgmt, hdram, hlines⟩ :=
      SameBeneath.takeOver { s with mgmt := { s.mgmt with primaryHeld := true, standby := true } } s.mirror
    exact ⟨hmgmt, hdram, hlines⟩
  case loss =>
    intro s hm hprimary hheld hbeat
    exact ⟨_, (s.flow 0).sent, exec_standbyHeartbeatLoss_of_silent hm hprimary hheld hbeat, rfl, rfl, rfl, rfl, rfl⟩
  case reset =>
    exact fun s hm hlast hbeat => ⟨_, exec_deviceReset_of_silent hm hlast hbeat, rfl, rfl, rfl, rfl, rfl, rfl, rfl⟩
  case power => exact fun s hphase hidle hports hsince => exec_powerStateEntry_of_idle hphase hidle hports hsince

end Sys2Proof.Machine
end
